-- ==== Sys2Proof/Word.lean ====
section
/-! DEFINITION. The word types of the part, the saturating count, and tables of a fixed number of like things. -/

namespace Sys2Proof

/-- The 16 data bits of a control word, and every payload field (R144, R187). -/
abbrev Word := BitVec 16

/-- A zone set: bit z is set for each zone z in the set (R187). -/
abbrev ZoneSet := BitVec 16

/-- Increase a 16-bit saturating counter (R161: it holds at 65,535 once it reaches 65,535). -/
def satInc (n : Nat) : Nat := min (n + 1) 65535

/-- Milliseconds to frames: 1 ms is 48 frames (Introduction 6.2). -/
def framesOfMs (ms : Nat) : Nat := ms * 48

/-- Frames to milliseconds, rounded up (R16, Introduction 6.2). -/
def msOfFrames (n : Nat) : Nat := (n + 47) / 48

/-- A fixed number of like things, held as a list of that length. -/
structure Table (n : Nat) (α : Type) where
  /-- The entries in order. -/
  cells : List α
  /-- There are exactly `n` of them. -/
  size_eq : cells.length = n
  deriving DecidableEq, Repr

/-- Read entry `i`. -/
def Table.get {n : Nat} {α : Type} (t : Table n α) (i : Fin n) : α :=
  t.cells[i.val]'(by rw [t.size_eq]; exact i.isLt)

/-- Replace entry `i`. -/
def Table.set {n : Nat} {α : Type} (t : Table n α) (i : Fin n) (a : α) : Table n α :=
  ⟨t.cells.set i.val a, by rw [List.length_set, t.size_eq]⟩

/-- Change entry `i` by a function. -/
def Table.modify {n : Nat} {α : Type} (t : Table n α) (i : Fin n) (f : α → α) : Table n α :=
  t.set i (f (t.get i))

/-- The table whose entry `i` is `f i`. -/
def Table.tabulate {n : Nat} {α : Type} (f : Fin n → α) : Table n α :=
  ⟨(List.finRange n).map f, by simp⟩

/-- Change every entry, knowing its index. -/
def Table.update {n : Nat} {α : Type} (t : Table n α) (f : Fin n → α → α) : Table n α :=
  Table.tabulate fun i => f i (t.get i)

/-- Every entry the same. -/
def Table.fill {n : Nat} {α : Type} (a : α) : Table n α :=
  ⟨List.replicate n a, by simp⟩

/-- Zone `z` belongs to the set. -/
def ZoneSet.has (m : ZoneSet) (z : Fin 16) : Bool := m.getLsbD z.val

/-- The set holding zone `z` alone. -/
def ZoneSet.single (z : Fin 16) : ZoneSet := 1#16 <<< z.val

/-- Add zone `z`. -/
def ZoneSet.add (m : ZoneSet) (z : Fin 16) : ZoneSet := m ||| ZoneSet.single z

/-- Remove zone `z`. -/
def ZoneSet.remove (m : ZoneSet) (z : Fin 16) : ZoneSet := m &&& ~~~ ZoneSet.single z

/-- The zones of a set in ascending order. -/
def ZoneSet.zones (m : ZoneSet) : List (Fin 16) := (List.finRange 16).filter (ZoneSet.has m)

/-- The set of the zones that satisfy a test. -/
def ZoneSet.ofTest (p : Fin 16 → Bool) : ZoneSet :=
  (List.finRange 16).foldl (fun m z => if p z then ZoneSet.add m z else m) 0#16

end Sys2Proof
end

