-- ==== Sys2Proof/Config.lean ====
section
/-! DEFINITION. What the manual fixes as numbers: limits, lengths and codes that several chapters share.

The manual leaves no result of a step undefined, so this file declares no free value
(INVENTORY.md, "What the manual leaves open"). -/

namespace Sys2Proof.Config

/-- A trunk frame has 2,152 bits (R185). -/
abbrev frameBits : Nat := 2152

/-- The 16-bit sync pattern 1111 0011 0101 0000 (R185). -/
def syncPattern : BitVec 16 := 0xF350#16

/-- The request queue holds at most 4 entries (R150). -/
def requestQueueLimit : Nat := 4

/-- The reply queue holds at most 4 replies (R159). -/
def replyQueueLimit : Nat := 4

/-- The notice queue holds at most 16 entries (R128). -/
def noticeQueueLimit : Nat := 16

/-- A notice message carries up to 7 entries (R134). -/
def noticesPerMessage : Nat := 7

/-- A suspended stack holds at most 4 entries (R34). -/
def stackLimit : Nat := 4

/-- A payload has at most 28 words (R144). -/
def payloadLimit : Nat := 28

/-- The presence run makes its transition at 48 (R87). -/
def presenceLimit : Nat := 48

/-- The key run makes its transition at 96 (R87). -/
def keyLimit : Nat := 96

/-- The release run makes its transition at 96 (R87). -/
def releaseLimit : Nat := 96

/-- The absence run makes its transition at 2,400 (R87). -/
def absenceLimit : Nat := 2400

/-- The attenuation called MUTE, which gives an output of zero (Introduction 6.3). -/
def mute : Nat := 127

/-- The kind of a notice message (R189). -/
def noticeKind : BitVec 8 := 128#8

/-- The broadcast address (Introduction 6.5). -/
def broadcastAddress : BitVec 6 := 63#6

/-- The NONE code of a source, slot, class or pattern field (Table 10-5). -/
def none8 : Word := 255#16

/-- The code of CHIME as a lane's current source (Table 10-5). -/
def chimeCode : Word := 254#16

/-- The NONE code of a call reference, request tag or copy progress (Table 10-5). -/
def none16 : Word := 65535#16

/-- The straps that `State.reset` samples: 10, the address the manual's examples use
(DESIGN CHOICE, unsafe: log 1). -/
def resetStraps : BitVec 6 := 10#6

end Sys2Proof.Config
end

