-- ==== Sys2Proof/Syntax.lean ====
section
/-! DEFINITION. The commands: one constructor per row of spec/opcode_table.json, and the names their operands use.

A row of the table is a step of the part, whole and indivisible (95_what_each_step_holds.md).
Its operands are what the world brings with the step, or which of several like events is taken (log 2). -/

namespace Sys2Proof

/-- A zone, 0-15 (Introduction 6.4). -/
abbrev Zone := Fin 16

/-- A source, 0-51: trunk sources 0-47, tone generators 48-51 (Introduction 6.4). -/
abbrev Source := Fin 52

/-- A trunk source, 0-47. -/
abbrev Trunk := Fin 48

/-- A tone generator, 0-3. -/
abbrev Tone := Fin 4

/-- A call reference: a record index and a generation (R2). -/
structure CallRef where
  /-- The record's index, 0-31. -/
  index : Fin 32
  /-- The generation, 0-15. -/
  gen : Fin 16
  deriving DecidableEq, Repr

/-- The two lanes of a zone mixer (R68). -/
inductive LaneId where
  | foreground
  | background
  deriving DecidableEq, Repr

/-- What may be due at a frame boundary: a stage of the boundary's own work, or an event that the
boundary made due and that is taken as a step of its own (log 4). -/
inductive Task where
  /-- Stage: what an entry to LOCKED tells the notice block (R174). -/
  | linkLocked
  /-- Stage: what an entry to SEARCH does to other blocks (R176). -/
  | linkSearch
  /-- Stage: one of the first 83 copy steps (R117). -/
  | copyStep
  /-- Stage: every trunk source takes its observation (R88). -/
  | observe
  /-- Stage: every lane takes one ramp step (R72). -/
  | ramps
  /-- Stage: the four control positions are taken in and filled (R145, R156). -/
  | control
  /-- Stage: samples are formed and the output frame is built (R80, R179, R180). -/
  | build
  /-- Event: case A2 of Table 4-2, with the KEYED flag observed. -/
  | presence (s : Trunk) (keyed : Bool)
  /-- Event: a QUIET-to-KEYED edge (R90). -/
  | keyUp (s : Trunk)
  /-- Event: a KEYED-to-QUIET edge (R90). -/
  | keyDown (s : Trunk)
  /-- Event: a source has entered ABSENT (R90). -/
  | loss (s : Source)
  /-- Event: a wait deadline runs out (R17). -/
  | waitEnd (r : CallRef)
  /-- Event: a hold deadline runs out (R18). -/
  | holdEnd (r : CallRef)
  /-- Event: a duration deadline runs out (R19). -/
  | durationEnd (r : CallRef)
  /-- Event: a zone's lead-in runs out (R54). -/
  | leadInEnd (z : Zone)
  /-- Event: the retry timer runs out (R138). -/
  | retryEnd
  /-- Event: the 84th copy step (R117). -/
  | copyEnd
  /-- Event: a fading lane has reached 127 (R72). -/
  | fadeEnd (z : Zone) (l : LaneId)
  /-- Event: a chime player's step runs out (R76). -/
  | chimeEnd (z : Zone)
  /-- Event: a tone generator's step runs out (R93). -/
  | toneEnd (g : Tone)
  /-- Event: a pending plan switch is taken (R121). -/
  | switchTake
  deriving DecidableEq, Repr

/-- One entry of a boundary's order (log 5): take this task now, if it is due; take the plan switch now, with the
losses of these tone generators taken before the switch's zone work (R97); or let the request processor take the
oldest request now, if it can (R73, R95, R151, R166). -/
inductive Move where
  | perform (t : Task)
  | switchAfterLosses (lost : List Tone)
  | request
  deriving DecidableEq, Repr

/-- The commands. -/
inductive Instr where
  /-- HARDWARE_RESET (R190): the reset ends and the straps are sampled. -/
  | hardwareReset (straps : BitVec 6)
  /-- SYNC_FOUND (R170): in SEARCH, the 16 line bits that begin at a place. -/
  | syncFound (place : Nat) (window : BitVec 16)
  /-- FRAME_JUDGED (R171): the bits of the aligned frame, first sent bit most significant, and the
  order of the boundary's work where the manual leaves it open. -/
  | frameJudged (bits : BitVec 2152) (order : List Move)
  /-- FREE_RUN_BOUNDARY (R173), with the order of its work. -/
  | freeRunBoundary (order : List Move)
  /-- PRESENCE_CONFIRMED (R89, case A2). -/
  | presenceConfirmed (s : Trunk)
  /-- QUIET_TO_KEYED_EDGE (R10). -/
  | quietToKeyedEdge (s : Trunk)
  /-- KEYED_TO_QUIET_EDGE (R11). -/
  | keyedToQuietEdge (s : Trunk)
  /-- SOURCE_LOSS (R21). -/
  | sourceLoss (s : Source)
  /-- WAIT_EXPIRY (R17). -/
  | waitExpiry (r : CallRef)
  /-- HOLD_EXPIRY (R18). -/
  | holdExpiry (r : CallRef)
  /-- DURATION_EXPIRY (R19). -/
  | durationExpiry (r : CallRef)
  /-- LEAD_IN_EXPIRY (R54). -/
  | leadInExpiry (z : Zone)
  /-- RETRY_EXPIRY (R138). -/
  | retryExpiry
  /-- COPY_DONE (R117). -/
  | copyDone
  /-- FADE_COMPLETION (R72). -/
  | fadeCompletion (z : Zone) (l : LaneId)
  /-- CHIME_STEP_END (R76). -/
  | chimeStepEnd (z : Zone)
  /-- TONE_STEP_END (R93). -/
  | toneStepEnd (g : Tone)
  /-- SWITCH_TAKEN (R121), with the generators whose loss is taken before the switch's zone work. -/
  | switchTaken (lossesFirst : List Tone)
  /-- REPLY_BEGIN (R157). -/
  | replyBegin
  /-- NOTICE_MESSAGE (R134). -/
  | noticeMessage
  /-- CALL_OPEN (R8). -/
  | callOpen
  /-- CALL_RELEASE (R24). -/
  | callRelease
  /-- CALL_RETARGET (R26). -/
  | callRetarget
  /-- CLEAR_CALLS (R27). -/
  | clearCalls
  /-- CALL_READ (R28). -/
  | callRead
  /-- ZONE_RESTRICT (R63). -/
  | zoneRestrict
  /-- ZONE_PROBE (R64). -/
  | zoneProbe
  /-- ZONE_READ (R65). -/
  | zoneRead
  /-- SOURCE_READ (R95). -/
  | sourceRead
  /-- PLAN_WRITE (R110). -/
  | planWrite
  /-- PLAN_READ (R111). -/
  | planRead
  /-- PLAN_ERASE (R112). -/
  | planErase
  /-- PLAN_SEAL (R113). -/
  | planSeal
  /-- PLAN_UNSEAL (R115). -/
  | planUnseal
  /-- PLAN_COPY (R116). -/
  | planCopy
  /-- PLAN_SWITCH (R118). -/
  | planSwitch
  /-- PLAN_STATUS (R123). -/
  | planStatus
  /-- NOTICE_ACK (R136). -/
  | noticeAck
  /-- NOTICE_CONFIG (R140). -/
  | noticeConfig
  /-- ECHO (R160). -/
  | echo
  /-- COUNTERS_READ (R161). -/
  | countersRead
  /-- NODE_RESET (R162). -/
  | nodeReset
  /-- UNKNOWN_KIND_REQUEST (R153). -/
  | unknownKindRequest
  /-- RESET_ASSERTED (R190). -/
  | resetAsserted
  deriving DecidableEq, Repr

end Sys2Proof
end

