-- ==== Sys2Proof/WellFormed.lean ====
section
/-! DEFINITION. Which commands are well formed.

The operands' types already bound every register number; what is left to check is that a boundary's
order names no task twice and that a switch names no generator twice. A command that is not well
formed still runs (a task that is no longer due is passed over), so no meaning rests on this check. -/

namespace Sys2Proof

/-- The order of a boundary names no task twice and takes the switch at most once. -/
def Move.orderWf (order : List Move) : Bool :=
  decide (order.filter fun m => decide (m ≠ .request)).Nodup
    && decide ((order.filter fun m =>
        match m with
        | .switchAfterLosses _ => true
        | .perform .switchTake => true
        | .perform _ => false
        | .request => false).length ≤ 1)
    && order.all fun m =>
        match m with
        | .switchAfterLosses lost => decide lost.Nodup
        | .perform _ => true
        | .request => true

/-- The command is well formed. -/
def Instr.wf : Instr → Bool
  | .frameJudged _ order => Move.orderWf order
  | .freeRunBoundary order => Move.orderWf order
  | .switchTaken lossesFirst => decide lossesFirst.Nodup
  | .hardwareReset _ => true
  | .syncFound _ _ => true
  | .presenceConfirmed _ => true
  | .quietToKeyedEdge _ => true
  | .keyedToQuietEdge _ => true
  | .sourceLoss _ => true
  | .waitExpiry _ => true
  | .holdExpiry _ => true
  | .durationExpiry _ => true
  | .leadInExpiry _ => true
  | .retryExpiry => true
  | .copyDone => true
  | .fadeCompletion _ _ => true
  | .chimeStepEnd _ => true
  | .toneStepEnd _ => true
  | .replyBegin => true
  | .noticeMessage => true
  | .callOpen => true
  | .callRelease => true
  | .callRetarget => true
  | .clearCalls => true
  | .callRead => true
  | .zoneRestrict => true
  | .zoneProbe => true
  | .zoneRead => true
  | .sourceRead => true
  | .planWrite => true
  | .planRead => true
  | .planErase => true
  | .planSeal => true
  | .planUnseal => true
  | .planCopy => true
  | .planSwitch => true
  | .planStatus => true
  | .noticeAck => true
  | .noticeConfig => true
  | .echo => true
  | .countersRead => true
  | .nodeReset => true
  | .unknownKindRequest => true
  | .resetAsserted => true

end Sys2Proof
end

