-- ==== Sys2Proof/Machine/Blocks.lean ====
section
/-! DEFINITION. The state each block of the part holds (00_scope.md, Table 0-1), as plain data. -/

namespace Sys2Proof.Machine

/-! ### Plans (Chapter 5) -/

/-- What happens to a displaced live call (R3, R45). -/
inductive Preempt where
  | resume
  | drop
  deriving DecidableEq, Repr

/-- Whether a call keeps the zones it has not been given at its speak moment (R3, R14). -/
inductive Late where
  | join
  | skip
  deriving DecidableEq, Repr

/-- What a call does to the programme (R70). -/
inductive Duck where
  | duck
  | mute
  | keep
  deriving DecidableEq, Repr

/-- The order of equal waiting contenders (R38, key 4). -/
inductive OrderMode where
  | fifo
  | rotate
  deriving DecidableEq, Repr

/-- The nine fields of a class definition besides its number (R3, Table 5-1). -/
structure ClassDef where
  priority : Nat
  preempt : Preempt
  late : Late
  chime : Option (Fin 8)
  chimeMs : Nat
  duck : Duck
  waitMs : Nat
  durationMs : Nat
  holdMs : Nat
  deriving DecidableEq, Repr

/-- A zone entry (R103, Table 5-2). -/
structure ZoneEntry where
  slot : Option (Fin 64)
  programme : Option Source
  programmeAtt : Nat
  duckAtt : Nat
  foregroundAtt : Nat
  floor : Nat
  order : OrderMode
  ramp : Nat
  deriving DecidableEq, Repr

/-- The source entry of a trunk source (R104). -/
structure TrunkEntry where
  slot : Option (Fin 64)
  keyClass : Option (Fin 8)
  keyTargets : ZoneSet
  deriving DecidableEq, Repr

/-- A step of a tone pattern entry: frequency in Hz (0 is silence) and duration in ms (R105). -/
structure PatternStep where
  hz : Nat
  ms : Nat
  deriving DecidableEq, Repr

/-- A defined tone pattern: its 1 to 4 steps, the step count being their number, and the repeat flag (R105). -/
structure Pattern where
  steps : List PatternStep
  repeats : Bool
  deriving DecidableEq, Repr

/-- One plan: 84 entries in four tables (R101). A class or pattern whose defined flag is clear is
`none`, since every other field is then blank (R102, R106). The source table is held as its 48
trunk sources and its 4 tone generators, whose entries have different fields (R104). -/
structure Plan where
  classes : Table 8 (Option ClassDef)
  zones : Table 16 ZoneEntry
  trunks : Table 48 TrunkEntry
  tones : Table 4 (Option (Fin 8))
  patterns : Table 8 (Option Pattern)
  deriving DecidableEq, Repr

/-- The bank states (R108). -/
inductive BankState where
  | empty
  | opened
  | copying
  | sealed
  deriving DecidableEq, Repr

/-- A plan bank (R108); `BankState.opened` is OPEN. -/
structure Bank where
  state : BankState
  plan : Plan
  deriving DecidableEq, Repr

/-- The number of a bank. -/
inductive BankNo where
  | b0
  | b1
  deriving DecidableEq, Repr

/-- A pending switch record, with its switch point if it has one (R108). -/
structure PendingSwitch where
  point : Option (BitVec 16)
  deriving DecidableEq, Repr

/-- The plan store (R108). -/
structure PlanStore where
  bank0 : Bank
  bank1 : Bank
  live : BankNo
  pending : Option PendingSwitch
  copied : Option Nat
  deriving DecidableEq, Repr

/-! ### Calls (Chapter 1) -/

/-- The controllers that may send requests (Introduction 6.5). -/
inductive Controller where
  | c60
  | c61
  | c62
  deriving DecidableEq, Repr

/-- The origin of a call, with the request tag exactly when it is a controller (Table 1-1). -/
inductive Origin where
  | key
  | controller (c : Controller) (tag : BitVec 8)
  deriving DecidableEq, Repr

/-- The fields of an open call record (Table 1-1). -/
structure Call where
  origin : Origin
  cls : Fin 8
  captured : ClassDef
  source : Source
  target : ZoneSet
  granted : ZoneSet
  suspended : ZoneSet
  speak : Bool
  everGranted : Bool
  wait : Option Nat
  duration : Option Nat
  hold : Option Nat
  deriving DecidableEq, Repr

/-- A call record: a generation, and the call when the record is open (R1). -/
structure CallRecord where
  gen : Fin 16
  call : Option Call
  deriving DecidableEq, Repr

/-- The call table (R1, R4, R30). -/
structure CallTable where
  records : Table 32 CallRecord
  admission : List CallRef
  admitted : Nat
  keyRefused : Nat
  deriving DecidableEq, Repr

/-- The state of an open call (R5); the state of a record that is not open is FREE. -/
inductive CallState where
  | pending
  | chime
  | live
  | suspended
  deriving DecidableEq, Repr

/-- The causes for which a call ends (Table 1-4). -/
inductive EndCause where
  | released
  | cleared
  | unkeyed
  | duration
  | waitExpired
  | sourceLost
  | noZones
  deriving DecidableEq, Repr

/-- The reasons of a zone loss (R15, R14). -/
inductive LossReason where
  | preempted
  | floor
  | depth
  | late
  | plan
  deriving DecidableEq, Repr

/-! ### Zones (Chapter 2) -/

/-- The phase of a zone (R33). -/
inductive Phase where
  | idle
  | leadIn
  | onAir
  deriving DecidableEq, Repr

/-- Phase, live call and lead-in remaining together: the live call is present exactly outside IDLE
and the count exactly in LEAD_IN (R33). -/
inductive ZoneState where
  | idle
  | leadIn (call : CallRef) (remaining : Nat)
  | onAir (call : CallRef)
  deriving DecidableEq, Repr

/-- The resume phase of a stack entry (R34). -/
inductive ResumePhase where
  | leadIn
  | onAir
  deriving DecidableEq, Repr

/-- An entry of a suspended stack (R34). -/
structure StackEntry where
  call : CallRef
  resume : ResumePhase
  deriving DecidableEq, Repr

/-- A zone record (R33, Table 2-1); the stack is held top first. -/
structure ZoneRecord where
  state : ZoneState
  stack : List StackEntry
  restriction : Nat
  lastServed : Option Source
  deriving DecidableEq, Repr

/-! ### Zone mixers (Chapter 3) -/

/-- What a lane carries (R68). -/
inductive LaneSource where
  | none
  | chime
  | source (s : Source)
  deriving DecidableEq, Repr

/-- A lane (R68). -/
structure Lane where
  current : LaneSource
  att : Nat
  target : Nat
  pending : Option LaneSource
  deriving DecidableEq, Repr

/-- A step of a copied or held pattern: frequency in Hz and duration in frames (R75, R92). -/
structure ToneStep where
  hz : Nat
  frames : Nat
  deriving DecidableEq, Repr

/-- The step that is playing: its number from 1, and the frames that remain of it (R75, R92). -/
structure StepPos where
  number : Nat
  remaining : Nat
  deriving DecidableEq, Repr

/-- A chime player (R75). The phase counts 1/48,000 of a cycle, 0 to 47,999 (R77). -/
structure ChimePlayer where
  pattern : Option (List ToneStep)
  pos : Option StepPos
  phase : Nat
  deriving DecidableEq, Repr

/-- A zone mixer (R68). -/
structure Mixer where
  foreground : Lane
  background : Lane
  player : ChimePlayer
  deriving DecidableEq, Repr

/-! ### Sources (Chapter 4) -/

/-- The state of a trunk source (R87). -/
inductive SourceState where
  | absent
  | quiet
  | keyed
  deriving DecidableEq, Repr

/-- A trunk source record (R87, Table 4-1). -/
structure TrunkRecord where
  state : SourceState
  presence : Nat
  key : Nat
  release : Nat
  absence : Nat
  flagPresent : Bool
  flagKeyed : Bool
  deriving DecidableEq, Repr

/-- What a QUIET tone generator holds (R92); the position is absent when it is finished. -/
structure TonePlaying where
  number : Fin 8
  steps : List ToneStep
  repeats : Bool
  pos : Option StepPos
  deriving DecidableEq, Repr

/-- A tone generator record (R92): QUIET with a pattern, or ABSENT (`none`). -/
structure ToneGen where
  playing : Option TonePlaying
  phase : Nat
  deriving DecidableEq, Repr

/-- The source block (R87, R92). -/
structure SourceBlock where
  trunks : Table 48 TrunkRecord
  tones : Table 4 ToneGen
  deriving DecidableEq, Repr

/-! ### Notices (Chapter 6) -/

/-- What a notice reports: kind and data (R127, Table 6-1). -/
inductive Notice where
  | powerUp
  | nodeReset
  | callStatus (r : CallRef) (state : CallState) (granted : ZoneSet)
  | callEnded (r : CallRef) (cause : EndCause)
  | zoneLost (r : CallRef) (z : Zone) (reason : LossReason)
  | keyRefused (s : Source)
  | link (locked : Bool)
  | planSwitched (bank : BankNo)
  | switchAbandoned
  | copyDone (bank : BankNo)
  | overflow (lost : Nat)
  deriving DecidableEq, Repr

/-- A notice entry (R126); `sent` is its status SENT. -/
structure NoticeEntry where
  seq : BitVec 8
  notice : Notice
  sent : Bool
  deriving DecidableEq, Repr

/-- A running retry timer (R135). `held` marks a timer started by a message begun for the boundary
that comes next, whose decrement comes before the message and so does not touch it (log 7). -/
structure RetryTimer where
  remaining : Nat
  held : Bool
  deriving DecidableEq, Repr

/-- The notice block (R128, R133, R135, R140, R141). -/
structure NoticeBlock where
  enabled : Bool
  recipient : Controller
  intervalMs : Nat
  queue : List NoticeEntry
  next : BitVec 8
  lost : Nat
  timer : Option RetryTimer
  noticesLost : Nat
  retries : Nat
  deriving DecidableEq, Repr

/-! ### Messages (Chapter 7) -/

/-- The marker of a control word (R168, Table 10-3). -/
inductive Marker where
  | idle
  | first
  | more
  | last
  deriving DecidableEq, Repr

/-- A control word: marker and 16 data bits (R168). -/
structure ControlWord where
  marker : Marker
  data : Word
  deriving DecidableEq, Repr

/-- The input state of the incoming stream (R145). -/
inductive InputState where
  | between
  | forward
  | consume
  | broadcast
  | scrub
  | discard
  deriving DecidableEq, Repr

/-- An entry of the request queue (R150). -/
structure Request where
  source : Controller
  isBroadcast : Bool
  kind : BitVec 8
  tag : BitVec 8
  len : Nat
  payload : List Word
  deriving DecidableEq, Repr

/-- The reply statuses (Table 7-4); `switchPending` is PENDING. -/
inductive Status where
  | ok
  | unknownKind
  | badLength
  | badField
  | full
  | stale
  | badClass
  | badSource
  | badTarget
  | sourceBusy
  | bankLive
  | bankSealed
  | bankEmpty
  | bankBusy
  | notSealed
  | switchPending
  | noTimebase
  | late
  | checkFailed
  deriving DecidableEq, Repr

/-- A status and its result fields (R154). -/
structure Answer where
  status : Status
  results : List Word
  deriving DecidableEq, Repr

/-- A formed reply (R154). -/
structure Reply where
  dest : Controller
  kind : BitVec 8
  tag : BitVec 8
  answer : Answer
  deriving DecidableEq, Repr

/-- An entry of the duplicate-reply cache (R152). -/
structure CacheEntry where
  tag : BitVec 8
  kind : BitVec 8
  answer : Answer
  deriving DecidableEq, Repr

/-- The duplicate-reply cache: one entry for each controller (R152). -/
structure Cache where
  e60 : Option CacheEntry
  e61 : Option CacheEntry
  e62 : Option CacheEntry
  deriving DecidableEq, Repr

/-- The seven message counters (Table 7-5). -/
structure MessageCounters where
  taken : Nat
  badCheck : Nat
  framing : Nat
  unauthorized : Nat
  overflow : Nat
  duplicate : Nat
  returned : Nat
  deriving DecidableEq, Repr

/-- The message block (R145, R148, R150, R152, R156, R157, R159). `own` holds the words of an own
message in progress that are still to be sent; it is empty when none is in progress. -/
structure MessageBlock where
  input : InputState
  assembler : List Word
  transit : List ControlWord
  requests : List Request
  replies : List Reply
  cache : Cache
  counters : MessageCounters
  own : List ControlWord
  deriving DecidableEq, Repr

/-! ### The trunk link (Chapter 8) -/

/-- An audio slot: 32 bits as Table 10-2 lays them out (R168). -/
abbrev Slot := BitVec 32

/-- A trunk frame without its sync pattern (R167). -/
structure Frame where
  number : BitVec 16
  slots : Table 64 Slot
  words : Table 4 ControlWord
  deriving DecidableEq, Repr

/-- The link state with its counts: confirm count in CONFIRM, miss count in SLIP (R169). -/
inductive LinkState where
  | search
  | confirm (count : Nat)
  | locked
  | slip (missed : Nat)
  deriving DecidableEq, Repr

/-- The trunk receiver (R169). `hunt` is the place in the line from which hunting goes on (R171). -/
structure Receiver where
  link : LinkState
  alignment : Option Nat
  hunt : Nat
  frameNumber : Option (BitVec 16)
  slips : Nat
  losses : Nat
  deriving DecidableEq, Repr

/-- The trunk transmitter (R179): the next output number, the control words of the frame under
construction, and the frame being sent (`none`: the line is at its idle level, R190). `switched` is the model's own:
while a plan switch is due at a boundary whose frame is built, the frame that is sent in its place if the switch is
taken at that boundary (R97; log 12). -/
structure Transmitter where
  next : BitVec 16
  words : Table 4 ControlWord
  sending : Option Frame
  switched : Option Frame
  deriving DecidableEq, Repr

/-- The present boundary of the part: the frame handed on (R172), whether it is usable, and the ramp rate
of each zone in the plan that was live when the boundary began (R72, R83; log 11). -/
structure Boundary where
  frame : Frame
  usable : Bool
  rates : Table 16 Nat
  deriving DecidableEq, Repr

end Sys2Proof.Machine
end

