-- ==== Sys2Proof/Machine/Factory.lean ====
section
/-! DEFINITION. Blank entries, the factory default plan, and the value each block takes at hardware reset. -/

namespace Sys2Proof.Machine

/-- The blank class fields, as PLAN_READ returns them for an undefined class (R106, Table 5-3). -/
def blankClass : ClassDef :=
  { priority := 1, preempt := .resume, late := .join, chime := none, chimeMs := 0, duck := .keep,
    waitMs := 0, durationMs := 0, holdMs := 0 }

/-- The blank zone entry (Table 5-3). -/
def blankZone : ZoneEntry :=
  { slot := none, programme := none, programmeAtt := 0, duckAtt := 0, foregroundAtt := 0, floor := 0,
    order := .fifo, ramp := 1 }

/-- The blank trunk source entry (Table 5-3). -/
def blankTrunk : TrunkEntry := { slot := none, keyClass := none, keyTargets := 0#16 }

/-- The blank step of a tone pattern (Table 5-3). -/
def blankStep : PatternStep := { hz := 0, ms := 1 }

/-- The plan whose every entry is unprogrammed (R101, R106). -/
def blankPlan : Plan :=
  { classes := Table.fill none, zones := Table.fill blankZone, trunks := Table.fill blankTrunk,
    tones := Table.fill none, patterns := Table.fill none }

/-- Class 0 of the factory default plan (R107). -/
def factoryClass0 : ClassDef :=
  { priority := 4, preempt := .resume, late := .join, chime := some 1, chimeMs := 1200, duck := .duck,
    waitMs := 30000, durationMs := 0, holdMs := 500 }

/-- Class 6 of the factory default plan (R107). -/
def factoryClass6 : ClassDef :=
  { priority := 12, preempt := .resume, late := .join, chime := some 1, chimeMs := 1200, duck := .duck,
    waitMs := 0, durationMs := 0, holdMs := 0 }

/-- Class 7 of the factory default plan (R107). -/
def factoryClass7 : ClassDef :=
  { priority := 15, preempt := .resume, late := .join, chime := none, chimeMs := 0, duck := .mute,
    waitMs := 0, durationMs := 0, holdMs := 0 }

/-- Zone z of the factory default plan: output slot 48 + z (R107). -/
def factoryZone (z : Zone) : ZoneEntry :=
  { slot := some (Fin.ofNat 64 (48 + z.val)), programme := none, programmeAtt := 0, duckAtt := 24,
    foregroundAtt := 0, floor := 0, order := .fifo, ramp := 2 }

/-- Trunk source s of the factory default plan: input slot s (R107). -/
def factoryTrunk (s : Trunk) : TrunkEntry :=
  { slot := some (Fin.ofNat 64 s.val), keyClass := none, keyTargets := 0#16 }

/-- Pattern 0 of the factory default plan (R107). -/
def factoryPattern0 : Pattern := { steps := [⟨800, 500⟩, ⟨1000, 500⟩], repeats := true }

/-- Pattern 1 of the factory default plan (R107). -/
def factoryPattern1 : Pattern := { steps := [⟨1000, 300⟩, ⟨800, 300⟩, ⟨0, 300⟩], repeats := false }

/-- Pattern 2 of the factory default plan (R107). -/
def factoryPattern2 : Pattern := { steps := [⟨1000, 250⟩, ⟨0, 250⟩], repeats := true }

/-- The factory default plan (R107, Table 5-4). -/
def factoryPlan : Plan :=
  { classes := ⟨[some factoryClass0, none, none, none, none, none, some factoryClass6, some factoryClass7], rfl⟩
    zones := Table.tabulate factoryZone
    trunks := Table.tabulate factoryTrunk
    tones := ⟨[some 0, some 2, none, none], rfl⟩
    patterns := ⟨[some factoryPattern0, some factoryPattern1, some factoryPattern2, none, none, none, none, none], rfl⟩ }

/-- The plan store at hardware reset (R124). -/
def resetPlanStore : PlanStore :=
  { bank0 := ⟨.sealed, factoryPlan⟩, bank1 := ⟨.empty, blankPlan⟩, live := .b0, pending := none, copied := none }

/-- The call table at hardware reset (R31). -/
def resetCallTable : CallTable :=
  { records := Table.fill ⟨0, none⟩, admission := [], admitted := 0, keyRefused := 0 }

/-- A zone record at either reset (R66, R67). -/
def resetZone : ZoneRecord := { state := .idle, stack := [], restriction := 0, lastServed := none }

/-- A silent chime player (R84). -/
def resetPlayer : ChimePlayer := { pattern := none, pos := none, phase := 0 }

/-- A zone mixer at hardware reset (R84): the background target is the programme attenuation of the
factory default plan. -/
def resetMixer : Mixer :=
  { foreground := { current := .none, att := 127, target := 127, pending := none }
    background := { current := .none, att := 127, target := 0, pending := none }
    player := resetPlayer }

/-- A trunk source at hardware reset (R99). -/
def resetTrunk : TrunkRecord :=
  { state := .absent, presence := 0, key := 0, release := 0, absence := 0, flagPresent := false, flagKeyed := false }

/-- The steps of a pattern with their durations in frames (R75, R93). -/
def Pattern.toneSteps (p : Pattern) : List ToneStep :=
  p.steps.map fun st => ⟨st.hz, framesOfMs st.ms⟩

/-- The position at the start of a list of steps: step 1 with its full duration (R75, R93). -/
def startPos (steps : List ToneStep) : Option StepPos :=
  steps.head?.map fun st => ⟨1, st.frames⟩

/-- A tone generator that starts the pattern its plan entry names (R93), or is ABSENT with the phase
it had when the entry is NONE. An entry that names an undefined pattern, which no sealed plan has
(R114, item 7), leaves the generator ABSENT (log 21). -/
def ToneGen.start (p : Plan) (entry : Option (Fin 8)) (phase : Nat) : ToneGen :=
  match entry with
  | none => { playing := none, phase := phase }
  | some n =>
    match p.patterns.get n with
    | none => { playing := none, phase := phase }
    | some pat =>
      { playing := some { number := n, steps := pat.toneSteps, repeats := pat.repeats,
                          pos := startPos pat.toneSteps }
        phase := 0 }

/-- The source block at hardware reset (R99). -/
def resetSources : SourceBlock :=
  { trunks := Table.fill resetTrunk
    tones := Table.tabulate fun g => ToneGen.start factoryPlan (factoryPlan.tones.get g) 0 }

/-- The notice block at hardware reset (R142). -/
def resetNotices : NoticeBlock :=
  { enabled := true, recipient := .c60, intervalMs := 100
    queue := [{ seq := 0#8, notice := .powerUp, sent := false }]
    next := 1#8, lost := 0, timer := none, noticesLost := 0, retries := 0 }

/-- The seven message counters at 0. -/
def zeroCounters : MessageCounters :=
  { taken := 0, badCheck := 0, framing := 0, unauthorized := 0, overflow := 0, duplicate := 0, returned := 0 }

/-- The empty duplicate-reply cache. -/
def emptyCache : Cache := { e60 := none, e61 := none, e62 := none }

/-- The message block at hardware reset (R164). -/
def resetMessages : MessageBlock :=
  { input := .between, assembler := [], transit := [], requests := [], replies := [], cache := emptyCache,
    counters := zeroCounters, own := [] }

/-- An IDLE control word as the part writes it, with data 0 (R185). -/
def idleWord : ControlWord := { marker := .idle, data := 0#16 }

/-- The silent frame: 64 slots with every flag clear and sample 0, four IDLE words (R172). Its number
is not read. -/
def silentFrame : Frame := { number := 0#16, slots := Table.fill 0#32, words := Table.fill idleWord }

/-- The trunk receiver at hardware reset (R169). -/
def resetReceiver : Receiver :=
  { link := .search, alignment := none, hunt := 0, frameNumber := none, slips := 0, losses := 0 }

/-- The trunk transmitter at hardware reset (R184). -/
def resetTransmitter : Transmitter := { next := 0#16, words := Table.fill idleWord, sending := none, switched := none }

/-- The ramp rate of each zone in a plan (R72, R103). -/
def Plan.rates (p : Plan) : Table 16 Nat := Table.tabulate fun z => (p.zones.get z).ramp

/-- No boundary has been taken yet (log 24). -/
def resetBoundary : Boundary := { frame := silentFrame, usable := false, rates := factoryPlan.rates }

end Sys2Proof.Machine
end

