-- ==== Sys2Proof/Machine/State.lean ====
section
/-! DEFINITION. The state of the part, and the part right after a hardware reset. -/

namespace Sys2Proof.Machine

/-- The reasons for which a step could stop with a fault. There is none: the spec gives every step an
effect in every state (INVENTORY.md, Faults), so no command of this model faults. -/
inductive Fault where
  deriving DecidableEq, Repr

/-- The reasons for which a step can be refused. -/
inductive Refusal where
  /-- Raised by `exec`'s arm of a command that has no meaning yet; safe: the model stops where the
  part goes on. No arm uses it now. -/
  | notModelled (mnemonic : String)
  deriving DecidableEq, Repr

/-- The part: one field per block of Table 0-1, the queue of commands, and what is due at the present
boundary. -/
structure State where
  /-- The commands that are waiting, first in first out. -/
  pending : List Instr
  /-- A hardware reset is in force (R190). -/
  inReset : Bool
  /-- The node address sampled from the straps (R191). -/
  address : BitVec 6
  /-- Work and events of the present boundary that are not yet taken (log 4). -/
  due : List Task
  /-- The present boundary (R172, R173). -/
  now : Boundary
  /-- The call table (Chapter 1). -/
  calls : CallTable
  /-- The sixteen zone records (Chapter 2). -/
  zones : Table 16 ZoneRecord
  /-- The sixteen zone mixers (Chapter 3). -/
  mixers : Table 16 Mixer
  /-- The source block (Chapter 4). -/
  sources : SourceBlock
  /-- The plan store (Chapter 5). -/
  plans : PlanStore
  /-- The notice block (Chapter 6). -/
  notices : NoticeBlock
  /-- The message block (Chapter 7). -/
  msg : MessageBlock
  /-- The trunk receiver (Chapter 8). -/
  receiver : Receiver
  /-- The trunk transmitter (Chapter 8). -/
  out : Transmitter
  deriving DecidableEq, Repr

/-- The part at the moment a hardware reset ends with the given straps (R190), its queue empty. -/
def State.afterReset (straps : BitVec 6) : State :=
  { pending := []
    inReset := false
    address := straps
    due := []
    now := resetBoundary
    calls := resetCallTable
    zones := Table.fill resetZone
    mixers := Table.fill resetMixer
    sources := resetSources
    plans := resetPlanStore
    notices := resetNotices
    msg := resetMessages
    receiver := resetReceiver
    out := resetTransmitter }

/-- The part right after reset; the straps are `Config.resetStraps` (DESIGN CHOICE, unsafe: log 1). -/
def State.reset : State := State.afterReset Config.resetStraps

end Sys2Proof.Machine
end

