-- ==== Sys2Proof/Machine/Ops.lean ====
section
/-! DEFINITION. Named operations over the call table, the zone records, the plan store, the cache and the state. -/

namespace Sys2Proof.Machine

/-! ### References and call records -/

/-- The call a reference names: present exactly when the reference is current (R2). -/
def CallTable.call? (t : CallTable) (r : CallRef) : Option Call :=
  if (t.records.get r.index).gen = r.gen then (t.records.get r.index).call else none

/-- Change the call a current reference names; a stale reference changes nothing. -/
def CallTable.changeCall (t : CallTable) (r : CallRef) (f : Call → Call) : CallTable :=
  match t.call? r with
  | none => t
  | some c => { t with records := t.records.set r.index ⟨r.gen, some (f c)⟩ }

/-- Free the record a current reference names: its generation advances by one modulo 16, every other
field becomes absent, and the reference leaves the admission list (R22, steps 2 and 4). -/
def CallTable.free (t : CallTable) (r : CallRef) : CallTable :=
  match t.call? r with
  | none => t
  | some _ => { t with records := t.records.set r.index ⟨r.gen + 1, none⟩, admission := t.admission.erase r }

/-- The lowest-numbered FREE record (R7). -/
def CallTable.freeIndex? (t : CallTable) : Option (Fin 32) :=
  (List.finRange 32).find? fun i => (t.records.get i).call.isNone

/-- The open call that has a given source: at most one has (R7). -/
def CallTable.ofSource? (t : CallTable) (src : Source) : Option CallRef :=
  t.admission.find? fun r =>
    match t.call? r with
    | none => false
    | some c => decide (c.source = src)

/-- The state of an open call (R5, Table 1-2). -/
def Call.state (c : Call) : CallState :=
  if c.granted = 0#16 then (if c.everGranted then .suspended else .pending)
  else if c.speak then .live else .chime

/-- A zone is in the target set and the call neither is granted nor suspended there: the call waits
on it (R1). -/
def Call.waitsOn (c : Call) (z : Zone) : Bool :=
  ZoneSet.has c.target z && !ZoneSet.has c.granted z && !ZoneSet.has c.suspended z

/-! ### Zone records -/

/-- The live call of a zone, or none (R33). -/
def ZoneState.live? : ZoneState → Option CallRef
  | .idle => none
  | .leadIn r _ => some r
  | .onAir r => some r

/-- The phase of a zone (R33). -/
def ZoneState.phase : ZoneState → Phase
  | .idle => .idle
  | .leadIn _ _ => .leadIn
  | .onAir _ => .onAir

/-- The lead-in remaining, present in LEAD_IN (R33). -/
def ZoneState.remaining? : ZoneState → Option Nat
  | .idle => none
  | .leadIn _ n => some n
  | .onAir _ => none

/-- The phase a stack entry for the live call carries (R34). -/
def ZoneState.resumePhase : ZoneState → ResumePhase
  | .idle => .leadIn
  | .leadIn _ _ => .leadIn
  | .onAir _ => .onAir

/-! ### Plans -/

/-- The other bank number (R108). -/
def BankNo.other : BankNo → BankNo
  | .b0 => .b1
  | .b1 => .b0

/-- Read a bank. -/
def PlanStore.bank (p : PlanStore) : BankNo → Bank
  | .b0 => p.bank0
  | .b1 => p.bank1

/-- Replace a bank. -/
def PlanStore.setBank (p : PlanStore) (n : BankNo) (b : Bank) : PlanStore :=
  match n with
  | .b0 => { p with bank0 := b }
  | .b1 => { p with bank1 := b }

/-- The live plan (Chapter 5). -/
def PlanStore.livePlan (p : PlanStore) : Plan := (p.bank p.live).plan

/-- The bank that is not live (R108). -/
def PlanStore.otherBank (p : PlanStore) : Bank := p.bank p.live.other

/-- A zone is used when its output slot is not NONE (R103). -/
def Plan.used (p : Plan) (z : Zone) : Bool := (p.zones.get z).slot.isSome

/-- The set of used zones of a plan. -/
def Plan.usedSet (p : Plan) : ZoneSet := ZoneSet.ofTest p.used

/-- The source number of a trunk source. -/
def trunkSource (s : Trunk) : Source := ⟨s.val, by omega⟩

/-- The source number of a tone generator: 48 + g. -/
def toneSource (g : Tone) : Source := ⟨48 + g.val, by omega⟩

/-- A source number as a trunk source or a tone generator. -/
def splitSource (s : Source) : Trunk ⊕ Tone :=
  if h : s.val < 48 then .inl ⟨s.val, h⟩ else .inr ⟨s.val - 48, by omega⟩

/-- A source is mapped when the plan gives it an input slot or a tone pattern (R86). -/
def Plan.mapped (p : Plan) (s : Source) : Bool :=
  match splitSource s with
  | .inl t => (p.trunks.get t).slot.isSome
  | .inr g => (p.tones.get g).isSome

/-- The effective floor of a zone: the greater of plan floor and restriction (R35). -/
def effectiveFloor (p : Plan) (zones : Table 16 ZoneRecord) (z : Zone) : Nat :=
  max (p.zones.get z).floor (zones.get z).restriction

/-! ### Controllers and the cache -/

/-- The address of a controller (Introduction 6.5). -/
def Controller.address : Controller → BitVec 6
  | .c60 => 60#6
  | .c61 => 61#6
  | .c62 => 62#6

/-- The controller at an address, if it is one. -/
def controllerAt (a : BitVec 6) : Option Controller :=
  if a = 60#6 then some .c60 else if a = 61#6 then some .c61 else if a = 62#6 then some .c62 else none

/-- The cache entry of a controller (R152). -/
def Cache.entry (c : Cache) : Controller → Option CacheEntry
  | .c60 => c.e60
  | .c61 => c.e61
  | .c62 => c.e62

/-- Replace the cache entry of a controller (R152). -/
def Cache.put (c : Cache) (k : Controller) (e : CacheEntry) : Cache :=
  match k with
  | .c60 => { c with e60 := some e }
  | .c61 => { c with e61 := some e }
  | .c62 => { c with e62 := some e }

/-! ### The state as a whole -/

/-- The node address is valid when it lies in 1-59; otherwise the part is transit-only (R147, R191). -/
def State.transitOnly (s : State) : Bool := !(decide (1 ≤ s.address.toNat) && decide (s.address.toNat ≤ 59))

/-- The LINK_OK output (R177, R190). -/
def State.linkOk (s : State) : Bool := !s.inReset && decide (s.receiver.link = .locked)

/-- The live plan. -/
def State.plan (s : State) : Plan := s.plans.livePlan

/-- No block takes any event while a hardware reset is in force (R190): outside it, answer the next
state `f` gives. -/
def State.running (s : State) (f : State → State) : Host.Outcome State Fault Refusal :=
  .next (if s.inReset then s else f s)

end Sys2Proof.Machine
end

