-- ==== Sys2Proof/Machine/Arbitration.lean ====
section
/-! DEFINITION. One event of the call table and the zone arbiters: ranking, evaluation, grants,
displacement, losses, end processing (Chapters 1 and 2).

An event works on the call table and the zone records alone and keeps a log of what its completion
needs: zone losses, ends, admissions, entries into LEAD_IN and speak moments of SKIP calls. -/

namespace Sys2Proof.Machine

/-- An event in progress: the call table and zone records as they stand, and the event's log. -/
structure Event where
  calls : CallTable
  zones : Table 16 ZoneRecord
  /-- Zones lost, for the ZONE_LOST notices (R23). -/
  lost : List (CallRef × Zone × LossReason)
  /-- Calls ended, for the CALL_ENDED notices (R22). -/
  ended : List (CallRef × EndCause)
  /-- Calls admitted, in order of admission (R23). -/
  admitted : List CallRef
  /-- Zones that made an entry into LEAD_IN (R75). -/
  leadIns : List Zone
  /-- SKIP calls whose waiting zones are given up at the end of the event (R14). -/
  skippers : List CallRef
  deriving DecidableEq, Repr

/-- What a zone arbiter reports of one evaluation (R58, R59). -/
inductive Report where
  | grant (r : CallRef)
  | onAir (r : CallRef)
  | loss (r : CallRef) (z : Zone) (reason : LossReason)
  deriving DecidableEq, Repr

/-- The start of an event on a state. -/
def Event.start (s : State) : Event :=
  { calls := s.calls, zones := s.zones, lost := [], ended := [], admitted := [], leadIns := [], skippers := [] }

/-- Change one zone record. -/
def Event.changeZone (e : Event) (z : Zone) (f : ZoneRecord → ZoneRecord) : Event :=
  { e with zones := e.zones.modify z f }

/-- Change the call a current reference names. -/
def Event.changeCall (e : Event) (r : CallRef) (f : Call → Call) : Event :=
  { e with calls := e.calls.changeCall r f }

/-! ### What the call table does with an event (R12 to R15, R22) -/

/-- Steps 2 to 4 of end processing (R22): the call has left every zone. -/
def Event.finishCall (e : Event) (r : CallRef) (cause : EndCause) : Event :=
  match e.calls.call? r with
  | none => e
  | some _ => { e with calls := e.calls.free r, ended := e.ended ++ [(r, cause)] }

/-- A zone leaves the target set with a ZONE_LOST of the given reason; a call left with no zones ends
NO_ZONES (R15). Such a call is granted and suspended nowhere, since those sets lie in the target set
(R1), so its end evaluates no zone (log 9). -/
def Event.loseZone (e : Event) (r : CallRef) (z : Zone) (reason : LossReason) : Event :=
  match e.calls.call? r with
  | none => e
  | some c =>
    let e := { e.changeCall r fun c => { c with target := ZoneSet.remove c.target z } with
               lost := e.lost ++ [(r, z, reason)] }
    if ZoneSet.remove c.target z = 0#16 then e.finishCall r .noZones else e

/-- The first-grant actions (R12). -/
def Call.firstGrant (c : Call) : Call :=
  if c.everGranted then c
  else { c with everGranted := true, wait := none,
                duration := if c.captured.durationMs = 0 then none
                            else some (framesOfMs c.captured.durationMs) }

/-- The call table takes an ON_AIR report: the speak moment of a call whose speak flag is clear; a SKIP
call is remembered for the pruning at the end of the event (R13, R14). -/
def Event.speakMoment (e : Event) (r : CallRef) : Event :=
  match e.calls.call? r with
  | none => e
  | some c =>
    if c.speak then e
    else
      { e.changeCall r fun c => { c with speak := true } with
        skippers := if c.captured.late = .skip then e.skippers ++ [r] else e.skippers }

/-- The call table takes one report (R60). -/
def Event.takeReport (e : Event) : Report → Event
  | .grant r => e.changeCall r Call.firstGrant
  | .onAir r => e.speakMoment r
  | .loss r z reason => e.loseZone r z reason

/-- A spoken SKIP call gives up every zone on which it merely waits, with reason LATE, in ascending
zone order (R14); a call left with no zones ends NO_ZONES (R26). -/
def Event.prune (e : Event) (r : CallRef) : Event :=
  match e.calls.call? r with
  | none => e
  | some c => ((List.finRange 16).filter c.waitsOn).foldl (fun e z => e.loseZone r z .late) e

/-! ### Ranking (R36 to R39) -/

/-- The contenders of a zone, in admission order (R36). -/
def Event.contenders (e : Event) (z : Zone) : List CallRef :=
  e.calls.admission.filter fun r =>
    match e.calls.call? r with
    | none => false
    | some c => ZoneSet.has c.target z

/-- The captured priority of a call. -/
def Event.priority (e : Event) (r : CallRef) : Nat :=
  match e.calls.call? r with
  | none => 0
  | some c => c.captured.priority

/-- The rotation distance of a source (R39): source less last served source less one, modulo 52. -/
def rotationDistance (lastServed : Option Source) (src : Source) : Nat :=
  match lastServed with
  | none => src.val
  | some l => (src.val + 103 - l.val) % 52

/-- The place of a contender under keys 2 to 4 of Table 2-2; a smaller number ranks first. -/
def Event.place (e : Event) (p : Plan) (z : Zone) (r : CallRef) : Nat :=
  let zone := e.zones.get z
  if zone.state.live? = some r then 0
  else
    let depth := zone.stack.findIdx fun en => decide (en.call = r)
    if depth < zone.stack.length then 1 + depth
    else
      1 + zone.stack.length +
        match (p.zones.get z).order with
        | .fifo => e.calls.admission.idxOf r
        | .rotate =>
          match e.calls.call? r with
          | none => 0
          | some c => rotationDistance zone.lastServed c.source

/-- Contender `a` ranks before contender `b` (R38). -/
def Event.ranksBefore (e : Event) (p : Plan) (z : Zone) (a b : CallRef) : Bool :=
  decide (e.priority b < e.priority a)
    || (decide (e.priority a = e.priority b) && decide (e.place p z a < e.place p z b))

/-- The contenders of a zone that are eligible under its effective floor (R37). -/
def Event.eligible (e : Event) (p : Plan) (z : Zone) : List CallRef :=
  (e.contenders z).filter fun r => decide (effectiveFloor p e.zones z ≤ e.priority r)

/-- The first of a list under a ranking. -/
def firstRanked (before : CallRef → CallRef → Bool) : List CallRef → Option CallRef
  | [] => none
  | r :: rest =>
    match firstRanked before rest with
    | none => some r
    | some b => if before b r then some b else some r

/-- The top-ranked eligible contender W (R38). -/
def Event.top (e : Event) (p : Plan) (z : Zone) : Option CallRef :=
  firstRanked (e.ranksBefore p z) (e.eligible p z)

/-! ### Grants and displacement (R44 to R47) -/

/-- The zone state of a fresh grant: LEAD_IN when there is a chime with a length, else ON_AIR (R44). -/
def freshState (r : CallRef) (c : ClassDef) : ZoneState :=
  if c.chime.isSome && decide (0 < c.chimeMs) then .leadIn r (framesOfMs c.chimeMs) else .onAir r

/-- The zone state of a resumption: the entry's resume phase, a lead-in with its full count (R55). -/
def resumedState (r : CallRef) (c : ClassDef) : ResumePhase → ZoneState
  | .leadIn => .leadIn r (framesOfMs c.chimeMs)
  | .onAir => .onAir r

/-- The reports of a grant (R58). -/
def grantReports (r : CallRef) : ZoneState → List Report
  | .onAir _ => [.grant r, .onAir r]
  | .leadIn _ _ => [.grant r]
  | .idle => [.grant r]

/-- W becomes the live call of a zone without one, by resumption or fresh (case V4, R44). -/
def Event.grantZone (e : Event) (z : Zone) (w : CallRef) : Event × List Report :=
  match e.calls.call? w with
  | none => (e, [])
  | some c =>
    let zone := e.zones.get z
    let st :=
      match zone.stack.find? fun en => decide (en.call = w) with
      | some en => resumedState w c.captured en.resume
      | none => freshState w c.captured
    let e := e.changeZone z fun zr =>
      { zr with state := st, stack := zr.stack.filter fun en => decide (en.call ≠ w) }
    let e := e.changeCall w fun c =>
      { c with granted := ZoneSet.add c.granted z, suspended := ZoneSet.remove c.suspended z }
    ({ e with leadIns := if st.phase = .leadIn then e.leadIns ++ [z] else e.leadIns }, grantReports w st)

/-- Push an entry on a suspended stack; a full stack first gives up its bottom entry (R34, R46). -/
def pushEntry (stack : List StackEntry) (en : StackEntry) : List StackEntry × Option StackEntry :=
  if stack.length < Config.stackLimit then (en :: stack, none) else (en :: stack.dropLast, stack.getLast?)

/-- The live call L leaves a zone (step 2 of R45): pushed under RESUME (R46), lost under DROP (R47). -/
def Event.displace (e : Event) (z : Zone) (l : CallRef) (reason : LossReason) : Event × List Report :=
  let zone := e.zones.get z
  match e.calls.call? l with
  | none => (e.changeZone z fun zr => { zr with state := .idle }, [])
  | some c =>
    match c.captured.preempt with
    | .drop =>
      let e := e.changeZone z fun zr => { zr with state := .idle }
      (e.changeCall l fun c => { c with granted := ZoneSet.remove c.granted z }, [.loss l z reason])
    | .resume =>
      let pushed := pushEntry zone.stack ⟨l, zone.state.resumePhase⟩
      let e := e.changeZone z fun zr => { zr with state := .idle, stack := pushed.1 }
      let e := e.changeCall l fun c =>
        { c with granted := ZoneSet.remove c.granted z, suspended := ZoneSet.add c.suspended z }
      match pushed.2 with
      | none => (e, [])
      | some x =>
        (e.changeCall x.call fun c => { c with suspended := ZoneSet.remove c.suspended z },
          [.loss x.call z .depth])

/-! ### Evaluation (R42) -/

/-- The decision of an evaluation and its reports, by the cases of Table 2-3. -/
def Event.decideZone (e : Event) (p : Plan) (z : Zone) : Event × List Report :=
  match e.top p z, (e.zones.get z).state.live? with
  | none, none => (e, [])
  | none, some l => e.displace z l .floor
  | some w, none => e.grantZone z w
  | some w, some l =>
    if w = l then (e, [])
    else
      let reason := if effectiveFloor p e.zones z ≤ e.priority l then LossReason.preempted else .floor
      let left := e.displace z l reason
      let granted := left.1.grantZone z w
      (granted.1, left.2 ++ granted.2)

/-- Evaluate a zone, then take its reports (R42, R60). A zone that is unused in the live plan is not
evaluated (R61). -/
def Event.evaluate (p : Plan) (e : Event) (z : Zone) : Event :=
  if p.used z then
    let decided := e.decideZone p z
    decided.2.foldl Event.takeReport decided.1
  else e

/-- Evaluate some zones, one after another (log 8). -/
def Event.evaluateAll (p : Plan) (zs : List Zone) (e : Event) : Event := zs.foldl (Event.evaluate p) e

/-! ### Withdrawal (R48, R49) and end processing (R22) -/

/-- A call is withdrawn from a zone: as live call, which sets the last served source (R48, R40), or
from the stack (R49). The zone is not yet evaluated. -/
def Event.withdraw (r : CallRef) (src : Source) (e : Event) (z : Zone) : Event :=
  let e := e.changeZone z fun zr =>
    if zr.state.live? = some r then
      { zr with state := .idle, lastServed := some src, stack := zr.stack.filter fun en => decide (en.call ≠ r) }
    else { zr with stack := zr.stack.filter fun en => decide (en.call ≠ r) }
  e.changeCall r fun c =>
    { c with granted := ZoneSet.remove c.granted z, suspended := ZoneSet.remove c.suspended z }

/-- A call ends (R22): it ceases to be a contender everywhere, each zone where it was live or
suspended is evaluated, and its record is freed. -/
def Event.endCall (p : Plan) (r : CallRef) (cause : EndCause) (e : Event) : Event :=
  match e.calls.call? r with
  | none => e
  | some c =>
    let zs := ZoneSet.zones (c.granted ||| c.suspended)
    let e := e.changeCall r fun c => { c with target := 0#16 }
    let e := zs.foldl (Event.withdraw r c.source) e
    (e.evaluateAll p zs).finishCall r cause

/-- A call ends for a cause that names it by its source (R11, R21). -/
def Event.endSource (p : Plan) (src : Source) (cause : EndCause) (e : Event) : Event :=
  match e.calls.ofSource? src with
  | none => e
  | some r => e.endCall p r cause

/-! ### Admission (R7) -/

/-- Fill the lowest-numbered FREE record with a new call and evaluate its target zones (R7); nothing
happens when no record is FREE. -/
def Event.openRecord (p : Plan) (origin : Origin) (cls : Fin 8) (d : ClassDef) (src : Source) (target : ZoneSet)
    (e : Event) : Event :=
  match e.calls.freeIndex? with
  | none => e
  | some i =>
    let gen := (e.calls.records.get i).gen
    let call : Call :=
      { origin := origin, cls := cls, captured := d, source := src, target := target
        granted := 0#16, suspended := 0#16, speak := false, everGranted := false
        wait := if d.waitMs = 0 then none else some (framesOfMs d.waitMs)
        duration := none, hold := none }
    let r : CallRef := ⟨i, gen⟩
    let e :=
      { e with
        calls :=
          { e.calls with
            records := e.calls.records.set i ⟨gen, some call⟩
            admission := e.calls.admission ++ [r]
            admitted := satInc e.calls.admitted }
        admitted := e.admitted ++ [r] }
    e.evaluateAll p (ZoneSet.zones target)

/-! ### Retargeting (R26) and clearing (R27) -/

/-- CALL_RETARGET on a current reference (R26). -/
def Event.retarget (p : Plan) (r : CallRef) (add remove : ZoneSet) (e : Event) : Event :=
  match e.calls.call? r with
  | none => e
  | some c =>
    let leaving := c.target &&& remove
    let joining := add &&& ~~~ c.target
    let left := ZoneSet.zones (leaving &&& (c.granted ||| c.suspended))
    let newTarget := (c.target &&& ~~~ remove) ||| add
    let e := e.changeCall r fun c => { c with target := newTarget }
    let e := left.foldl (Event.withdraw r c.source) e
    let e := e.evaluateAll p (left ++ ZoneSet.zones joining)
    let e := if newTarget = 0#16 then e.finishCall r .noZones else e
    if c.speak && decide (c.captured.late = .skip) then { e with skippers := e.skippers ++ [r] } else e

/-- The open calls that CLEAR_CALLS selects, in admission order (R27). -/
def CallTable.clearSelection (t : CallTable) (maxPriority : Nat) (includeKey : Bool) : List CallRef :=
  t.admission.filter fun r =>
    match t.call? r with
    | none => false
    | some c => decide (c.captured.priority ≤ maxPriority) && (includeKey || decide (c.origin ≠ .key))

/-- End the selected calls one after another, passing over those that have already ended (R27). -/
def Event.clear (p : Plan) (selected : List CallRef) (e : Event) : Event :=
  selected.foldl (fun e r => e.endCall p r .cleared) e

/-! ### Plan switches (R29, R61, R62) -/

/-- A zone made unused withdraws its live call and its stack, top to bottom, with PLAN losses (R61). -/
def Event.emptyZone (e : Event) (z : Zone) : Event :=
  let zone := e.zones.get z
  let live := zone.state.live?
  let leaving := live.toList ++ zone.stack.map StackEntry.call
  let served :=
    match live with
    | none => zone.lastServed
    | some l =>
      match e.calls.call? l with
      | none => zone.lastServed
      | some c => some c.source
  let e := e.changeZone z fun zr => { zr with state := .idle, stack := [], lastServed := served }
  let e := leaving.foldl (fun e r => e.changeCall r fun c =>
    { c with granted := ZoneSet.remove c.granted z, suspended := ZoneSet.remove c.suspended z }) e
  leaving.foldl (fun e r => e.loseZone r z .plan) e

/-- A zone that is unused in the new live plan leaves every target set that still holds it (R29). -/
def Event.dropTargets (e : Event) (z : Zone) : Event :=
  (e.contenders z).foldl (fun e r => e.loseZone r z .plan) e

/-- What a plan switch does to calls and zones: the removals of R61 and R29, then the evaluations of
R62. -/
def Event.switchPlan (old new : Plan) (e : Event) : Event :=
  let madeUnused := (List.finRange 16).filter fun z => old.used z && !new.used z
  let unused := (List.finRange 16).filter fun z => !new.used z
  let e := madeUnused.foldl Event.emptyZone e
  let e := unused.foldl Event.dropTargets e
  e.evaluateAll new ((List.finRange 16).filter new.used)

/-- The end of an event: the pruning of R14. -/
def Event.settle (e : Event) : Event := e.skippers.foldl Event.prune e

end Sys2Proof.Machine
end

