-- ==== Sys2Proof/Machine/Tone.lean ====
section
/-! DEFINITION. Samples: the sine rule, the gain table, chime players and tone generators (R75 to R79, R92 to R94). -/

namespace Sys2Proof.Machine

/-! ### The sine rule (R77) -/

/-- pi multiplied by 2 to the power 64, to the nearest integer below. -/
def piScaled : Nat := 57952155664616982739

/-- The alternating series of the sine in fixed point (scale 2 to the power 64): `term` is the term of
odd order `n`, `sq` the square of the angle. -/
def sineSeries (sq : Nat) : Nat → Nat → Nat → Nat
  | 0, _, _ => 0
  | fuel + 1, n, term =>
    term - sineSeries sq fuel (n + 2) (term * sq / 18446744073709551616 / ((n + 1) * (n + 2)))

/-- 4,194,304 times the sine of an angle of j/48,000 of a cycle, j from 0 to 12,000, rounded to the
nearest integer (R77; log 17). -/
def quarterSine (j : Nat) : Nat :=
  let angle := piScaled * j / 24000
  let sine := sineSeries (angle * angle / 18446744073709551616) 14 1 angle
  (sine * 4194304 + 9223372036854775808) / 18446744073709551616

/-- The sample of the sine rule at a phase of k/48,000 of a cycle (R77): rounding is to the nearest
integer, halves away from zero, so the four quarters mirror each other. -/
def sineSample (k : Nat) : Int :=
  let r := k % 12000
  match k / 12000 with
  | 0 => (quarterSine r : Int)
  | 1 => (quarterSine (12000 - r) : Int)
  | 2 => -(quarterSine r : Int)
  | _ => -(quarterSine (12000 - r) : Int)

/-- The sample of a step of frequency f at a phase: the sine rule, and 0 for a silent step (R77). -/
def stepSample (hz phase : Nat) : Int := if hz = 0 then 0 else sineSample phase

/-- The phase after a sample of a step of frequency f: it advances by f/48,000 of a cycle and keeps the
fraction; a silent step adds nothing, so the phase is held (R77). -/
def advancePhase (hz phase : Nat) : Nat := (phase + hz) % 48000

/-! ### Gains (R79) -/

/-- The value g for each attenuation 0 to 127: 65,536 times 10 to the power -a/40, rounded to the nearest
integer; 65,536 at 0 and 0 at 127 stand for unity and MUTE. At a = 1 the rule's formula gives 61,870 where
Table 3-3 prints 61,871: the formula is followed (log 19). -/
def gainTable : List Nat :=
  [65536, 61870, 58409, 55142, 52057, 49145, 46396, 43801, 41350, 39037, 36854, 34792, 32846, 31008, 29274, 27636]
    ++ [26090, 24631, 23253, 21952, 20724, 19565, 18471, 17437, 16462, 15541, 14672, 13851, 13076, 12345, 11654, 11002]
    ++ [10387, 9806, 9257, 8739, 8250, 7789, 7353, 6942, 6554, 6187, 5841, 5514, 5206, 4915, 4640, 4380]
    ++ [4135, 3904, 3685, 3479, 3285, 3101, 2927, 2764, 2609, 2463, 2325, 2195, 2072, 1957, 1847, 1744]
    ++ [1646, 1554, 1467, 1385, 1308, 1234, 1165, 1100, 1039, 981, 926, 874, 825, 779, 735, 694]
    ++ [655, 619, 584, 551, 521, 491, 464, 438, 414, 390, 369, 348, 328, 310, 293, 276]
    ++ [261, 246, 233, 220, 207, 196, 185, 174, 165, 155, 147, 139, 131, 123, 117, 110]
    ++ [104, 98, 93, 87, 83, 78, 74, 69, 66, 62, 58, 55, 52, 49, 46, 0]

/-- The value g of an attenuation (R79). -/
def gain (a : Nat) : Nat := gainTable.getD a 0

/-- A lane's contribution at attenuation a: its sample unchanged at 0, zero at 127, otherwise the sample
times g divided by 65,536, rounded toward minus infinity (R79). -/
def contribution (sample : Int) (a : Nat) : Int :=
  if a = 0 then sample
  else if a = 127 then 0
  else (sample * (gain a : Int)) / 65536

/-- The limiter: a sum is held within the 24-bit range (R80). -/
def limit24 (x : Int) : Int := if 8388607 < x then 8388607 else if x < -8388608 then -8388608 else x

/-! ### Steps -/

/-- The step that plays, of a list of steps numbered from 1. -/
def stepAt? (steps : List ToneStep) (pos : StepPos) : Option ToneStep :=
  match pos.number with
  | 0 => none
  | n + 1 => steps[n]?

/-- The position after the last frame of a step: the next step with its duration; after the last step,
step 1 when the pattern repeats, and none otherwise (R76, R93). -/
def nextPos (steps : List ToneStep) (repeats : Bool) (pos : StepPos) : Option StepPos :=
  match steps[pos.number]? with
  | some st => some ⟨pos.number + 1, st.frames⟩
  | none => if repeats then startPos steps else none

/-! ### Chime players (R75, R76) -/

/-- The sample a chime player produces at a boundary; a silent player produces 0 (R76, R77). -/
def ChimePlayer.sample (c : ChimePlayer) : Int :=
  match c.pattern, c.pos with
  | some steps, some pos =>
    match stepAt? steps pos with
    | some st => stepSample st.hz c.phase
    | none => 0
  | _, _ => 0

/-- After its sample a playing player advances its phase and counts one frame of the step. The last
frame of a step is counted by the step's end (CHIME_STEP_END), which the boundary makes due. -/
def ChimePlayer.advance (c : ChimePlayer) : ChimePlayer :=
  match c.pattern, c.pos with
  | some steps, some pos =>
    { c with
      phase := match stepAt? steps pos with
        | some st => advancePhase st.hz c.phase
        | none => c.phase
      pos := some { pos with remaining := if 1 < pos.remaining then pos.remaining - 1 else pos.remaining } }
  | _, _ => c

/-- The step of a playing player ends at this boundary. -/
def ChimePlayer.stepEnds (c : ChimePlayer) : Bool :=
  match c.pos with
  | some pos => decide (pos.remaining ≤ 1)
  | none => false

/-- The end of a step: the next step, or silence after the last; the pattern is not repeated (R76). -/
def ChimePlayer.endStep (c : ChimePlayer) : ChimePlayer :=
  match c.pattern, c.pos with
  | some steps, some pos => { c with pos := nextPos steps false pos }
  | _, _ => c

/-- The player starts with a captured chime pattern number, read from the live plan; an undefined
pattern leaves it silent with no copied pattern (R75). -/
def ChimePlayer.start (p : Plan) (chime : Option (Fin 8)) : ChimePlayer :=
  match chime with
  | none => { pattern := none, pos := none, phase := 0 }
  | some n =>
    match p.patterns.get n with
    | none => { pattern := none, pos := none, phase := 0 }
    | some pat => { pattern := some pat.toneSteps, pos := startPos pat.toneSteps, phase := 0 }

/-! ### Tone generators (R92 to R94, R97) -/

/-- The sample a tone generator yields at a boundary; finished and ABSENT generators yield 0 (R93). -/
def ToneGen.sample (g : ToneGen) : Int :=
  match g.playing with
  | none => 0
  | some t =>
    match t.pos with
    | none => 0
    | some pos =>
      match stepAt? t.steps pos with
      | some st => stepSample st.hz g.phase
      | none => 0

/-- After its sample a generator advances its phase and counts one frame of the step (R93); the last
frame of a step is counted by the step's end (TONE_STEP_END). -/
def ToneGen.advance (g : ToneGen) : ToneGen :=
  match g.playing with
  | none => g
  | some t =>
    match t.pos with
    | none => g
    | some pos =>
      { playing := some { t with pos := some { pos with
          remaining := if 1 < pos.remaining then pos.remaining - 1 else pos.remaining } }
        phase := match stepAt? t.steps pos with
          | some st => advancePhase st.hz g.phase
          | none => g.phase }

/-- The step of a generator ends at this boundary. -/
def ToneGen.stepEnds (g : ToneGen) : Bool :=
  match g.playing with
  | none => false
  | some t =>
    match t.pos with
    | none => false
    | some pos => decide (pos.remaining ≤ 1)

/-- The end of a step: the next step; after the last, step 1 when the repeat flag is set, otherwise the
generator is finished (R93). -/
def ToneGen.endStep (g : ToneGen) : ToneGen :=
  match g.playing with
  | none => g
  | some t =>
    match t.pos with
    | none => g
    | some pos => { g with playing := some { t with pos := nextPos t.steps t.repeats pos } }

/-- A generator holds exactly what a new plan gives its entry: the same pattern number, the same steps
and the same repeat flag (R97). -/
def ToneGen.holds (g : ToneGen) (p : Plan) (entry : Option (Fin 8)) : Bool :=
  match g.playing, entry with
  | some t, some n =>
    match p.patterns.get n with
    | some pat => decide (t.number = n) && decide (t.steps = pat.toneSteps) && decide (t.repeats = pat.repeats)
    | none => false
  | _, _ => false

/-- A generator at a plan switch: unchanged when it holds what the new plan gives, else started afresh,
or ABSENT with its phase held (R97). -/
def ToneGen.follow (g : ToneGen) (p : Plan) (entry : Option (Fin 8)) : ToneGen :=
  if g.holds p entry then g else ToneGen.start p entry g.phase

end Sys2Proof.Machine
end

