-- ==== Sys2Proof/Machine/Mixer.lean ====
section
/-! DEFINITION. Zone mixers: desired sources and levels, lane updates and ramp steps (R68 to R74, R83, R85). -/

namespace Sys2Proof.Machine

/-- What a lane should carry, and at which level (3.3). -/
structure Desired where
  source : LaneSource
  level : Nat
  deriving DecidableEq, Repr

/-- The captured fields of a zone's live call, with its source. -/
def liveFields (calls : CallTable) (st : ZoneState) : Option (Source × ClassDef) :=
  match st.live? with
  | none => none
  | some r =>
    match calls.call? r with
    | none => none
    | some c => some (c.source, c.captured)

/-- The foreground's desired pair (R69, Table 3-1). -/
def desiredForeground (entry : ZoneEntry) (calls : CallTable) (st : ZoneState) : Desired :=
  match st with
  | .idle => { source := .none, level := Config.mute }
  | .leadIn _ _ => { source := .chime, level := entry.foregroundAtt }
  | .onAir _ =>
    match liveFields calls st with
    | none => { source := .none, level := Config.mute }
    | some f => { source := .source f.1, level := entry.foregroundAtt }

/-- The background level under a duck mode (R70). -/
def duckLevel (entry : ZoneEntry) : Duck → Nat
  | .keep => entry.programmeAtt
  | .duck => max entry.programmeAtt entry.duckAtt
  | .mute => Config.mute

/-- The background's desired pair (R69, R70). -/
def desiredBackground (entry : ZoneEntry) (calls : CallTable) (st : ZoneState) : Desired :=
  { source := match entry.programme with
      | none => .none
      | some s => .source s
    level := match liveFields calls st with
      | none => entry.programmeAtt
      | some f => duckLevel entry f.2.duck }

/-- The desired pair of a lane of a zone. -/
def desired (entry : ZoneEntry) (calls : CallTable) (st : ZoneState) : LaneId → Desired
  | .foreground => desiredForeground entry calls st
  | .background => desiredBackground entry calls st

/-- Apply a desired pair to a lane: cases D1, D2, D3 of a steady lane, F1 and F2 of a fading lane (R71). -/
def Lane.apply (l : Lane) (d : Desired) : Lane :=
  match l.pending with
  | none =>
    if d.source = l.current then { l with target := d.level }
    else if l.att = Config.mute then { l with current := d.source, target := d.level }
    else { l with pending := some d.source, target := Config.mute }
  | some _ =>
    if d.source = l.current then { l with pending := none, target := d.level }
    else { l with pending := some d.source }

/-- One ramp step at a ramp rate (R72). -/
def Lane.ramp (l : Lane) (rate : Nat) : Lane :=
  if l.att < l.target then { l with att := min (l.att + rate) l.target }
  else if l.target < l.att then { l with att := max (l.att - rate) l.target }
  else l

/-- A fading lane has reached 127: its fade completes at this boundary (R72). -/
def Lane.fadeReached (l : Lane) : Bool := l.pending.isSome && decide (l.att = Config.mute)

/-- The completion of a fade: the pending source is installed and the target becomes the level desired
at that moment (R72). A lane that is not at the end of a fade is left as it is. -/
def Lane.completeFade (l : Lane) (level : Nat) : Lane :=
  match l.pending with
  | none => l
  | some src => if l.att = Config.mute then { l with current := src, pending := none, target := level } else l

/-- The lane of a mixer. -/
def Mixer.lane (m : Mixer) : LaneId → Lane
  | .foreground => m.foreground
  | .background => m.background

/-- Change one lane of a mixer. -/
def Mixer.changeLane (m : Mixer) (id : LaneId) (f : Lane → Lane) : Mixer :=
  match id with
  | .foreground => { m with foreground := f m.foreground }
  | .background => { m with background := f m.background }

/-- Apply the desired pairs to both lanes (R69). -/
def Mixer.apply (m : Mixer) (entry : ZoneEntry) (calls : CallTable) (st : ZoneState) : Mixer :=
  { m with
    foreground := m.foreground.apply (desiredForeground entry calls st)
    background := m.background.apply (desiredBackground entry calls st) }

/-- One ramp step of both lanes (R72). -/
def Mixer.ramp (m : Mixer) (rate : Nat) : Mixer :=
  { m with foreground := m.foreground.ramp rate, background := m.background.ramp rate }

/-- A zone's phase or live call differs between the start and the end of an event (R69). -/
def zoneChanged (before after : ZoneState) : Bool :=
  !(decide (before.phase = after.phase) && decide (before.live? = after.live?))

/-- A mixer at the completion of an event (R69, R75): its lanes take the desired pairs when the zone's
phase or live call changed (or `always`, at a plan switch or node reset), and its chime player starts
when the event entered LEAD_IN and left the zone there. -/
def Mixer.afterEvent (p : Plan) (calls : CallTable) (entry : ZoneEntry) (before after : ZoneState)
    (entered always : Bool) (m : Mixer) : Mixer :=
  let m := if always || zoneChanged before after then m.apply entry calls after else m
  if entered && decide (after.phase = .leadIn) then
    match liveFields calls after with
    | none => m
    | some f => { m with player := ChimePlayer.start p f.2.chime }
  else m

end Sys2Proof.Machine
end

