-- ==== Sys2Proof/Machine/NoticeQueue.lean ====
section
/-! DEFINITION. The notice queue: submission, coalescing, losses, sending, acknowledgement, retry (R126 to R143). -/

namespace Sys2Proof.Machine

/-- The entry is an UNSENT CALL_STATUS for this reference (R130). -/
def NoticeEntry.isOpenStatus (r : CallRef) (e : NoticeEntry) : Bool :=
  !e.sent &&
    match e.notice with
    | .callStatus r' _ _ => decide (r' = r)
    | _ => false

/-- Replace the content of the youngest UNSENT CALL_STATUS entry of a reference, in place (R130, R131). -/
def replaceYoungest (r : CallRef) (n : Notice) : List NoticeEntry → List NoticeEntry
  | [] => []
  | e :: rest =>
    if rest.any (NoticeEntry.isOpenStatus r) then e :: replaceYoungest r n rest
    else if NoticeEntry.isOpenStatus r e then { e with notice := n } :: rest
    else e :: rest

/-- The reference a notice coalesces by: CALL_STATUS and CALL_ENDED only (R129, R130, R131). -/
def Notice.coalesces? : Notice → Option CallRef
  | .callStatus r _ _ => some r
  | .callEnded r _ => some r
  | .powerUp => none
  | .nodeReset => none
  | .zoneLost _ _ _ => none
  | .keyRefused _ => none
  | .link _ => none
  | .planSwitched _ => none
  | .switchAbandoned => none
  | .copyDone _ => none
  | .overflow _ => none

/-- The notice finds an entry to coalesce with (case 2 of R129). -/
def NoticeBlock.canCoalesce (b : NoticeBlock) (n : Notice) : Bool :=
  match n.coalesces? with
  | none => false
  | some r => b.queue.any (NoticeEntry.isOpenStatus r)

/-- Append a notice as a new UNSENT entry with the next sequence number (R128). -/
def NoticeBlock.append (b : NoticeBlock) (n : Notice) : NoticeBlock :=
  { b with queue := b.queue ++ [{ seq := b.next, notice := n, sent := false }], next := b.next + 1#8 }

/-- A notice is lost: the lost count, held at 255, and the counter increase (R133). -/
def NoticeBlock.lose (b : NoticeBlock) : NoticeBlock :=
  { b with lost := min (b.lost + 1) 255, noticesLost := satInc b.noticesLost }

/-- The entry a coalescing notice changes takes its content (R130, R131). -/
def NoticeBlock.coalesce (b : NoticeBlock) (n : Notice) : NoticeBlock :=
  match n.coalesces? with
  | none => b
  | some r => { b with queue := replaceYoungest r n b.queue }

/-- A submitted notice is taken by the first case that applies (R129). -/
def NoticeBlock.submit (b : NoticeBlock) (n : Notice) : NoticeBlock :=
  if !b.enabled then b
  else if b.canCoalesce n then b.coalesce n
  else if b.queue.length < Config.noticeQueueLimit then b.append n
  else b.lose

/-- Notices submitted one after another (R132). -/
def NoticeBlock.submitAll (b : NoticeBlock) (ns : List Notice) : NoticeBlock := ns.foldl NoticeBlock.submit b

/-- Some entry of the queue is SENT. -/
def NoticeBlock.anySent (b : NoticeBlock) : Bool := b.queue.any NoticeEntry.sent

/-- Some entry of the queue is UNSENT. -/
def NoticeBlock.anyUnsent (b : NoticeBlock) : Bool := b.queue.any fun e => !e.sent

/-- The retry timer at its start (R135). -/
def NoticeBlock.freshTimer (b : NoticeBlock) (held : Bool) : RetryTimer := ⟨framesOfMs b.intervalMs, held⟩

/-- The entries a notice message takes: the oldest UNSENT ones, up to 7 (R134). -/
def NoticeBlock.batch (b : NoticeBlock) : List NoticeEntry :=
  (b.queue.filter fun e => !e.sent).take Config.noticesPerMessage

/-- Mark the first `n` UNSENT entries of a queue SENT (R134). -/
def markSent : Nat → List NoticeEntry → List NoticeEntry
  | 0, q => q
  | _ + 1, [] => []
  | n + 1, e :: rest => if e.sent then e :: markSent (n + 1) rest else { e with sent := true } :: markSent n rest

/-- A notice message is formed: its entries become SENT, and the timer starts if none was SENT (R134). -/
def NoticeBlock.form (b : NoticeBlock) (held : Bool) : NoticeBlock :=
  { b with
    queue := markSent Config.noticesPerMessage b.queue
    timer := if b.anySent then b.timer else some (b.freshTimer held) }

/-- The retry timer counts a boundary (R135). A count of 1 is left to the expiry (RETRY_EXPIRY), which
the boundary makes due. -/
def RetryTimer.tick (t : RetryTimer) : RetryTimer :=
  if t.held then { t with held := false }
  else { t with remaining := if 1 < t.remaining then t.remaining - 1 else t.remaining }

/-- The retry timer expires at this boundary. -/
def RetryTimer.ends (t : RetryTimer) : Bool := !t.held && decide (t.remaining ≤ 1)

/-- Every SENT entry becomes UNSENT (R138, R140). -/
def unsendAll (q : List NoticeEntry) : List NoticeEntry := q.map fun e => { e with sent := false }

/-- The retry expiry (R138). -/
def NoticeBlock.expire (b : NoticeBlock) : NoticeBlock :=
  { b with queue := unsendAll b.queue, retries := satInc b.retries, timer := none }

/-- The number of entries an acknowledgement of `seq` removes, if it names a SENT entry (R136). -/
def NoticeBlock.ackCount? (b : NoticeBlock) (seq : BitVec 8) : Option Nat :=
  let i := b.queue.findIdx fun e => e.sent && decide (e.seq = seq)
  if i < b.queue.length then some (i + 1) else none

/-- An acknowledgement removes the first `n` entries; the timer restarts or stops (R136); when notices
were lost, OVERFLOW is appended and the lost count becomes 0 (R137). The timer restarts without the mark `held`, so the
next boundary's decrement counts, also when the acknowledgement is taken between a NOTICE_MESSAGE on its own and the
boundary it acts for (the model's choice, DESIGN CHOICE: log 27). -/
def NoticeBlock.ack (b : NoticeBlock) (n : Nat) : NoticeBlock :=
  let b := { b with queue := b.queue.drop n }
  let b := { b with timer := if b.anySent then some (b.freshTimer false) else none }
  if 0 < b.lost then { b.append (.overflow b.lost) with lost := 0 } else b

/-- NOTICE_CONFIG (R140). -/
def NoticeBlock.configure (b : NoticeBlock) (recipient : Controller) (enable : Bool) (intervalMs : Nat) :
    NoticeBlock :=
  let stored := { b with recipient := recipient, intervalMs := intervalMs, enabled := enable }
  if b.enabled then
    if enable then
      if b.recipient = recipient then stored
      else { stored with queue := unsendAll b.queue, timer := none }
    else { stored with queue := [], lost := 0, timer := none }
  else stored

/-- The notice block's node-reset effect (R143). -/
def NoticeBlock.nodeReset (b : NoticeBlock) : NoticeBlock :=
  let b := { b with queue := [], lost := 0, timer := none, next := 0#8 }
  if b.enabled then b.append .nodeReset else b

end Sys2Proof.Machine
end

