-- ==== Sys2Proof/Machine/Flags.lean ====
section
/-! DEFINITION. The flags of audio slots, the observations made of them, and the slots the part writes
(R81, R87 to R89, R91, R168, R185). -/

namespace Sys2Proof.Machine

/-- The PRESENT flag of a slot: bit 31 (Table 10-2). -/
def slotPresent (s : Slot) : Bool := s.getLsbD 31

/-- The KEYED flag of a slot: bit 30 (Table 10-2). -/
def slotKeyed (s : Slot) : Bool := s.getLsbD 30

/-- The sample of a slot: bits 23-0 in two's complement (Table 10-2). -/
def slotSample (s : Slot) : Int := (s.extractLsb' 0 24).toInt

/-- The slot a used zone writes: PRESENT set, KEYED while the phase is LEAD_IN or ON_AIR, the six further
flags clear, and the zone's sample (R81). -/
def zoneSlot (keyed : Bool) (sample : Int) : Slot :=
  (1#1 ++ BitVec.ofBool keyed) ++ 0#6 ++ BitVec.ofInt 24 sample

/-- The slot that feeds a trunk source, when the boundary's frame is usable and the source is mapped (R88). -/
def observedSlot? (p : Plan) (b : Boundary) (s : Trunk) : Option Slot :=
  if b.usable then (p.trunks.get s).slot.map b.frame.slots.get else none

/-- The PRESENT flag of an observation (R88). -/
def observedPresent (p : Plan) (b : Boundary) (s : Trunk) : Bool :=
  match observedSlot? p b s with
  | none => false
  | some slot => slotPresent slot

/-- The KEYED flag of an observation: true only with PRESENT (R88). -/
def observedKeyed (p : Plan) (b : Boundary) (s : Trunk) : Bool :=
  match observedSlot? p b s with
  | none => false
  | some slot => slotPresent slot && slotKeyed slot

/-- The sample a trunk source yields at a boundary (R91). -/
def trunkSample (p : Plan) (b : Boundary) (s : Trunk) : Int :=
  match observedSlot? p b s with
  | none => 0
  | some slot => if slotPresent slot then slotSample slot else 0

/-- A record with every run 0. -/
def TrunkRecord.clearRuns (t : TrunkRecord) : TrunkRecord :=
  { t with presence := 0, key := 0, release := 0, absence := 0 }

/-- One observation of a trunk source, by the cases of Table 4-2, and what it makes due (R89, R90). Case
A2 is left whole to PRESENCE_CONFIRMED, which the observation makes due. -/
def TrunkRecord.observe (t : TrunkRecord) (s : Trunk) (present keyed : Bool) : TrunkRecord × List Task :=
  let seen := { t with flagPresent := present, flagKeyed := keyed }
  match t.state with
  | .absent =>
    if present then
      if t.presence + 1 < Config.presenceLimit then ({ seen with presence := t.presence + 1 }, [])
      else (t, [.presence s keyed])
    else ({ seen with presence := 0 }, [])
  | .quiet =>
    if present then
      if keyed then
        if t.key + 1 < Config.keyLimit then ({ seen with key := t.key + 1, absence := 0 }, [])
        else ({ seen.clearRuns with state := .keyed }, [.keyUp s])
      else ({ seen with key := 0, absence := 0 }, [])
    else
      if t.absence + 1 < Config.absenceLimit then ({ seen with key := 0, absence := t.absence + 1 }, [])
      else ({ seen.clearRuns with state := .absent }, [.loss (trunkSource s)])
  | .keyed =>
    if present then
      if keyed then ({ seen with release := 0, absence := 0 }, [])
      else
        if t.release + 1 < Config.releaseLimit then ({ seen with release := t.release + 1, absence := 0 }, [])
        else ({ seen.clearRuns with state := .quiet }, [.keyDown s])
    else
      if t.release + 1 < Config.releaseLimit then
        ({ seen with release := t.release + 1, absence := t.absence + 1 }, [])
      else
        ({ seen with state := .quiet, key := 0, release := 0, absence := t.absence + 1 }, [.keyDown s])

/-- Case A2 of Table 4-2: the source becomes QUIET with every run 0, and the observation that brought it
there is stored as its last flags (R88, R89). -/
def TrunkRecord.confirmPresence (t : TrunkRecord) (keyed : Bool) : TrunkRecord :=
  match t.state with
  | .absent => { t.clearRuns with state := .quiet, flagPresent := true, flagKeyed := keyed }
  | .quiet => t
  | .keyed => t

/-- PRESENCE_CONFIRMED takes the observation that case A2 left whole to it. A source whose presence run still stands
at its last value becomes QUIET; a source whose runs a plan switch has set to 0 since then takes its observation
under the new mapping, which counts as 1 in the run it feeds (R96). -/
def TrunkRecord.takePresence (t : TrunkRecord) (s : Trunk) (keyed newPresent newKeyed : Bool) : TrunkRecord :=
  match t.state with
  | .absent =>
    if t.presence + 1 < Config.presenceLimit then (t.observe s newPresent newKeyed).1 else t.confirmPresence keyed
  | .quiet => t
  | .keyed => t

/-- The state of a source is ABSENT (R8, R87, R92). -/
def SourceBlock.isAbsent (b : SourceBlock) (s : Source) : Bool :=
  match splitSource s with
  | .inl t => decide ((b.trunks.get t).state = .absent)
  | .inr g => (b.tones.get g).playing.isNone

end Sys2Proof.Machine
end

