-- ==== Sys2Proof/Machine/Events.lean ====
section
/-! DEFINITION. Events on the whole state: their completion (notices, lanes, chimes) and the events that the
part takes on its own: key edges, losses, expiries, copy end, step ends, plan switches. -/

namespace Sys2Proof.Machine

/-! ### Completion of an event (R14, R23, R69, R75) -/

/-- The state and granted set of the call a reference names. -/
def CallTable.status? (t : CallTable) (r : CallRef) : Option (CallState × ZoneSet) :=
  (t.call? r).map fun c => (c.state, c.granted)

/-- The notices of one call (R23): its ZONE_LOST in ascending zone number, then CALL_STATUS when it was
admitted or its state or granted set changed and it is still open, then CALL_ENDED. -/
def callNotices (before : CallTable) (e : Event) (r : CallRef) : List Notice :=
  let losses := (List.finRange 16).flatMap fun z =>
    e.lost.filterMap fun l => if l.1 = r && l.2.1 = z then some (Notice.zoneLost r z l.2.2) else none
  let status :=
    match e.calls.status? r with
    | none => []
    | some st =>
      if e.admitted.contains r || decide (before.status? r ≠ some st) then [Notice.callStatus r st.1 st.2] else []
  let ends := e.ended.filterMap fun x => if x.1 = r then some (Notice.callEnded r x.2) else none
  losses ++ status ++ ends

/-- The call notices of an event: the calls' groups in the admission order of its start, calls admitted in
the event last (R23). -/
def eventNotices (before : CallTable) (e : Event) : List Notice :=
  (before.admission ++ e.admitted).flatMap (callNotices before e)

/-- Complete an event on a state: settle it, write back calls and zones, update the mixers, submit its
notices and then those that concern no call (R23, R60, R69, R132). -/
def State.complete (s : State) (always : Bool) (others : List Notice) (e : Event) : State :=
  let e := e.settle
  { s with
    calls := e.calls
    zones := e.zones
    mixers := s.mixers.update fun z m =>
      m.afterEvent s.plan e.calls (s.plan.zones.get z) (s.zones.get z).state (e.zones.get z).state
        (e.leadIns.contains z) always
    notices := s.notices.submitAll (eventNotices s.calls e ++ others) }

/-- An event of the call table and the zone arbiters under the live plan. -/
def State.event (s : State) (f : Plan → Event → Event) : State :=
  s.complete false [] (f s.plan (Event.start s))

/-- Submit a notice that concerns no call. -/
def State.notify (s : State) (n : Notice) : State := { s with notices := s.notices.submit n }

/-! ### Key edges and losses (R10, R11, R21) -/

/-- The KEY call of a source that has a hold deadline (R10, first case). -/
def CallTable.heldCall? (t : CallTable) (src : Source) : Option CallRef :=
  match t.ofSource? src with
  | none => none
  | some r =>
    match t.call? r with
    | none => none
    | some c => if c.origin = .key && c.hold.isSome then some r else none

/-- Change the call a reference names outside any zone work. -/
def State.changeCall (s : State) (r : CallRef) (f : Call → Call) : State :=
  { s with calls := s.calls.changeCall r f }

/-- A KEY admission, or KEY_REFUSED when no record is FREE (R10). -/
def State.admitKey (s : State) (t : Trunk) (cls : Fin 8) (d : ClassDef) : State :=
  match s.calls.freeIndex? with
  | none =>
    { s with calls := { s.calls with keyRefused := satInc s.calls.keyRefused } }.notify
      (.keyRefused (trunkSource t))
  | some _ =>
    s.event fun p e => e.openRecord p .key cls d (trunkSource t) (p.trunks.get t).keyTargets

/-- The call table takes a QUIET-to-KEYED edge (R10, R18). A key class that is undefined in the live plan,
which no sealed plan has (R114, item 3), admits nothing (log 21). -/
def State.takeKeyUp (s : State) (t : Trunk) : State :=
  match s.calls.heldCall? (trunkSource t) with
  | some r => s.changeCall r fun c => { c with hold := none }
  | none =>
    match (s.plan.trunks.get t).keyClass with
    | none => s
    | some cls =>
      match s.calls.ofSource? (trunkSource t) with
      | some _ => s
      | none =>
        match s.plan.classes.get cls with
        | none => s
        | some d => s.admitKey t cls d

/-- The call table takes a KEYED-to-QUIET edge (R11). -/
def State.takeKeyDown (s : State) (t : Trunk) : State :=
  match s.calls.ofSource? (trunkSource t) with
  | none => s
  | some r =>
    match s.calls.call? r with
    | none => s
    | some c =>
      if c.origin = .key then
        if c.captured.holdMs = 0 then s.event fun p e => e.endCall p r .unkeyed
        else s.changeCall r fun c => { c with hold := some (framesOfMs c.captured.holdMs) }
      else s

/-- The call table takes a source loss (R21). -/
def State.takeLoss (s : State) (src : Source) : State :=
  s.event fun p e => e.endSource p src .sourceLost

/-- A trunk source takes the observation that confirms its presence (R89, case A2), or, once a plan switch of the same
boundary has set its runs to 0, the first observation under the new mapping (R96). -/
def State.takePresence (s : State) (t : Trunk) (keyed : Bool) : State :=
  { s with sources := { s.sources with
      trunks := s.sources.trunks.modify t fun r =>
        r.takePresence t keyed (observedPresent s.plan s.now t) (observedKeyed s.plan s.now t) } }

/-! ### Expiries (R17, R18, R19, R54, R138) -/

/-- A deadline stands at its last frame: it reaches 0 at the present boundary (R16). -/
def atLastFrame (d : Option Nat) : Bool := d == some 1

/-- A deadline of a call expires (R16): the call ends with the deadline's cause, if the deadline is still
there and still at its last frame. -/
def State.takeDeadline (s : State) (r : CallRef) (deadline : Call → Option Nat) (cause : EndCause) : State :=
  match s.calls.call? r with
  | none => s
  | some c => if atLastFrame (deadline c) then s.event fun p e => e.endCall p r cause else s

/-- The zone enters ON_AIR with the same live call and reports it (R54). -/
def Event.leadInExpires (z : Zone) (r : CallRef) (e : Event) : Event :=
  (e.changeZone z fun zr => { zr with state := .onAir r }).takeReport (.onAir r)

/-- A lead-in expires (R54), if the zone is still in a lead-in at its last frame. -/
def State.takeLeadInEnd (s : State) (z : Zone) : State :=
  match (s.zones.get z).state with
  | .idle => s
  | .onAir _ => s
  | .leadIn r n => if n = 1 then s.event fun _ e => e.leadInExpires z r else s

/-- The retry timer expires (R138), if it is still running at its last frame. -/
def State.takeRetryEnd (s : State) : State :=
  match s.notices.timer with
  | none => s
  | some t => if t.ends then { s with notices := s.notices.expire } else s

/-! ### Copying (R117) -/

/-- The plan with the k-th entry in table order, counting from 0, taken from another plan (R101). -/
def Plan.copyEntry (dst src : Plan) (k : Nat) : Plan :=
  if h : k < 8 then { dst with classes := dst.classes.set ⟨k, h⟩ (src.classes.get ⟨k, h⟩) }
  else if h : k - 8 < 16 then
    { dst with zones := dst.zones.set ⟨k - 8, h⟩ (src.zones.get ⟨k - 8, h⟩) }
  else if h : k - 24 < 48 then
    { dst with trunks := dst.trunks.set ⟨k - 24, h⟩ (src.trunks.get ⟨k - 24, h⟩) }
  else if h : k - 72 < 4 then
    { dst with tones := dst.tones.set ⟨k - 72, h⟩ (src.tones.get ⟨k - 72, h⟩) }
  else if h : k - 76 < 8 then
    { dst with patterns := dst.patterns.set ⟨k - 76, h⟩ (src.patterns.get ⟨k - 76, h⟩) }
  else dst

/-- One entry is copied from the live bank into the other bank (R117). -/
def PlanStore.copyOne (p : PlanStore) (k : Nat) : PlanStore :=
  p.setBank p.live.other { p.otherBank with plan := p.otherBank.plan.copyEntry p.livePlan k }

/-- The copy step of a boundary short of the last: one entry, and the progress increases (case C1). -/
def PlanStore.copyStep (p : PlanStore) : PlanStore :=
  match p.copied with
  | none => p
  | some k => if k < 83 then { p.copyOne k with copied := some (k + 1) } else p

/-- The last copy step: the 84th entry, the bank becomes OPEN, no progress (case C2). -/
def PlanStore.copyEnd (p : PlanStore) : PlanStore :=
  let p := p.copyOne 83
  { p.setBank p.live.other { p.otherBank with state := .opened } with copied := none }

/-- The 84th copy step and its COPY_DONE (R117), if a copy stands before it. -/
def State.takeCopyEnd (s : State) : State :=
  if s.plans.copied = some 83 then
    { s with plans := s.plans.copyEnd }.notify (.copyDone s.plans.live.other)
  else s

/-! ### Fades and steps (R72, R76, R93) -/

/-- The fade of a lane completes (R72). -/
def State.takeFadeEnd (s : State) (z : Zone) (l : LaneId) : State :=
  { s with
    mixers := s.mixers.modify z fun m => m.changeLane l fun lane =>
      lane.completeFade (desired (s.plan.zones.get z) s.calls (s.zones.get z).state l).level }

/-- A chime player's step ends (R76), if it is still at the step's last frame. -/
def State.takeChimeEnd (s : State) (z : Zone) : State :=
  { s with mixers := s.mixers.modify z fun m =>
      if m.player.stepEnds then { m with player := m.player.endStep } else m }

/-- A tone generator's step ends (R93), if it is still at the step's last frame. -/
def State.takeToneEnd (s : State) (g : Tone) : State :=
  { s with sources := { s.sources with tones := s.sources.tones.modify g fun t =>
      if t.stepEnds then t.endStep else t } }

/-! ### Plan switches (R121) -/

/-- The source block at a switch (R96, R97). -/
def SourceBlock.switchPlan (b : SourceBlock) (new : Plan) : SourceBlock :=
  { trunks := b.trunks.update fun _ t => t.clearRuns
    tones := b.tones.update fun g t => t.follow new (new.tones.get g) }

/-- The generators that a switch takes from QUIET to ABSENT (R97). -/
def lostTones (before after : SourceBlock) : List Tone :=
  (List.finRange 4).filter fun g =>
    (before.tones.get g).playing.isSome && (after.tones.get g).playing.isNone

/-- The transmitter at a switch: a frame already built at the switch's boundary is sent with the removed generators
at 0 (R97; log 12). -/
def Transmitter.atSwitch (t : Transmitter) : Transmitter :=
  { t with
    sending := match t.switched with
      | none => t.sending
      | some f => some f
    switched := none }

/-- The switch in the plan store, the source block and the transmitter: the other bank becomes live, the record
becomes absent, the sources follow the new plan, and the losses of generators fall due (R96, R97, R121). -/
def State.switchBanks (s : State) : State :=
  let plans := { s.plans with live := s.plans.live.other, pending := none }
  let sources := s.sources.switchPlan plans.livePlan
  { s with
    plans := plans
    sources := sources
    out := s.out.atSwitch
    due := s.due ++ (lostTones s.sources sources).map fun g => .loss (toneSource g) }

/-- The switch in the call table, the zone arbiters and the mixers, with PLAN_SWITCHED after the call
notices (R29, R61, R62, R83, R121). -/
def State.switchCalls (s : State) (old : Plan) : State :=
  s.complete true [.planSwitched s.plans.live] ((Event.start s).switchPlan old s.plan)

/-- Remove a task that is due and do its work; a task that is not due is passed over (log 3). -/
def State.ifDue (s : State) (t : Task) (f : State → State) : State :=
  if s.due.contains t then f { s with due := s.due.erase t } else s

/-- Take a pending switch (R121). The losses of the generators listed are taken before the switch's work
on calls and zones, the others stay due (R97). -/
def State.takeSwitch (s : State) (lossesFirst : List Tone) : State :=
  match s.plans.pending with
  | none => s
  | some _ =>
    let banked := s.switchBanks
    let lossy := lossesFirst.foldl (fun s g => s.ifDue (.loss (toneSource g)) fun s => s.takeLoss (toneSource g)) banked
    lossy.switchCalls s.plan

end Sys2Proof.Machine
end

