-- ==== Sys2Proof/Machine/Operands.lean ====
section
/-! DEFINITION. Field encodings: the values payload words hold, the range checks of R153, and the words of
replies, notices and plan entries (R187, R188, R189; Tables 10-5 to 10-11). -/

namespace Sys2Proof.Machine

/-! ### Writing fields (R187) -/

/-- A number as a payload word. -/
def numWord (n : Nat) : Word := BitVec.ofNat 16 n

/-- A flag as a payload word. -/
def flagWord (b : Bool) : Word := if b then 1#16 else 0#16

/-- A call reference: record index times 16, plus generation (R187). -/
def refWord (r : CallRef) : Word := numWord (r.index.val * 16 + r.gen.val)

/-- A call reference or none (Table 10-5). -/
def optRefWord : Option CallRef → Word
  | none => Config.none16
  | some r => refWord r

/-- A source, slot, class or pattern number, or NONE (Table 10-5). -/
def opt8Word {n : Nat} : Option (Fin n) → Word
  | none => Config.none8
  | some x => numWord x.val

/-- A remaining time in milliseconds, 0 for none (R16, Table 10-5). -/
def remainingWord : Option Nat → Word
  | none => 0#16
  | some n => numWord (msOfFrames n)

/-- The code of a call state (Table 10-6). -/
def CallState.word : CallState → Word
  | .pending => 1#16
  | .chime => 2#16
  | .live => 3#16
  | .suspended => 4#16

/-- The code ENDED, used by CALL_RETARGET alone (Table 10-6). -/
def endedWord : Word := 5#16

/-- The code of an origin (Table 10-6). -/
def Origin.word : Origin → Word
  | .key => 0#16
  | .controller c _ => numWord c.address.toNat

/-- The request tag of an origin, NONE for KEY (Table 10-5). -/
def Origin.tagWord : Origin → Word
  | .key => Config.none16
  | .controller _ tag => numWord tag.toNat

/-- The code of an end cause (Table 10-6). -/
def EndCause.word : EndCause → Word
  | .released => 1#16
  | .cleared => 2#16
  | .unkeyed => 3#16
  | .duration => 4#16
  | .waitExpired => 5#16
  | .sourceLost => 6#16
  | .noZones => 7#16

/-- The code of a loss reason (Table 10-6). -/
def LossReason.word : LossReason → Word
  | .preempted => 1#16
  | .floor => 2#16
  | .depth => 3#16
  | .late => 4#16
  | .plan => 5#16

/-- The code of a zone phase (Table 10-6). -/
def Phase.word : Phase → Word
  | .idle => 0#16
  | .leadIn => 1#16
  | .onAir => 2#16

/-- The code of a source state (Table 10-6). -/
def SourceState.word : SourceState → Word
  | .absent => 0#16
  | .quiet => 1#16
  | .keyed => 2#16

/-- The code of a bank state (Table 10-6). -/
def BankState.word : BankState → Word
  | .empty => 0#16
  | .opened => 1#16
  | .copying => 2#16
  | .sealed => 3#16

/-- A bank number as a word. -/
def BankNo.word : BankNo → Word
  | .b0 => 0#16
  | .b1 => 1#16

/-- The code of a preempt policy (Table 10-6). -/
def Preempt.word : Preempt → Word
  | .resume => 0#16
  | .drop => 1#16

/-- The code of a late policy (Table 10-6). -/
def Late.word : Late → Word
  | .join => 0#16
  | .skip => 1#16

/-- The code of a duck mode (Table 10-6). -/
def Duck.word : Duck → Word
  | .duck => 0#16
  | .mute => 1#16
  | .keep => 2#16

/-- The code of an order mode (Table 10-6). -/
def OrderMode.word : OrderMode → Word
  | .fifo => 0#16
  | .rotate => 1#16

/-- A lane's current source (Table 10-5). -/
def LaneSource.word : LaneSource → Word
  | .none => Config.none8
  | .chime => Config.chimeCode
  | .source s => numWord s.val

/-- The code of a status (Table 10-7). -/
def Status.code : Status → BitVec 8
  | .ok => 0#8
  | .unknownKind => 1#8
  | .badLength => 2#8
  | .badField => 3#8
  | .full => 4#8
  | .stale => 5#8
  | .badClass => 6#8
  | .badSource => 7#8
  | .badTarget => 8#8
  | .sourceBusy => 9#8
  | .bankLive => 10#8
  | .bankSealed => 11#8
  | .bankEmpty => 12#8
  | .bankBusy => 13#8
  | .notSealed => 14#8
  | .switchPending => 15#8
  | .noTimebase => 16#8
  | .late => 17#8
  | .checkFailed => 18#8

/-! ### Reading fields (R187) -/

/-- A word at a place of a payload, 0 where there is none. -/
def wordAt (ws : List Word) (i : Nat) : Word := ws.getD i 0#16

/-- The number in a word lies in a range with both ends. -/
def inRange (lo hi : Nat) (w : Word) : Bool := decide (lo ≤ w.toNat) && decide (w.toNat ≤ hi)

/-- The word is a flag. -/
def isFlag (w : Word) : Bool := inRange 0 1 w

/-- The word is a number up to `hi`, or the NONE value 255. -/
def inRangeOrNone (hi : Nat) (w : Word) : Bool := inRange 0 hi w || decide (w = Config.none8)

/-- The word is a call reference, 0-511; 65,535 decodes to nothing in a request (R187). -/
def isRef (w : Word) : Bool := inRange 0 511 w

/-- The flag a word holds. -/
def wordFlag (w : Word) : Bool := decide (w = 1#16)

/-- The call reference a word holds: index in bits 8-4, generation in bits 3-0 (R187). -/
def wordRef (w : Word) : CallRef := ⟨Fin.ofNat 32 (w.toNat / 16), Fin.ofNat 16 w.toNat⟩

/-- The index a word holds. -/
def wordFin (n : Nat) [NeZero n] (w : Word) : Fin n := Fin.ofNat n w.toNat

/-- The index a word holds, or none for 255. -/
def wordOptFin (n : Nat) [NeZero n] (w : Word) : Option (Fin n) :=
  if w = Config.none8 then none else some (wordFin n w)

/-- The bank a word names. -/
def wordBank (w : Word) : BankNo := if w = 0#16 then .b0 else .b1

/-- The controller a word names by its address. -/
def wordController (w : Word) : Controller :=
  if w = 60#16 then .c60 else if w = 61#16 then .c61 else .c62

/-- The lowest number, counting from 1, of a field whose check fails (R153). -/
def firstBad : List Bool → Option Nat
  | [] => none
  | ok :: rest => if ok then (firstBad rest).map (· + 1) else some 1

/-! ### Plan entries (Table 10-10) -/

/-- The word is 0: a word beyond a table's last field (R188). -/
def isZero (w : Word) : Bool := decide (w = 0#16)

/-- Any word is a value of the field. -/
def anyWord (_ : Word) : Bool := true

/-- A step frequency: 0 or 100-4,000 Hz (R105). -/
def isFrequency (w : Word) : Bool := isZero w || inRange 100 4000 w

/-- A step duration: 1-10,000 ms (R105). -/
def isDuration (w : Word) : Bool := inRange 1 10000 w

/-- The checks of the eleven words of a class entry (R102). -/
def classChecks : List (Word → Bool) :=
  [isFlag, inRange 1 15, inRange 0 1, inRange 0 1, inRangeOrNone 7, inRange 0 10000, inRange 0 2,
   anyWord, anyWord, anyWord, isZero]

/-- The checks of the eleven words of a zone entry (R103). -/
def zoneChecks : List (Word → Bool) :=
  [inRangeOrNone 63, inRangeOrNone 51, inRange 0 127, inRange 0 127, inRange 0 127, inRange 0 15,
   inRange 0 1, inRange 1 8, isZero, isZero, isZero]

/-- The checks of the eleven words of a trunk source entry (R104). -/
def trunkChecks : List (Word → Bool) :=
  [inRangeOrNone 63, inRangeOrNone 7, anyWord, isZero, isZero, isZero, isZero, isZero, isZero, isZero, isZero]

/-- The checks of the eleven words of a tone generator entry: key class NONE, empty key target set (R104). -/
def toneChecks : List (Word → Bool) :=
  [inRangeOrNone 7, fun w => decide (w = Config.none8), isZero, isZero, isZero, isZero, isZero, isZero,
   isZero, isZero, isZero]

/-- The checks of the eleven words of a tone pattern entry; all four steps are checked (R105). -/
def patternChecks : List (Word → Bool) :=
  [isFlag, inRange 1 4, isFlag, isFrequency, isDuration, isFrequency, isDuration, isFrequency, isDuration,
   isFrequency, isDuration]

/-- Apply checks to words, one to each. -/
def applyChecks (checks : List (Word → Bool)) (ws : List Word) : List Bool :=
  (checks.zip ws).map fun x => x.1 x.2

/-- An entry of a plan, named by table and index (R101). -/
inductive EntryName where
  | cls (i : Fin 8)
  | zone (z : Zone)
  | trunk (s : Trunk)
  | tone (g : Tone)
  | pattern (i : Fin 8)
  deriving DecidableEq, Repr

/-- The number of entries of a table (R101). -/
def tableSize (table : Word) : Nat :=
  if table = 0#16 then 8 else if table = 1#16 then 16 else if table = 2#16 then 52 else 8

/-- The entry that a table number and an index in its range name. -/
def entryName (table index : Word) : EntryName :=
  if table = 0#16 then .cls (wordFin 8 index)
  else if table = 1#16 then .zone (wordFin 16 index)
  else if table = 2#16 then
    match splitSource (wordFin 52 index) with
    | .inl s => .trunk s
    | .inr g => .tone g
  else .pattern (wordFin 8 index)

/-- The checks of the entry words of an entry. -/
def entryChecks : EntryName → List (Word → Bool)
  | .cls _ => classChecks
  | .zone _ => zoneChecks
  | .trunk _ => trunkChecks
  | .tone _ => toneChecks
  | .pattern _ => patternChecks

/-- The class entry that eleven words hold; with the defined flag clear it is the blank entry (R106). -/
def wordsClass (ws : List Word) : Option ClassDef :=
  if wordFlag (wordAt ws 0) then
    some
      { priority := (wordAt ws 1).toNat
        preempt := if wordAt ws 2 = 0#16 then .resume else .drop
        late := if wordAt ws 3 = 0#16 then .join else .skip
        chime := wordOptFin 8 (wordAt ws 4)
        chimeMs := (wordAt ws 5).toNat
        duck := if wordAt ws 6 = 0#16 then .duck else if wordAt ws 6 = 1#16 then .mute else .keep
        waitMs := (wordAt ws 7).toNat
        durationMs := (wordAt ws 8).toNat
        holdMs := (wordAt ws 9).toNat }
  else none

/-- The zone entry that eleven words hold. -/
def wordsZone (ws : List Word) : ZoneEntry :=
  { slot := wordOptFin 64 (wordAt ws 0)
    programme := wordOptFin 52 (wordAt ws 1)
    programmeAtt := (wordAt ws 2).toNat
    duckAtt := (wordAt ws 3).toNat
    foregroundAtt := (wordAt ws 4).toNat
    floor := (wordAt ws 5).toNat
    order := if wordAt ws 6 = 0#16 then .fifo else .rotate
    ramp := (wordAt ws 7).toNat }

/-- The trunk source entry that eleven words hold. -/
def wordsTrunk (ws : List Word) : TrunkEntry :=
  { slot := wordOptFin 64 (wordAt ws 0), keyClass := wordOptFin 8 (wordAt ws 1), keyTargets := wordAt ws 2 }

/-- The four steps of eleven pattern words. -/
def wordsSteps (ws : List Word) : List PatternStep :=
  [⟨(wordAt ws 3).toNat, (wordAt ws 4).toNat⟩, ⟨(wordAt ws 5).toNat, (wordAt ws 6).toNat⟩,
   ⟨(wordAt ws 7).toNat, (wordAt ws 8).toNat⟩, ⟨(wordAt ws 9).toNat, (wordAt ws 10).toNat⟩]

/-- The pattern entry that eleven words hold: the steps up to the step count (R105); with the defined flag
clear it is the blank entry (R106). -/
def wordsPattern (ws : List Word) : Option Pattern :=
  if wordFlag (wordAt ws 0) then
    some { steps := (wordsSteps ws).take (wordAt ws 1).toNat, repeats := wordFlag (wordAt ws 2) }
  else none

/-- Store eleven words in an entry of a plan (R110). -/
def Plan.writeEntry (p : Plan) (ws : List Word) : EntryName → Plan
  | .cls i => { p with classes := p.classes.set i (wordsClass ws) }
  | .zone z => { p with zones := p.zones.set z (wordsZone ws) }
  | .trunk s => { p with trunks := p.trunks.set s (wordsTrunk ws) }
  | .tone g => { p with tones := p.tones.set g (wordOptFin 8 (wordAt ws 0)) }
  | .pattern i => { p with patterns := p.patterns.set i (wordsPattern ws) }

/-- Pad a list of words with zeros to eleven (Table 10-10). -/
def padEntry (ws : List Word) : List Word := (ws ++ List.replicate 11 0#16).take 11

/-- The words of a class entry; an undefined class reads as blank (R106). -/
def classWords (e : Option ClassDef) : List Word :=
  let d := e.getD blankClass
  padEntry
    [flagWord e.isSome, numWord d.priority, d.preempt.word, d.late.word, opt8Word d.chime, numWord d.chimeMs,
     d.duck.word, numWord d.waitMs, numWord d.durationMs, numWord d.holdMs]

/-- The words of a zone entry. -/
def zoneWords (e : ZoneEntry) : List Word :=
  padEntry
    [opt8Word e.slot, opt8Word e.programme, numWord e.programmeAtt, numWord e.duckAtt, numWord e.foregroundAtt,
     numWord e.floor, e.order.word, numWord e.ramp]

/-- The words of a trunk source entry. -/
def trunkWords (e : TrunkEntry) : List Word := padEntry [opt8Word e.slot, opt8Word e.keyClass, e.keyTargets]

/-- The words of a tone generator entry: key class NONE, empty key target set (R104). -/
def toneWords (e : Option (Fin 8)) : List Word := padEntry [opt8Word e, Config.none8, 0#16]

/-- The words of a tone pattern entry: the step count, then its steps followed by blank steps (R105); an
undefined pattern reads as blank (R106). -/
def patternWords (e : Option Pattern) : List Word :=
  let steps := match e with
    | none => [blankStep]
    | some p => p.steps
  let repeats := match e with
    | none => false
    | some p => p.repeats
  padEntry
    ([flagWord e.isSome, numWord steps.length, flagWord repeats]
      ++ ((steps ++ List.replicate 4 blankStep).take 4).flatMap fun st => [numWord st.hz, numWord st.ms])

/-- The words of an entry of a plan, as PLAN_READ returns them (R111). -/
def Plan.entryWords (p : Plan) : EntryName → List Word
  | .cls i => classWords (p.classes.get i)
  | .zone z => zoneWords (p.zones.get z)
  | .trunk s => trunkWords (p.trunks.get s)
  | .tone g => toneWords (p.tones.get g)
  | .pattern i => patternWords (p.patterns.get i)

/-! ### Notice entries (R189, Table 10-11) -/

/-- The kind code of a notice. -/
def Notice.code : Notice → Nat
  | .powerUp => 1
  | .nodeReset => 2
  | .callStatus _ _ _ => 3
  | .callEnded _ _ => 4
  | .zoneLost _ _ _ => 5
  | .keyRefused _ => 6
  | .link _ => 7
  | .planSwitched _ => 8
  | .switchAbandoned => 9
  | .copyDone _ => 10
  | .overflow _ => 11

/-- Words 2 to 4 of a notice entry. -/
def Notice.data : Notice → List Word
  | .powerUp => [0#16, 0#16, 0#16]
  | .nodeReset => [0#16, 0#16, 0#16]
  | .callStatus r st g => [refWord r, st.word, g]
  | .callEnded r cause => [refWord r, cause.word, 0#16]
  | .zoneLost r z reason => [refWord r, numWord z.val, reason.word]
  | .keyRefused s => [numWord s.val, 1#16, 0#16]
  | .link locked => [if locked then 2#16 else 0#16, 0#16, 0#16]
  | .planSwitched b => [b.word, 0#16, 0#16]
  | .switchAbandoned => [0#16, 0#16, 0#16]
  | .copyDone b => [b.word, 0#16, 0#16]
  | .overflow n => [numWord n, 0#16, 0#16]

/-- The four words of a notice entry (R189). -/
def NoticeEntry.words (e : NoticeEntry) : List Word :=
  numWord (e.seq.toNat * 256 + e.notice.code) :: e.notice.data

end Sys2Proof.Machine
end

