-- ==== Sys2Proof/Machine/Messages.lean ====
section
/-! DEFINITION. Messages on the control channel: the check word, the incoming stream, the request queue, the
outgoing arbiter and the filling of the control positions (R144 to R150, R156 to R159, R186). -/

namespace Sys2Proof.Machine

/-! ### The check word (R186) -/

/-- One data bit enters the 16-bit register. -/
def crcBit (reg : Word) (bit : Bool) : Word :=
  let shifted := reg <<< 1
  if reg.getLsbD 15 != bit then shifted ^^^ 4129#16 else shifted

/-- The 16 data bits of a word enter from bit 15 to bit 0. -/
def crcWord (reg w : Word) : Word :=
  (List.range 16).foldl (fun r i => crcBit r (w.getLsbD (15 - i))) reg

/-- The check word over some words (R144, R186): the register starts at all ones. -/
def checkWord (ws : List Word) : Word := ws.foldl crcWord 65535#16

/-! ### Headers (R186, Table 10-4) -/

/-- The destination address of a first word. -/
def destOf (w : Word) : BitVec 6 := w.extractLsb' 10 6

/-- The source address of a first word. -/
def srcOf (w : Word) : BitVec 6 := w.extractLsb' 4 6

/-- The class code of a first word. -/
def classOf (w : Word) : BitVec 4 := w.extractLsb' 0 4

/-- The kind of a second word. -/
def kindOf (w : Word) : BitVec 8 := w.extractLsb' 8 8

/-- The tag of a second word. -/
def tagOf (w : Word) : BitVec 8 := w.extractLsb' 0 8

/-- The payload length of a third word; a value above 28 decodes to no length. -/
def lengthOf (w : Word) : Nat := (w.extractLsb' 0 8).toNat

/-- The class code of a REQUEST. -/
def classRequest : BitVec 4 := 1#4

/-- The class code of a REPLY. -/
def classReply : BitVec 4 := 2#4

/-- The class code of a NOTICE. -/
def classNotice : BitVec 4 := 3#4

/-- The words of a message, check word included (R144). -/
def messageData (dest src : BitVec 6) (cls : BitVec 4) (kind tag status : BitVec 8) (payload : List Word) :
    List Word :=
  let body := (dest ++ src ++ cls) :: (kind ++ tag) :: (status ++ BitVec.ofNat 8 payload.length) :: payload
  body ++ [checkWord body]

/-- Mark the words that follow the first: MORE, and LAST for the final one (R144). -/
def markRest : List Word → List ControlWord
  | [] => []
  | [w] => [⟨.last, w⟩]
  | w :: rest => ⟨.more, w⟩ :: markRest rest

/-- Mark the words of a message (R144). -/
def markWords : List Word → List ControlWord
  | [] => []
  | w :: rest => ⟨.first, w⟩ :: markRest rest

/-- The control words of a reply (R154, R165). -/
def Reply.words (r : Reply) (address : BitVec 6) : List ControlWord :=
  markWords
    (messageData r.dest.address address classReply r.kind r.tag r.answer.status.code r.answer.results)

/-- The control words of a notice message over some entries (R134, R189). -/
def noticeWords (recipient : Controller) (address : BitVec 6) (entries : List NoticeEntry) : List ControlWord :=
  markWords
    (messageData recipient.address address classNotice Config.noticeKind (BitVec.ofNat 8 entries.length) 0#8
      (entries.flatMap NoticeEntry.words))

/-! ### The incoming stream (R145 to R150) -/

/-- A framing fault is counted (Table 7-2). -/
def MessageBlock.countFraming (m : MessageBlock) : MessageBlock :=
  { m with counters := { m.counters with framing := satInc m.counters.framing } }

/-- A forwarded message is abandoned: its words still in the transit buffer are removed. They are the
newest, so they are those after the last word marked LAST (R158). -/
def abandonForwarded (transit : List ControlWord) : List ControlWord :=
  (transit.reverse.dropWhile fun w => decide (w.marker ≠ .last)).reverse

/-- Abandon the forwarded message (R158). -/
def MessageBlock.abandon (m : MessageBlock) : MessageBlock := { m with transit := abandonForwarded m.transit }

/-- The consumed message in assembly is discarded with a framing count (R145, R148). -/
def MessageBlock.discardAssembly (m : MessageBlock) : MessageBlock := { m.countFraming with assembler := [] }

/-- A FIRST word begins a message: its header gives the disposition (case N2, R146). -/
def MessageBlock.beginMessage (m : MessageBlock) (address : BitVec 6) (w : ControlWord) : MessageBlock :=
  if destOf w.data = address then { m with input := .consume, assembler := [w.data] }
  else if destOf w.data = Config.broadcastAddress then
    { m with input := .broadcast, assembler := [w.data], transit := m.transit ++ [w] }
  else if srcOf w.data = address then
    { m with input := .scrub, assembler := [],
             counters := { m.counters with returned := satInc m.counters.returned } }
  else { m with input := .forward, assembler := [], transit := m.transit ++ [w] }

/-- A good request is appended to the request queue, or discarded and counted when the queue is full (R150). -/
def MessageBlock.appendRequest (m : MessageBlock) (r : Request) : MessageBlock :=
  if m.requests.length < Config.requestQueueLimit then { m with requests := m.requests ++ [r] }
  else { m with counters := { m.counters with overflow := satInc m.counters.overflow } }

/-- The checks of a complete consumed message (R149). -/
def MessageBlock.checkMessage (m : MessageBlock) (ws : List Word) : MessageBlock :=
  let body := ws.dropLast
  let w1 := wordAt ws 0
  if checkWord body ≠ wordAt ws (ws.length - 1) then
    { m with counters := { m.counters with badCheck := satInc m.counters.badCheck } }
  else
    match controllerAt (srcOf w1) with
    | none => { m with counters := { m.counters with unauthorized := satInc m.counters.unauthorized } }
    | some c =>
      if classOf w1 ≠ classRequest then
        { m with counters := { m.counters with unauthorized := satInc m.counters.unauthorized } }
      else
        m.appendRequest
          { source := c
            isBroadcast := decide (destOf w1 = Config.broadcastAddress)
            kind := kindOf (wordAt ws 1)
            tag := tagOf (wordAt ws 1)
            len := lengthOf (wordAt ws 2)
            payload := body.drop 3 }

/-- A MORE or LAST word is given to the receive assembler (R148). `rest` is the input state in which the
remainder of a rejected message is spent: DISCARD, or FORWARD for a broadcast. -/
def MessageBlock.assemble (m : MessageBlock) (w : ControlWord) (rest : InputState) : MessageBlock :=
  let ws := m.assembler ++ [w.data]
  let n := ws.length
  let isLast := decide (w.marker = .last)
  let len := lengthOf (wordAt ws 2)
  let expected := 4 + len
  if isLast && decide (n ≤ 3) then { m.discardAssembly with input := .between }
  else if n = 3 ∧ Config.payloadLimit < len then { m.discardAssembly with input := rest }
  else if n ≤ 3 then { m with assembler := ws }
  else if isLast then
    if n < expected then { m.discardAssembly with input := .between }
    else MessageBlock.checkMessage { m with input := .between, assembler := [] } ws
  else if n < expected then { m with assembler := ws }
  else { m.discardAssembly with input := rest }

/-- One input word is taken, by the cases of Table 7-1 (R145). -/
def MessageBlock.intake (m : MessageBlock) (address : BitVec 6) (w : ControlWord) : MessageBlock :=
  match m.input, w.marker with
  | .between, .idle => m
  | .between, .first => m.beginMessage address w
  | .between, .more => { m.countFraming with input := .discard }
  | .between, .last => m.countFraming
  | .forward, .more => { m with transit := m.transit ++ [w] }
  | .forward, .last => { m with transit := m.transit ++ [w], input := .between }
  | .forward, .idle => { m.abandon with input := .between }
  | .forward, .first => m.abandon.beginMessage address w
  | .consume, .more => m.assemble w .discard
  | .consume, .last => m.assemble w .discard
  | .consume, .idle => { m.discardAssembly with input := .between }
  | .consume, .first => m.discardAssembly.beginMessage address w
  | .broadcast, .more => { m with transit := m.transit ++ [w] }.assemble w .forward
  | .broadcast, .last => { { m with transit := m.transit ++ [w] }.assemble w .forward with input := .between }
  | .broadcast, .idle => { m.discardAssembly.abandon with input := .between }
  | .broadcast, .first => m.discardAssembly.abandon.beginMessage address w
  | .scrub, .more => m
  | .scrub, .last => { m with input := .between }
  | .scrub, .idle => { m with input := .between }
  | .scrub, .first => m.beginMessage address w
  | .discard, .more => m
  | .discard, .last => { m with input := .between }
  | .discard, .idle => { m with input := .between }
  | .discard, .first => m.beginMessage address w

/-! ### The outgoing channel (R156, R157) -/

/-- The word placed in an output position (R156): the next word of an own message, else the oldest transit
word, else IDLE. -/
def MessageBlock.emit (m : MessageBlock) : MessageBlock × ControlWord :=
  match m.own with
  | w :: rest => ({ m with own := rest }, w)
  | [] =>
    match m.transit with
    | w :: rest => ({ m with transit := rest }, w)
    | [] => (m, idleWord)

/-- One position: its input word is taken, then its output word is placed (R156). -/
def MessageBlock.position (m : MessageBlock) (address : BitVec 6) (w : ControlWord) :
    MessageBlock × ControlWord :=
  (m.intake address w).emit

/-- The positions of a boundary, one after another (R156). -/
def MessageBlock.positions (address : BitVec 6) : List ControlWord → MessageBlock → MessageBlock × List ControlWord
  | [], m => (m, [])
  | w :: rest, m =>
    let one := m.position address w
    let more := MessageBlock.positions address rest one.1
    (more.1, one.2 :: more.2)

/-- The outgoing arbiter may begin a message of the part's own (R157). -/
def MessageBlock.mayBegin (m : MessageBlock) : Bool :=
  m.own.isEmpty && m.transit.isEmpty && decide (m.input ≠ .forward) && decide (m.input ≠ .broadcast)

/-- The oldest reply begins, if the arbiter may begin a message (R157, R159). A transit-only part begins
nothing (R147). -/
def State.beginReply (s : State) : State :=
  if s.transitOnly || !s.msg.mayBegin then s
  else
    match s.msg.replies with
    | [] => s
    | r :: rest => { s with msg := { s.msg with replies := rest, own := r.words s.address } }

/-- A notice message is formed and begins, if the arbiter may begin a message, no reply waits and the notice
block has one ready (R134, R157). -/
def State.beginNotice (s : State) (held : Bool) : State :=
  if s.transitOnly || !s.msg.mayBegin || !s.msg.replies.isEmpty || !s.notices.enabled || !s.notices.anyUnsent then s
  else
    { s with
      msg := { s.msg with own := noticeWords s.notices.recipient s.address s.notices.batch }
      notices := s.notices.form held }

/-- The outgoing arbiter's action at a boundary (R157): a reply, else a notice message, else nothing. -/
def State.arbitrate (s : State) : State := s.beginReply.beginNotice false

/-- The control stage of a boundary: the arbiter, then the four positions (R156, R157, R181). A
transit-only part copies each control word into the same position (R147). -/
def State.controlStage (s : State) : State :=
  if s.transitOnly then { s with out := { s.out with words := s.now.frame.words } }
  else
    let s := s.arbitrate
    let done := MessageBlock.positions s.address s.now.frame.words.cells s.msg
    { s with
      msg := done.1
      out := { s.out with words := Table.tabulate fun i => done.2.getD i.val idleWord } }

end Sys2Proof.Machine
end

