-- ==== Sys2Proof/Machine/Processor.lean ====
section
/-! DEFINITION. The request processor: taking a request, the duplicate check, the common checks, the reply (R151 to R155). -/

namespace Sys2Proof.Machine

/-- An answer with status OK. -/
def Answer.okWith (results : List Word) : Answer := ⟨.ok, results⟩

/-- A refusal without result fields (R154). -/
def Answer.refuse (st : Status) : Answer := ⟨st, []⟩

/-- BAD_FIELD naming a field by its number (R153, R188). -/
def Answer.badFieldAt (n : Nat) : Answer := ⟨.badField, [numWord n]⟩

/-- The request can be taken: a broadcast at any time, an addressed request when the reply queue has room
(R151). -/
def MessageBlock.canTake (m : MessageBlock) (r : Request) : Bool :=
  r.isBroadcast || decide (m.replies.length < Config.replyQueueLimit)

/-- The stored answer when an addressed request is a duplicate (R152). -/
def MessageBlock.duplicate? (m : MessageBlock) (r : Request) : Option Answer :=
  if r.isBroadcast then none
  else
    match m.cache.entry r.source with
    | none => none
    | some e => if e.tag = r.tag ∧ e.kind = r.kind then some e.answer else none

/-- A reply to a request is appended to the reply queue (R154, R159). -/
def MessageBlock.pushReply (m : MessageBlock) (r : Request) (a : Answer) : MessageBlock :=
  { m with replies := m.replies ++ [{ dest := r.source, kind := r.kind, tag := r.tag, answer := a }] }

/-- The reply of an executed addressed request is queued and cached; a broadcast gives neither (R152, R154,
R155). -/
def MessageBlock.finish (m : MessageBlock) (r : Request) (a : Answer) : MessageBlock :=
  if r.isBroadcast then m
  else { m.pushReply r a with cache := m.cache.put r.source { tag := r.tag, kind := r.kind, answer := a } }

/-- A request leaves the queue and is counted (R151). -/
def MessageBlock.take (m : MessageBlock) (rest : List Request) : MessageBlock :=
  { m with requests := rest, counters := { m.counters with taken := satInc m.counters.taken } }

/-- A duplicate is answered from the cache and counted (R152). -/
def MessageBlock.replay (m : MessageBlock) (r : Request) (a : Answer) : MessageBlock :=
  { m.pushReply r a with counters := { m.counters with duplicate := satInc m.counters.duplicate } }

/-- What an owning block makes of a request: the state after its event, and the answer. -/
abbrev Owner := Request → State → State × Answer

/-- Handle a request that has been removed from the queue (R151): the duplicate check, then the owner with
its checks and effects, then the reply. -/
def State.handle (s : State) (r : Request) (own : Owner) : State :=
  match s.msg.duplicate? r with
  | some a => { s with msg := s.msg.replay r a }
  | none =>
    let done := own r s
    { done.1 with msg := done.1.msg.finish r done.2 }

/-- The processor takes the oldest request when its kind passes a test and it can be taken; otherwise
nothing happens (R151; log 2, log 3). -/
def State.takeRequest (s : State) (isKind : BitVec 8 → Bool) (own : Owner) : State :=
  match s.msg.requests with
  | [] => s
  | r :: rest =>
    if isKind r.kind && s.msg.canTake r then { s with msg := s.msg.take rest }.handle r own else s

/-- The common checks of a kind with a fixed payload length (R153): length, then fields in order, the
lowest-numbered failing field being named; then the owner's work. -/
def checked (len : Nat) (fields : List Word → List Bool) (act : List Word → Owner) : Owner := fun r s =>
  if r.len ≠ len then (s, Answer.refuse .badLength)
  else
    match firstBad (fields r.payload) with
    | some n => (s, Answer.badFieldAt n)
    | none => act r.payload r s

/-- The kinds of Table 10-8. -/
def knownKinds : List (BitVec 8) :=
  [1#8, 2#8, 3#8, 4#8, 5#8, 16#8, 17#8, 18#8, 24#8, 32#8, 33#8, 34#8, 35#8, 36#8, 37#8, 38#8, 39#8, 48#8, 49#8,
   64#8, 65#8, 66#8]

/-- The kind is a request kind of the part (R153). -/
def isKnownKind (k : BitVec 8) : Bool := knownKinds.contains k

end Sys2Proof.Machine
end

