-- ==== Sys2Proof/Machine/CallRequests.lean ====
section
/-! DEFINITION. The requests the call table owns: CALL_OPEN, CALL_RELEASE, CALL_RETARGET, CLEAR_CALLS, CALL_READ (R8, R24 to R28). -/

namespace Sys2Proof.Machine

/-- Some zone of the set is unused in the plan. -/
def Plan.hasUnused (p : Plan) (m : ZoneSet) : Bool := (ZoneSet.zones m).any fun z => !p.used z

/-- The result fields of an admitted CALL_OPEN: reference, state and granted set when its event is complete
(R9). -/
def openResults (t : CallTable) (r : CallRef) : List Word :=
  match t.status? r with
  | none => [refWord r, endedWord, 0#16]
  | some st => [refWord r, st.1.word, st.2]

/-- CALL_OPEN after the common checks: the five checks of R8 in order, then the admission of R7. -/
def openCall (cls : Fin 8) (src : Source) (target : ZoneSet) (r : Request) (s : State) : State × Answer :=
  match s.plan.classes.get cls with
  | none => (s, Answer.refuse .badClass)
  | some d =>
    if !s.plan.mapped src || s.sources.isAbsent src then (s, Answer.refuse .badSource)
    else if decide (target = 0#16) || s.plan.hasUnused target then (s, Answer.refuse .badTarget)
    else
      match s.calls.ofSource? src with
      | some _ => (s, Answer.refuse .sourceBusy)
      | none =>
        match s.calls.freeIndex? with
        | none => (s, Answer.refuse .full)
        | some i =>
          let t := s.event fun p e => e.openRecord p (.controller r.source r.tag) cls d src target
          (t, Answer.okWith (openResults t.calls ⟨i, (s.calls.records.get i).gen⟩))

/-- The owner of CALL_OPEN (R8, R153): class 0-7, source 0-51, target set. -/
def ownCallOpen : Owner :=
  checked 3 (fun ws => [inRange 0 7 (wordAt ws 0), inRange 0 51 (wordAt ws 1), true]) fun ws r s =>
    openCall (wordFin 8 (wordAt ws 0)) (wordFin 52 (wordAt ws 1)) (wordAt ws 2) r s

/-- The fields of a request whose only field is a call reference. -/
def refFields (ws : List Word) : List Bool := [isRef (wordAt ws 0)]

/-- CALL_RELEASE after the common checks (R24). -/
def releaseCall (c : CallRef) (s : State) : State × Answer :=
  match s.calls.call? c with
  | none => (s, Answer.refuse .stale)
  | some _ => (s.event fun p e => e.endCall p c .released, Answer.okWith [refWord c])

/-- The owner of CALL_RELEASE (R24). -/
def ownCallRelease : Owner := checked 1 refFields fun ws _ s => releaseCall (wordRef (wordAt ws 0)) s

/-- The result fields of CALL_RETARGET when its event is complete (R26). -/
def retargetResults (t : CallTable) (c : CallRef) : List Word :=
  match t.call? c with
  | none => [refWord c, endedWord, 0#16, 0#16]
  | some call => [refWord c, call.state.word, call.target, call.granted]

/-- CALL_RETARGET after the common checks: the three checks of R25 in order, then R26. -/
def retargetCall (c : CallRef) (add remove : ZoneSet) (s : State) : State × Answer :=
  if add &&& remove ≠ 0#16 then (s, Answer.badFieldAt 3)
  else
    match s.calls.call? c with
    | none => (s, Answer.refuse .stale)
    | some _ =>
      if s.plan.hasUnused add then (s, Answer.refuse .badTarget)
      else
        let t := s.event fun p e => e.retarget p c add remove
        (t, Answer.okWith (retargetResults t.calls c))

/-- The owner of CALL_RETARGET (R25, R26). -/
def ownCallRetarget : Owner :=
  checked 3 (fun ws => [isRef (wordAt ws 0), true, true]) fun ws _ s =>
    retargetCall (wordRef (wordAt ws 0)) (wordAt ws 1) (wordAt ws 2) s

/-- The number of calls an event has ended with cause CLEARED (R27). -/
def clearedCount (e : Event) : Nat := (e.ended.filter fun x => decide (x.2 = .cleared)).length

/-- CLEAR_CALLS after the common checks (R27). -/
def clearCalls (maxPriority : Nat) (includeKey : Bool) (s : State) : State × Answer :=
  let e := (Event.start s).clear s.plan (s.calls.clearSelection maxPriority includeKey)
  (s.complete false [] e, Answer.okWith [numWord (clearedCount e)])

/-- The owner of CLEAR_CALLS (R27): maximum priority 1-15, include-key flag. -/
def ownClearCalls : Owner :=
  checked 2 (fun ws => [inRange 1 15 (wordAt ws 0), isFlag (wordAt ws 1)]) fun ws _ s =>
    clearCalls (wordAt ws 0).toNat (wordFlag (wordAt ws 1)) s

/-- The 24 result words of CALL_READ (Table 10-9). -/
def callReadResults (t : CallTable) (r : CallRef) (c : Call) : List Word :=
  [refWord r, c.state.word, numWord (t.admission.idxOf r), c.origin.word, c.origin.tagWord, numWord c.cls.val,
   numWord c.captured.priority, c.captured.preempt.word, c.captured.late.word, opt8Word c.captured.chime,
   numWord c.captured.chimeMs, c.captured.duck.word, numWord c.captured.waitMs, numWord c.captured.durationMs,
   numWord c.captured.holdMs, numWord c.source.val, c.target, c.granted, c.suspended, flagWord c.speak,
   flagWord c.everGranted, remainingWord c.wait, remainingWord c.duration, remainingWord c.hold]

/-- CALL_READ after the common checks (R28). -/
def readCall (r : CallRef) (s : State) : State × Answer :=
  match s.calls.call? r with
  | none => (s, Answer.refuse .stale)
  | some c => (s, Answer.okWith (callReadResults s.calls r c))

/-- The owner of CALL_READ (R28). -/
def ownCallRead : Owner := checked 1 refFields fun ws _ s => readCall (wordRef (wordAt ws 0)) s

/-- The processor takes a CALL_OPEN. -/
def takeCallOpen (s : State) : State := s.takeRequest (fun k => decide (k = 1#8)) ownCallOpen

/-- The processor takes a CALL_RELEASE. -/
def takeCallRelease (s : State) : State := s.takeRequest (fun k => decide (k = 2#8)) ownCallRelease

/-- The processor takes a CALL_RETARGET. -/
def takeCallRetarget (s : State) : State := s.takeRequest (fun k => decide (k = 3#8)) ownCallRetarget

/-- The processor takes a CLEAR_CALLS. -/
def takeClearCalls (s : State) : State := s.takeRequest (fun k => decide (k = 4#8)) ownClearCalls

/-- The processor takes a CALL_READ. -/
def takeCallRead (s : State) : State := s.takeRequest (fun k => decide (k = 5#8)) ownCallRead

/-- CALL_OPEN (R8, R151). -/
def execCallOpen (s : State) : Host.Outcome State Fault Refusal := s.running takeCallOpen

/-- CALL_RELEASE (R24, R151). -/
def execCallRelease (s : State) : Host.Outcome State Fault Refusal := s.running takeCallRelease

/-- CALL_RETARGET (R26, R151). -/
def execCallRetarget (s : State) : Host.Outcome State Fault Refusal := s.running takeCallRetarget

/-- CLEAR_CALLS (R27, R151). -/
def execClearCalls (s : State) : Host.Outcome State Fault Refusal := s.running takeClearCalls

/-- CALL_READ (R28, R151). -/
def execCallRead (s : State) : Host.Outcome State Fault Refusal := s.running takeCallRead

end Sys2Proof.Machine
end

