-- ==== Sys2Proof/Machine/ZoneRequests.lean ====
section
/-! DEFINITION. The requests the zone arbiters and the source block own: ZONE_RESTRICT, ZONE_PROBE, ZONE_READ, SOURCE_READ (R63 to R65, R95). -/

namespace Sys2Proof.Machine

/-! ### ZONE_RESTRICT (R63) -/

/-- The restriction of every zone in the set is set, and every zone in the set is evaluated (R63). -/
def Event.restrict (p : Plan) (m : ZoneSet) (floor : Nat) (e : Event) : Event :=
  let zs := ZoneSet.zones m
  let e := zs.foldl (fun e z => e.changeZone z fun zr => { zr with restriction := floor }) e
  e.evaluateAll p zs

/-- The zones of a request whose live call differs between two sets of zone records (R63). -/
def changedSet (m : ZoneSet) (before after : Table 16 ZoneRecord) : ZoneSet :=
  ZoneSet.ofTest fun z =>
    ZoneSet.has m z && decide ((before.get z).state.live? ≠ (after.get z).state.live?)

/-- ZONE_RESTRICT after the common checks (R63). -/
def restrictZones (m : ZoneSet) (floor : Nat) (s : State) : State × Answer :=
  if s.plan.hasUnused m then (s, Answer.refuse .badTarget)
  else
    let t := s.event fun p e => e.restrict p m floor
    (t, Answer.okWith [changedSet m s.zones t.zones])

/-- The owner of ZONE_RESTRICT: zone set, minimum priority 0-15 (R63). -/
def ownZoneRestrict : Owner :=
  checked 2 (fun ws => [true, inRange 0 15 (wordAt ws 1)]) fun ws _ s =>
    restrictZones (wordAt ws 0) (wordAt ws 1).toNat s

/-! ### ZONE_PROBE (R64) -/

/-- The displaced call's fate and the evicted call of a GRANT over a live call (R64): 1 SUSPEND,
2 SUSPEND_EVICT, 3 DROP. -/
def probeFate (stack : List StackEntry) (preempt : Preempt) : Word × Option CallRef :=
  match preempt with
  | .drop => (3#16, none)
  | .resume =>
    if stack.length < Config.stackLimit then (1#16, none)
    else (2#16, stack.getLast?.map StackEntry.call)

/-- The seven result words of ZONE_PROBE (R64, Table 10-8). -/
def probeResults (p : Plan) (calls : CallTable) (zones : Table 16 ZoneRecord) (z : Zone) (priority : Nat) : List Word :=
  let floor := effectiveFloor p zones z
  let zone := zones.get z
  let live := zone.state.live?
  let fields := liveFields calls zone.state
  let livePriority := match fields with
    | none => 0
    | some f => f.2.priority
  let opening := [numWord floor, optRefWord live, numWord livePriority]
  if priority < floor then opening ++ [0#16, Config.none16, 0#16, Config.none16]
  else
    match fields with
    | none => opening ++ [1#16, Config.none16, 0#16, Config.none16]
    | some f =>
      if f.2.priority < priority then
        let fate := probeFate zone.stack f.2.preempt
        opening ++ [1#16, optRefWord live, fate.1, optRefWord fate.2]
      else opening ++ [2#16, Config.none16, 0#16, Config.none16]

/-- ZONE_PROBE after the common checks (R64). -/
def probeZone (z : Zone) (priority : Nat) (s : State) : State × Answer :=
  if s.plan.used z then (s, Answer.okWith (probeResults s.plan s.calls s.zones z priority))
  else (s, Answer.refuse .badTarget)

/-- The owner of ZONE_PROBE: zone, priority 1-15 (R64). -/
def ownZoneProbe : Owner :=
  checked 2 (fun ws => [inRange 0 15 (wordAt ws 0), inRange 1 15 (wordAt ws 1)]) fun ws _ s =>
    probeZone (wordFin 16 (wordAt ws 0)) (wordAt ws 1).toNat s

/-! ### ZONE_READ (R65) -/

/-- A stack entry as ZONE_READ reports it: the reference in bits 8-0, bit 15 set for ON_AIR (R188). -/
def stackWord (e : StackEntry) : Word :=
  match e.resume with
  | .leadIn => refWord e.call
  | .onAir => refWord e.call ||| 0x8000#16

/-- The stack position reported, 65,535 beyond the entries (R188). -/
def stackWordAt (stack : List StackEntry) (i : Nat) : Word :=
  match stack[i]? with
  | none => Config.none16
  | some e => stackWord e

/-- The 18 result words of ZONE_READ (Table 10-9). -/
def zoneReadResults (p : Plan) (zones : Table 16 ZoneRecord) (m : Mixer) (z : Zone) : List Word :=
  let zone := zones.get z
  let entry := p.zones.get z
  [flagWord (p.used z), zone.state.phase.word, optRefWord zone.state.live?, remainingWord zone.state.remaining?,
   numWord zone.stack.length, stackWordAt zone.stack 0, stackWordAt zone.stack 1, stackWordAt zone.stack 2,
   stackWordAt zone.stack 3, numWord entry.floor, numWord zone.restriction, numWord (effectiveFloor p zones z),
   entry.order.word, opt8Word zone.lastServed, m.foreground.current.word, numWord m.foreground.att,
   m.background.current.word, numWord m.background.att]

/-- ZONE_READ after the common checks (R65). -/
def readZone (z : Zone) (s : State) : State × Answer :=
  (s, Answer.okWith (zoneReadResults s.plan s.zones (s.mixers.get z) z))

/-- The owner of ZONE_READ (R65). -/
def ownZoneRead : Owner :=
  checked 1 (fun ws => [inRange 0 15 (wordAt ws 0)]) fun ws _ s => readZone (wordFin 16 (wordAt ws 0)) s

/-! ### SOURCE_READ (R95) -/

/-- The flags word: bit 0 PRESENT, bit 1 KEYED (Table 10-9). -/
def flagsWord (present keyed : Bool) : Word := numWord ((if present then 1 else 0) + (if keyed then 2 else 0))

/-- The 11 result words of SOURCE_READ for a trunk source (Table 10-9). -/
def trunkReadResults (src : Source) (openCall : Option CallRef) (entry : TrunkEntry) (t : TrunkRecord) : List Word :=
  [numWord src.val, t.state.word, optRefWord openCall, opt8Word entry.slot, opt8Word entry.keyClass,
   entry.keyTargets, flagsWord t.flagPresent t.flagKeyed, numWord t.presence, numWord t.key, numWord t.release,
   numWord t.absence]

/-- The position of a tone generator, if it is playing. -/
def ToneGen.pos? (g : ToneGen) : Option StepPos :=
  match g.playing with
  | none => none
  | some t => t.pos

/-- The 11 result words of SOURCE_READ for a tone generator (R95, Table 10-9). -/
def toneReadResults (src : Source) (openCall : Option CallRef) (entry : Option (Fin 8)) (g : ToneGen) : List Word :=
  [numWord src.val, if g.playing.isSome then 1#16 else 0#16, optRefWord openCall, opt8Word entry, Config.none8,
   0#16, flagsWord g.playing.isSome false, numWord ((g.pos?.map StepPos.number).getD 0),
   remainingWord (g.pos?.map StepPos.remaining), 0#16, 0#16]

/-- The result words of SOURCE_READ (R95). -/
def sourceReadResults (p : Plan) (calls : CallTable) (b : SourceBlock) (src : Source) : List Word :=
  match splitSource src with
  | .inl t => trunkReadResults src (calls.ofSource? src) (p.trunks.get t) (b.trunks.get t)
  | .inr g => toneReadResults src (calls.ofSource? src) (p.tones.get g) (b.tones.get g)

/-- SOURCE_READ after the common checks (R95). -/
def readSource (src : Source) (s : State) : State × Answer :=
  (s, Answer.okWith (sourceReadResults s.plan s.calls s.sources src))

/-- The owner of SOURCE_READ (R95). -/
def ownSourceRead : Owner :=
  checked 1 (fun ws => [inRange 0 51 (wordAt ws 0)]) fun ws _ s => readSource (wordFin 52 (wordAt ws 0)) s

/-! ### The commands -/

/-- The processor takes a ZONE_RESTRICT. -/
def takeZoneRestrict (s : State) : State := s.takeRequest (fun k => decide (k = 16#8)) ownZoneRestrict

/-- The processor takes a ZONE_PROBE. -/
def takeZoneProbe (s : State) : State := s.takeRequest (fun k => decide (k = 17#8)) ownZoneProbe

/-- The processor takes a ZONE_READ. -/
def takeZoneRead (s : State) : State := s.takeRequest (fun k => decide (k = 18#8)) ownZoneRead

/-- The processor takes a SOURCE_READ. -/
def takeSourceRead (s : State) : State := s.takeRequest (fun k => decide (k = 24#8)) ownSourceRead

/-- ZONE_RESTRICT (R63, R151). -/
def execZoneRestrict (s : State) : Host.Outcome State Fault Refusal := s.running takeZoneRestrict

/-- ZONE_PROBE (R64, R151). -/
def execZoneProbe (s : State) : Host.Outcome State Fault Refusal := s.running takeZoneProbe

/-- ZONE_READ (R65, R151). -/
def execZoneRead (s : State) : Host.Outcome State Fault Refusal := s.running takeZoneRead

/-- SOURCE_READ (R95, R151). -/
def execSourceRead (s : State) : Host.Outcome State Fault Refusal := s.running takeSourceRead

end Sys2Proof.Machine
end

