-- ==== Sys2Proof/Machine/PlanRequests.lean ====
section
/-! DEFINITION. The requests the plan store owns: PLAN_WRITE, PLAN_READ, PLAN_ERASE, PLAN_SEAL, PLAN_UNSEAL, PLAN_COPY, PLAN_SWITCH, PLAN_STATUS (R110 to R118, R123). -/

namespace Sys2Proof.Machine

/-- Give the other bank a state, keeping its entries. -/
def PlanStore.setOtherState (p : PlanStore) (st : BankState) : PlanStore :=
  p.setBank p.live.other { p.otherBank with state := st }

/-- Every entry of the other bank becomes unprogrammed, and it takes a state (R112, R116). -/
def PlanStore.blankOther (p : PlanStore) (st : BankState) : PlanStore :=
  p.setBank p.live.other { state := st, plan := blankPlan }

/-- Put a plan store in the state. -/
def State.withPlans (s : State) (p : PlanStore) : State := { s with plans := p }

/-- The checks of a bank word: 0 or 1. -/
def isBank (w : Word) : Bool := inRange 0 1 w

/-- The checks of table and index fields: an index beyond the named table fails at its own field (R188). -/
def tableChecks (ws : List Word) : List Bool :=
  [isBank (wordAt ws 0), inRange 0 3 (wordAt ws 1),
   decide ((wordAt ws 2).toNat < tableSize (wordAt ws 1))]

/-! ### PLAN_WRITE and PLAN_READ (R110, R111) -/

/-- PLAN_WRITE after the common checks (R110). -/
def writePlan (bank : BankNo) (entry : EntryName) (words : List Word) (s : State) : State × Answer :=
  if bank = s.plans.live then (s, Answer.refuse .bankLive)
  else
    match (s.plans.bank bank).state with
    | .copying => (s, Answer.refuse .bankBusy)
    | .sealed => (s, Answer.refuse .bankSealed)
    | .empty =>
      (s.withPlans (s.plans.setBank bank
        { state := .opened, plan := (s.plans.bank bank).plan.writeEntry words entry }),
        Answer.okWith [BankState.opened.word])
    | .opened =>
      (s.withPlans (s.plans.setBank bank
        { state := .opened, plan := (s.plans.bank bank).plan.writeEntry words entry }),
        Answer.okWith [BankState.opened.word])

/-- The owner of PLAN_WRITE: bank, table, index, eleven entry words (R104, R110, R188). -/
def ownPlanWrite : Owner :=
  checked 14
    (fun ws => tableChecks ws ++ applyChecks (entryChecks (entryName (wordAt ws 1) (wordAt ws 2))) (ws.drop 3))
    fun ws _ s =>
      writePlan (wordBank (wordAt ws 0)) (entryName (wordAt ws 1) (wordAt ws 2)) (ws.drop 3) s

/-- PLAN_READ after the common checks (R111). -/
def readPlan (bank : BankNo) (entry : EntryName) (s : State) : State × Answer :=
  if (s.plans.bank bank).state = .copying then (s, Answer.refuse .bankBusy)
  else
    (s, Answer.okWith ((s.plans.bank bank).state.word :: (s.plans.bank bank).plan.entryWords entry))

/-- The owner of PLAN_READ: bank, table, index (R111). -/
def ownPlanRead : Owner :=
  checked 3 tableChecks fun ws _ s =>
    readPlan (wordBank (wordAt ws 0)) (entryName (wordAt ws 1) (wordAt ws 2)) s

/-! ### PLAN_ERASE, PLAN_SEAL, PLAN_UNSEAL (R112 to R115) -/

/-- PLAN_ERASE after the common checks (R112). -/
def erasePlan (bank : BankNo) (s : State) : State × Answer :=
  if bank = s.plans.live then (s, Answer.refuse .bankLive)
  else if (s.plans.bank bank).state = .copying then (s, Answer.refuse .bankBusy)
  else if s.plans.pending.isSome then (s, Answer.refuse .switchPending)
  else (s.withPlans (s.plans.setBank bank { state := .empty, plan := blankPlan }), Answer.okWith [])

/-- The fields of a request whose only field is a bank. -/
def bankFields (ws : List Word) : List Bool := [isBank (wordAt ws 0)]

/-- The owner of PLAN_ERASE (R112). -/
def ownPlanErase : Owner := checked 1 bankFields fun ws _ s => erasePlan (wordBank (wordAt ws 0)) s

/-- Item 1 of the seal check fails at a zone: a lower-numbered used zone holds its output slot (R114). -/
def sealItem1 (p : Plan) (z : Zone) : Bool :=
  (p.zones.get z).slot.isSome &&
    (List.finRange 16).any fun y => decide (y < z) && decide ((p.zones.get y).slot = (p.zones.get z).slot)

/-- Item 2 fails at a trunk source: a lower-numbered mapped trunk source holds its input slot (R114). -/
def sealItem2 (p : Plan) (s : Trunk) : Bool :=
  (p.trunks.get s).slot.isSome &&
    (List.finRange 48).any fun y => decide (y < s) && decide ((p.trunks.get y).slot = (p.trunks.get s).slot)

/-- Item 3 fails at a trunk source: its key class is undefined (R114). -/
def sealItem3 (p : Plan) (s : Trunk) : Bool :=
  match (p.trunks.get s).keyClass with
  | none => false
  | some c => (p.classes.get c).isNone

/-- Item 4 fails at a trunk source: it has a key class, and its key target set is empty or holds an unused
zone (R114). -/
def sealItem4 (p : Plan) (s : Trunk) : Bool :=
  (p.trunks.get s).keyClass.isSome &&
    (decide ((p.trunks.get s).keyTargets = 0#16) || p.hasUnused (p.trunks.get s).keyTargets)

/-- Item 5 fails at a zone: its programme source is unmapped (R114). -/
def sealItem5 (p : Plan) (z : Zone) : Bool :=
  match (p.zones.get z).programme with
  | none => false
  | some src => !p.mapped src

/-- Item 6 fails at a class: it is defined and names an undefined chime pattern (R114). -/
def sealItem6 (p : Plan) (c : Fin 8) : Bool :=
  match p.classes.get c with
  | none => false
  | some d =>
    match d.chime with
    | none => false
    | some n => (p.patterns.get n).isNone

/-- Item 7 fails at a tone generator: it names an undefined pattern (R114). -/
def sealItem7 (p : Plan) (g : Tone) : Bool :=
  match p.tones.get g with
  | none => false
  | some n => (p.patterns.get n).isNone

/-- The failures of one item: item number and index, the lowest index first (R113). -/
def itemFailure {n : Nat} (item offset : Nat) (bad : Fin n → Bool) : Option (Nat × Nat) :=
  ((List.finRange n).find? bad).map fun i => (item, offset + i.val)

/-- The failure the seal check reports: the lowest-numbered item, and within it the lowest index (R113,
R114); none when the plan passes. -/
def sealFailure (p : Plan) : Option (Nat × Nat) :=
  [itemFailure 1 0 (sealItem1 p), itemFailure 2 0 (sealItem2 p), itemFailure 3 0 (sealItem3 p),
   itemFailure 4 0 (sealItem4 p), itemFailure 5 0 (sealItem5 p), itemFailure 6 0 (sealItem6 p),
   itemFailure 7 48 (sealItem7 p)].findSome? id

/-- PLAN_SEAL after the common checks (R113). -/
def sealPlan (bank : BankNo) (s : State) : State × Answer :=
  match (s.plans.bank bank).state with
  | .copying => (s, Answer.refuse .bankBusy)
  | .empty => (s, Answer.refuse .bankEmpty)
  | .sealed => (s, Answer.okWith [])
  | .opened =>
    match sealFailure (s.plans.bank bank).plan with
    | some f => (s, ⟨.checkFailed, [numWord f.1, numWord f.2]⟩)
    | none =>
      (s.withPlans (s.plans.setBank bank { s.plans.bank bank with state := .sealed }), Answer.okWith [])

/-- The owner of PLAN_SEAL (R113). -/
def ownPlanSeal : Owner := checked 1 bankFields fun ws _ s => sealPlan (wordBank (wordAt ws 0)) s

/-- PLAN_UNSEAL after the common checks (R115). -/
def unsealPlan (bank : BankNo) (s : State) : State × Answer :=
  if bank = s.plans.live then (s, Answer.refuse .bankLive)
  else if s.plans.pending.isSome then (s, Answer.refuse .switchPending)
  else if (s.plans.bank bank).state = .sealed then
    (s.withPlans (s.plans.setBank bank { s.plans.bank bank with state := .opened }), Answer.okWith [])
  else (s, Answer.okWith [])

/-- The owner of PLAN_UNSEAL (R115). -/
def ownPlanUnseal : Owner := checked 1 bankFields fun ws _ s => unsealPlan (wordBank (wordAt ws 0)) s

/-! ### PLAN_COPY (R116) -/

/-- The fields of a request that carries none. -/
def noFields (_ : List Word) : List Bool := []

/-- The copy begins: the other bank is COPYING and blank, progress 0 (R116). -/
def PlanStore.beginCopy (p : PlanStore) : PlanStore := { p.blankOther .copying with copied := some 0 }

/-- PLAN_COPY after the common checks (R116). -/
def copyPlan (s : State) : State × Answer :=
  match s.plans.otherBank.state with
  | .copying => (s, Answer.refuse .bankBusy)
  | .sealed => (s, Answer.refuse .bankSealed)
  | .empty => (s.withPlans s.plans.beginCopy, Answer.okWith [])
  | .opened => (s.withPlans s.plans.beginCopy, Answer.okWith [])

/-- The owner of PLAN_COPY (R116). -/
def ownPlanCopy : Owner := checked 0 noFields fun _ _ s => copyPlan s

/-! ### PLAN_SWITCH (R118) -/

/-- A point is ahead of a frame number: their difference modulo 65,536 lies in 1-32,767 (R118). -/
def isAhead (point current : BitVec 16) : Bool :=
  decide (1 ≤ (point - current).toNat) && decide ((point - current).toNat ≤ 32767)

/-- The refusal of checks 4 and 5 of R118, if any. The first row of R183 has a request that is taken before an entry to
SEARCH checked with the receiver LOCKED; by Table 8-1 that entry is made from CONFIRM or SLIP alone, where check 4
refuses, and check 4 is followed (DEDUCED: log 28). -/
def pointRefusal (r : Receiver) : Option (BitVec 16) → Option Status
  | none => none
  | some point =>
    if r.link ≠ .locked then some .noTimebase
    else
      match r.frameNumber with
      | none => some .noTimebase
      | some current => if isAhead point current then none else some .late

/-- PLAN_SWITCH after the common checks: the five checks of R118 in order. -/
def switchPlan (point : Option (BitVec 16)) (s : State) : State × Answer :=
  if s.plans.pending.isSome then (s, Answer.refuse .switchPending)
  else if s.plans.otherBank.state = .copying then (s, Answer.refuse .bankBusy)
  else if s.plans.otherBank.state ≠ .sealed then (s, Answer.refuse .notSealed)
  else
    match pointRefusal s.receiver point with
    | some st => (s, Answer.refuse st)
    | none => (s.withPlans { s.plans with pending := some ⟨point⟩ }, Answer.okWith [])

/-- The switch point of a PLAN_SWITCH: field 2 when the point flag is set, unread otherwise (R188). -/
def switchPoint (ws : List Word) : Option (BitVec 16) := if wordFlag (wordAt ws 0) then some (wordAt ws 1) else none

/-- The owner of PLAN_SWITCH: point flag, switch point (R118). -/
def ownPlanSwitch : Owner :=
  checked 2 (fun ws => [isFlag (wordAt ws 0), true]) fun ws _ s => switchPlan (switchPoint ws) s

/-! ### PLAN_STATUS (R123) -/

/-- The code of the pending switch (Table 10-6). -/
def pendingWord : Option PendingSwitch → Word
  | none => 0#16
  | some ⟨none⟩ => 1#16
  | some ⟨some _⟩ => 2#16

/-- The switch point reported: 0 unless a pointed switch is pending (R188). -/
def pendingPoint : Option PendingSwitch → Word
  | none => 0#16
  | some ⟨none⟩ => 0#16
  | some ⟨some p⟩ => p

/-- The copy progress reported, 65,535 when no copy runs (R188). -/
def progressWord : Option Nat → Word
  | none => Config.none16
  | some k => numWord k

/-- The eight result words of PLAN_STATUS (R123, Table 10-8). -/
def statusResults (p : PlanStore) (r : Receiver) : List Word :=
  let locked := decide (r.link = .locked)
  [p.live.word, p.bank0.state.word, p.bank1.state.word, pendingWord p.pending, pendingPoint p.pending,
   progressWord p.copied, flagWord locked, if locked then r.frameNumber.getD 0#16 else 0#16]

/-- PLAN_STATUS after the common checks (R123). -/
def readStatus (s : State) : State × Answer := (s, Answer.okWith (statusResults s.plans s.receiver))

/-- The owner of PLAN_STATUS (R123). -/
def ownPlanStatus : Owner := checked 0 noFields fun _ _ s => readStatus s

/-! ### The commands -/

/-- The processor takes a PLAN_WRITE. -/
def takePlanWrite (s : State) : State := s.takeRequest (fun k => decide (k = 32#8)) ownPlanWrite

/-- The processor takes a PLAN_READ. -/
def takePlanRead (s : State) : State := s.takeRequest (fun k => decide (k = 33#8)) ownPlanRead

/-- The processor takes a PLAN_ERASE. -/
def takePlanErase (s : State) : State := s.takeRequest (fun k => decide (k = 34#8)) ownPlanErase

/-- The processor takes a PLAN_SEAL. -/
def takePlanSeal (s : State) : State := s.takeRequest (fun k => decide (k = 35#8)) ownPlanSeal

/-- The processor takes a PLAN_UNSEAL. -/
def takePlanUnseal (s : State) : State := s.takeRequest (fun k => decide (k = 36#8)) ownPlanUnseal

/-- The processor takes a PLAN_COPY. -/
def takePlanCopy (s : State) : State := s.takeRequest (fun k => decide (k = 37#8)) ownPlanCopy

/-- The processor takes a PLAN_SWITCH. -/
def takePlanSwitch (s : State) : State := s.takeRequest (fun k => decide (k = 38#8)) ownPlanSwitch

/-- The processor takes a PLAN_STATUS. -/
def takePlanStatus (s : State) : State := s.takeRequest (fun k => decide (k = 39#8)) ownPlanStatus

/-- PLAN_WRITE (R110, R151). -/
def execPlanWrite (s : State) : Host.Outcome State Fault Refusal := s.running takePlanWrite

/-- PLAN_READ (R111, R151). -/
def execPlanRead (s : State) : Host.Outcome State Fault Refusal := s.running takePlanRead

/-- PLAN_ERASE (R112, R151). -/
def execPlanErase (s : State) : Host.Outcome State Fault Refusal := s.running takePlanErase

/-- PLAN_SEAL (R113, R151). -/
def execPlanSeal (s : State) : Host.Outcome State Fault Refusal := s.running takePlanSeal

/-- PLAN_UNSEAL (R115, R151). -/
def execPlanUnseal (s : State) : Host.Outcome State Fault Refusal := s.running takePlanUnseal

/-- PLAN_COPY (R116, R151). -/
def execPlanCopy (s : State) : Host.Outcome State Fault Refusal := s.running takePlanCopy

/-- PLAN_SWITCH (R118, R151). -/
def execPlanSwitch (s : State) : Host.Outcome State Fault Refusal := s.running takePlanSwitch

/-- PLAN_STATUS (R123, R151). -/
def execPlanStatus (s : State) : Host.Outcome State Fault Refusal := s.running takePlanStatus

end Sys2Proof.Machine
end

