-- ==== Sys2Proof/Machine/SystemRequests.lean ====
section
/-! DEFINITION. The requests the notice block and the message block own, NODE_RESET among them, and the request
processor's own run (R136, R140, R151, R153, R160 to R163). -/

namespace Sys2Proof.Machine

/-! ### NOTICE_ACK and NOTICE_CONFIG (R136, R137, R140) -/

/-- NOTICE_ACK after the common checks (R136). -/
def ackNotices (seq : BitVec 8) (s : State) : State × Answer :=
  match s.notices.ackCount? seq with
  | none => (s, Answer.badFieldAt 1)
  | some n =>
    let b := s.notices.ack n
    ({ s with notices := b }, Answer.okWith [numWord n, numWord b.queue.length])

/-- The owner of NOTICE_ACK: a sequence number 0-255 (R136). -/
def ownNoticeAck : Owner :=
  checked 1 (fun ws => [inRange 0 255 (wordAt ws 0)]) fun ws _ s => ackNotices ((wordAt ws 0).setWidth 8) s

/-- The seven result words of NOTICE_CONFIG (R140, Table 10-8). -/
def configResults (b : NoticeBlock) : List Word :=
  [numWord b.recipient.address.toNat, flagWord b.enabled, numWord b.intervalMs, numWord b.next.toNat,
   numWord b.queue.length, numWord (b.queue.filter NoticeEntry.sent).length, numWord b.lost]

/-- NOTICE_CONFIG after the common checks (R140). -/
def configNotices (recipient : Controller) (enable : Bool) (intervalMs : Nat) (s : State) : State × Answer :=
  let b := s.notices.configure recipient enable intervalMs
  ({ s with notices := b }, Answer.okWith (configResults b))

/-- The owner of NOTICE_CONFIG: recipient 60-62, enable flag, retry interval 10-2,000 ms (R140). -/
def ownNoticeConfig : Owner :=
  checked 3 (fun ws => [inRange 60 62 (wordAt ws 0), isFlag (wordAt ws 1), inRange 10 2000 (wordAt ws 2)])
    fun ws _ s => configNotices (wordController (wordAt ws 0)) (wordFlag (wordAt ws 1)) (wordAt ws 2).toNat s

/-! ### ECHO and COUNTERS_READ (R160, R161) -/

/-- The owner of ECHO: it takes every length a request can have, and returns the same words (R160). -/
def ownEcho : Owner := fun r s => (s, Answer.okWith r.payload)

/-- The thirteen counters in the order of Table 7-5. -/
def State.counterValues (s : State) : List Nat :=
  [s.msg.counters.taken, s.msg.counters.badCheck, s.msg.counters.framing, s.msg.counters.unauthorized,
   s.msg.counters.overflow, s.msg.counters.duplicate, s.msg.counters.returned, s.receiver.slips,
   s.receiver.losses, s.calls.admitted, s.calls.keyRefused, s.notices.noticesLost, s.notices.retries]

/-- Every counter of Table 7-5 becomes 0 (R161). -/
def State.clearCounters (s : State) : State :=
  { s with
    msg := { s.msg with counters := zeroCounters }
    receiver := { s.receiver with slips := 0, losses := 0 }
    calls := { s.calls with admitted := 0, keyRefused := 0 }
    notices := { s.notices with noticesLost := 0, retries := 0 } }

/-- COUNTERS_READ after the common checks (R161): the values before any clearing. -/
def readCounters (clear : Bool) (s : State) : State × Answer :=
  (if clear then s.clearCounters else s, Answer.okWith (s.counterValues.map numWord))

/-- The owner of COUNTERS_READ: a clear flag (R161). -/
def ownCountersRead : Owner :=
  checked 1 (fun ws => [isFlag (wordAt ws 0)]) fun ws _ s => readCounters (wordFlag (wordAt ws 0)) s

/-! ### NODE_RESET (R162) -/

/-- A record at a node reset: an open one is freed and its generation advances by one modulo 16 (R32). -/
def CallRecord.nodeReset (c : CallRecord) : CallRecord :=
  match c.call with
  | none => c
  | some _ => ⟨c.gen + 1, none⟩

/-- The call table at a node reset: the counters are kept (R32). -/
def CallTable.nodeReset (t : CallTable) : CallTable :=
  { t with records := t.records.update fun _ c => c.nodeReset, admission := [] }

/-- The plan store at a node reset: a copy in progress and a pending switch are abandoned (R125). -/
def PlanStore.nodeReset (p : PlanStore) : PlanStore :=
  { (match p.copied with
      | none => p
      | some _ => p.blankOther .empty) with pending := none, copied := none }

/-- What a node reset makes of an event that is due: a key edge not yet taken opens nothing (R32; log 13), and a
switch that is due is abandoned with its record, a copy step with its copy (R125). -/
def Task.survivesReset : Task → Bool
  | .keyUp _ => false
  | .switchTake => false
  | .copyStep => false
  | _ => true

/-- The node reset (R162): every block takes its node-reset effect; the mixers apply the IDLE pairs after the
zone records have become IDLE (R85); the source block, the receiver and the transmitter are kept. -/
def State.nodeReset (s : State) : State :=
  { s with
    due := s.due.filter Task.survivesReset
    calls := s.calls.nodeReset
    zones := Table.fill resetZone
    mixers := s.mixers.update fun z m => m.apply (s.plan.zones.get z) s.calls.nodeReset .idle
    plans := s.plans.nodeReset
    notices := s.notices.nodeReset
    msg := { s.msg with cache := emptyCache } }

/-- The owner of NODE_RESET (R162). -/
def ownNodeReset : Owner := checked 0 noFields fun _ _ s => (s.nodeReset, Answer.okWith [])

/-- A kind outside Table 7-3 (R153, check 1). -/
def ownUnknownKind : Owner := fun _ s => (s, Answer.refuse .unknownKind)

/-! ### The commands -/

/-- The processor takes a NOTICE_ACK. -/
def takeNoticeAck (s : State) : State := s.takeRequest (fun k => decide (k = 48#8)) ownNoticeAck

/-- The processor takes a NOTICE_CONFIG. -/
def takeNoticeConfig (s : State) : State := s.takeRequest (fun k => decide (k = 49#8)) ownNoticeConfig

/-- The processor takes an ECHO. -/
def takeEcho (s : State) : State := s.takeRequest (fun k => decide (k = 64#8)) ownEcho

/-- The processor takes a COUNTERS_READ. -/
def takeCountersRead (s : State) : State := s.takeRequest (fun k => decide (k = 65#8)) ownCountersRead

/-- The processor takes a NODE_RESET. -/
def takeNodeReset (s : State) : State := s.takeRequest (fun k => decide (k = 66#8)) ownNodeReset

/-- The processor takes a request of no known kind. -/
def takeUnknownKind (s : State) : State := s.takeRequest (fun k => !isKnownKind k) ownUnknownKind

/-- NOTICE_ACK (R136, R151). -/
def execNoticeAck (s : State) : Host.Outcome State Fault Refusal := s.running takeNoticeAck

/-- NOTICE_CONFIG (R140, R151). -/
def execNoticeConfig (s : State) : Host.Outcome State Fault Refusal := s.running takeNoticeConfig

/-- ECHO (R160, R151). -/
def execEcho (s : State) : Host.Outcome State Fault Refusal := s.running takeEcho

/-- COUNTERS_READ (R161, R151). -/
def execCountersRead (s : State) : Host.Outcome State Fault Refusal := s.running takeCountersRead

/-- NODE_RESET (R162, R151). -/
def execNodeReset (s : State) : Host.Outcome State Fault Refusal := s.running takeNodeReset

/-- UNKNOWN_KIND_REQUEST (R153, R151). -/
def execUnknownKindRequest (s : State) : Host.Outcome State Fault Refusal := s.running takeUnknownKind

/-! ### The processor's own run (R151; log 6) -/

/-- The owner of a kind (Table 7-3). -/
def ownerOf (kind : BitVec 8) : Owner :=
  match kind.toNat with
  | 1 => ownCallOpen
  | 2 => ownCallRelease
  | 3 => ownCallRetarget
  | 4 => ownClearCalls
  | 5 => ownCallRead
  | 16 => ownZoneRestrict
  | 17 => ownZoneProbe
  | 18 => ownZoneRead
  | 24 => ownSourceRead
  | 32 => ownPlanWrite
  | 33 => ownPlanRead
  | 34 => ownPlanErase
  | 35 => ownPlanSeal
  | 36 => ownPlanUnseal
  | 37 => ownPlanCopy
  | 38 => ownPlanSwitch
  | 39 => ownPlanStatus
  | 48 => ownNoticeAck
  | 49 => ownNoticeConfig
  | 64 => ownEcho
  | 65 => ownCountersRead
  | 66 => ownNodeReset
  | _ => ownUnknownKind

/-- The processor takes the oldest request, whatever its kind, if it can be taken. -/
def State.takeOldest (s : State) : State := s.takeRequest (fun _ => true) fun r => ownerOf r.kind r

/-- The processor takes requests, one after another, until it has tried `fuel` times. -/
def State.processRequests : Nat → State → State
  | 0, s => s
  | n + 1, s => State.processRequests n s.takeOldest

end Sys2Proof.Machine
end

