-- ==== Sys2Proof/Machine/Link.lean ====
section
/-! DEFINITION. The trunk frame's bits, the trunk receiver's judgements and the pins (R167 to R178, R185). -/

namespace Sys2Proof.Machine

/-! ### The trunk frame (R185, Tables 10-1 and 10-3) -/

/-- The marker of a two-bit code (Table 10-3). -/
def markerOf (code : BitVec 2) : Marker :=
  if code = 0#2 then .idle else if code = 1#2 then .first else if code = 2#2 then .more else .last

/-- The two-bit code of a marker (Table 10-3). -/
def Marker.code : Marker → BitVec 2
  | .idle => 0#2
  | .first => 1#2
  | .more => 2#2
  | .last => 3#2

/-- The control word of 18 bits: marker, then data (Table 10-3). -/
def ControlWord.ofBits (b : BitVec 18) : ControlWord := ⟨markerOf (b.extractLsb' 16 2), b.extractLsb' 0 16⟩

/-- The 18 bits of a control word (Table 10-3). -/
def ControlWord.toBits (w : ControlWord) : BitVec 18 := w.marker.code ++ w.data

/-- The first 16 sent bits of a frame: where its sync pattern stands when it has one (Table 10-1). -/
def frameSync (b : BitVec 2152) : BitVec 16 := b.extractLsb' 2136 16

/-- The number, the slots and the control words of a frame (Table 10-1). Bit 0 of the frame as sent is bit
2,151 of the vector. -/
def Frame.ofBits (b : BitVec 2152) : Frame :=
  { number := b.extractLsb' 2120 16
    slots := Table.tabulate fun s => b.extractLsb' (2088 - 32 * s.val) 32
    words := Table.tabulate fun k => ControlWord.ofBits (b.extractLsb' (54 - 18 * k.val) 18) }

/-- The frame as sent: sync pattern, number, slots 0 to 63, control words 1 to 4 (Table 10-1). -/
def Frame.toBits (f : Frame) : BitVec 2152 :=
  let opening := Config.syncPattern.toNat * 65536 + f.number.toNat
  let slots := f.slots.cells.foldl (fun n s => n * 4294967296 + s.toNat) opening
  BitVec.ofNat 2152 (f.words.cells.foldl (fun n w => n * 262144 + w.toBits.toNat) slots)

/-- The frame on TRUNK_OUT, or none while the line is at its idle level (R179, R190). -/
def State.trunkOut (s : State) : Option (BitVec 2152) := if s.inReset then none else s.out.sending.map Frame.toBits

/-! ### The receiver (R170, R171) -/

/-- The receiver finds a sync pattern at a place of the line (case S1, R170). -/
def Receiver.findSync (r : Receiver) (place : Nat) (window : BitVec 16) : Receiver :=
  match r.link with
  | .search =>
    if window = Config.syncPattern ∧ r.hunt ≤ place then
      { r with link := .confirm 0, alignment := some (place + Config.frameBits) }
    else r
  | .confirm _ => r
  | .locked => r
  | .slip _ => r

/-- What a judgement gives besides the receiver's new state: whether it is a frame boundary of the part
(R173), whether the frame is usable (R172), and what it makes due. -/
structure Verdict where
  receiver : Receiver
  boundary : Bool
  usable : Bool
  entered : List Task
  deriving DecidableEq, Repr

/-- The receiver keeps its alignment: it moves one frame length on (R170). -/
def Receiver.advance (r : Receiver) (link : LinkState) : Receiver :=
  { r with link := link, alignment := r.alignment.map (· + Config.frameBits) }

/-- A usable frame: its number becomes the current frame number (R178). -/
def Receiver.accept (r : Receiver) (number : BitVec 16) : Receiver :=
  { r.advance .locked with frameNumber := some number }

/-- An entry to SEARCH: the alignment goes, the losses counter increases, and hunting resumes where the
missing sync was due, at the start of the judged frame (R171, R176). -/
def Receiver.lose (r : Receiver) : Receiver :=
  { r with
    link := .search
    alignment := none
    hunt := match r.alignment with
      | none => r.hunt
      | some place => place - Config.frameBits
    losses := satInc r.losses }

/-- The judgement of an aligned frame, by the cases of Table 8-1 (R171). In SEARCH no frame is judged. -/
def Receiver.judge (r : Receiver) (present : Bool) (number : BitVec 16) : Verdict :=
  match r.link with
  | .search => ⟨r, false, false, []⟩
  | .confirm k =>
    if present then
      if k + 1 < 4 then ⟨r.advance (.confirm (k + 1)), false, false, []⟩
      else ⟨r.accept number, true, true, [.linkLocked]⟩
    else ⟨r.lose, false, false, [.linkSearch]⟩
  | .locked =>
    if present then ⟨r.accept number, true, true, []⟩
    else ⟨{ r.advance (.slip 0) with slips := satInc r.slips }, true, false, []⟩
  | .slip m =>
    if present then ⟨r.accept number, true, true, [.linkLocked]⟩
    else if m < 2 then ⟨r.advance (.slip (m + 1)), true, false, []⟩
    else ⟨r.lose, true, false, [.linkSearch]⟩

/-- A pending switch with a point is abandoned with SWITCH_ABANDONED; one without a point is left (R120). -/
def State.abandonPointed (s : State) : State :=
  match s.plans.pending with
  | some ⟨some _⟩ => { s with plans := { s.plans with pending := none } }.notify .switchAbandoned
  | some ⟨none⟩ => s
  | none => s

/-- What an entry to SEARCH does to other blocks (R176): the transit buffer empties, LINK SEARCH is
submitted, and then a pending switch with a point is abandoned (R132). -/
def State.enterSearch (s : State) : State :=
  ({ s with msg := { s.msg with transit := [] } }.notify (.link false)).abandonPointed

end Sys2Proof.Machine
end

