-- ==== Sys2Proof/Machine/Boundary.lean ====
section
/-! DEFINITION. A frame boundary of the part: what falls due at it, its stages, and the order in which they are
taken (R16, R54, R72, R80, R88, R117, R119, R135, R173, R179 to R182). -/

namespace Sys2Proof.Machine

/-! ### What a boundary counts (R16, R54, R117, R119, R135) -/

/-- A deadline counts one boundary; the last frame is counted by the expiry itself (R16). -/
def tickDeadline (d : Option Nat) : Option Nat := d.map fun n => if 1 < n then n - 1 else n

/-- The deadlines of a call count one boundary (R16). -/
def Call.tick (c : Call) : Call :=
  { c with wait := tickDeadline c.wait, duration := tickDeadline c.duration, hold := tickDeadline c.hold }

/-- The deadlines of every open call count one boundary (R16). -/
def CallTable.tick (t : CallTable) : CallTable :=
  { t with records := t.records.update fun _ c => { c with call := c.call.map Call.tick } }

/-- The expiries of a call that fall due at this boundary (R16). -/
def Call.expiries (r : CallRef) (c : Call) : List Task :=
  (if atLastFrame c.wait then [Task.waitEnd r] else [])
    ++ (if atLastFrame c.duration then [Task.durationEnd r] else [])
    ++ (if atLastFrame c.hold then [Task.holdEnd r] else [])

/-- The deadline expiries that fall due at this boundary, in admission order. -/
def CallTable.expiries (t : CallTable) : List Task :=
  t.admission.flatMap fun r =>
    match t.call? r with
    | none => []
    | some c => c.expiries r

/-- A lead-in counts one boundary; its last frame is counted by the expiry (R54). -/
def ZoneRecord.tick (z : ZoneRecord) : ZoneRecord :=
  match z.state with
  | .leadIn r n => { z with state := .leadIn r (if 1 < n then n - 1 else n) }
  | .idle => z
  | .onAir _ => z

/-- The lead-ins that expire at this boundary (R54). -/
def leadInExpiries (zones : Table 16 ZoneRecord) : List Task :=
  (List.finRange 16).filterMap fun z =>
    if (zones.get z).state.remaining? = some 1 then some (Task.leadInEnd z) else none

/-- The retry expiry, when the timer stands at its last frame (R135). -/
def retryExpiries (timer : Option RetryTimer) : List Task :=
  match timer with
  | none => []
  | some t => if t.ends then [.retryEnd] else []

/-- The 84th copy step, when 83 entries are copied (R117). -/
def copyExpiries (p : PlanStore) : List Task := if p.copied = some 83 then [.copyEnd] else []

/-- A usable frame's number has reached a switch point: their difference modulo 65,536 is below 32,768 (R119). -/
def reached (point number : BitVec 16) : Bool := decide ((number - point).toNat < 32768)

/-- A pending switch is taken at this boundary (R119). -/
def PlanStore.switchDue (p : PlanStore) (usable : Bool) (number : BitVec 16) : List Task :=
  match p.pending with
  | none => []
  | some ⟨none⟩ => [.switchTake]
  | some ⟨some point⟩ => if usable && reached point number then [.switchTake] else []

/-- One of the first 83 copy steps, when a copy runs (R117). -/
def copySteps (p : PlanStore) : List Task :=
  match p.copied with
  | none => []
  | some k => if k < 83 then [.copyStep] else []

/-- The stages of every boundary. -/
def boundaryStages : List Task := [.observe, .ramps, .control, .build]

/-- The opening of a boundary that hands on a frame: deadlines, lead-ins and the retry timer count it, and its events
and stages fall due, the copy step among them. `entered` is what the receiver's judgement makes due. The counts come
before everything that the boundary's order takes (the model's choice, DESIGN CHOICE: log 5). -/
def State.openBoundary (s : State) (frame : Frame) (usable : Bool) (entered : List Task) : State :=
  { s with
    now := { frame := frame, usable := usable, rates := s.plan.rates }
    out := { s.out with switched := none }
    calls := s.calls.tick
    zones := s.zones.update fun _ z => z.tick
    notices := { s.notices with timer := s.notices.timer.map RetryTimer.tick }
    due := s.due ++ s.calls.expiries ++ leadInExpiries s.zones ++ retryExpiries s.notices.timer
      ++ copyExpiries s.plans ++ s.plans.switchDue usable frame.number ++ entered ++ copySteps s.plans
      ++ boundaryStages }

/-! ### The stages -/

/-- Every trunk source takes its observation, under the live plan as it stands (R88, R89). -/
def State.observeStage (s : State) : State :=
  let seen := fun (t : Trunk) =>
    (s.sources.trunks.get t).observe t (observedPresent s.plan s.now t) (observedKeyed s.plan s.now t)
  { s with
    sources := { s.sources with trunks := Table.tabulate fun t => (seen t).1 }
    due := s.due ++ (List.finRange 48).flatMap fun t => (seen t).2 }

/-- The fades that complete at this boundary (R72). -/
def Mixer.fadeEnds (z : Zone) (m : Mixer) : List Task :=
  (if m.foreground.fadeReached then [Task.fadeEnd z .foreground] else [])
    ++ (if m.background.fadeReached then [Task.fadeEnd z .background] else [])

/-- Every lane takes one ramp step, at its zone's ramp rate in the plan that was live when the boundary began
(R72, R83; log 11). -/
def State.rampStage (s : State) : State :=
  let mixers := s.mixers.update fun z m => m.ramp (s.now.rates.get z)
  { s with mixers := mixers, due := s.due ++ (List.finRange 16).flatMap fun z => (mixers.get z).fadeEnds z }

/-- The sample a source yields at this boundary (R91, R93). -/
def State.sourceSample (s : State) (src : Source) : Int :=
  match splitSource src with
  | .inl t => trunkSample s.plan s.now t
  | .inr g => (s.sources.tones.get g).sample

/-- The sample a lane carries (R78). -/
def State.laneSample (s : State) (m : Mixer) (l : Lane) : Int :=
  match l.current with
  | .none => 0
  | .chime => m.player.sample
  | .source src => s.sourceSample src

/-- A zone's output sample (R80). -/
def State.zoneSample (s : State) (z : Zone) : Int :=
  let m := s.mixers.get z
  limit24 (contribution (s.laneSample m m.foreground) m.foreground.att
    + contribution (s.laneSample m m.background) m.background.att)

/-- The zone's phase is LEAD_IN or ON_AIR (R81). -/
def State.zoneKeyed (s : State) (z : Zone) : Bool := decide ((s.zones.get z).state.phase ≠ .idle)

/-- The zone that writes an output slot, if one does (R180). -/
def State.slotZone? (s : State) (i : Fin 64) : Option Zone :=
  if s.transitOnly then none
  else (List.finRange 16).find? fun z => decide ((s.plan.zones.get z).slot = some i)

/-- The content of an output slot: a zone's, or the same slot of the frame carried (R180). -/
def State.outputSlot (s : State) (i : Fin 64) : Slot :=
  match s.slotZone? i with
  | some z => zoneSlot (s.zoneKeyed z) (s.zoneSample z)
  | none => s.now.frame.slots.get i

/-- The number of the output frame (R179). -/
def State.outputNumber (s : State) : BitVec 16 := if s.now.usable then s.now.frame.number else s.out.next

/-- The output frame of this boundary (R179, R180, R181). -/
def State.outputFrame (s : State) : Frame :=
  { number := s.outputNumber, slots := Table.tabulate s.outputSlot, words := s.out.words }

/-- The state with every generator silent that the other bank's plan leaves without a pattern (R97). -/
def State.silenced (s : State) : State :=
  { s with sources := { s.sources with
      tones := s.sources.tones.update fun g t =>
        if (s.plans.otherBank.plan.tones.get g).isNone then { t with playing := none } else t } }

/-- The output frame of this boundary if a switch that is due at it is taken after the build: the generators that the
switch removes yield 0 from the boundary of the switch in every order (R97; log 12). -/
def State.switchedFrame (s : State) : Option Frame :=
  if s.due.contains .switchTake then some s.silenced.outputFrame else none

/-- The chime players' steps that end at this boundary (R76). -/
def chimeEnds (mixers : Table 16 Mixer) : List Task :=
  (List.finRange 16).filterMap fun z => if (mixers.get z).player.stepEnds then some (Task.chimeEnd z) else none

/-- The generators' steps that end at this boundary (R93). -/
def toneEnds (tones : Table 4 ToneGen) : List Task :=
  (List.finRange 4).filterMap fun g => if (tones.get g).stepEnds then some (Task.toneEnd g) else none

/-- The output frame is built and begun, and the players and generators advance past the samples they have
given (R76, R80, R93, R179). -/
def State.sendFrame (s : State) : State :=
  { s with
    out := { s.out with next := s.outputNumber + 1#16, sending := some s.outputFrame, switched := s.switchedFrame }
    mixers := s.mixers.update fun _ m => { m with player := m.player.advance }
    sources := { s.sources with tones := s.sources.tones.update fun _ g => g.advance }
    due := s.due ++ chimeEnds s.mixers ++ toneEnds s.sources.tones }

/-- The building of the output frame, after the boundary's ramp step and its control positions (R80, R181). -/
def State.buildStage (s : State) : State :=
  ((s.ifDue .ramps State.rampStage).ifDue .control State.controlStage).sendFrame

/-! ### Taking what is due -/

/-- The work of a task. -/
def State.effect (t : Task) (s : State) : State :=
  match t with
  | .linkLocked => s.notify (.link true)
  | .linkSearch => s.enterSearch
  | .copyStep => { s with plans := s.plans.copyStep }
  | .observe => s.observeStage
  | .ramps => s.rampStage
  | .control => s.controlStage
  | .build => s.buildStage
  | .presence src keyed => s.takePresence src keyed
  | .keyUp src => s.takeKeyUp src
  | .keyDown src => s.takeKeyDown src
  | .loss src => s.takeLoss src
  | .waitEnd r => s.takeDeadline r Call.wait .waitExpired
  | .holdEnd r => s.takeDeadline r Call.hold .unkeyed
  | .durationEnd r => s.takeDeadline r Call.duration .duration
  | .leadInEnd z => s.takeLeadInEnd z
  | .retryEnd => s.takeRetryEnd
  | .copyEnd => s.takeCopyEnd
  | .fadeEnd z l => s.takeFadeEnd z l
  | .chimeEnd z => s.takeChimeEnd z
  | .toneEnd g => s.takeToneEnd g
  | .switchTake => s.takeSwitch []

/-- Take a task if it is due. -/
def State.perform (t : Task) (s : State) : State := s.ifDue t (State.effect t)

/-- Take some tasks in their order, each if it is due. -/
def State.performAll (ts : List Task) (s : State) : State := ts.foldl (fun s t => s.perform t) s

/-- Take one move of a boundary's order (R73, R95, R97, R166; log 5). -/
def State.makeMove (s : State) : Move → State
  | .perform t => s.perform t
  | .switchAfterLosses lost => s.ifDue .switchTake fun s => s.takeSwitch lost
  | .request => s.takeOldest

/-- Take everything that is still due; a plan switch can make losses of generators due, so twice (log 4). -/
def State.drain (s : State) : State :=
  let once := s.performAll s.due
  once.performAll once.due

/-- What happens at the latest before the next boundary: the events still due, and the request processor's run
(log 4, log 6). -/
def State.settleBoundary (s : State) : State :=
  let s := s.drain
  s.processRequests s.msg.requests.length

/-- The stages in the order that completes a boundary's own order (log 5). -/
def closingStages : List Task := [.linkLocked, .linkSearch, .copyStep, .observe, .ramps, .control, .build]

/-- A boundary that hands on a frame: its opening, the order given, then the stages that order leaves. The order may
take requests among the stages, one whose last word the boundary's own control stage takes in among them (R73, R95,
R166); a request that the order does not take waits for its command or the next boundary (log 6). What an entry to
LOCKED or SEARCH does to other blocks (R174, R176) is a stage of its own: the order may take requests, a switch, an
expiry or other stages between the receiver's change and it, and where the order leaves it out it follows the order's
moves, before the other stages left (the model's choice, DESIGN CHOICE: log 5). -/
def State.boundary (s : State) (frame : Frame) (usable : Bool) (entered : List Task) (order : List Move) : State :=
  (order.foldl State.makeMove (s.openBoundary frame usable entered)).performAll closingStages

/-- A free-run boundary occurs in SEARCH and CONFIRM (R173). -/
def LinkState.freeRuns : LinkState → Bool
  | .search => true
  | .confirm _ => true
  | .locked => false
  | .slip _ => false

/-- A free-run boundary: it hands on a silent frame (R172, R173). -/
def State.takeFreeRun (s : State) (order : List Move) : State :=
  if s.receiver.link.freeRuns then s.settleBoundary.boundary silentFrame false [] order else s

/-- The judgement of an aligned frame (R171): at a boundary of the part, what the last boundary left, then the
receiver's change, then the boundary; otherwise the receiver's change and what an entry to SEARCH does. -/
def State.takeFrame (s : State) (bits : BitVec 2152) (order : List Move) : State :=
  let present := decide (frameSync bits = Config.syncPattern)
  let frame := Frame.ofBits bits
  if (s.receiver.judge present frame.number).boundary then
    let s := s.settleBoundary
    let v := s.receiver.judge present frame.number
    { s with receiver := v.receiver }.boundary (if v.usable then frame else silentFrame) v.usable v.entered order
  else
    let v := s.receiver.judge present frame.number
    { s with receiver := v.receiver, due := s.due ++ v.entered }.performAll [.linkSearch]

end Sys2Proof.Machine
end

