-- ==== Sys2Proof/Machine/Steps.lean ====
section
/-! DEFINITION. The steps that are not requests: resets, the receiver's steps, boundaries, and the events that a
boundary makes due (R10, R11, R17 to R19, R21, R54, R72, R76, R89, R93, R117, R121, R134, R138, R157, R170,
R171, R173, R190). -/

namespace Sys2Proof.Machine

/-! ### Resets (R190, R191) -/

/-- A hardware reset comes into force: TRUNK_OUT sends no frame, LINK_OK is low, and every operation in progress
is abandoned (R190; what the other fields hold until the reset ends: log 14). -/
def State.assertReset (s : State) : State :=
  { s with
    inReset := true
    due := []
    calls := s.calls.nodeReset
    zones := Table.fill resetZone
    plans := s.plans.nodeReset
    notices := { s.notices with queue := [], lost := 0, timer := none }
    msg := { s.msg with input := .between, assembler := [], transit := [], requests := [], replies := [], own := [] }
    receiver := { s.receiver with link := .search, alignment := none }
    out := { s.out with sending := none, switched := none } }

/-- RESET_ASSERTED (R190). -/
def execResetAsserted (s : State) : Host.Outcome State Fault Refusal := .next s.assertReset

/-- HARDWARE_RESET (R190, R191): the reset ends, the straps are sampled, every block takes its reset state. The
queue of commands is the model's own and is kept (log 25). -/
def execHardwareReset (straps : BitVec 6) (s : State) : Host.Outcome State Fault Refusal :=
  .next { State.afterReset straps with pending := s.pending }

/-! ### The receiver and the boundaries -/

/-- SYNC_FOUND (case S1, R170). -/
def execSyncFound (place : Nat) (window : BitVec 16) (s : State) : Host.Outcome State Fault Refusal :=
  s.running fun s => { s with receiver := s.receiver.findSync place window }

/-- FRAME_JUDGED (R171, R173). -/
def execFrameJudged (bits : BitVec 2152) (order : List Move) (s : State) : Host.Outcome State Fault Refusal :=
  s.running fun s => s.takeFrame bits order

/-- FREE_RUN_BOUNDARY (R173). -/
def execFreeRunBoundary (order : List Move) (s : State) : Host.Outcome State Fault Refusal :=
  s.running fun s => s.takeFreeRun order

/-! ### Events that a boundary makes due -/

/-- PRESENCE_CONFIRMED (case A2, R89), with whichever KEYED flag the 48th observation had. -/
def execPresenceConfirmed (src : Trunk) (s : State) : Host.Outcome State Fault Refusal :=
  s.running fun s => (s.perform (.presence src true)).perform (.presence src false)

/-- QUIET_TO_KEYED_EDGE (R10). -/
def execQuietToKeyedEdge (src : Trunk) (s : State) : Host.Outcome State Fault Refusal :=
  s.running fun s => s.perform (.keyUp src)

/-- KEYED_TO_QUIET_EDGE (R11). -/
def execKeyedToQuietEdge (src : Trunk) (s : State) : Host.Outcome State Fault Refusal :=
  s.running fun s => s.perform (.keyDown src)

/-- SOURCE_LOSS (R21). -/
def execSourceLoss (src : Source) (s : State) : Host.Outcome State Fault Refusal :=
  s.running fun s => s.perform (.loss src)

/-- WAIT_EXPIRY (R17). -/
def execWaitExpiry (r : CallRef) (s : State) : Host.Outcome State Fault Refusal :=
  s.running fun s => s.perform (.waitEnd r)

/-- HOLD_EXPIRY (R18). -/
def execHoldExpiry (r : CallRef) (s : State) : Host.Outcome State Fault Refusal :=
  s.running fun s => s.perform (.holdEnd r)

/-- DURATION_EXPIRY (R19). -/
def execDurationExpiry (r : CallRef) (s : State) : Host.Outcome State Fault Refusal :=
  s.running fun s => s.perform (.durationEnd r)

/-- LEAD_IN_EXPIRY (R54). -/
def execLeadInExpiry (z : Zone) (s : State) : Host.Outcome State Fault Refusal :=
  s.running fun s => s.perform (.leadInEnd z)

/-- RETRY_EXPIRY (R138). -/
def execRetryExpiry (s : State) : Host.Outcome State Fault Refusal := s.running fun s => s.perform .retryEnd

/-- COPY_DONE (R117). -/
def execCopyDone (s : State) : Host.Outcome State Fault Refusal := s.running fun s => s.perform .copyEnd

/-- FADE_COMPLETION (R72). -/
def execFadeCompletion (z : Zone) (l : LaneId) (s : State) : Host.Outcome State Fault Refusal :=
  s.running fun s => s.perform (.fadeEnd z l)

/-- CHIME_STEP_END (R76). -/
def execChimeStepEnd (z : Zone) (s : State) : Host.Outcome State Fault Refusal :=
  s.running fun s => s.perform (.chimeEnd z)

/-- TONE_STEP_END (R93). -/
def execToneStepEnd (g : Tone) (s : State) : Host.Outcome State Fault Refusal :=
  s.running fun s => s.perform (.toneEnd g)

/-- SWITCH_TAKEN (R121), with the generators whose losses are taken before its zone work (R97). -/
def execSwitchTaken (lossesFirst : List Tone) (s : State) : Host.Outcome State Fault Refusal :=
  s.running fun s => s.makeMove (.switchAfterLosses lossesFirst)

/-! ### The outgoing arbiter on its own (R157; log 7) -/

/-- REPLY_BEGIN (R157). -/
def execReplyBegin (s : State) : Host.Outcome State Fault Refusal := s.running State.beginReply

/-- NOTICE_MESSAGE (R134). -/
def execNoticeMessage (s : State) : Host.Outcome State Fault Refusal := s.running fun s => s.beginNotice true

end Sys2Proof.Machine
end

