-- ==== Sys2Proof/Machine/Dispatch.lean ====
section
/-! DEFINITION. One arm per command. -/

namespace Sys2Proof.Machine

/-- The effect of a command on everything but the queue. -/
def exec (i : Instr) (s : State) : Host.Outcome State Fault Refusal :=
  match i with
  | .hardwareReset straps => Sys2Proof.Machine.execHardwareReset straps s
  | .syncFound place window => Sys2Proof.Machine.execSyncFound place window s
  | .frameJudged bits order => Sys2Proof.Machine.execFrameJudged bits order s
  | .freeRunBoundary order => Sys2Proof.Machine.execFreeRunBoundary order s
  | .presenceConfirmed src => Sys2Proof.Machine.execPresenceConfirmed src s
  | .quietToKeyedEdge src => Sys2Proof.Machine.execQuietToKeyedEdge src s
  | .keyedToQuietEdge src => Sys2Proof.Machine.execKeyedToQuietEdge src s
  | .sourceLoss src => Sys2Proof.Machine.execSourceLoss src s
  | .waitExpiry r => Sys2Proof.Machine.execWaitExpiry r s
  | .holdExpiry r => Sys2Proof.Machine.execHoldExpiry r s
  | .durationExpiry r => Sys2Proof.Machine.execDurationExpiry r s
  | .leadInExpiry z => Sys2Proof.Machine.execLeadInExpiry z s
  | .retryExpiry => Sys2Proof.Machine.execRetryExpiry s
  | .copyDone => Sys2Proof.Machine.execCopyDone s
  | .fadeCompletion z l => Sys2Proof.Machine.execFadeCompletion z l s
  | .chimeStepEnd z => Sys2Proof.Machine.execChimeStepEnd z s
  | .toneStepEnd g => Sys2Proof.Machine.execToneStepEnd g s
  | .switchTaken lost => Sys2Proof.Machine.execSwitchTaken lost s
  | .replyBegin => Sys2Proof.Machine.execReplyBegin s
  | .noticeMessage => Sys2Proof.Machine.execNoticeMessage s
  | .callOpen => Sys2Proof.Machine.execCallOpen s
  | .callRelease => Sys2Proof.Machine.execCallRelease s
  | .callRetarget => Sys2Proof.Machine.execCallRetarget s
  | .clearCalls => Sys2Proof.Machine.execClearCalls s
  | .callRead => Sys2Proof.Machine.execCallRead s
  | .zoneRestrict => Sys2Proof.Machine.execZoneRestrict s
  | .zoneProbe => Sys2Proof.Machine.execZoneProbe s
  | .zoneRead => Sys2Proof.Machine.execZoneRead s
  | .sourceRead => Sys2Proof.Machine.execSourceRead s
  | .planWrite => Sys2Proof.Machine.execPlanWrite s
  | .planRead => Sys2Proof.Machine.execPlanRead s
  | .planErase => Sys2Proof.Machine.execPlanErase s
  | .planSeal => Sys2Proof.Machine.execPlanSeal s
  | .planUnseal => Sys2Proof.Machine.execPlanUnseal s
  | .planCopy => Sys2Proof.Machine.execPlanCopy s
  | .planSwitch => Sys2Proof.Machine.execPlanSwitch s
  | .planStatus => Sys2Proof.Machine.execPlanStatus s
  | .noticeAck => Sys2Proof.Machine.execNoticeAck s
  | .noticeConfig => Sys2Proof.Machine.execNoticeConfig s
  | .echo => Sys2Proof.Machine.execEcho s
  | .countersRead => Sys2Proof.Machine.execCountersRead s
  | .nodeReset => Sys2Proof.Machine.execNodeReset s
  | .unknownKindRequest => Sys2Proof.Machine.execUnknownKindRequest s
  | .resetAsserted => Sys2Proof.Machine.execResetAsserted s

end Sys2Proof.Machine
end

