-- ==== Sys2Proof/Safety.lean ====
section
/-! DEFINITION. What a good state of the part is, block by block, and the words the statements use about requests.

Each `Wf` gathers conditions the spec itself states of a block (the rule is named); the statements say that
`State.reset` has them and that every step keeps them. -/

namespace Sys2Proof.Machine

/-! ### Plans (R101 to R108, R114) -/

/-- A class definition with every field in its range (Table 5-1). -/
def ClassDef.InRange (d : ClassDef) : Prop :=
  1 ≤ d.priority ∧ d.priority ≤ 15 ∧ d.chimeMs ≤ 10000 ∧ d.waitMs ≤ 65535 ∧ d.durationMs ≤ 65535 ∧ d.holdMs ≤ 65535

/-- A zone entry with every field in its range (Table 5-2). -/
def ZoneEntry.InRange (e : ZoneEntry) : Prop :=
  e.programmeAtt ≤ 127 ∧ e.duckAtt ≤ 127 ∧ e.foregroundAtt ≤ 127 ∧ e.floor ≤ 15 ∧ 1 ≤ e.ramp ∧ e.ramp ≤ 8

/-- A step with its frequency and duration in their ranges (R105). -/
def PatternStep.InRange (st : PatternStep) : Prop :=
  (st.hz = 0 ∨ (100 ≤ st.hz ∧ st.hz ≤ 4000)) ∧ 1 ≤ st.ms ∧ st.ms ≤ 10000

/-- A defined pattern with 1 to 4 steps, each in range (R105). -/
def Pattern.InRange (p : Pattern) : Prop :=
  1 ≤ p.steps.length ∧ p.steps.length ≤ 4 ∧ ∀ st ∈ p.steps, st.InRange

/-- A plan whose every field is in its range (R102, R103, R105). -/
def Plan.InRange (p : Plan) : Prop :=
  (∀ i d, p.classes.get i = some d → d.InRange) ∧ (∀ z, (p.zones.get z).InRange)
    ∧ ∀ i q, p.patterns.get i = some q → q.InRange

/-- Every field of every entry of both banks is in its range. -/
def PlanStore.InRange (p : PlanStore) : Prop := ∀ n, (p.bank n).plan.InRange

/-- The plan store's conditions (R108): the live bank is SEALED; the other bank is COPYING exactly while there is a copy
progress, which is 0-83; a pending switch has a SEALED target; an EMPTY bank is blank; a SEALED bank passes
the seal check (R114). -/
structure PlanStore.Wf (p : PlanStore) : Prop where
  liveSealed : (p.bank p.live).state = .sealed
  copying : p.otherBank.state = .copying ↔ p.copied.isSome = true
  progress : ∀ k, p.copied = some k → k ≤ 83
  pendingSealed : p.pending.isSome = true → p.otherBank.state = .sealed
  emptyBlank : ∀ n, (p.bank n).state = .empty → (p.bank n).plan = blankPlan
  sealedPasses : ∀ n, (p.bank n).state = .sealed → sealFailure (p.bank n).plan = none

/-! ### The notice block (R128, R133, R135, R140) -/

/-- The notice block's conditions: at most 16 entries, numbered consecutively modulo 256 up to the next sequence
number, SENT entries first (R128); a lost count of at most 255 (R133); the timer runs exactly while an entry
is SENT (R135); a disabled block holds no entry and no loss (R140). -/
structure NoticeBlock.Wf (b : NoticeBlock) : Prop where
  size : b.queue.length ≤ Config.noticeQueueLimit
  numbered : ∀ i (h : i < b.queue.length), b.queue[i].seq + BitVec.ofNat 8 (b.queue.length - i) = b.next
  sentFirst : b.queue.Pairwise fun x y => y.sent = true → x.sent = true
  lostBound : b.lost ≤ 255
  timerRuns : b.timer.isSome = b.anySent
  disabledEmpty : b.enabled = false → b.queue = [] ∧ b.lost = 0

/-! ### The message block (R145, R148, R150, R156, R159) -/

/-- The input states in which the receive assembler holds words (R148). -/
def InputState.assembles : InputState → Bool
  | .consume => true
  | .broadcast => true
  | .between => false
  | .forward => false
  | .scrub => false
  | .discard => false

/-- The message block's conditions: queues within their limits (R150, R159); an own message and the transit buffer
hold at most 32 words together (R156); the assembler is empty outside CONSUME and BROADCAST, and a message in
assembly is shorter than its expected length, which is at most 32 (R148); every queued payload has its stated
length and every reply at most 28 words (R144). -/
structure MessageBlock.Wf (m : MessageBlock) : Prop where
  requestRoom : m.requests.length ≤ Config.requestQueueLimit
  replyRoom : m.replies.length ≤ Config.replyQueueLimit
  transitRoom : m.transit.length + m.own.length ≤ 32
  assemblerIdle : m.input.assembles = false → m.assembler = []
  assemblerBusy : m.input.assembles = true → m.assembler ≠ []
  expected : 3 ≤ m.assembler.length →
    lengthOf (wordAt m.assembler 2) ≤ Config.payloadLimit ∧ m.assembler.length < 4 + lengthOf (wordAt m.assembler 2)
  payloads : ∀ r ∈ m.requests, r.payload.length = r.len ∧ r.len ≤ Config.payloadLimit
  results : ∀ r ∈ m.replies, r.answer.results.length ≤ Config.payloadLimit
  cached : ∀ k e, m.cache.entry k = some e → e.answer.results.length ≤ Config.payloadLimit

/-! ### The trunk receiver (R169) -/

/-- The receiver's conditions (R169): an alignment exactly outside SEARCH; a confirm count of at most 3 and a miss count
of at most 2; a current frame number while LOCKED or in SLIP; counters of 16 bits. -/
structure Receiver.Wf (r : Receiver) : Prop where
  aligned : r.alignment.isSome = true ↔ r.link ≠ .search
  confirmCount : ∀ k, r.link = .confirm k → k ≤ 3
  missCount : ∀ m, r.link = .slip m → m ≤ 2
  numbered : r.link.freeRuns = false → r.frameNumber.isSome = true
  slipsBound : r.slips ≤ 65535
  lossesBound : r.losses ≤ 65535

/-! ### Trunk sources (R87) -/

/-- A trunk source's conditions (R87): runs below their limits, and a run that its state does not use at 0. In KEYED the
absence run is no longer than the release run, so that it stays below its limit. -/
structure TrunkRecord.Wf (t : TrunkRecord) : Prop where
  presenceBound : t.presence < Config.presenceLimit
  keyBound : t.key < Config.keyLimit
  releaseBound : t.release < Config.releaseLimit
  absenceBound : t.absence < Config.absenceLimit
  inAbsent : t.state = .absent → t.key = 0 ∧ t.release = 0 ∧ t.absence = 0
  inQuiet : t.state = .quiet → t.presence = 0 ∧ t.release = 0
  inKeyed : t.state = .keyed → t.presence = 0 ∧ t.key = 0 ∧ t.absence ≤ t.release

/-! ### Lanes (R68) -/

/-- A lane's conditions (R68): attenuations of at most 127, and a target of 127 while it fades. -/
structure Lane.Wf (l : Lane) : Prop where
  attBound : l.att ≤ 127
  targetBound : l.target ≤ 127
  fading : l.pending.isSome = true → l.target = 127

/-- Both lanes of a mixer are well formed, and the background lane never carries CHIME (R68). -/
structure Mixer.Wf (m : Mixer) : Prop where
  fore : m.foreground.Wf
  back : m.background.Wf
  noChime : m.background.current ≠ .chime ∧ m.background.pending ≠ some .chime

/-! ### Calls and zones (R1, R4, R5, R7, R33, R34) -/

/-- The call table's conditions: the admission list holds the reference of every open call once and no other (R4), no two
open calls share a source (R7), and the counters have 16 bits (R30). -/
structure CallTable.Wf (t : CallTable) : Prop where
  once : t.admission.Nodup
  listed : ∀ r, r ∈ t.admission ↔ (t.call? r).isSome = true
  oneSource : ∀ r r' c c', t.call? r = some c → t.call? r' = some c' → c.source = c'.source → r = r'
  admittedBound : t.admitted ≤ 65535
  refusedBound : t.keyRefused ≤ 65535

/-- Call table and zone records agree (R1, R5, R33, R34): the granted set of an open call holds exactly the zones it is
live on, its suspended set exactly the zones on whose stack it sits, both lie in its target set, which is not
empty, and they are disjoint; zones name open calls only; a stack has at most 4 entries and no call twice. -/
structure Agree (t : CallTable) (zones : Table 16 ZoneRecord) : Prop where
  granted : ∀ r c z, t.call? r = some c → (ZoneSet.has c.granted z = true ↔ (zones.get z).state.live? = some r)
  suspended : ∀ r c z, t.call? r = some c →
    (ZoneSet.has c.suspended z = true ↔ r ∈ (zones.get z).stack.map StackEntry.call)
  disjoint : ∀ r c, t.call? r = some c → c.granted &&& c.suspended = 0#16
  within : ∀ r c, t.call? r = some c → (c.granted ||| c.suspended) &&& ~~~ c.target = 0#16
  wanted : ∀ r c, t.call? r = some c → c.target ≠ 0#16
  liveOpen : ∀ z r, (zones.get z).state.live? = some r → (t.call? r).isSome = true
  stackOpen : ∀ z en, en ∈ (zones.get z).stack → (t.call? en.call).isSome = true
  stackSize : ∀ z, (zones.get z).stack.length ≤ Config.stackLimit
  stackOnce : ∀ z, ((zones.get z).stack.map StackEntry.call).Nodup

/-- The conditions that tie the call table, the zone records and the plan store together: the plan store, the call table
and the zone records are each well formed and agree; no call on a zone's suspended stack has a higher priority than
the zone's live call (R50); a zone that is unused in the live plan is IDLE with an empty stack (R61). Every used zone
stands as its last evaluation left it (R50): its live call is eligible and no eligible contender, stacked or waiting,
has a higher priority; with no live call, no contender is eligible, so every call on its stack is below the effective
floor. -/
structure State.Coherent (s : State) : Prop where
  plans : s.plans.Wf
  calls : s.calls.Wf
  agree : Agree s.calls s.zones
  stackBelow : ∀ z l en cl ce, (s.zones.get z).state.live? = some l → en ∈ (s.zones.get z).stack →
    s.calls.call? l = some cl → s.calls.call? en.call = some ce → ce.captured.priority ≤ cl.captured.priority
  unusedEmpty : ∀ z, s.plan.used z = false → (s.zones.get z).state = .idle ∧ (s.zones.get z).stack = []
  liveEligible : ∀ z l cl, (s.zones.get z).state.live? = some l → s.calls.call? l = some cl →
    max (s.plan.zones.get z).floor (s.zones.get z).restriction ≤ cl.captured.priority
  liveHighest : ∀ z l cl r c, (s.zones.get z).state.live? = some l → s.calls.call? l = some cl →
    s.calls.call? r = some c → ZoneSet.has c.target z = true → c.captured.priority ≤ cl.captured.priority
  idleBelow : ∀ z r c, s.plan.used z = true → (s.zones.get z).state.live? = none → s.calls.call? r = some c →
    ZoneSet.has c.target z = true →
    c.captured.priority < max (s.plan.zones.get z).floor (s.zones.get z).restriction
  stackBelowFloor : ∀ z en ce, (s.zones.get z).state.live? = none → en ∈ (s.zones.get z).stack →
    s.calls.call? en.call = some ce →
    ce.captured.priority < max (s.plan.zones.get z).floor (s.zones.get z).restriction

/-! ### Boundaries -/

/-- The notice block once its retry timer has counted a boundary: a running count above 1 is one less, a count of 1
stands until its expiry is taken (R135), and a timer that a message begun for this boundary started only loses its
mark (log 7). -/
def NoticeBlock.counted (b : NoticeBlock) : NoticeBlock :=
  { b with timer := b.timer.map fun t =>
      if t.held then { t with held := false }
      else { t with remaining := if 1 < t.remaining then t.remaining - 1 else t.remaining } }

/-- What a boundary counts in the call table and the zone records, from the state `s` before it to `t`: every wait, hold
and duration deadline (R16) and every lead-in remaining (R54) above 1 is one less, one of 1 stands until its expiry is
taken, and nothing else changes. -/
structure Counted (s t : State) : Prop where
  calls : t.calls = { s.calls with records := t.calls.records }
  deadlines : ∀ i, t.calls.records.get i =
    { s.calls.records.get i with call := (s.calls.records.get i).call.map fun c =>
        let counted := fun d : Option Nat => d.map fun n => if 1 < n then n - 1 else n
        { c with wait := counted c.wait, duration := counted c.duration, hold := counted c.hold } }
  leadIns : ∀ z r n, (s.zones.get z).state = .leadIn r n →
    t.zones.get z = { s.zones.get z with state := .leadIn r (if 1 < n then n - 1 else n) }
  others : ∀ z, (s.zones.get z).state.phase ≠ .leadIn → t.zones.get z = s.zones.get z

/-- Which expiries, copy ends and switches a boundary makes due, from the state `s` before it: each deadline of 1 (R16),
each lead-in remaining of 1 (R54), a retry timer at its last frame (R135), a copy with 83 entries copied (R117), and a
pending switch without a point, or with one that a usable frame's number has reached (R119). -/
structure FallDue (s : State) (usable : Bool) (number : BitVec 16) (due : List Task) : Prop where
  waits : ∀ r, Task.waitEnd r ∈ due ↔ r ∈ s.calls.admission ∧ ∃ c, s.calls.call? r = some c ∧ c.wait = some 1
  holds : ∀ r, Task.holdEnd r ∈ due ↔ r ∈ s.calls.admission ∧ ∃ c, s.calls.call? r = some c ∧ c.hold = some 1
  durations : ∀ r, Task.durationEnd r ∈ due ↔
    r ∈ s.calls.admission ∧ ∃ c, s.calls.call? r = some c ∧ c.duration = some 1
  leadIns : ∀ z, Task.leadInEnd z ∈ due ↔ ∃ r, (s.zones.get z).state = .leadIn r 1
  retry : Task.retryEnd ∈ due ↔ ∃ n, s.notices.timer = some ⟨n, false⟩ ∧ n ≤ 1
  copy : Task.copyEnd ∈ due ↔ s.plans.copied = some 83
  switch : Task.switchTake ∈ due ↔ s.plans.pending = some ⟨none⟩ ∨
    ∃ point, s.plans.pending = some ⟨some point⟩ ∧ usable = true ∧ (number - point).toNat < 32768

/-- A boundary that hands on a frame, taken with no order of its own on a state `s` with nothing due and no request
waiting, up to the building of the output frame, where the state is `u`. `m` and `n` are the message block and the
notice block from which the control stage starts. Everything is counted and falls due; a copy short of its last step
takes one (R117); every trunk source takes its observation (R88, R89), every lane one ramp step with the fades it
completes (R72), and the control positions are taken in and filled (R181). -/
structure BoundaryTaken (s u : State) (frame : Frame) (usable : Bool) (m : MessageBlock) (n : NoticeBlock) : Prop where
  now : u.now.frame = frame ∧ u.now.usable = usable
  counted : Counted s u
  due : FallDue s usable frame.number u.due
  copies : ∀ k, s.plans.copied = some k → k < 83 → u.plans.copied = some (k + 1) ∧
    u.plans.otherBank = { s.plans.otherBank with plan := s.plans.otherBank.plan.copyEntry s.plans.livePlan k }
  noCopy : (∀ k, s.plans.copied = some k → 83 ≤ k) →
    u.plans.copied = s.plans.copied ∧ u.plans.otherBank = s.plans.otherBank
  plans : u.plans.live = s.plans.live ∧ u.plans.livePlan = s.plans.livePlan
  observed : ∀ k,
    let slot := if usable then (s.plan.trunks.get k).slot.map frame.slots.get else none
    let present := slot.any fun w => w.getLsbD 31
    let keyed := slot.any fun w => w.getLsbD 31 && w.getLsbD 30
    u.sources.trunks.get k = ((s.sources.trunks.get k).observe k present keyed).1 ∧
      ∀ x ∈ ((s.sources.trunks.get k).observe k present keyed).2, x ∈ u.due
  tones : u.sources.tones = s.sources.tones
  ramped : ∀ z l,
    (u.mixers.get z).lane l = ((s.mixers.get z).lane l).ramp (s.plan.zones.get z).ramp ∧
      (u.mixers.get z).player = (s.mixers.get z).player ∧
      (Task.fadeEnd z l ∈ u.due ↔
        ((u.mixers.get z).lane l).pending.isSome = true ∧ ((u.mixers.get z).lane l).att = 127)
  control :
    let w := State.controlStage { s with now := u.now, msg := m, notices := n }
    u.msg = w.msg ∧ u.notices = w.notices ∧ u.out.words = w.out.words
  others : u.address = s.address ∧ u.inReset = s.inReset ∧ u.pending = s.pending ∧ u.out.next = s.out.next

/-! ### Tasks -/

/-- The state with one task that was due crossed off: what a command that takes it starts from. -/
def State.undue (s : State) (t : Task) : State := { s with due := s.due.erase t }

/-! ### Requests -/

/-- The processor can take a request of a kind, and it is no duplicate: no reset is in force, the request stands at
the front of the queue, it can be taken (R151) and it is not answered from the cache (R152). -/
structure State.Offers (s : State) (kind : BitVec 8) (r : Request) (rest : List Request) : Prop where
  running : s.inReset = false
  front : s.msg.requests = r :: rest
  isKind : r.kind = kind
  room : s.msg.canTake r = true
  fresh : s.msg.duplicate? r = none

/-- The state once the oldest request is removed and counted (R151). -/
def State.taken (s : State) (rest : List Request) : State := { s with msg := s.msg.take rest }

/-- The state once a request's answer has been queued and cached (R152, R154); a broadcast gives neither (R155). -/
def State.answered (s : State) (r : Request) (a : Answer) : State := { s with msg := s.msg.finish r a }

/-- The commands that take a request of one payload length, with the kind and the length (Table 10-8). ECHO, which takes
every length, is not among them. -/
def requestCommands : List (Instr × BitVec 8 × Nat) :=
  [(.callOpen, 1#8, 3), (.callRelease, 2#8, 1), (.callRetarget, 3#8, 3), (.clearCalls, 4#8, 2), (.callRead, 5#8, 1),
   (.zoneRestrict, 16#8, 2), (.zoneProbe, 17#8, 2), (.zoneRead, 18#8, 1), (.sourceRead, 24#8, 1),
   (.planWrite, 32#8, 14), (.planRead, 33#8, 3), (.planErase, 34#8, 1), (.planSeal, 35#8, 1), (.planUnseal, 36#8, 1)]
    ++ [(.planCopy, 37#8, 0), (.planSwitch, 38#8, 2), (.planStatus, 39#8, 0), (.noticeAck, 48#8, 1),
        (.noticeConfig, 49#8, 3), (.countersRead, 65#8, 1), (.nodeReset, 66#8, 0)]

/-- The range of each of the eleven entry words of a plan entry, counted from 0 (Tables 5-1, 5-2 and 10-10, R102 to R105;
R104 for a tone generator). -/
def entryWordInRange (e : EntryName) (i n : Nat) : Prop :=
  let ranges : List Prop := match e with
    | .cls _ => [n ≤ 1, 1 ≤ n ∧ n ≤ 15, n ≤ 1, n ≤ 1, n ≤ 7 ∨ n = 255, n ≤ 10000, n ≤ 2, n ≤ 65535, n ≤ 65535, n ≤ 65535]
    | .zone _ => [n ≤ 63 ∨ n = 255, n ≤ 51 ∨ n = 255, n ≤ 127, n ≤ 127, n ≤ 127, n ≤ 15, n ≤ 1, 1 ≤ n ∧ n ≤ 8]
    | .trunk _ => [n ≤ 63 ∨ n = 255, n ≤ 7 ∨ n = 255, n ≤ 65535]
    | .tone _ => [n ≤ 7 ∨ n = 255, n = 255]
    | .pattern _ =>
      [n ≤ 1, 1 ≤ n ∧ n ≤ 4, n ≤ 1]
        ++ (List.replicate 4 [n = 0 ∨ (100 ≤ n ∧ n ≤ 4000), 1 ≤ n ∧ n ≤ 10000]).flatten
  ranges.getD i (n = 0)

/-- A command that takes requests of a kind and length refuses, with BAD_FIELD naming field `n`, every payload of which
`bad` holds, and changes nothing but what every refusal changes (R153, R154). -/
def RefusesField (c : Instr) (kind : BitVec 8) (len n : Nat) (bad : List Word → Prop) : Prop :=
  ∀ s r rest, s.Offers kind r rest → r.len = len → bad r.payload →
    exec c s = .next ((s.taken rest).answered r ⟨.badField, [BitVec.ofNat 16 n]⟩)

end Sys2Proof.Machine
end

