-- ==== Sys2Proof/Certificates/Slice0/Obligations.lean ====
section
/-! DEFINITION. The statements for the provers, one `def Obligations.<Name> : Prop` each.

Throughout, `s.undue t` is the state with the task `t` crossed off (Safety.lean), `s.Offers kind r rest` says that the
request processor can take the request `r` of a kind and that it is no duplicate, `s.taken rest` is the state once it
is removed and counted, and `t.answered r a` the state once its answer is queued and cached. -/

section
open Sys2Proof Sys2Proof.Machine

/-! ### The machine -/

/-- A step takes the command at the front of the queue and runs it with the queue's rest; on an empty queue the part
idles (the model's choice, log 15). -/
def Obligations.StepRunsFrontCommand : Prop :=
  (∀ (c : Instr) (q : List Instr) (s : State), s.pending = c :: q → step s = exec c { s with pending := q }) ∧
    ∀ s : State, s.pending = [] → step s = .next s

/-- Every command, in every state, answers a next state, and keeps the queue of commands (logs 20, 25). -/
def Obligations.EveryCommandAnswersNext : Prop :=
  ∀ (c : Instr) (s : State), ∃ t, exec c s = .next t ∧ t.pending = s.pending

/-! ### Resets -/

/-- R31: what a hardware reset makes of the call table, and where the first call admitted afterwards goes. -/
def Obligations.HardwareResetFreesCalls : Prop :=
  (∀ (straps : BitVec 6) (s : State), ∃ t, exec (.hardwareReset straps) s = .next t ∧
      (∀ i, t.calls.records.get i = ⟨0, none⟩) ∧ t.calls.admission = [] ∧ t.calls.admitted = 0 ∧
      t.calls.keyRefused = 0) ∧
    ∀ (p : Plan) (o : Origin) (cls : Fin 8) (d : ClassDef) (src : Source) (target : ZoneSet) (e : Event),
      (∀ i, e.calls.records.get i = ⟨0, none⟩) → (e.openRecord p o cls d src target).admitted = e.admitted ++ [⟨0, 0⟩]

/-- R66: what a hardware reset makes of every zone record, with the effective floor, order mode and use it leaves. -/
def Obligations.HardwareResetIdlesZones : Prop :=
  ∀ (straps : BitVec 6) (s : State), ∃ t, exec (.hardwareReset straps) s = .next t ∧
    ∀ z : Zone,
      ((t.zones.get z).state.phase = .idle ∧ (t.zones.get z).state.live? = none ∧
        (t.zones.get z).state.remaining? = none ∧ (t.zones.get z).stack = [] ∧ (t.zones.get z).restriction = 0 ∧
        (t.zones.get z).lastServed = none) ∧
      effectiveFloor t.plan t.zones z = 0 ∧ (t.plan.zones.get z).floor = 0 ∧ (t.plan.zones.get z).order = .fifo ∧
      t.plan.used z = true ∧ (t.plan.zones.get z).slot.map Fin.val = some (48 + z.val)

/-- What a hardware reset makes of the plan store, the sources, the generators and the mixers (R124, R99, R84). -/
def Obligations.HardwareResetLoadsDefaultPlan : Prop :=
  ∀ (straps : BitVec 6) (s : State), ∃ t, exec (.hardwareReset straps) s = .next t ∧
    (t.plans.bank0 = ⟨.sealed, factoryPlan⟩ ∧ t.plans.bank1 = ⟨.empty, blankPlan⟩ ∧ t.plans.live = .b0 ∧
      t.plans.pending = none ∧ t.plans.copied = none) ∧
    (∀ k : Trunk, (t.plan.trunks.get k).slot.map Fin.val = some k.val ∧
      t.sources.trunks.get k =
        { state := .absent, presence := 0, key := 0, release := 0, absence := 0, flagPresent := false,
          flagKeyed := false }) ∧
    (t.sources.tones.get 0 =
        { playing := some { number := 0, steps := [⟨800, 24000⟩, ⟨1000, 24000⟩], repeats := true, pos := some ⟨1, 24000⟩ }
          phase := 0 } ∧
      t.sources.tones.get 1 =
        { playing := some { number := 2, steps := [⟨1000, 12000⟩, ⟨0, 12000⟩], repeats := true, pos := some ⟨1, 12000⟩ }
          phase := 0 } ∧
      t.sources.tones.get 2 = ⟨none, 0⟩ ∧ t.sources.tones.get 3 = ⟨none, 0⟩) ∧
    ∀ z : Zone, t.mixers.get z =
      { foreground := { current := .none, att := 127, target := 127, pending := none }
        background := { current := .none, att := 127, target := 0, pending := none }
        player := { pattern := none, pos := none, phase := 0 } }

/-- What a hardware reset makes of the link, the message block, the notice block and the node address (R169, R184, R164,
R142, R191). -/
def Obligations.HardwareResetStartsLink : Prop :=
  ∀ (straps : BitVec 6) (s : State), ∃ t, exec (.hardwareReset straps) s = .next t ∧
    (t.receiver.link = .search ∧ t.receiver.alignment = none ∧ t.receiver.frameNumber = none ∧ t.receiver.slips = 0 ∧
      t.receiver.losses = 0 ∧ t.linkOk = false ∧ t.out.next = 0#16 ∧ t.trunkOut = none) ∧
    (t.msg.input = .between ∧ t.msg.assembler = [] ∧ t.msg.transit = [] ∧ t.msg.requests = [] ∧ t.msg.replies = [] ∧
      t.msg.cache = ⟨none, none, none⟩ ∧ t.msg.counters = ⟨0, 0, 0, 0, 0, 0, 0⟩ ∧ t.msg.own = []) ∧
    (t.notices.enabled = true ∧ t.notices.recipient = .c60 ∧ t.notices.intervalMs = 100 ∧
      t.notices.queue = [{ seq := 0#8, notice := .powerUp, sent := false }] ∧ t.notices.next = 1#8 ∧
      t.notices.lost = 0 ∧ t.notices.timer = none ∧ t.notices.noticesLost = 0 ∧ t.notices.retries = 0) ∧
    t.inReset = false ∧ t.address = straps ∧ (t.transitOnly = true ↔ straps.toNat = 0 ∨ 60 ≤ straps.toNat)

/-- RESET_ASSERTED silences the line and abandons every operation in progress, and while the reset is in force no block
takes any event, TRUNK_OUT sends no frame and LINK_OK is low (R190; which fields RESET_ASSERTED clears before the reset
ends is the model's choice, log 14). -/
def Obligations.ResetInForceTakesNothing : Prop :=
  (∀ s : State, ∃ t, exec .resetAsserted s = .next t ∧ t.inReset = true ∧ t.due = [] ∧
    (∀ r, t.calls.call? r = none) ∧ (∀ z, (t.zones.get z).state = .idle) ∧ t.plans.pending = none ∧
    t.plans.copied = none ∧ t.msg.requests = [] ∧ t.msg.replies = [] ∧ t.msg.own = [] ∧ t.msg.transit = []) ∧
  ∀ (c : Instr) (s : State), s.inReset = true →
    s.trunkOut = none ∧ s.linkOk = false ∧
      ((∀ straps, c ≠ .hardwareReset straps) → c ≠ .resetAsserted → exec c s = .next s)

/-! ### The trunk link -/

/-- SYNC_FOUND: in SEARCH, the pattern at a place from which hunting goes on or a later one enters CONFIRM; anything else
leaves the receiver as it is (R170; the hunt place is log 18). -/
def Obligations.SyncFoundEntersConfirm : Prop :=
  ∀ (place : Nat) (window : BitVec 16) (s : State), s.inReset = false →
    (s.receiver.link = .search → window = 0xF350#16 → s.receiver.hunt ≤ place →
      exec (.syncFound place window) s =
        .next { s with receiver := { s.receiver with link := .confirm 0, alignment := some (place + 2152) } }) ∧
    (s.receiver.link ≠ .search ∨ window ≠ 0xF350#16 ∨ place < s.receiver.hunt →
      exec (.syncFound place window) s = .next s)

/-- The judgement of a frame, case by case of Table 8-1 (R171), with whether it is a boundary of the part (R173), whether
the frame is usable (R172), and which entry it makes. -/
def Obligations.JudgementFollowsTable : Prop :=
  ∀ (r : Receiver) (n : BitVec 16),
    let onward := r.alignment.map (· + 2152)
    let searching : Receiver :=
      { r with link := .search, alignment := none, hunt := (r.alignment.map (· - 2152)).getD r.hunt,
               losses := min (r.losses + 1) 65535 }
    (∀ k, r.link = .confirm k → k + 1 < 4 →
      r.judge true n = ⟨{ r with link := .confirm (k + 1), alignment := onward }, false, false, []⟩) ∧
    (∀ k, r.link = .confirm k → 4 ≤ k + 1 →
      r.judge true n =
        ⟨{ r with link := .locked, alignment := onward, frameNumber := some n }, true, true, [.linkLocked]⟩) ∧
    (∀ k, r.link = .confirm k → r.judge false n = ⟨searching, false, false, [.linkSearch]⟩) ∧
    (r.link = .locked →
      r.judge true n = ⟨{ r with link := .locked, alignment := onward, frameNumber := some n }, true, true, []⟩) ∧
    (r.link = .locked →
      r.judge false n =
        ⟨{ r with link := .slip 0, alignment := onward, slips := min (r.slips + 1) 65535 }, true, false, []⟩) ∧
    (∀ m, r.link = .slip m →
      r.judge true n =
        ⟨{ r with link := .locked, alignment := onward, frameNumber := some n }, true, true, [.linkLocked]⟩) ∧
    (∀ m, r.link = .slip m → m < 2 →
      r.judge false n = ⟨{ r with link := .slip (m + 1), alignment := onward }, true, false, []⟩) ∧
    (∀ m, r.link = .slip m → 2 ≤ m → r.judge false n = ⟨searching, true, false, [.linkSearch]⟩)

/-- FRAME_JUDGED with the sync present, in LOCKED, in SLIP, or as the fourth frame of CONFIRM: the receiver is LOCKED, its
number and alignment move on, and the output frame begun carries the input frame's number (R171, R178, R179). The
boundary runs from its opening by the moves of its order and then the stages these leave (log 5); taken with no order on
a state with nothing due and no request waiting, it counts every deadline, lead-in and the retry timer, makes due what
runs out (R16, R54, R119, R135), takes a copy step (R117), every observation and every ramp step (R88, R72), and the
control positions. -/
def Obligations.UsableFrameLocks : Prop :=
  ∀ (bits : BitVec 2152) (order : List Move) (s : State), s.inReset = false → frameSync bits = 0xF350#16 →
    (s.receiver.link = .locked ∨ (∃ m, s.receiver.link = .slip m) ∨ ∃ k, s.receiver.link = .confirm k ∧ 3 ≤ k) →
    ∃ t f, exec (.frameJudged bits order) s = .next t ∧ t.receiver.link = .locked ∧ t.linkOk = true ∧
      t.receiver.frameNumber = some (Frame.ofBits bits).number ∧
      t.receiver.alignment = s.receiver.alignment.map (· + 2152) ∧
      t.now.frame = Frame.ofBits bits ∧ t.now.usable = true ∧
      t.out.sending = some f ∧ f.number = (Frame.ofBits bits).number ∧ t.out.next = (Frame.ofBits bits).number + 1#16 ∧
      t.address = s.address ∧
      (let settled := s.settleBoundary
        let opened := State.openBoundary
          { settled with receiver := { settled.receiver with
              link := .locked, alignment := settled.receiver.alignment.map (· + 2152)
              frameNumber := some (Frame.ofBits bits).number } }
          (Frame.ofBits bits) true (if s.receiver.link = .locked then [] else [.linkLocked])
        t = (order.foldl State.makeMove opened).performAll
          [.linkLocked, .linkSearch, .copyStep, .observe, .ramps, .control, .build]) ∧
      (s.due = [] → s.msg.requests = [] → order = [] → ∃ u, t = u.sendFrame ∧
        BoundaryTaken s u (Frame.ofBits bits) true s.msg
          (if s.receiver.link = .locked then s.notices.counted else s.notices.counted.submit (.link true)) ∧
        u.plans.pending = s.plans.pending)

/-- FRAME_JUDGED in CONFIRM that does not lock: no boundary of the part. A first, second or third good frame of CONFIRM
only counts; a missing sync enters SEARCH, empties the transit buffer, submits LINK SEARCH and abandons a switch with a
point (R171, R176, R120). In SEARCH no frame is held, so no frame is judged (R172); that the command then leaves the
state as it is, is the model's choice (DESIGN CHOICE, log 3). -/
def Obligations.UnlockedJudgementIsNoBoundary : Prop :=
  ∀ (bits : BitVec 2152) (order : List Move) (s : State), s.inReset = false → Task.linkSearch ∉ s.due →
    (s.receiver.link = .search → exec (.frameJudged bits order) s = .next s) ∧
    (∀ k, s.receiver.link = .confirm k → k < 3 → frameSync bits = 0xF350#16 →
      exec (.frameJudged bits order) s =
        .next { s with receiver := { s.receiver with
          link := .confirm (k + 1), alignment := s.receiver.alignment.map (· + 2152) } }) ∧
    (∀ k, s.receiver.link = .confirm k → frameSync bits ≠ 0xF350#16 →
      let receiver : Receiver :=
        { s.receiver with
          link := .search, alignment := none, losses := min (s.receiver.losses + 1) 65535
          hunt := (s.receiver.alignment.map (· - 2152)).getD s.receiver.hunt }
      let quiet := { s with receiver := receiver, msg := { s.msg with transit := [] } }
      (∀ point, s.plans.pending = some ⟨some point⟩ →
        exec (.frameJudged bits order) s =
          .next { quiet with
            plans := { s.plans with pending := none }
            notices := (s.notices.submit (.link false)).submit .switchAbandoned }) ∧
      ((∀ point, s.plans.pending ≠ some ⟨some point⟩) →
        exec (.frameJudged bits order) s = .next { quiet with notices := s.notices.submit (.link false) }))

/-- Boundaries without a usable frame: FREE_RUN_BOUNDARY in SEARCH and CONFIRM, and FRAME_JUDGED with the sync missing in
LOCKED and SLIP. The output frame begun carries the next output number, and the frame handed on is silent (R172, R173,
R179). In LOCKED and SLIP no free-run boundary occurs (R173); that FREE_RUN_BOUNDARY then leaves the state as it is, is
the model's choice (DESIGN CHOICE, log 3). Each boundary counts as a usable one does, when taken with no order on a state
with nothing due and no request waiting; an entry to SEARCH first submits its notices and empties the transit buffer
(R176). What the opening of any boundary counts and makes due, before all that its order takes (log 5), comes last. -/
def Obligations.UnusableBoundaryNumbersOn : Prop :=
  (∀ (order : List Move) (s : State), s.inReset = false → Task.build ∉ s.due →
    (((∃ k, s.receiver.link = .confirm k) ∨ s.receiver.link = .search) →
      ∃ t f, exec (.freeRunBoundary order) s = .next t ∧ t.receiver.link = s.receiver.link ∧
        t.receiver.alignment = s.receiver.alignment ∧ t.receiver.frameNumber = s.receiver.frameNumber ∧
        t.now.frame = silentFrame ∧ t.now.usable = false ∧
        t.out.sending = some f ∧ f.number = s.out.next ∧ t.out.next = s.out.next + 1#16) ∧
    ((s.receiver.link = .locked ∨ ∃ m, s.receiver.link = .slip m) →
      exec (.freeRunBoundary order) s = .next s ∧
      ∀ bits, frameSync bits ≠ 0xF350#16 →
        ∃ t f, exec (.frameJudged bits order) s = .next t ∧ t.receiver.link ≠ .locked ∧
          t.receiver.frameNumber = s.receiver.frameNumber ∧
          t.now.frame = silentFrame ∧ t.now.usable = false ∧
          t.out.sending = some f ∧ f.number = s.out.next ∧ t.out.next = s.out.next + 1#16)) ∧
  (∀ (order : List Move) (s : State), s.inReset = false →
    ((∃ k, s.receiver.link = .confirm k) ∨ s.receiver.link = .search) →
    exec (.freeRunBoundary order) s =
      .next ((order.foldl State.makeMove (s.settleBoundary.openBoundary silentFrame false [])).performAll
        [.linkLocked, .linkSearch, .copyStep, .observe, .ramps, .control, .build])) ∧
  (∀ s : State, s.inReset = false → s.due = [] → s.msg.requests = [] →
    (((∃ k, s.receiver.link = .confirm k) ∨ s.receiver.link = .search) →
      ∃ u, exec (.freeRunBoundary []) s = .next u.sendFrame ∧
        BoundaryTaken s u silentFrame false s.msg s.notices.counted ∧ u.plans.pending = s.plans.pending ∧
        u.receiver = s.receiver) ∧
    ∀ bits, frameSync bits ≠ 0xF350#16 →
      (s.receiver.link = .locked ∨ (∃ m, s.receiver.link = .slip m ∧ m < 2) →
        ∃ u, exec (.frameJudged bits []) s = .next u.sendFrame ∧
          BoundaryTaken s u silentFrame false s.msg s.notices.counted ∧ u.plans.pending = s.plans.pending) ∧
      (∀ m, s.receiver.link = .slip m → 2 ≤ m →
        let told := s.notices.counted.submit (.link false)
        ((∀ point, s.plans.pending ≠ some ⟨some point⟩) →
          ∃ u, exec (.frameJudged bits []) s = .next u.sendFrame ∧
            BoundaryTaken s u silentFrame false { s.msg with transit := [] } told ∧
            u.plans.pending = s.plans.pending) ∧
        ∀ point, s.plans.pending = some ⟨some point⟩ →
          ∃ u, exec (.frameJudged bits []) s = .next u.sendFrame ∧
            BoundaryTaken s u silentFrame false { s.msg with transit := [] } (told.submit .switchAbandoned) ∧
            u.plans.pending = none)) ∧
  ∀ (s : State) (frame : Frame) (usable : Bool) (entered : List Task),
    (∀ x ∈ entered, x = .linkLocked ∨ x = .linkSearch) →
    let t := s.openBoundary frame usable entered
    Counted s t ∧ t.notices = s.notices.counted ∧ t.now.frame = frame ∧ t.now.usable = usable ∧
      (∀ z, t.now.rates.get z = (s.plan.zones.get z).ramp) ∧
      t = { s with calls := t.calls, zones := t.zones, notices := t.notices, now := t.now, due := t.due, out := t.out } ∧
      t.out = { s.out with switched := none } ∧
      ∃ new, t.due = s.due ++ new ∧ FallDue s usable frame.number new ∧ entered ⊆ new ∧
        (Task.copyStep ∈ new ↔ ∃ k, s.plans.copied = some k ∧ k < 83) ∧
        [Task.observe, .ramps, .control, .build] ⊆ new

/-- The output frame that a boundary builds: its number, its control words, and each of its 64 slots, with the flags and the
limited sum of the two lanes on a zone's slot (R179, R180, R181, R80, R81, R147). While a switch is due, the frame that
is sent in its place if the switch is taken is the same but for a generator that the new plan leaves without a pattern,
which carries 0 (R97; log 12). A lane carries its trunk source's slot sample when the frame is usable and the slot
PRESENT, its generator's sample, its zone's chime sample, or 0 (R78, R91); a chime player or generator that plays a step
yields the sine rule's sample, 0 for a silent step, and 0 otherwise (R76, R77, R93). After the build each has advanced its
phase and counted a frame of its step, and one at the last frame of a step has that step's end due. -/
def Obligations.OutputFrameContents : Prop :=
  (∀ s : State,
    let zoneSlots := fun (f : Frame) (sample : Mixer → Lane → Int) =>
      (s.transitOnly = true → ∀ i, f.slots.get i = s.now.frame.slots.get i) ∧
      (s.transitOnly = false → ∀ i,
        ((∀ z, (s.plan.zones.get z).slot ≠ some i) → f.slots.get i = s.now.frame.slots.get i) ∧
        ∀ z, (s.plan.zones.get z).slot = some i → (∀ y, (s.plan.zones.get y).slot = some i → y = z) →
          let m := s.mixers.get z
          slotPresent (f.slots.get i) = true ∧
            (slotKeyed (f.slots.get i) = true ↔ (s.zones.get z).state.phase ≠ .idle) ∧
            (f.slots.get i).extractLsb' 24 6 = 0#6 ∧
            slotSample (f.slots.get i) =
              max (-8388608) (min 8388607
                (contribution (sample m m.foreground) m.foreground.att
                  + contribution (sample m m.background) m.background.att)))
    ∃ f, s.sendFrame.out.sending = some f ∧
      f.number = (if s.now.usable then s.now.frame.number else s.out.next) ∧ s.sendFrame.out.next = f.number + 1#16 ∧
      f.words = s.out.words ∧ zoneSlots f s.laneSample ∧
      (Task.switchTake ∉ s.due → s.sendFrame.out.switched = none) ∧
      (Task.switchTake ∈ s.due → ∃ g, s.sendFrame.out.switched = some g ∧ g.number = f.number ∧ g.words = f.words ∧
        zoneSlots g fun m l =>
          if ∃ q : Tone, l.current = .source (toneSource q) ∧ s.plans.otherBank.plan.tones.get q = none then 0
          else s.laneSample m l)) ∧
  (∀ (s : State) (m : Mixer) (l : Lane),
    (l.current = .none → s.laneSample m l = 0) ∧
    (l.current = .chime → s.laneSample m l = m.player.sample) ∧
    (∀ k : Trunk, l.current = .source (trunkSource k) →
      s.laneSample m l =
        match (if s.now.usable then (s.plan.trunks.get k).slot.map s.now.frame.slots.get else none) with
        | none => 0
        | some w => if w.getLsbD 31 then (w.extractLsb' 0 24).toInt else 0) ∧
    ∀ g : Tone, l.current = .source (toneSource g) → s.laneSample m l = (s.sources.tones.get g).sample) ∧
  (∀ c : ChimePlayer,
    (c.pattern = none ∨ c.pos = none → c.sample = 0) ∧
    ∀ steps n left st, c.pattern = some steps → c.pos = some ⟨n + 1, left⟩ → steps[n]? = some st →
      c.sample = if st.hz = 0 then 0 else sineSample c.phase) ∧
  (∀ g : ToneGen,
    (g.playing = none → g.sample = 0) ∧
    ∀ p, g.playing = some p →
      (p.pos = none → g.sample = 0) ∧
      ∀ n left st, p.pos = some ⟨n + 1, left⟩ → p.steps[n]? = some st →
        g.sample = if st.hz = 0 then 0 else sineSample g.phase) ∧
  ∀ s : State,
    let t := s.sendFrame
    t = { s with out := t.out, mixers := t.mixers, sources := t.sources, due := t.due } ∧
      t.sources.trunks = s.sources.trunks ∧ (∀ x ∈ s.due, x ∈ t.due) ∧
      (∀ z, (t.mixers.get z).foreground = (s.mixers.get z).foreground ∧
        (t.mixers.get z).background = (s.mixers.get z).background ∧
        (let c := (s.mixers.get z).player;
          (c.pattern = none ∨ c.pos = none → (t.mixers.get z).player = c) ∧
          ∀ steps n left st, c.pattern = some steps → c.pos = some ⟨n + 1, left⟩ → steps[n]? = some st →
            (t.mixers.get z).player =
              { pattern := some steps
                pos := some ⟨n + 1, if 1 < left then left - 1 else left⟩
                phase := (c.phase + st.hz) % 48000 } ∧
            (left ≤ 1 → Task.chimeEnd z ∈ t.due))) ∧
      ∀ q, let g := s.sources.tones.get q;
        (g.playing = none → t.sources.tones.get q = g) ∧
        ∀ p, g.playing = some p →
          (p.pos = none → t.sources.tones.get q = g) ∧
          ∀ n left st, p.pos = some ⟨n + 1, left⟩ → p.steps[n]? = some st →
            t.sources.tones.get q =
              { playing := some { p with pos := some ⟨n + 1, if 1 < left then left - 1 else left⟩ }
                phase := (g.phase + st.hz) % 48000 } ∧
            (left ≤ 1 → Task.toneEnd q ∈ t.due)

/-- A trunk frame written out as 2,152 bits reads back as the same frame, and begins with the sync pattern (R185). -/
def Obligations.FrameBitsRoundTrip : Prop :=
  ∀ f : Frame, Frame.ofBits f.toBits = f ∧ frameSync f.toBits = 0xF350#16

/-! ### Sources and mixers -/

/-- One observation of a trunk source, case by case of Table 4-2 (R89), with the last flags (R88) and the reports (R90). Case
A2 is taken by PRESENCE_CONFIRMED, which the observation makes due: the source becomes QUIET with every run 0, and
nothing else changes. When a plan switch has set the runs to 0 since then, the command takes the observation under the
new mapping, which counts as 1 in the run it feeds (R96; log 10). -/
def Obligations.ObservationFollowsTable : Prop :=
  (∀ (k : Trunk) (keyed : Bool) (s : State), s.inReset = false → Task.presence k keyed ∈ s.due →
    Task.presence k (!keyed) ∉ s.due → (s.sources.trunks.get k).state = .absent →
    let was := s.sources.trunks.get k
    let seen := observedPresent s.plan s.now k
    let after : TrunkRecord :=
      if 48 ≤ was.presence + 1 then
        { state := .quiet, presence := 0, key := 0, release := 0, absence := 0, flagPresent := true, flagKeyed := keyed }
      else
        { was with
          presence := if seen then was.presence + 1 else 0
          flagPresent := seen
          flagKeyed := observedKeyed s.plan s.now k }
    exec (.presenceConfirmed k) s =
      .next { s.undue (.presence k keyed) with
        sources := { s.sources with trunks := s.sources.trunks.set k after } }) ∧
  ∀ (t : TrunkRecord) (s : Trunk) (k : Bool),
    let on := { t with flagPresent := true, flagKeyed := k }
    let off := { t with flagPresent := false, flagKeyed := false }
    (t.state = .absent →
      (t.presence + 1 < 48 → t.observe s true k = ({ on with presence := t.presence + 1 }, [])) ∧
      (48 ≤ t.presence + 1 → t.observe s true k = (t, [.presence s k])) ∧
      t.observe s false false = ({ off with presence := 0 }, [])) ∧
    (t.state = .quiet →
      (t.key + 1 < 96 → k = true → t.observe s true k = ({ on with key := t.key + 1, absence := 0 }, [])) ∧
      (96 ≤ t.key + 1 → k = true →
        t.observe s true k =
          ({ on with state := .keyed, presence := 0, key := 0, release := 0, absence := 0 }, [.keyUp s])) ∧
      (k = false → t.observe s true k = ({ on with key := 0, absence := 0 }, [])) ∧
      (t.absence + 1 < 2400 → t.observe s false false = ({ off with key := 0, absence := t.absence + 1 }, [])) ∧
      (2400 ≤ t.absence + 1 →
        t.observe s false false =
          ({ off with state := .absent, presence := 0, key := 0, release := 0, absence := 0 },
            [.loss (trunkSource s)]))) ∧
    (t.state = .keyed →
      (k = true → t.observe s true k = ({ on with release := 0, absence := 0 }, [])) ∧
      (k = false → t.release + 1 < 96 →
        t.observe s true k = ({ on with release := t.release + 1, absence := 0 }, [])) ∧
      (k = false → 96 ≤ t.release + 1 →
        t.observe s true k =
          ({ on with state := .quiet, presence := 0, key := 0, release := 0, absence := 0 }, [.keyDown s])) ∧
      (t.release + 1 < 96 →
        t.observe s false false = ({ off with release := t.release + 1, absence := t.absence + 1 }, [])) ∧
      (96 ≤ t.release + 1 →
        t.observe s false false =
          ({ off with state := .quiet, key := 0, release := 0, absence := t.absence + 1 }, [.keyDown s])))

/-- One ramp step moves a lane's attenuation by the rate toward its target and never past it, changing nothing else; enough
steps reach the target exactly (R72). -/
def Obligations.RampStepMovesLane : Prop :=
  ∀ (l : Lane) (rate : Nat),
    (l.att < l.target → l.ramp rate = { l with att := min (l.att + rate) l.target }) ∧
    (l.target < l.att → l.ramp rate = { l with att := max (l.att - rate) l.target }) ∧
    (l.att = l.target → l.ramp rate = l) ∧
    ∀ n, 1 ≤ rate → (l.target - l.att) + (l.att - l.target) ≤ n * rate →
      (fun l : Lane => l.ramp rate)^[n] l = { l with att := l.target }

/-- The gain of every attenuation 1 to 126 is the integer nearest 65,536 times 10 to the power -a/40, and a contribution is
the product rounded toward minus infinity; 0 is unity and 127 is zero (R79; where its formula and its table differ at
attenuation 1 the formula is followed, log 19). The sample of the sine rule at a phase of k/48,000 of a cycle is the
integer nearest 4,194,304 times the sine of 2 pi times the phase; no half occurs (R77). -/
def Obligations.GainIsNearest : Prop :=
  (∀ k, k < 48000 → |(sineSample k : ℝ) - 4194304 * Real.sin (2 * Real.pi * (k / 48000))| < 1 / 2) ∧
  (∀ a, 1 ≤ a → a ≤ 126 →
    (2 * gain a - 1) ^ 40 * 10 ^ a < 131072 ^ 40 ∧ 131072 ^ 40 < (2 * gain a + 1) ^ 40 * 10 ^ a) ∧
  ∀ x : Int, contribution x 0 = x ∧ contribution x 127 = 0 ∧
    ∀ a, 1 ≤ a → a ≤ 126 →
      contribution x a * 65536 ≤ x * (gain a : Int) ∧ x * (gain a : Int) < (contribution x a + 1) * 65536

/-- A lane takes a desired pair by the cases of Table 3-2 (R71). The desired pairs of Table 3-1 (R69): the foreground's by
the zone's phase, the background's source from the plan's programme, and its level by the duck mode of the live call
(R70). -/
def Obligations.LaneUpdateFollowsTable : Prop :=
  (∀ (l : Lane) (d : Desired),
    (l.pending = none → d.source = l.current → l.apply d = { l with target := d.level }) ∧
    (l.pending = none → d.source ≠ l.current → l.att = 127 →
      l.apply d = { l with current := d.source, target := d.level }) ∧
    (l.pending = none → d.source ≠ l.current → l.att ≠ 127 →
      l.apply d = { l with pending := some d.source, target := 127 }) ∧
    (l.pending ≠ none → d.source = l.current → l.apply d = { l with pending := none, target := d.level }) ∧
    (l.pending ≠ none → d.source ≠ l.current → l.apply d = { l with pending := some d.source })) ∧
  ∀ (entry : ZoneEntry) (calls : CallTable) (st : ZoneState),
    desiredForeground entry calls .idle = ⟨.none, 127⟩ ∧
    (∀ r n, desiredForeground entry calls (.leadIn r n) = ⟨.chime, entry.foregroundAtt⟩) ∧
    (∀ r c, calls.call? r = some c →
      desiredForeground entry calls (.onAir r) = ⟨.source c.source, entry.foregroundAtt⟩) ∧
    (entry.programme = none → (desiredBackground entry calls st).source = .none) ∧
    (∀ src, entry.programme = some src → (desiredBackground entry calls st).source = .source src) ∧
    (st = .idle → (desiredBackground entry calls st).level = entry.programmeAtt) ∧
    ∀ r c, st.live? = some r → calls.call? r = some c →
      (c.captured.duck = .keep → (desiredBackground entry calls st).level = entry.programmeAtt) ∧
      (c.captured.duck = .duck →
        (desiredBackground entry calls st).level = max entry.programmeAtt entry.duckAtt) ∧
      (c.captured.duck = .mute → (desiredBackground entry calls st).level = 127)

/-! ### Events that a boundary makes due -/

/-- QUIET_TO_KEYED_EDGE, the first case of R10 that applies deciding. -/
def Obligations.KeyUpFollowsCases : Prop :=
  ∀ (k : Trunk) (s : State), s.inReset = false → Task.keyUp k ∈ s.due →
    let u := s.undue (.keyUp k)
    let src := trunkSource k
    (∀ r c, s.calls.ofSource? src = some r → s.calls.call? r = some c → c.origin = .key → c.hold.isSome = true →
      exec (.quietToKeyedEdge k) s =
        .next { u with calls :=
          { s.calls with records := s.calls.records.set r.index ⟨r.gen, some { c with hold := none }⟩ } }) ∧
    (∀ r c, s.calls.ofSource? src = some r → s.calls.call? r = some c → (c.origin ≠ .key ∨ c.hold = none) →
      exec (.quietToKeyedEdge k) s = .next u) ∧
    (s.calls.ofSource? src = none →
      ((s.plan.trunks.get k).keyClass = none → exec (.quietToKeyedEdge k) s = .next u) ∧
      ∀ cls d, (s.plan.trunks.get k).keyClass = some cls → s.plan.classes.get cls = some d →
        (s.calls.freeIndex? = none →
          exec (.quietToKeyedEdge k) s =
            .next { u with
              calls := { s.calls with keyRefused := min (s.calls.keyRefused + 1) 65535 }
              notices := s.notices.submit (.keyRefused src) }) ∧
        (∀ i, s.calls.freeIndex? = some i →
          exec (.quietToKeyedEdge k) s =
            .next (u.event fun p e => e.openRecord p .key cls d src (p.trunks.get k).keyTargets)))

/-- KEYED_TO_QUIET_EDGE (R11): a KEY call ends UNKEYED or starts its hold; any other edge is ignored. -/
def Obligations.KeyDownFollowsCases : Prop :=
  ∀ (k : Trunk) (s : State), s.inReset = false → Task.keyDown k ∈ s.due →
    let u := s.undue (.keyDown k)
    (s.calls.ofSource? (trunkSource k) = none → exec (.keyedToQuietEdge k) s = .next u) ∧
    ∀ r c, s.calls.ofSource? (trunkSource k) = some r → s.calls.call? r = some c →
      (c.origin ≠ .key → exec (.keyedToQuietEdge k) s = .next u) ∧
      (c.origin = .key → c.captured.holdMs = 0 →
        exec (.keyedToQuietEdge k) s = .next (u.event fun p e => e.endCall p r .unkeyed)) ∧
      (c.origin = .key → c.captured.holdMs ≠ 0 →
        exec (.keyedToQuietEdge k) s =
          .next { u with calls :=
            { s.calls with
              records := s.calls.records.set r.index ⟨r.gen, some { c with hold := some (c.captured.holdMs * 48) }⟩ } })

/-- SOURCE_LOSS, WAIT_EXPIRY, HOLD_EXPIRY and DURATION_EXPIRY end the call they concern with their own cause (R17, R18,
R19, R21); a loss that finds no open call changes nothing. -/
def Obligations.LossAndExpiriesEndCalls : Prop :=
  ∀ s : State, s.inReset = false →
    (∀ src, Task.loss src ∈ s.due →
      (∀ r, s.calls.ofSource? src = some r →
        exec (.sourceLoss src) s = .next ((s.undue (.loss src)).event fun p e => e.endCall p r .sourceLost)) ∧
      (s.calls.ofSource? src = none → exec (.sourceLoss src) s = .next (s.undue (.loss src)))) ∧
    ∀ r c, s.calls.call? r = some c →
      (Task.waitEnd r ∈ s.due → c.wait = some 1 →
        exec (.waitExpiry r) s = .next ((s.undue (.waitEnd r)).event fun p e => e.endCall p r .waitExpired)) ∧
      (Task.holdEnd r ∈ s.due → c.hold = some 1 →
        exec (.holdExpiry r) s = .next ((s.undue (.holdEnd r)).event fun p e => e.endCall p r .unkeyed)) ∧
      (Task.durationEnd r ∈ s.due → c.duration = some 1 →
        exec (.durationExpiry r) s = .next ((s.undue (.durationEnd r)).event fun p e => e.endCall p r .duration))

/-- LEAD_IN_EXPIRY: the zone enters ON_AIR with the same live call; no stack, no other zone, no source, plan, message or
link register changes; the call's speak flag is set (R54, R13). -/
def Obligations.LeadInExpiryGoesOnAir : Prop :=
  ∀ (z : Zone) (s : State) (r : CallRef), s.inReset = false → Task.leadInEnd z ∈ s.due →
    (s.zones.get z).state = .leadIn r 1 →
    ∃ t, exec (.leadInExpiry z) s = .next t ∧ t.zones = s.zones.set z { s.zones.get z with state := .onAir r } ∧
      (∀ c, t.calls.call? r = some c → c.speak = true) ∧
      (∀ c, s.calls.call? r = some c → c.speak = true → t.calls = s.calls) ∧
      t.due = s.due.erase (.leadInEnd z) ∧ t.sources = s.sources ∧ t.plans = s.plans ∧ t.msg = s.msg ∧
      t.receiver = s.receiver ∧ t.out = s.out ∧ t.address = s.address

/-- RETRY_EXPIRY: every SENT entry becomes UNSENT, the retries counter increases and the timer stops; nothing else changes
(R138). -/
def Obligations.RetryExpiryReturnsEntries : Prop :=
  ∀ s : State, s.inReset = false → Task.retryEnd ∈ s.due → s.notices.timer = some ⟨1, false⟩ →
    exec .retryExpiry s =
      .next { s.undue .retryEnd with
        notices := { s.notices with
          queue := s.notices.queue.map fun e => { e with sent := false }
          retries := min (s.notices.retries + 1) 65535
          timer := none } }

/-- COPY_DONE: the 84th entry is copied, the bank becomes OPEN, the progress becomes absent and the notice is submitted;
nothing else changes (R117). The 84 copy steps together make an exact copy, the k-th copying the k-th entry in table
order (R101). Each of the first 83, wherever its boundary's order takes it, adds one to the progress; a request taken
before it finds the progress before it. -/
def Obligations.CopyDoneOpensBank : Prop :=
  (∀ s : State, s.inReset = false → Task.copyEnd ∈ s.due → s.plans.copied = some 83 →
    ∃ t, exec .copyDone s = .next t ∧
      t = { s.undue .copyEnd with plans := t.plans, notices := s.notices.submit (.copyDone s.plans.live.other) } ∧
      t.plans.copied = none ∧ t.plans.live = s.plans.live ∧ t.plans.pending = s.plans.pending ∧
      t.plans.bank s.plans.live = s.plans.bank s.plans.live ∧ t.plans.otherBank.state = .opened ∧
      t.plans.otherBank.plan =
        { s.plans.otherBank.plan with
          patterns := s.plans.otherBank.plan.patterns.set 7 (s.plans.livePlan.patterns.get 7) }) ∧
  (∀ (s : State) (k : Nat), Task.copyStep ∈ s.due → s.plans.copied = some k → k < 83 →
    ∃ b : Bank, s.perform .copyStep =
        { s.undue .copyStep with plans := { s.plans.setBank s.plans.live.other b with copied := some (k + 1) } } ∧
      b = { s.plans.otherBank with plan := s.plans.otherBank.plan.copyEntry s.plans.livePlan k }) ∧
  (∀ p q : Plan, (List.range 84).foldl (fun d k => d.copyEntry p k) q = p) ∧
  ∀ p q : Plan,
    (∀ i : Fin 8, q.copyEntry p i.val = { q with classes := q.classes.set i (p.classes.get i) }) ∧
    (∀ z : Zone, q.copyEntry p (8 + z.val) = { q with zones := q.zones.set z (p.zones.get z) }) ∧
    (∀ k : Trunk, q.copyEntry p (24 + k.val) = { q with trunks := q.trunks.set k (p.trunks.get k) }) ∧
    (∀ g : Tone, q.copyEntry p (72 + g.val) = { q with tones := q.tones.set g (p.tones.get g) }) ∧
    ∀ i : Fin 8, q.copyEntry p (76 + i.val) = { q with patterns := q.patterns.set i (p.patterns.get i) }

/-- FADE_COMPLETION, CHIME_STEP_END and TONE_STEP_END: a lane at the end of a fade takes its pending source and the level
desired at that moment (R72); a player or generator at the last frame of a step moves to the next step, and after the
last step the player becomes silent, the generator returns to step 1 or becomes finished (R76, R93). Nothing else
changes. -/
def Obligations.FadeAndStepEnds : Prop :=
  ∀ s : State, s.inReset = false →
    (∀ z l src, Task.fadeEnd z l ∈ s.due → ((s.mixers.get z).lane l).pending = some src →
      ((s.mixers.get z).lane l).att = 127 →
      exec (.fadeCompletion z l) s =
        .next { s.undue (.fadeEnd z l) with
          mixers := s.mixers.set z ((s.mixers.get z).changeLane l fun lane =>
            { lane with current := src, pending := none,
                        target := (desired (s.plan.zones.get z) s.calls (s.zones.get z).state l).level }) }) ∧
    (∀ z steps n, Task.chimeEnd z ∈ s.due → (s.mixers.get z).player.pattern = some steps →
      (s.mixers.get z).player.pos = some ⟨n, 1⟩ →
      exec (.chimeStepEnd z) s =
        .next { s.undue (.chimeEnd z) with
          mixers := s.mixers.set z { s.mixers.get z with
            player := { (s.mixers.get z).player with pos := (steps[n]?).map fun st => ⟨n + 1, st.frames⟩ } } }) ∧
    ∀ g pl n, Task.toneEnd g ∈ s.due → (s.sources.tones.get g).playing = some pl → pl.pos = some ⟨n, 1⟩ →
      let after : Option StepPos :=
        match pl.steps[n]? with
        | some st => some ⟨n + 1, st.frames⟩
        | none => if pl.repeats then (pl.steps[0]?).map fun st => ⟨1, st.frames⟩ else none
      exec (.toneStepEnd g) s =
        .next { s.undue (.toneEnd g) with
          sources := { s.sources with
            tones := s.sources.tones.set g
              { s.sources.tones.get g with playing := some { pl with pos := after } } } }

/-- SWITCH_TAKEN, the losses of the generators listed taken first: the other bank becomes live and the record absent, the
banks unchanged (R121); every trunk source keeps its state and flags with its runs 0 (R96); each generator goes by the
four cases of R97; a frame already begun carries 0 for a removed generator (R97, log 12); every zone keeps its
restriction (R35), and a zone made unused is IDLE with an empty stack (R61); call notices are submitted and then
PLAN_SWITCHED (R121); a call open afterwards keeps what R29 says and wants only zones used in the new plan. With no loss
first: zones unused in the new plan leave every target set with reason PLAN and a call left with none ends NO_ZONES
(R29, R61), then every used zone is evaluated (R62), and every lane applies its new desired pair (R83). -/
def Obligations.SwitchTakenChangesBank : Prop :=
  ∀ (lost : List Tone) (p : PendingSwitch) (s : State), s.inReset = false → Task.switchTake ∈ s.due →
    s.plans.pending = some p →
    let new := s.plans.otherBank.plan
    ∃ t, exec (.switchTaken lost) s = .next t ∧
      t.plans = { s.plans with live := s.plans.live.other, pending := none } ∧ t.plan = new ∧
      (∀ k, t.sources.trunks.get k =
        { s.sources.trunks.get k with presence := 0, key := 0, release := 0, absence := 0 }) ∧
      (∀ g, let was := s.sources.tones.get g
        (new.tones.get g = none → t.sources.tones.get g = { playing := none, phase := was.phase } ∧
          (was.playing ≠ none → g ∉ lost → Task.loss (toneSource g) ∈ t.due)) ∧
        ∀ n pat, new.tones.get g = some n → new.patterns.get n = some pat →
          let steps : List ToneStep := pat.steps.map fun st => ⟨st.hz, st.ms * 48⟩
          (∀ pl, was.playing = some pl → pl.number = n → pl.steps = steps → pl.repeats = pat.repeats →
            t.sources.tones.get g = was) ∧
          ((∀ pl, was.playing = some pl → pl.number ≠ n ∨ pl.steps ≠ steps ∨ pl.repeats ≠ pat.repeats) →
            t.sources.tones.get g =
              { playing := some { number := n, steps := steps, repeats := pat.repeats,
                                  pos := steps.head?.map fun st => ⟨1, st.frames⟩ }
                phase := 0 })) ∧
      t.out =
        { s.out with
          sending := match s.out.switched with
            | none => s.out.sending
            | some f => some f
          switched := none } ∧
      (∀ z, (t.zones.get z).restriction = (s.zones.get z).restriction) ∧
      (∀ z, s.plan.used z = true → new.used z = false →
        (t.zones.get z).state = .idle ∧ (t.zones.get z).stack = []) ∧
      (∃ ns, (∀ n ∈ ns, n.code = 3 ∨ n.code = 4 ∨ n.code = 5) ∧
        t.notices = (s.notices.submitAll ns).submit (.planSwitched s.plans.live.other)) ∧
      (s.Coherent → ∀ r d, t.calls.call? r = some d → ∃ c, s.calls.call? r = some c ∧
        d.origin = c.origin ∧ d.cls = c.cls ∧ d.captured = c.captured ∧ d.source = c.source ∧ d.hold = c.hold ∧
        ∀ z, ZoneSet.has d.target z = true → ZoneSet.has c.target z = true ∧ new.used z = true) ∧
      (s.Coherent → lost = [] → ∃ e : Event,
        (∀ z, e.zones.get z =
          if s.plan.used z = true ∧ new.used z = false then
            { s.zones.get z with
              state := .idle, stack := []
              lastServed := match (s.zones.get z).state.live? with
                | none => (s.zones.get z).lastServed
                | some l => (s.calls.call? l).map Call.source }
          else s.zones.get z) ∧
        (∀ r c, s.calls.call? r = some c →
          (∀ z, ZoneSet.has c.target z = true → new.used z = false → (r, z, LossReason.plan) ∈ e.lost) ∧
          ((∀ z, ZoneSet.has c.target z = true → new.used z = false) →
            e.calls.call? r = none ∧ (r, EndCause.noZones) ∈ e.ended) ∧
          ((∃ z, ZoneSet.has c.target z = true ∧ new.used z = true) → ∃ d, e.calls.call? r = some d ∧
            d = { c with target := d.target, granted := d.granted, suspended := d.suspended } ∧
            ∀ z, ZoneSet.has d.target z = (ZoneSet.has c.target z && new.used z) ∧
              ZoneSet.has d.granted z = (ZoneSet.has c.granted z && new.used z) ∧
              ZoneSet.has d.suspended z = (ZoneSet.has c.suspended z && new.used z))) ∧
        let f := (e.evaluateAll new ((List.finRange 16).filter new.used)).settle
        t.calls = f.calls ∧ t.zones = f.zones ∧
          t.notices =
            (s.notices.submitAll (eventNotices s.calls f)).submit (.planSwitched s.plans.live.other) ∧
          ∀ z, (t.mixers.get z).foreground =
              (s.mixers.get z).foreground.apply (desiredForeground (new.zones.get z) t.calls (t.zones.get z).state) ∧
            (t.mixers.get z).background =
              (s.mixers.get z).background.apply (desiredBackground (new.zones.get z) t.calls (t.zones.get z).state)) ∧
      t.msg = s.msg ∧ t.receiver = s.receiver ∧ t.address = s.address

/-- REPLY_BEGIN and NOTICE_MESSAGE: at a message boundary the oldest reply begins, or, when no reply waits, a notice message
over the oldest UNSENT entries, up to 7, which become SENT with the retry timer started if none was SENT; nothing else
changes (R134, R157). A transit-only part, or a busy channel, begins nothing (R147). The timer's mark is log 7. The words of a
message: the header words of R186, the payload, and the check word, FIRST, MORE and LAST marked (R144). -/
def Obligations.ArbiterBeginsMessage : Prop :=
  (∀ (dest src : BitVec 6) (cls : BitVec 4) (kind tag status : BitVec 8) (payload : List Word),
    let body : List Word :=
      [dest ++ src ++ cls, kind ++ tag, status ++ BitVec.ofNat 8 payload.length] ++ payload
    messageData dest src cls kind tag status payload = body ++ [checkWord body]) ∧
  (∀ (first last : Word) (middle : List Word),
    markWords (first :: middle ++ [last]) =
      ⟨.first, first⟩ :: middle.map (fun w => ⟨.more, w⟩) ++ [⟨.last, last⟩]) ∧
  ∀ s : State, s.inReset = false →
    (s.transitOnly = true ∨ s.msg.own ≠ [] ∨ s.msg.transit ≠ [] ∨ s.msg.input = .forward ∨ s.msg.input = .broadcast →
      exec .replyBegin s = .next s ∧ exec .noticeMessage s = .next s) ∧
    (s.transitOnly = false → s.msg.own = [] → s.msg.transit = [] → s.msg.input ≠ .forward → s.msg.input ≠ .broadcast →
      (∀ r rest, s.msg.replies = r :: rest →
        exec .replyBegin s =
          .next { s with msg := { s.msg with
            replies := rest
            own := markWords (messageData r.dest.address s.address 2#4 r.kind r.tag r.answer.status.code
              r.answer.results) } } ∧
        exec .noticeMessage s = .next s) ∧
      (s.msg.replies = [] → s.notices.enabled = true → s.notices.anyUnsent = true →
        let batch := (s.notices.queue.filter fun e => !e.sent).take 7
        exec .noticeMessage s =
          .next { s with
            msg := { s.msg with
              own := markWords (messageData s.notices.recipient.address s.address 3#4 128#8
                (BitVec.ofNat 8 batch.length) 0#8 (batch.flatMap NoticeEntry.words)) }
            notices := { s.notices with
              queue := markSent 7 s.notices.queue
              timer := if s.notices.anySent then s.notices.timer
                else some ⟨s.notices.intervalMs * 48, true⟩ } }))

/-- An event of the call table and the zone arbiters. It leaves alone the queue, the sources, the plan store, the message
block, the link, the present boundary, the node address and what else is due; every lane's attenuation, which moves by
ramp steps only (R71, R72); and the notice block's configuration, retry timer and retries counter (R129). At its
completion the calls' groups of notices are submitted one after another, in admission order as the event began and then
calls admitted in it, each group ZONE_LOST by zone, CALL_STATUS, CALL_ENDED (R23, R132); the lanes of exactly the zones
whose phase or live call changed apply their desired pairs (R69); the chime player of a zone that entered LEAD_IN and
stands there starts with the live call's captured pattern, read from the live plan, and no other (R75). A reported loss
takes the zone from the call's target set and ends it NO_ZONES when none is left (R15); the first ON_AIR report sets the
speak flag and remembers a SKIP call for its pruning (R13, R14). -/
def Obligations.CallEventsLeaveOtherBlocks : Prop :=
  (∀ (s : State) (f : Plan → Event → Event),
    let t := s.event f
    (t.pending = s.pending ∧ t.inReset = s.inReset ∧ t.address = s.address ∧ t.due = s.due ∧ t.now = s.now ∧
      t.sources = s.sources ∧ t.plans = s.plans ∧ t.msg = s.msg ∧ t.receiver = s.receiver ∧ t.out = s.out) ∧
    (∀ z l, ((t.mixers.get z).lane l).att = ((s.mixers.get z).lane l).att) ∧
    t.notices.enabled = s.notices.enabled ∧ t.notices.recipient = s.notices.recipient ∧
      t.notices.intervalMs = s.notices.intervalMs ∧ t.notices.timer = s.notices.timer ∧
      t.notices.retries = s.notices.retries) ∧
  (∀ (s : State) (f : Plan → Event → Event),
    let t := s.event f
    let e := (f s.plan { calls := s.calls, zones := s.zones, lost := [], ended := [], admitted := [], leadIns := [],
                         skippers := [] }).settle
    let group := fun r : CallRef =>
      ((List.finRange 16).flatMap fun z =>
        (e.lost.filter fun x => decide (x.1 = r ∧ x.2.1 = z)).map fun x => Notice.zoneLost r z x.2.2) ++
      (match e.calls.call? r with
        | none => []
        | some c =>
          if r ∈ e.admitted ∨ (s.calls.call? r).map (fun b => (b.state, b.granted)) ≠ some (c.state, c.granted) then
            [.callStatus r c.state c.granted]
          else []) ++
      (e.ended.filter fun x => decide (x.1 = r)).map fun x => .callEnded r x.2
    t.calls = e.calls ∧ t.zones = e.zones ∧
      t.notices = ((s.calls.admission ++ e.admitted).flatMap group).foldl NoticeBlock.submit s.notices ∧
      ∀ z,
        let before := (s.zones.get z).state
        let after := (t.zones.get z).state
        (before.phase = after.phase → before.live? = after.live? →
          (t.mixers.get z).foreground = (s.mixers.get z).foreground ∧
            (t.mixers.get z).background = (s.mixers.get z).background) ∧
        (before.phase ≠ after.phase ∨ before.live? ≠ after.live? →
          (t.mixers.get z).foreground =
              (s.mixers.get z).foreground.apply (desiredForeground (s.plan.zones.get z) t.calls after) ∧
            (t.mixers.get z).background =
              (s.mixers.get z).background.apply (desiredBackground (s.plan.zones.get z) t.calls after)) ∧
        (z ∉ e.leadIns ∨ after.phase ≠ .leadIn → (t.mixers.get z).player = (s.mixers.get z).player) ∧
        ∀ r n c, z ∈ e.leadIns → after = .leadIn r n → t.calls.call? r = some c →
          (∀ i pat, c.captured.chime = some i → s.plan.patterns.get i = some pat →
            let steps : List ToneStep := pat.steps.map fun st => ⟨st.hz, st.ms * 48⟩
            (t.mixers.get z).player =
              { pattern := some steps, pos := steps.head?.map fun st => ⟨1, st.frames⟩, phase := 0 }) ∧
          ((∀ i, c.captured.chime = some i → s.plan.patterns.get i = none) →
            (t.mixers.get z).player = { pattern := none, pos := none, phase := 0 })) ∧
  ∀ (e : Event) (r : CallRef) (c : Call), e.calls.call? r = some c →
    (∀ z reason,
      let f := e.takeReport (.loss r z reason)
      f.lost = e.lost ++ [(r, z, reason)] ∧ f.zones = e.zones ∧
        (∀ q, q ≠ r → f.calls.call? q = e.calls.call? q) ∧
        ((∀ y, ZoneSet.has c.target y = true → y = z) →
          f.calls = e.calls.free r ∧ f.ended = e.ended ++ [(r, .noZones)]) ∧
        ((∃ y, ZoneSet.has c.target y = true ∧ y ≠ z) →
          f.ended = e.ended ∧ ∃ target, f.calls.call? r = some { c with target := target } ∧
            ∀ y, ZoneSet.has target y = true ↔ ZoneSet.has c.target y = true ∧ y ≠ z)) ∧
    (c.speak = true → e.takeReport (.onAir r) = e) ∧
    (c.speak = false →
      (e.takeReport (.onAir r)).calls.call? r = some { c with speak := true } ∧
        (∀ q, q ≠ r → (e.takeReport (.onAir r)).calls.call? q = e.calls.call? q) ∧
        e.takeReport (.onAir r) =
          { e with
            calls := (e.takeReport (.onAir r)).calls
            skippers := if c.captured.late = .skip then e.skippers ++ [r] else e.skippers })

/-! ### Requests: the message block's part -/

/-- The common checks (R153): a request of a wrong length is refused BAD_LENGTH, a field out of range is refused BAD_FIELD
with its number, an unknown kind UNKNOWN_KIND; each refusal changes nothing but what every refusal changes. The fields
of PLAN_WRITE include the eleven entry words of Table 10-10, a generator's key class and key targets among them (R104,
R188). -/
def Obligations.CommonChecksRefuse : Prop :=
  (∀ x ∈ requestCommands, ∀ s r rest, s.Offers x.2.1 r rest → r.len ≠ x.2.2 →
    exec x.1 s = .next ((s.taken rest).answered r ⟨.badLength, []⟩)) ∧
  (∀ s kind r rest, s.Offers kind r rest → kind ≠ 64#8 → (∀ x ∈ requestCommands, kind ≠ x.2.1) →
    exec .unknownKindRequest s = .next ((s.taken rest).answered r ⟨.unknownKind, []⟩)) ∧
  RefusesField .callOpen 1#8 3 1 (fun ws => 7 < (wordAt ws 0).toNat) ∧
  RefusesField .callOpen 1#8 3 2 (fun ws => (wordAt ws 0).toNat ≤ 7 ∧ 51 < (wordAt ws 1).toNat) ∧
  RefusesField .callRelease 2#8 1 1 (fun ws => 511 < (wordAt ws 0).toNat) ∧
  RefusesField .callRetarget 3#8 3 1 (fun ws => 511 < (wordAt ws 0).toNat) ∧
  RefusesField .clearCalls 4#8 2 1 (fun ws => (wordAt ws 0).toNat = 0 ∨ 15 < (wordAt ws 0).toNat) ∧
  RefusesField .clearCalls 4#8 2 2 (fun ws =>
    (1 ≤ (wordAt ws 0).toNat ∧ (wordAt ws 0).toNat ≤ 15) ∧ 1 < (wordAt ws 1).toNat) ∧
  RefusesField .callRead 5#8 1 1 (fun ws => 511 < (wordAt ws 0).toNat) ∧
  RefusesField .zoneRestrict 16#8 2 2 (fun ws => 15 < (wordAt ws 1).toNat) ∧
  RefusesField .zoneProbe 17#8 2 1 (fun ws => 15 < (wordAt ws 0).toNat) ∧
  RefusesField .zoneProbe 17#8 2 2 (fun ws => (wordAt ws 0).toNat ≤ 15 ∧
    ((wordAt ws 1).toNat = 0 ∨ 15 < (wordAt ws 1).toNat)) ∧
  RefusesField .zoneRead 18#8 1 1 (fun ws => 15 < (wordAt ws 0).toNat) ∧
  RefusesField .sourceRead 24#8 1 1 (fun ws => 51 < (wordAt ws 0).toNat) ∧
  RefusesField .planWrite 32#8 14 1 (fun ws => 1 < (wordAt ws 0).toNat) ∧
  RefusesField .planWrite 32#8 14 2 (fun ws => (wordAt ws 0).toNat ≤ 1 ∧ 3 < (wordAt ws 1).toNat) ∧
  RefusesField .planWrite 32#8 14 3 (fun ws => (wordAt ws 0).toNat ≤ 1 ∧ (wordAt ws 1).toNat ≤ 3 ∧
    tableSize (wordAt ws 1) ≤ (wordAt ws 2).toNat) ∧
  (∀ i, i < 11 → RefusesField .planWrite 32#8 14 (4 + i) (fun ws =>
    let e := entryName (wordAt ws 1) (wordAt ws 2)
    ws.length = 14 ∧ (wordAt ws 0).toNat ≤ 1 ∧ (wordAt ws 1).toNat ≤ 3 ∧
      (wordAt ws 2).toNat < tableSize (wordAt ws 1) ∧
      (∀ j, j < i → entryWordInRange e j (wordAt ws (3 + j)).toNat) ∧
      ¬ entryWordInRange e i (wordAt ws (3 + i)).toNat)) ∧
  RefusesField .planRead 33#8 3 1 (fun ws => 1 < (wordAt ws 0).toNat) ∧
  RefusesField .planRead 33#8 3 2 (fun ws => (wordAt ws 0).toNat ≤ 1 ∧ 3 < (wordAt ws 1).toNat) ∧
  RefusesField .planRead 33#8 3 3 (fun ws => (wordAt ws 0).toNat ≤ 1 ∧ (wordAt ws 1).toNat ≤ 3 ∧
    tableSize (wordAt ws 1) ≤ (wordAt ws 2).toNat) ∧
  RefusesField .planErase 34#8 1 1 (fun ws => 1 < (wordAt ws 0).toNat) ∧
  RefusesField .planSeal 35#8 1 1 (fun ws => 1 < (wordAt ws 0).toNat) ∧
  RefusesField .planUnseal 36#8 1 1 (fun ws => 1 < (wordAt ws 0).toNat) ∧
  RefusesField .planSwitch 38#8 2 1 (fun ws => 1 < (wordAt ws 0).toNat) ∧
  RefusesField .noticeAck 48#8 1 1 (fun ws => 255 < (wordAt ws 0).toNat) ∧
  RefusesField .noticeConfig 49#8 3 1 (fun ws => (wordAt ws 0).toNat < 60 ∨ 62 < (wordAt ws 0).toNat) ∧
  RefusesField .noticeConfig 49#8 3 2 (fun ws => (60 ≤ (wordAt ws 0).toNat ∧ (wordAt ws 0).toNat ≤ 62) ∧
    1 < (wordAt ws 1).toNat) ∧
  RefusesField .noticeConfig 49#8 3 3 (fun ws => (60 ≤ (wordAt ws 0).toNat ∧ (wordAt ws 0).toNat ≤ 62) ∧
    (wordAt ws 1).toNat ≤ 1 ∧ ((wordAt ws 2).toNat < 10 ∨ 2000 < (wordAt ws 2).toNat)) ∧
  RefusesField .countersRead 65#8 1 1 (fun ws => 1 < (wordAt ws 0).toNat)

/-- A duplicate is answered with the stored reply and counted, and nothing else happens (R152); while the reply queue is
full an addressed request waits, and a queue whose front is of another kind, or empty, leaves the command nothing to do
(R151; log 2, log 3): this of every request command, ECHO and UNKNOWN_KIND_REQUEST among them. A request taken leaves the
queue and is counted; an answer is queued as a reply and cached for its controller (R152, R154). A broadcast is neither
answered nor cached (R155). -/
def Obligations.DuplicatesAreReplayed : Prop :=
  (∀ (c : Instr) (ofKind : BitVec 8 → Prop),
    ((∃ x ∈ requestCommands, c = x.1 ∧ ∀ kind, ofKind kind ↔ kind = x.2.1) ∨
      (c = .echo ∧ ∀ kind, ofKind kind ↔ kind = 64#8) ∨
      (c = .unknownKindRequest ∧ ∀ kind, ofKind kind ↔ kind ≠ 64#8 ∧ ∀ x ∈ requestCommands, kind ≠ x.2.1)) →
    (∀ (s : State) (r : Request) (rest : List Request) (e : CacheEntry), s.inReset = false →
      s.msg.requests = r :: rest → ofKind r.kind → r.isBroadcast = false →
      (s.msg.replies.length < 4 → s.msg.cache.entry r.source = some e → e.tag = r.tag → e.kind = r.kind →
        exec c s =
          .next { s with msg := { s.msg with
            requests := rest
            replies := s.msg.replies ++ [{ dest := r.source, kind := r.kind, tag := r.tag, answer := e.answer }]
            counters := { s.msg.counters with
              taken := min (s.msg.counters.taken + 1) 65535
              duplicate := min (s.msg.counters.duplicate + 1) 65535 } } }) ∧
      (4 ≤ s.msg.replies.length → exec c s = .next s)) ∧
    ∀ s : State, (s.msg.requests = [] ∨ ∃ r rest, s.msg.requests = r :: rest ∧ ¬ ofKind r.kind) →
      exec c s = .next s) ∧
  (∀ (s : State) (rest : List Request),
    s.taken rest =
      { s with msg := { s.msg with
        requests := rest, counters := { s.msg.counters with taken := min (s.msg.counters.taken + 1) 65535 } } }) ∧
  ∀ (s : State) (r : Request) (a : Answer),
    (r.isBroadcast = true → s.answered r a = s) ∧
    (r.isBroadcast = false → ∃ cache : Cache,
      s.answered r a =
        { s with msg := { s.msg with
          replies := s.msg.replies ++ [{ dest := r.source, kind := r.kind, tag := r.tag, answer := a }]
          cache := cache } } ∧
      ∀ k, cache.entry k =
        if k = r.source then some { tag := r.tag, kind := r.kind, answer := a } else s.msg.cache.entry k)

/-! ### Requests: the call table -/

/-- CALL_OPEN: the five checks of R8 in their order, each with its refusal, and the admission with its reply (R7, R9). -/
def Obligations.CallOpenFollowsChecks : Prop :=
  ∀ (s : State) (r : Request) (rest : List Request) (cls : Fin 8) (src : Source) (target : ZoneSet),
    s.Offers 1#8 r rest → r.len = 3 → (wordAt r.payload 0).toNat = cls.val → (wordAt r.payload 1).toNat = src.val →
    wordAt r.payload 2 = target →
    let u := s.taken rest
    (s.plan.classes.get cls = none → exec .callOpen s = .next (u.answered r ⟨.badClass, []⟩)) ∧
    ∀ d, s.plan.classes.get cls = some d →
      (s.plan.mapped src = false ∨ s.sources.isAbsent src = true →
        exec .callOpen s = .next (u.answered r ⟨.badSource, []⟩)) ∧
      (s.plan.mapped src = true → s.sources.isAbsent src = false →
        (target = 0#16 ∨ (∃ z, ZoneSet.has target z = true ∧ s.plan.used z = false) →
          exec .callOpen s = .next (u.answered r ⟨.badTarget, []⟩)) ∧
        (target ≠ 0#16 → (∀ z, ZoneSet.has target z = true → s.plan.used z = true) →
          ((s.calls.ofSource? src).isSome = true → exec .callOpen s = .next (u.answered r ⟨.sourceBusy, []⟩)) ∧
          (s.calls.ofSource? src = none → s.calls.freeIndex? = none →
            exec .callOpen s = .next (u.answered r ⟨.full, []⟩)) ∧
          ∀ i, s.calls.ofSource? src = none → s.calls.freeIndex? = some i →
            let t := u.event fun p e => e.openRecord p (.controller r.source r.tag) cls d src target
            let new : CallRef := ⟨i, (s.calls.records.get i).gen⟩
            ∃ results, exec .callOpen s = .next (t.answered r ⟨.ok, results⟩) ∧
              ∀ c, t.calls.call? new = some c → results = [refWord new, c.state.word, c.granted]))

/-- CALL_RELEASE: a stale reference is refused; otherwise the call ends RELEASED, its record is FREE with the next
generation, and the reply carries the reference (R24, R22). -/
def Obligations.ReleaseEndsCall : Prop :=
  ∀ (s : State) (r : Request) (rest : List Request) (c : CallRef),
    s.Offers 2#8 r rest → r.len = 1 → (wordAt r.payload 0).toNat = c.index.val * 16 + c.gen.val →
    (s.calls.call? c = none → exec .callRelease s = .next ((s.taken rest).answered r ⟨.stale, []⟩)) ∧
    (s.calls.call? c ≠ none →
      let t := (s.taken rest).event fun p e => e.endCall p c .released
      exec .callRelease s = .next (t.answered r ⟨.ok, [refWord c]⟩) ∧
        t.calls.records.get c.index = ⟨c.gen + 1, none⟩)

/-- CALL_RETARGET: the three checks of R25 in order, and the event of R26 with its reply. The event: the new target set is
the old one less the remove set with the add set; the call is withdrawn, with no loss, from each removed zone where it
was live or suspended, and those zones and the added ones are evaluated; a call left with no zone ends NO_ZONES; a
spoken SKIP call is remembered for the pruning of R14, which takes from it every zone where it is neither granted nor
suspended, with reason LATE in ascending zone order, and ends it NO_ZONES when none is left. -/
def Obligations.RetargetFollowsChecks : Prop :=
  (∀ (s : State) (r : Request) (rest : List Request) (c : CallRef) (add remove : ZoneSet),
    s.Offers 3#8 r rest → r.len = 3 → (wordAt r.payload 0).toNat = c.index.val * 16 + c.gen.val →
    wordAt r.payload 1 = add → wordAt r.payload 2 = remove →
    let u := s.taken rest
    (add &&& remove ≠ 0#16 → exec .callRetarget s = .next (u.answered r ⟨.badField, [3#16]⟩)) ∧
    (add &&& remove = 0#16 →
      (s.calls.call? c = none → exec .callRetarget s = .next (u.answered r ⟨.stale, []⟩)) ∧
      (s.calls.call? c ≠ none →
        ((∃ z, ZoneSet.has add z = true ∧ s.plan.used z = false) →
          exec .callRetarget s = .next (u.answered r ⟨.badTarget, []⟩)) ∧
        ((∀ z, ZoneSet.has add z = true → s.plan.used z = true) →
          let t := u.event fun p e => e.retarget p c add remove
          ∃ results, exec .callRetarget s = .next (t.answered r ⟨.ok, results⟩) ∧
            (t.calls.call? c = none → results = [refWord c, 5#16, 0#16, 0#16]) ∧
            ∀ d, t.calls.call? c = some d → results = [refWord c, d.state.word, d.target, d.granted])))) ∧
  (∀ (p : Plan) (r : CallRef) (add remove : ZoneSet) (e : Event) (c : Call), e.calls.call? r = some c →
    let target := (c.target &&& ~~~ remove) ||| add
    let gone := c.target &&& remove &&& (c.granted ||| c.suspended)
    ∃ x : Event,
      x = { e with calls := x.calls, zones := x.zones } ∧ x.calls.admission = e.calls.admission ∧
      x.calls.call? r =
        some { c with target := target, granted := c.granted &&& ~~~ gone, suspended := c.suspended &&& ~~~ gone } ∧
      (∀ q, q ≠ r → x.calls.call? q = e.calls.call? q) ∧
      (∀ z, x.zones.get z =
        let zone := e.zones.get z
        if ZoneSet.has gone z = true then
          if zone.state.live? = some r then
            { zone with
              state := .idle, lastServed := some c.source
              stack := zone.stack.filter fun en => decide (en.call ≠ r) }
          else { zone with stack := zone.stack.filter fun en => decide (en.call ≠ r) }
        else zone) ∧
      let y := x.evaluateAll p (ZoneSet.zones gone ++ ZoneSet.zones (add &&& ~~~ c.target))
      let w := if target = 0#16 then y.finishCall r .noZones else y
      e.retarget p r add remove =
        if c.speak = true ∧ c.captured.late = .skip then { w with skippers := w.skippers ++ [r] } else w) ∧
  ∀ (r : CallRef) (e : Event) (c : Call), e.calls.call? r = some c →
    let waiting := c.target &&& ~~~ (c.granted ||| c.suspended)
    let target := c.target &&& (c.granted ||| c.suspended)
    let told := e.lost ++ (ZoneSet.zones waiting).map fun z => (r, z, LossReason.late)
    (target ≠ 0#16 →
      e.prune r = { e.changeCall r (fun c => { c with target := target }) with lost := told }) ∧
    (target = 0#16 → c.target ≠ 0#16 →
      e.prune r = { e with calls := e.calls.free r, lost := told, ended := e.ended ++ [(r, .noZones)] })

/-- CLEAR_CALLS: the calls of priority p or less, KEY calls only when asked, end one after another in admission order with
cause CLEARED, and the reply counts them (R27). -/
def Obligations.ClearCallsEndsSelection : Prop :=
  ∀ (s : State) (r : Request) (rest : List Request) (p : Nat) (withKey : Bool),
    s.Offers 4#8 r rest → r.len = 2 → (wordAt r.payload 0).toNat = p → 1 ≤ p → p ≤ 15 →
    wordAt r.payload 1 = flagWord withKey →
    ∃ (e : Event) (selected : List CallRef), e = selected.foldl (fun e c => e.endCall s.plan c .cleared) (Event.start (s.taken rest)) ∧
      (selected.Sublist s.calls.admission ∧
        ∀ c, c ∈ selected ↔ c ∈ s.calls.admission ∧ ∃ d, s.calls.call? c = some d ∧ d.captured.priority ≤ p ∧
          (withKey = true ∨ d.origin ≠ .key)) ∧
      exec .clearCalls s =
        .next (((s.taken rest).complete false [] e).answered r
          ⟨.ok, [BitVec.ofNat 16 (e.ended.filter fun x => decide (x.2 = .cleared)).length]⟩)

/-- CALL_READ, ZONE_READ, SOURCE_READ, PLAN_READ and PLAN_STATUS change no block they read: each answers from the state as
it stands, with the words of Tables 10-8 and 10-9 in their order, and leaves only the taken counter, the reply and the
cache (R28, R65, R95, R111, R123, R188). -/
def Obligations.ReadsChangeNothing : Prop :=
  ∀ (s : State) (r : Request) (rest : List Request),
    let u := s.taken rest
    (∀ c d, s.Offers 5#8 r rest → r.len = 1 → (wordAt r.payload 0).toNat = c.index.val * 16 + c.gen.val →
      s.calls.call? c = some d →
      exec .callRead s =
        .next (u.answered r
          ⟨.ok, [refWord c, d.state.word, BitVec.ofNat 16 (s.calls.admission.idxOf c), d.origin.word, d.origin.tagWord,
            BitVec.ofNat 16 d.cls.val, BitVec.ofNat 16 d.captured.priority, d.captured.preempt.word,
            d.captured.late.word, opt8Word d.captured.chime, BitVec.ofNat 16 d.captured.chimeMs, d.captured.duck.word,
            BitVec.ofNat 16 d.captured.waitMs, BitVec.ofNat 16 d.captured.durationMs,
            BitVec.ofNat 16 d.captured.holdMs, BitVec.ofNat 16 d.source.val, d.target, d.granted, d.suspended,
            flagWord d.speak, flagWord d.everGranted, remainingWord d.wait, remainingWord d.duration,
            remainingWord d.hold]⟩)) ∧
    (∀ c, s.Offers 5#8 r rest → r.len = 1 → (wordAt r.payload 0).toNat = c.index.val * 16 + c.gen.val →
      s.calls.call? c = none → exec .callRead s = .next (u.answered r ⟨.stale, []⟩)) ∧
    (∀ z : Zone, s.Offers 18#8 r rest → r.len = 1 → (wordAt r.payload 0).toNat = z.val →
      let zone := s.zones.get z
      let entry := s.plan.zones.get z
      let m := s.mixers.get z
      let stack : Nat → Word := fun i =>
        match zone.stack[i]? with
        | none => 65535#16
        | some en => if en.resume = .onAir then refWord en.call ||| 32768#16 else refWord en.call
      exec .zoneRead s =
        .next (u.answered r
          ⟨.ok, [flagWord entry.slot.isSome, zone.state.phase.word, optRefWord zone.state.live?,
            remainingWord zone.state.remaining?, BitVec.ofNat 16 zone.stack.length, stack 0, stack 1, stack 2, stack 3,
            BitVec.ofNat 16 entry.floor, BitVec.ofNat 16 zone.restriction,
            BitVec.ofNat 16 (max entry.floor zone.restriction), entry.order.word, opt8Word zone.lastServed,
            m.foreground.current.word, BitVec.ofNat 16 m.foreground.att, m.background.current.word,
            BitVec.ofNat 16 m.background.att]⟩)) ∧
    (∀ k : Trunk, s.Offers 24#8 r rest → r.len = 1 → (wordAt r.payload 0).toNat = k.val →
      let t := s.sources.trunks.get k
      let entry := s.plan.trunks.get k
      exec .sourceRead s =
        .next (u.answered r
          ⟨.ok, [BitVec.ofNat 16 k.val, t.state.word, optRefWord (s.calls.ofSource? (trunkSource k)),
            opt8Word entry.slot, opt8Word entry.keyClass, entry.keyTargets,
            BitVec.ofNat 16 ((if t.flagPresent then 1 else 0) + if t.flagKeyed then 2 else 0),
            BitVec.ofNat 16 t.presence, BitVec.ofNat 16 t.key, BitVec.ofNat 16 t.release,
            BitVec.ofNat 16 t.absence]⟩)) ∧
    (∀ g : Tone, s.Offers 24#8 r rest → r.len = 1 → (wordAt r.payload 0).toNat = 48 + g.val →
      let playing := (s.sources.tones.get g).playing
      let pos := playing.bind TonePlaying.pos
      exec .sourceRead s =
        .next (u.answered r
          ⟨.ok, [BitVec.ofNat 16 (48 + g.val), flagWord playing.isSome, optRefWord (s.calls.ofSource? (toneSource g)),
            opt8Word (s.plan.tones.get g), 255#16, 0#16, flagWord playing.isSome,
            BitVec.ofNat 16 ((pos.map StepPos.number).getD 0), remainingWord (pos.map StepPos.remaining), 0#16,
            0#16]⟩)) ∧
    (∀ b e, s.Offers 33#8 r rest → r.len = 3 → wordAt r.payload 0 = b.word → (wordAt r.payload 1).toNat ≤ 3 →
      (wordAt r.payload 2).toNat < tableSize (wordAt r.payload 1) →
      entryName (wordAt r.payload 1) (wordAt r.payload 2) = e →
      ((s.plans.bank b).state = .copying → exec .planRead s = .next (u.answered r ⟨.bankBusy, []⟩)) ∧
      ((s.plans.bank b).state ≠ .copying →
        exec .planRead s =
          .next (u.answered r ⟨.ok, (s.plans.bank b).state.word :: (s.plans.bank b).plan.entryWords e⟩))) ∧
    (s.Offers 39#8 r rest → r.len = 0 →
      exec .planStatus s =
        .next (u.answered r
          ⟨.ok, [s.plans.live.word, s.plans.bank0.state.word, s.plans.bank1.state.word, pendingWord s.plans.pending,
            pendingPoint s.plans.pending, progressWord s.plans.copied, flagWord (decide (s.receiver.link = .locked)),
            if s.receiver.link = .locked then s.receiver.frameNumber.getD 0#16 else 0#16]⟩))

/-! ### Requests: zone arbiters -/

/-- ZONE_RESTRICT: refused when a zone of the set is unused; otherwise every zone of the set takes the floor as its
restriction and then every zone of the set is evaluated, in ascending order (log 8), and the reply names exactly the
zones of the set whose live call changed (R63). -/
def Obligations.ZoneRestrictSetsFloors : Prop :=
  (∀ (p : Plan) (m : ZoneSet) (floor : Nat) (e : Event), ∃ x : Event,
    x = { e with zones := x.zones } ∧
      (∀ z, x.zones.get z =
        if ZoneSet.has m z then { e.zones.get z with restriction := floor } else e.zones.get z) ∧
      e.restrict p m floor = (ZoneSet.zones m).foldl (fun e z => Event.evaluate p e z) x) ∧
  ∀ (s : State) (r : Request) (rest : List Request) (m : ZoneSet) (floor : Nat),
    s.Offers 16#8 r rest → r.len = 2 → wordAt r.payload 0 = m → (wordAt r.payload 1).toNat = floor → floor ≤ 15 →
    let u := s.taken rest
    ((∃ z, ZoneSet.has m z = true ∧ s.plan.used z = false) →
      exec .zoneRestrict s = .next (u.answered r ⟨.badTarget, []⟩)) ∧
    ((∀ z, ZoneSet.has m z = true → s.plan.used z = true) →
      ∃ (t : State) (changed : ZoneSet), exec .zoneRestrict s = .next (t.answered r ⟨.ok, [changed]⟩) ∧
        t = u.event (fun p e => e.restrict p m floor) ∧
        (∀ z, (t.zones.get z).restriction = if ZoneSet.has m z then floor else (s.zones.get z).restriction) ∧
        (∀ z, ZoneSet.has changed z = true ↔
          ZoneSet.has m z = true ∧ (t.zones.get z).state.live? ≠ (s.zones.get z).state.live?) ∧
        (m = 0#16 → t = u))

/-- ZONE_PROBE: refused for an unused zone; otherwise one of BELOW_FLOOR (0), GRANT (1) and WAIT (2), with the displaced
call and its fate when a live call would be displaced, and no state changed (R64). -/
def Obligations.ZoneProbeAnswersOutcome : Prop :=
  ∀ (s : State) (r : Request) (rest : List Request) (z : Zone) (p : Nat),
    s.Offers 17#8 r rest → r.len = 2 → (wordAt r.payload 0).toNat = z.val → (wordAt r.payload 1).toNat = p →
    1 ≤ p → p ≤ 15 →
    let u := s.taken rest
    let floor := max (s.plan.zones.get z).floor (s.zones.get z).restriction
    let stack := (s.zones.get z).stack
    (s.plan.used z = false → exec .zoneProbe s = .next (u.answered r ⟨.badTarget, []⟩)) ∧
    (s.plan.used z = true →
      ((s.zones.get z).state = .idle →
        exec .zoneProbe s =
          .next (u.answered r ⟨.ok, [BitVec.ofNat 16 floor, 65535#16, 0#16, if p < floor then 0#16 else 1#16, 65535#16,
            0#16, 65535#16]⟩)) ∧
      ∀ l c, (s.zones.get z).state.live? = some l → s.calls.call? l = some c →
        let answer := fun outcome displaced fate evicted =>
          exec .zoneProbe s =
            .next (u.answered r ⟨.ok, [BitVec.ofNat 16 floor, refWord l, BitVec.ofNat 16 c.captured.priority, outcome,
              displaced, fate, evicted]⟩)
        (p < floor → answer 0#16 65535#16 0#16 65535#16) ∧
        (floor ≤ p → p ≤ c.captured.priority → answer 2#16 65535#16 0#16 65535#16) ∧
        (floor ≤ p → c.captured.priority < p →
          (c.captured.preempt = .drop → answer 1#16 (refWord l) 3#16 65535#16) ∧
          (c.captured.preempt = .resume → stack.length < 4 → answer 1#16 (refWord l) 1#16 65535#16) ∧
          ∀ bottom, c.captured.preempt = .resume → 4 ≤ stack.length → stack.getLast? = some bottom →
            answer 1#16 (refWord l) 2#16 (refWord bottom.call)))

/-! ### Requests: the plan store -/

/-- PLAN_WRITE: the three checks of R110 in order; then the entry is replaced as a whole, the bank is OPEN, and nothing else
of the plan store changes. -/
def Obligations.PlanWriteStoresEntry : Prop :=
  ∀ (s : State) (r : Request) (rest : List Request) (b : BankNo) (e : EntryName),
    s.Offers 32#8 r rest → r.len = 14 → wordAt r.payload 0 = b.word → (wordAt r.payload 1).toNat ≤ 3 →
    (wordAt r.payload 2).toNat < tableSize (wordAt r.payload 1) →
    entryName (wordAt r.payload 1) (wordAt r.payload 2) = e →
    (applyChecks (entryChecks e) (r.payload.drop 3)).all id = true →
    let u := s.taken rest
    (b = s.plans.live → exec .planWrite s = .next (u.answered r ⟨.bankLive, []⟩)) ∧
    (b ≠ s.plans.live →
      ((s.plans.bank b).state = .copying → exec .planWrite s = .next (u.answered r ⟨.bankBusy, []⟩)) ∧
      ((s.plans.bank b).state = .sealed → exec .planWrite s = .next (u.answered r ⟨.bankSealed, []⟩)) ∧
      ((s.plans.bank b).state = .empty ∨ (s.plans.bank b).state = .opened →
        let bank : Bank := ⟨.opened, (s.plans.bank b).plan.writeEntry (r.payload.drop 3) e⟩
        exec .planWrite s = .next (({ u with plans := s.plans.setBank b bank }).answered r ⟨.ok, [1#16]⟩)))

/-- An entry reads back as it was written, word for word; an entry whose defined flag is clear reads back blank, and steps
beyond the step count read back as blank steps (R105, R106, R110, R111). -/
def Obligations.EntryReadsBackAsWritten : Prop :=
  ∀ (p : Plan) (e : EntryName) (ws : List Word), ws.length = 11 → (applyChecks (entryChecks e) ws).all id = true →
    ((∃ z, e = .zone z) ∨ (∃ k, e = .trunk k) ∨ (∃ g, e = .tone g) ∨ ((∃ i, e = .cls i) ∧ wordAt ws 0 = 1#16) →
      (p.writeEntry ws e).entryWords e = ws) ∧
    ((∃ i, e = .cls i) → wordAt ws 0 = 0#16 →
      (p.writeEntry ws e).entryWords e = [0, 1, 0, 0, 255, 0, 2, 0, 0, 0, 0]) ∧
    ((∃ i, e = .pattern i) → wordAt ws 0 = 0#16 →
      (p.writeEntry ws e).entryWords e = [0, 1, 0, 0, 1, 0, 1, 0, 1, 0, 1]) ∧
    ((∃ i, e = .pattern i) → wordAt ws 0 = 1#16 →
      let n := (wordAt ws 1).toNat
      (p.writeEntry ws e).entryWords e =
        ws.take (3 + 2 * n) ++ (List.replicate (4 - n) [0#16, 1#16]).flatten)

/-- R112: PLAN_ERASE checks that the bank is not live, not COPYING, and not the target of a pending switch, in this order;
then every entry becomes unprogrammed and the bank EMPTY. A copy onto a sealed bank is refused, so it needs an unseal. -/
def Obligations.PlanEraseFollowsChecks : Prop :=
  (∀ (s : State) (r : Request) (rest : List Request) (b : BankNo),
    s.Offers 34#8 r rest → r.len = 1 → wordAt r.payload 0 = b.word →
    let u := s.taken rest
    (b = s.plans.live → exec .planErase s = .next (u.answered r ⟨.bankLive, []⟩)) ∧
    (b ≠ s.plans.live → (s.plans.bank b).state = .copying →
      exec .planErase s = .next (u.answered r ⟨.bankBusy, []⟩)) ∧
    (b ≠ s.plans.live → (s.plans.bank b).state ≠ .copying → s.plans.pending ≠ none →
      exec .planErase s = .next (u.answered r ⟨.switchPending, []⟩)) ∧
    (b ≠ s.plans.live → (s.plans.bank b).state ≠ .copying → s.plans.pending = none →
      exec .planErase s =
        .next (({ u with plans := s.plans.setBank b ⟨.empty, blankPlan⟩ }).answered r ⟨.ok, []⟩))) ∧
  ∀ (s : State) (r : Request) (rest : List Request), s.Offers 37#8 r rest → r.len = 0 →
    s.plans.otherBank.state = .sealed → exec .planCopy s = .next ((s.taken rest).answered r ⟨.bankSealed, []⟩)

/-- PLAN_SEAL and PLAN_UNSEAL: their checks in order and their effects (R113, R115), and what a plan that passes the seal
check guarantees (R114). -/
def Obligations.SealAndUnsealFollowChecks : Prop :=
  (∀ (s : State) (r : Request) (rest : List Request) (b : BankNo), r.len = 1 → wordAt r.payload 0 = b.word →
    let u := s.taken rest
    let bank := s.plans.bank b
    (s.Offers 35#8 r rest →
      (bank.state = .copying → exec .planSeal s = .next (u.answered r ⟨.bankBusy, []⟩)) ∧
      (bank.state = .empty → exec .planSeal s = .next (u.answered r ⟨.bankEmpty, []⟩)) ∧
      (bank.state = .sealed → exec .planSeal s = .next (u.answered r ⟨.ok, []⟩)) ∧
      (bank.state = .opened → sealFailure bank.plan = none →
        exec .planSeal s =
          .next (({ u with plans := s.plans.setBank b ⟨.sealed, bank.plan⟩ }).answered r ⟨.ok, []⟩)) ∧
      ∀ item index, bank.state = .opened → sealFailure bank.plan = some (item, index) →
        exec .planSeal s =
          .next (u.answered r ⟨.checkFailed, [BitVec.ofNat 16 item, BitVec.ofNat 16 index]⟩)) ∧
    (s.Offers 36#8 r rest →
      (b = s.plans.live → exec .planUnseal s = .next (u.answered r ⟨.bankLive, []⟩)) ∧
      (b ≠ s.plans.live → s.plans.pending ≠ none → exec .planUnseal s = .next (u.answered r ⟨.switchPending, []⟩)) ∧
      (b ≠ s.plans.live → s.plans.pending = none → bank.state ≠ .sealed →
        exec .planUnseal s = .next (u.answered r ⟨.ok, []⟩)) ∧
      (b ≠ s.plans.live → s.plans.pending = none → bank.state = .sealed →
        exec .planUnseal s =
          .next (({ u with plans := s.plans.setBank b ⟨.opened, bank.plan⟩ }).answered r ⟨.ok, []⟩)))) ∧
  ∀ p : Plan, sealFailure p = none ↔
    (∀ y z k, (p.zones.get y).slot = some k → (p.zones.get z).slot = some k → y = z) ∧
    (∀ y z k, (p.trunks.get y).slot = some k → (p.trunks.get z).slot = some k → y = z) ∧
    (∀ k cls, (p.trunks.get k).keyClass = some cls →
      (p.classes.get cls).isSome = true ∧ (p.trunks.get k).keyTargets ≠ 0#16 ∧
        ∀ z, ZoneSet.has (p.trunks.get k).keyTargets z = true → p.used z = true) ∧
    (∀ z src, (p.zones.get z).programme = some src → p.mapped src = true) ∧
    (∀ i d n, p.classes.get i = some d → d.chime = some n → (p.patterns.get n).isSome = true) ∧
    ∀ g n, p.tones.get g = some n → (p.patterns.get n).isSome = true

/-- PLAN_COPY and PLAN_SWITCH: their checks in order and their effects (R116, R118). -/
def Obligations.CopyAndSwitchFollowChecks : Prop :=
  ∀ (s : State) (r : Request) (rest : List Request),
    let u := s.taken rest
    let other := s.plans.otherBank
    (s.Offers 37#8 r rest → r.len = 0 →
      (other.state = .copying → exec .planCopy s = .next (u.answered r ⟨.bankBusy, []⟩)) ∧
      (other.state = .sealed → exec .planCopy s = .next (u.answered r ⟨.bankSealed, []⟩)) ∧
      (other.state = .empty ∨ other.state = .opened →
        exec .planCopy s =
          .next (({ u with plans := { (s.plans.setBank s.plans.live.other ⟨.copying, blankPlan⟩) with
            copied := some 0 } }).answered r ⟨.ok, []⟩))) ∧
    ∀ pointed : Bool, s.Offers 38#8 r rest → r.len = 2 → wordAt r.payload 0 = flagWord pointed →
      let point := wordAt r.payload 1
      let accepted := exec .planSwitch s =
        .next (({ u with plans := { s.plans with
          pending := some ⟨if pointed then some point else none⟩ } }).answered r ⟨.ok, []⟩)
      (s.plans.pending ≠ none → exec .planSwitch s = .next (u.answered r ⟨.switchPending, []⟩)) ∧
      (s.plans.pending = none →
        (other.state = .copying → exec .planSwitch s = .next (u.answered r ⟨.bankBusy, []⟩)) ∧
        (other.state = .empty ∨ other.state = .opened → exec .planSwitch s = .next (u.answered r ⟨.notSealed, []⟩)) ∧
        (other.state = .sealed →
          (pointed = false → accepted) ∧
          (pointed = true → s.receiver.link ≠ .locked → exec .planSwitch s = .next (u.answered r ⟨.noTimebase, []⟩)) ∧
          ∀ current, pointed = true → s.receiver.link = .locked → s.receiver.frameNumber = some current →
            ((point - current).toNat = 0 ∨ 32768 ≤ (point - current).toNat →
              exec .planSwitch s = .next (u.answered r ⟨.late, []⟩)) ∧
            (1 ≤ (point - current).toNat → (point - current).toNat ≤ 32767 → accepted)))

/-! ### Requests: the notice block and the message block -/

/-- NOTICE_ACK: the entries from the oldest through the SENT entry named leave the queue, the timer restarts or stops, and
lost notices are reported by one OVERFLOW; a number that names no SENT entry is refused (R136, R137). That the restarted
timer stands without the mark, so that the next boundary's decrement counts even where a NOTICE_MESSAGE begun for that
boundary had marked it, is the model's choice (DESIGN CHOICE, log 27). -/
def Obligations.NoticeAckRemovesEntries : Prop :=
  ∀ (s : State) (r : Request) (rest : List Request) (seq : BitVec 8),
    s.Offers 48#8 r rest → r.len = 1 → (wordAt r.payload 0).toNat = seq.toNat →
    ((∀ e ∈ s.notices.queue, e.sent = true → e.seq ≠ seq) →
      exec .noticeAck s = .next ((s.taken rest).answered r ⟨.badField, [1#16]⟩)) ∧
    ∀ front e back, s.notices.queue = front ++ e :: back → e.sent = true → e.seq = seq →
      (∀ x ∈ front, x.sent = true → x.seq ≠ seq) →
      let timer := if back.any NoticeEntry.sent then some ⟨s.notices.intervalMs * 48, false⟩ else none
      let kept := { s.notices with queue := back, timer := timer }
      let told := { kept with
        queue := back ++ [{ seq := s.notices.next, notice := .overflow s.notices.lost, sent := false }]
        next := s.notices.next + 1#8, lost := 0 }
      (s.notices.lost = 0 →
        exec .noticeAck s =
          .next (({ s.taken rest with notices := kept }).answered r
            ⟨.ok, [BitVec.ofNat 16 (front.length + 1), BitVec.ofNat 16 back.length]⟩)) ∧
      (0 < s.notices.lost →
        exec .noticeAck s =
          .next (({ s.taken rest with notices := told }).answered r
            ⟨.ok, [BitVec.ofNat 16 (front.length + 1), BitVec.ofNat 16 (back.length + 1)]⟩))

/-- NOTICE_CONFIG: the five cases of R140, and the reply that reports the notice block as it then stands. -/
def Obligations.NoticeConfigApplies : Prop :=
  ∀ (s : State) (r : Request) (rest : List Request) (k : Controller) (enable : Bool) (ms : Nat),
    s.Offers 49#8 r rest → r.len = 3 → (wordAt r.payload 0).toNat = k.address.toNat →
    wordAt r.payload 1 = flagWord enable → (wordAt r.payload 2).toNat = ms → 10 ≤ ms → ms ≤ 2000 →
    let stored := { s.notices with recipient := k, intervalMs := ms, enabled := enable }
    ∃ b : NoticeBlock,
      exec .noticeConfig s =
        .next (({ s.taken rest with notices := b }).answered r
          ⟨.ok, [BitVec.ofNat 16 k.address.toNat, flagWord enable, BitVec.ofNat 16 ms, BitVec.ofNat 16 b.next.toNat,
            BitVec.ofNat 16 b.queue.length, BitVec.ofNat 16 (b.queue.filter NoticeEntry.sent).length,
            BitVec.ofNat 16 b.lost]⟩) ∧
      (s.notices.enabled = false → b = stored) ∧
      (s.notices.enabled = true → enable = false → b = { stored with queue := [], lost := 0, timer := none }) ∧
      (s.notices.enabled = true → enable = true → s.notices.recipient = k → b = stored) ∧
      (s.notices.enabled = true → enable = true → s.notices.recipient ≠ k →
        b = { stored with queue := s.notices.queue.map fun e => { e with sent := false }, timer := none })

/-- R160: ECHO answers OK with the same words and changes nothing but the taken counter, the reply and the cache; 28 words
give a reply of 32 words. -/
def Obligations.EchoReturnsWords : Prop :=
  (∀ (s : State) (r : Request) (rest : List Request), s.Offers 64#8 r rest →
    exec .echo s = .next ((s.taken rest).answered r ⟨.ok, r.payload⟩)) ∧
  ∀ (r : Reply) (address : BitVec 6), r.answer.results.length = 28 → (r.words address).length = 32

/-- COUNTERS_READ: the thirteen counters in the order of Table 7-5, the taken counter having counted the request; with the
clear flag set each is then 0, otherwise none changes (R161). -/
def Obligations.CountersReadReports : Prop :=
  ∀ (s : State) (r : Request) (rest : List Request) (clear : Bool),
    s.Offers 65#8 r rest → r.len = 1 → wordAt r.payload 0 = flagWord clear →
    let u := s.taken rest
    let m := s.msg.counters
    let values := [min (m.taken + 1) 65535, m.badCheck, m.framing, m.unauthorized, m.overflow, m.duplicate, m.returned,
      s.receiver.slips, s.receiver.losses, s.calls.admitted, s.calls.keyRefused, s.notices.noticesLost,
      s.notices.retries]
    let zeroed := { u with
      msg := { u.msg with counters := ⟨0, 0, 0, 0, 0, 0, 0⟩ }
      receiver := { s.receiver with slips := 0, losses := 0 }
      calls := { s.calls with admitted := 0, keyRefused := 0 }
      notices := { s.notices with noticesLost := 0, retries := 0 } }
    exec .countersRead s = .next ((if clear then zeroed else u).answered r ⟨.ok, values.map (BitVec.ofNat 16)⟩)

/-- NODE_RESET: each block takes its node-reset effect, and the sources, the receiver, the transmitter, the address and the
counters are kept (R162, R32, R67, R85, R100, R125, R143, R163). Of what is due, key-up edges, a switch and a copy step
are abandoned with it and everything else stays due (log 13, DEDUCED). -/
def Obligations.NodeResetEffects : Prop :=
  ∀ (s : State) (r : Request) (rest : List Request), s.Offers 66#8 r rest → r.len = 0 →
    ∃ t : State, exec .nodeReset s = .next (t.answered r ⟨.ok, []⟩) ∧
      (∀ i, t.calls.records.get i =
        if (s.calls.records.get i).call = none then s.calls.records.get i
        else ⟨(s.calls.records.get i).gen + 1, none⟩) ∧
      t.calls.admission = [] ∧ t.calls.admitted = s.calls.admitted ∧ t.calls.keyRefused = s.calls.keyRefused ∧
      (∀ z, t.zones.get z = { state := .idle, stack := [], restriction := 0, lastServed := none }) ∧
      (∀ z, (t.mixers.get z).player = (s.mixers.get z).player ∧
        (t.mixers.get z).foreground = (s.mixers.get z).foreground.apply ⟨.none, 127⟩ ∧
        (t.mixers.get z).background =
          (s.mixers.get z).background.apply
            ⟨(match (s.plan.zones.get z).programme with
              | none => .none
              | some src => .source src), (s.plan.zones.get z).programmeAtt⟩) ∧
      t.plans.live = s.plans.live ∧ t.plans.bank s.plans.live = s.plans.bank s.plans.live ∧ t.plans.pending = none ∧
      t.plans.copied = none ∧ (s.plans.copied = none → t.plans.otherBank = s.plans.otherBank) ∧
      (s.plans.copied ≠ none → t.plans.otherBank = ⟨.empty, blankPlan⟩) ∧
      t.notices =
        { s.notices with
          queue := if s.notices.enabled then [{ seq := 0#8, notice := .nodeReset, sent := false }] else []
          next := if s.notices.enabled then 1#8 else 0#8
          lost := 0, timer := none } ∧
      t.msg = { (s.taken rest).msg with cache := ⟨none, none, none⟩ } ∧
      t.due = s.due.filter Task.survivesReset ∧
      (∀ x, x ∈ t.due ↔ x ∈ s.due ∧ (∀ k, x ≠ .keyUp k) ∧ x ≠ .switchTake ∧ x ≠ .copyStep) ∧
      t.inReset = false ∧ t.now = s.now ∧ t.pending = s.pending ∧
      t.sources = s.sources ∧ t.receiver = s.receiver ∧ t.out = s.out ∧ t.address = s.address

/-! ### Shared operations of the call table, the arbiters, the notice queue and the message stream -/

/-- R12: a grant to a call that was never granted sets the ever-granted flag, removes the wait deadline and sets the duration
deadline when there is a limit; a grant to any other call changes none of the three. -/
def Obligations.FirstGrantActions : Prop :=
  ∀ (e : Event) (r : CallRef) (c : Call), e.calls.call? r = some c →
    ∃ d, (e.takeReport (.grant r)).calls.call? r = some d ∧
      (c.everGranted = false →
        d = { c with everGranted := true, wait := none,
                     duration := if c.captured.durationMs = 0 then none else some (c.captured.durationMs * 48) }) ∧
      (c.everGranted = true → d = c)

/-- Admission fills the lowest-numbered FREE record, appends the reference, counts the call, and then evaluates the target
zones (R7). -/
def Obligations.AdmissionFillsRecord : Prop :=
  ∀ (p : Plan) (o : Origin) (cls : Fin 8) (d : ClassDef) (src : Source) (target : ZoneSet) (e : Event) (i : Fin 32),
    (e.calls.records.get i).call = none → (∀ j, j < i → (e.calls.records.get j).call ≠ none) →
    ∃ x : Event, e.openRecord p o cls d src target = x.evaluateAll p (ZoneSet.zones target) ∧
      (∀ j, j ≠ i → x.calls.records.get j = e.calls.records.get j) ∧
      x.calls.records.get i =
        ⟨(e.calls.records.get i).gen,
          some
            { origin := o, cls := cls, captured := d, source := src, target := target, granted := 0#16, suspended := 0#16
              speak := false, everGranted := false
              wait := if d.waitMs = 0 then none else some (d.waitMs * 48), duration := none, hold := none }⟩ ∧
      x.calls.admission = e.calls.admission ++ [⟨i, (e.calls.records.get i).gen⟩] ∧
      x.calls.admitted = min (e.calls.admitted + 1) 65535 ∧ x.zones = e.zones

/-- The end of a call (R22): it leaves every target set; it is withdrawn from exactly the zones where it was live or
suspended, a zone that loses its live call so becoming IDLE with the call's source as last served source (R40, R48) and
a stack entry going with the entries around it closing up (R49); exactly those zones are then evaluated; its record is
FREE with the next generation, its reference is out of the admission list, and its end is recorded with its cause.
Nobody's restriction changes. -/
def Obligations.EndFreesRecord : Prop :=
  ∀ (p : Plan) (r : CallRef) (cause : EndCause) (e : Event) (c : Call), e.calls.call? r = some c →
    let held := c.granted ||| c.suspended
    let t := e.endCall p r cause
    t.calls.records.get r.index = ⟨r.gen + 1, none⟩ ∧ (e.calls.admission.Nodup → r ∉ t.calls.admission) ∧
      (r, cause) ∈ t.ended ∧ (∀ z, (t.zones.get z).restriction = (e.zones.get z).restriction) ∧
      (∀ z, ZoneSet.has held z = false → t.zones.get z = e.zones.get z) ∧
      ∃ x : Event,
        x = { e with calls := x.calls, zones := x.zones } ∧ x.calls.admission = e.calls.admission ∧
        x.calls.call? r = some { c with target := 0#16, granted := 0#16, suspended := 0#16 } ∧
        (∀ q, q ≠ r → x.calls.call? q = e.calls.call? q) ∧
        (∀ z, x.zones.get z =
          let zone := e.zones.get z
          if ZoneSet.has held z = true then
            if zone.state.live? = some r then
              { zone with
                state := .idle, lastServed := some c.source
                stack := zone.stack.filter fun en => decide (en.call ≠ r) }
            else { zone with stack := zone.stack.filter fun en => decide (en.call ≠ r) }
          else zone) ∧
        let y := x.evaluateAll p (ZoneSet.zones held)
        t = { y with calls := y.calls.free r, ended := y.ended ++ [(r, cause)] }

/-- The top-ranked eligible contender (R36 to R38): it contends and is not below the effective floor, no eligible contender
has a higher priority, none ranks before it, and an eligible live call is displaced by no equal. The ranking by the four
keys of Table 2-2: the higher priority; at equal priority the live call; then stacked before waiting, and of two stacked
the one nearer the top; of two waiting the one earlier in the admission list (FIFO) or with the smaller rotation
distance (ROTATE). The distance is the source number less the last served less one modulo 52, the number itself where
none was served (R39). -/
def Obligations.RankingFollowsKeys : Prop :=
  (∀ (e : Event) (p : Plan) (z : Zone) (w : CallRef), e.top p z = some w →
    w ∈ e.contenders z ∧ effectiveFloor p e.zones z ≤ e.priority w ∧
      ∀ r, r ∈ e.contenders z → effectiveFloor p e.zones z ≤ e.priority r →
        e.priority r ≤ e.priority w ∧ e.ranksBefore p z r w = false ∧
          ((e.zones.get z).state.live? = some r → e.priority r = e.priority w → r = w)) ∧
  (∀ (e : Event) (z : Zone) (r : CallRef), r ∈ e.contenders z ↔
    r ∈ e.calls.admission ∧ ∃ c, e.calls.call? r = some c ∧ ZoneSet.has c.target z = true) ∧
  (∀ (e : Event) (p : Plan) (z : Zone) (a b : CallRef) (ca cb : Call), e.calls.call? a = some ca →
    e.calls.call? b = some cb →
    let zone := e.zones.get z
    let depth := fun r => zone.stack.findIdx fun en => decide (en.call = r)
    let stacked := fun r => ∃ en ∈ zone.stack, en.call = r
    let first := e.ranksBefore p z a b = true ∧ e.ranksBefore p z b a = false
    (cb.captured.priority < ca.captured.priority → first) ∧
    (ca.captured.priority = cb.captured.priority → a ≠ b →
      (zone.state.live? = some a → first) ∧
      (zone.state.live? ≠ some a → zone.state.live? ≠ some b →
        (stacked a → ¬ stacked b → first) ∧
        (stacked a → stacked b → depth a < depth b → first) ∧
        (¬ stacked a → ¬ stacked b →
          ((p.zones.get z).order = .fifo → e.calls.admission.idxOf a < e.calls.admission.idxOf b → first) ∧
          ((p.zones.get z).order = .rotate →
            rotationDistance zone.lastServed ca.source < rotationDistance zone.lastServed cb.source → first))))) ∧
  ∀ src last : Source, rotationDistance none src = src.val ∧
    (rotationDistance (some last) src : Int) = ((src.val : Int) - last.val - 1) % 52

/-- An evaluation by the cases of Table 2-3: V1 and V3 change nothing (R43); V4 grants W, fresh or by resumption (R44, R55);
V5 and V2 first make L leave, onto the stack under RESUME, a full stack losing its bottom entry with reason DEPTH, or lost
under DROP (R45, R46, R47, R51). Where call table and zones agree, they agree on the zone afterwards: a call's granted
and suspended sets change for this zone alone, as R57 says, and nothing else of a call and no other zone changes. A grant
that leaves the zone in LEAD_IN is an entry into LEAD_IN, remembered for the chime player (R75). An evaluation takes its
reports once it is decided (R60); a zone unused in the live plan is not evaluated (R61). -/
def Obligations.EvaluationFollowsCases : Prop :=
  (∀ (e : Event) (p : Plan) (z : Zone),
    Event.evaluate p e z =
      if p.used z then (e.decideZone p z).2.foldl Event.takeReport (e.decideZone p z).1 else e) ∧
  (∀ (e : Event) (p : Plan) (z : Zone),
    let after := (e.decideZone p z).1
    after.lost = e.lost ∧ after.ended = e.ended ∧ after.admitted = e.admitted ∧ after.skippers = e.skippers ∧
      (after.leadIns = e.leadIns ∨ after.leadIns = e.leadIns ++ [z]) ∧
      ∀ w c, e.top p z = some w → (e.zones.get z).state.live? ≠ some w → e.calls.call? w = some c →
        after.leadIns =
          if (after.zones.get z).state.phase = .leadIn then e.leadIns ++ [z] else e.leadIns) ∧
  ∀ (e : Event) (p : Plan) (z : Zone),
    let zone := e.zones.get z
    (e.top p z = none → zone.state.live? = none → e.decideZone p z = (e, [])) ∧
    (∀ w, e.top p z = some w → zone.state.live? = some w → e.decideZone p z = (e, [])) ∧
    (∀ w c, e.top p z = some w → zone.state.live? = none → e.calls.call? w = some c →
      (∀ en ∈ zone.stack, en.call ≠ w) →
      let fresh := if c.captured.chime.isSome && decide (0 < c.captured.chimeMs)
        then ZoneState.leadIn w (c.captured.chimeMs * 48) else .onAir w
      (e.decideZone p z).1.zones = e.zones.set z { zone with state := fresh } ∧
        (e.decideZone p z).2 = if fresh.phase = .onAir then [.grant w, .onAir w] else [.grant w]) ∧
    (∀ w c en, e.top p z = some w → zone.state.live? = none → e.calls.call? w = some c → en ∈ zone.stack →
      en.call = w → (∀ x ∈ zone.stack, x.call = w → x = en) →
      let resumed := if en.resume = .leadIn then ZoneState.leadIn w (c.captured.chimeMs * 48) else .onAir w
      (e.decideZone p z).1.zones =
        e.zones.set z { zone with state := resumed, stack := zone.stack.filter fun x => decide (x.call ≠ w) }) ∧
    (∀ w l c d, e.top p z = some w → w ≠ l → zone.state.live? = some l → e.calls.call? w = some c →
      e.calls.call? l = some d → (∀ en ∈ zone.stack, en.call ≠ w) →
      let fresh := if c.captured.chime.isSome && decide (0 < c.captured.chimeMs)
        then ZoneState.leadIn w (c.captured.chimeMs * 48) else .onAir w
      let granted := if fresh.phase = .onAir then [Report.grant w, .onAir w] else [.grant w]
      (d.captured.preempt = .drop →
        (e.decideZone p z).1.zones = e.zones.set z { zone with state := fresh } ∧
          (e.decideZone p z).2 =
            .loss l z (if effectiveFloor p e.zones z ≤ d.captured.priority then .preempted else .floor) :: granted) ∧
      (d.captured.preempt = .resume → zone.stack.length < 4 →
        (e.decideZone p z).1.zones =
          e.zones.set z { zone with
            state := fresh
            stack := ⟨l, if zone.state.phase = .onAir then .onAir else .leadIn⟩ :: zone.stack } ∧
          (e.decideZone p z).2 = granted) ∧
      ∀ x, d.captured.preempt = .resume → 4 ≤ zone.stack.length → zone.stack.getLast? = some x →
        (e.decideZone p z).1.zones =
          e.zones.set z { zone with
            state := fresh
            stack := ⟨l, if zone.state.phase = .onAir then .onAir else .leadIn⟩ :: zone.stack.dropLast } ∧
          (e.decideZone p z).2 = .loss x.call z .depth :: granted) ∧
    (Agree e.calls e.zones → ∀ r c, e.calls.call? r = some c →
      let after := (e.decideZone p z).1
      ∃ d, after.calls.call? r = some d ∧ d = { c with granted := d.granted, suspended := d.suspended } ∧
        (∀ y, y ≠ z → ZoneSet.has d.granted y = ZoneSet.has c.granted y ∧
          ZoneSet.has d.suspended y = ZoneSet.has c.suspended y ∧ after.zones.get y = e.zones.get y) ∧
        (ZoneSet.has d.granted z = true ↔ (after.zones.get z).state.live? = some r) ∧
        (ZoneSet.has d.suspended z = true ↔ r ∈ (after.zones.get z).stack.map StackEntry.call)) ∧
    ∀ l c, e.top p z = none → zone.state.live? = some l → e.calls.call? l = some c →
      let entry : StackEntry := ⟨l, if zone.state.phase = .onAir then .onAir else .leadIn⟩
      (c.captured.preempt = .drop →
        (e.decideZone p z).1.zones = e.zones.set z { zone with state := .idle } ∧
          (e.decideZone p z).2 = [.loss l z .floor]) ∧
      (c.captured.preempt = .resume → zone.stack.length < 4 →
        (e.decideZone p z).1.zones = e.zones.set z { zone with state := .idle, stack := entry :: zone.stack } ∧
          (e.decideZone p z).2 = []) ∧
      ∀ x, c.captured.preempt = .resume → 4 ≤ zone.stack.length → zone.stack.getLast? = some x →
        (e.decideZone p z).1.zones =
          e.zones.set z { zone with state := .idle, stack := entry :: zone.stack.dropLast } ∧
          (e.decideZone p z).2 = [.loss x.call z .depth]

/-- A notice submitted to the queue is taken by the first case of R129 that applies; a lost one moves only the lost count,
held at 255, and the counter (R128, R130, R131, R133). -/
def Obligations.SubmissionFollowsCases : Prop :=
  ∀ (b : NoticeBlock) (n : Notice),
    (b.enabled = false → b.submit n = b) ∧
    (b.enabled = true →
      (∀ r front e back, n.coalesces? = some r → b.queue = front ++ e :: back → e.isOpenStatus r = true →
        (∀ x ∈ back, x.isOpenStatus r = false) →
        b.submit n = { b with queue := front ++ { e with notice := n } :: back }) ∧
      ((∀ r, n.coalesces? = some r → ∀ e ∈ b.queue, e.isOpenStatus r = false) →
        (b.queue.length < 16 →
          b.submit n =
            { b with queue := b.queue ++ [{ seq := b.next, notice := n, sent := false }], next := b.next + 1#8 }) ∧
        (16 ≤ b.queue.length →
          b.submit n = { b with lost := min (b.lost + 1) 255, noticesLost := min (b.noticesLost + 1) 65535 })))

/-- The incoming stream word by word: the transitions of Table 7-1 (R145), the four dispositions of a FIRST word (R146), the
receive assembler's cases (R148), the words an abandoned message takes from the transit buffer (R158), and the three
checks of a complete message in their order, bad check, unauthorized, good request, with the queue's limit (R149, R150).
A message run through the check procedure with its check word ends at 0 (R186). The outgoing words: in each of the four
positions the input word is taken and then the next word of an own message is placed, else the oldest transit word, else
IDLE (R156); a transit-only part copies the four words (R147). -/
def Obligations.MessageChecksInOrder : Prop :=
  (∀ ws : List Word, checkWord (ws ++ [checkWord ws]) = 0#16) ∧
  (∀ (m : MessageBlock) (body : List Word) (check : Word), 3 ≤ body.length →
    let first := wordAt body 0
    (check ≠ checkWord body →
      m.checkMessage (body ++ [check]) =
        { m with counters := { m.counters with badCheck := min (m.counters.badCheck + 1) 65535 } }) ∧
    (check = checkWord body → (classOf first ≠ 1#4 ∨ controllerAt (srcOf first) = none) →
      m.checkMessage (body ++ [check]) =
        { m with counters := { m.counters with unauthorized := min (m.counters.unauthorized + 1) 65535 } }) ∧
    ∀ k, check = checkWord body → classOf first = 1#4 → controllerAt (srcOf first) = some k →
      (m.requests.length < 4 →
        m.checkMessage (body ++ [check]) =
          { m with requests := m.requests ++
            [{ source := k, isBroadcast := decide (destOf first = 63#6), kind := kindOf (wordAt body 1)
               tag := tagOf (wordAt body 1), len := lengthOf (wordAt body 2), payload := body.drop 3 }] }) ∧
      (4 ≤ m.requests.length →
        m.checkMessage (body ++ [check]) =
          { m with counters := { m.counters with overflow := min (m.counters.overflow + 1) 65535 } })) ∧
  (∀ (m : MessageBlock) (a : BitVec 6) (d : Word),
    let counted := fun m : MessageBlock =>
      { m with counters := { m.counters with framing := min (m.counters.framing + 1) 65535 } }
    let dropped := fun m : MessageBlock => { counted m with assembler := [] }
    let cut := fun m : MessageBlock => { m with transit := abandonForwarded m.transit }
    let passed := fun k => { m with transit := m.transit ++ [⟨k, d⟩] }
    let begun := fun m : MessageBlock => m.beginMessage a ⟨.first, d⟩
    let taken := fun k => m.intake a ⟨k, d⟩
    (m.input = .between → taken .idle = m ∧ taken .first = begun m ∧
      taken .more = { counted m with input := .discard } ∧ taken .last = counted m) ∧
    (m.input = .forward → taken .more = passed .more ∧ taken .last = { passed .last with input := .between } ∧
      taken .idle = { cut m with input := .between } ∧ taken .first = begun (cut m)) ∧
    (m.input = .consume → taken .more = m.assemble ⟨.more, d⟩ .discard ∧ taken .last = m.assemble ⟨.last, d⟩ .discard ∧
      taken .idle = { dropped m with input := .between } ∧ taken .first = begun (dropped m)) ∧
    (m.input = .broadcast → taken .more = (passed .more).assemble ⟨.more, d⟩ .forward ∧
      taken .last = { (passed .last).assemble ⟨.last, d⟩ .forward with input := .between } ∧
      taken .idle = { cut (dropped m) with input := .between } ∧ taken .first = begun (cut (dropped m))) ∧
    (m.input = .scrub ∨ m.input = .discard → taken .more = m ∧ taken .last = { m with input := .between } ∧
      taken .idle = { m with input := .between } ∧ taken .first = begun m)) ∧
  (∀ (m : MessageBlock) (a : BitVec 6) (w : ControlWord), a ≠ 63#6 →
    let passed := { m with transit := m.transit ++ [w] }
    (destOf w.data = a → m.beginMessage a w = { m with input := .consume, assembler := [w.data] }) ∧
    (destOf w.data = 63#6 → m.beginMessage a w = { passed with input := .broadcast, assembler := [w.data] }) ∧
    (destOf w.data ≠ a → destOf w.data ≠ 63#6 →
      (srcOf w.data = a → m.beginMessage a w =
        { m with input := .scrub, assembler := []
                 counters := { m.counters with returned := min (m.counters.returned + 1) 65535 } }) ∧
      (srcOf w.data ≠ a → m.beginMessage a w = { passed with input := .forward, assembler := [] }))) ∧
  (∀ (m : MessageBlock) (d : Word) (rest : InputState),
    let ws := m.assembler ++ [d]
    let len := lengthOf (wordAt ws 2)
    let rejected := fun after : InputState =>
      { m with assembler := [], input := after
               counters := { m.counters with framing := min (m.counters.framing + 1) 65535 } }
    (ws.length < 3 → m.assemble ⟨.more, d⟩ rest = { m with assembler := ws }) ∧
    (ws.length ≤ 3 → m.assemble ⟨.last, d⟩ rest = rejected .between) ∧
    (ws.length = 3 → 28 < len → m.assemble ⟨.more, d⟩ rest = rejected rest) ∧
    (3 ≤ ws.length → len ≤ 28 → ws.length < 4 + len → m.assemble ⟨.more, d⟩ rest = { m with assembler := ws }) ∧
    (4 ≤ ws.length → ws.length < 4 + len → m.assemble ⟨.last, d⟩ rest = rejected .between) ∧
    (4 ≤ ws.length → 4 + len ≤ ws.length → m.assemble ⟨.more, d⟩ rest = rejected rest) ∧
    (4 ≤ ws.length → 4 + len ≤ ws.length →
      m.assemble ⟨.last, d⟩ rest = MessageBlock.checkMessage { m with input := .between, assembler := [] } ws)) ∧
  (∀ front back : List ControlWord, (∀ w ∈ back, w.marker ≠ .last) →
    abandonForwarded back = [] ∧
      ∀ w : ControlWord, w.marker = .last → abandonForwarded (front ++ w :: back) = front ++ [w]) ∧
  (∀ m : MessageBlock,
    (∀ w rest, m.own = w :: rest → m.emit = ({ m with own := rest }, w)) ∧
    (∀ w rest, m.own = [] → m.transit = w :: rest → m.emit = ({ m with transit := rest }, w)) ∧
    (m.own = [] → m.transit = [] → m.emit = (m, ⟨.idle, 0#16⟩))) ∧
  ∀ s : State,
    (s.transitOnly = true → s.controlStage = { s with out := { s.out with words := s.now.frame.words } }) ∧
    (s.transitOnly = false →
      let words := s.now.frame.words
      let one := (s.arbitrate.msg.intake s.address (words.get 0)).emit
      let two := (one.1.intake s.address (words.get 1)).emit
      let three := (two.1.intake s.address (words.get 2)).emit
      let four := (three.1.intake s.address (words.get 3)).emit
      s.controlStage.msg = four.1 ∧ s.controlStage.out.words.get 0 = one.2 ∧ s.controlStage.out.words.get 1 = two.2 ∧
        s.controlStage.out.words.get 2 = three.2 ∧ s.controlStage.out.words.get 3 = four.2)

/-! ### Invariants of the whole part -/

/-- The state right after reset satisfies every invariant that the statements below say every step keeps. -/
def Obligations.InvariantsHoldAtReset : Prop :=
  State.reset.Coherent ∧ State.reset.plans.InRange ∧ (∀ z, (State.reset.mixers.get z).Wf) ∧ State.reset.notices.Wf ∧
    State.reset.msg.Wf ∧ State.reset.receiver.Wf ∧ ∀ k, (State.reset.sources.trunks.get k).Wf

/-- Every step keeps the plan store's conditions (R108: the live bank SEALED and passing the seal check, COPYING exactly
while a copy runs, a pending switch only with a SEALED target), every plan field in its range, and every lane within
its attenuations (R68). The premise on the message block, an invariant of its own, rules out a queued payload shorter
than its stated length. -/
def Obligations.StepKeepsPlansAndLanes : Prop :=
  ∀ s t : State, s.msg.Wf → s.plans.Wf → s.plans.InRange → (∀ z, (s.mixers.get z).Wf) →
    step s = .next t →
    t.plans.Wf ∧ t.plans.InRange ∧ ∀ z, (t.mixers.get z).Wf

/-- Every step keeps the notice queue's conditions (R128, R133, R135, R140). -/
def Obligations.StepKeepsNoticeQueue : Prop :=
  ∀ s t : State, s.notices.Wf → step s = .next t → t.notices.Wf

/-- Every step keeps the message block's conditions, the transit buffer's bound of 32 words among them (R144, R148, R150,
R156, R159). -/
def Obligations.StepKeepsMessageBlock : Prop :=
  ∀ s t : State, s.msg.Wf → step s = .next t → t.msg.Wf

/-- Every step keeps the receiver's conditions (R169) and every trunk source's (R87). -/
def Obligations.StepKeepsReceiverAndSources : Prop :=
  ∀ s t : State, s.receiver.Wf → (∀ k, (s.sources.trunks.get k).Wf) → step s = .next t →
    t.receiver.Wf ∧ ∀ k, (t.sources.trunks.get k).Wf

/-- Every step keeps the agreement of call table, zone records and plan store (R1, R4, R5, R7, R33, R34, R61), and the
condition in which R50 has every evaluation leave its zone: a live call is eligible and no contender has a higher
priority; with no live call no contender is eligible, and every call on the stack is below the effective floor. -/
def Obligations.StepKeepsCallsAndZones : Prop :=
  ∀ s t : State, s.Coherent → step s = .next t → t.Coherent

end
end

