-- ==== Sys2Proof/Laws/Tables.lean ====
section
/-! SUPPORT. Reading a table after it has been written, and membership in zone sets. -/

namespace Sys2Proof

variable {n : Nat} {α : Type}

/-- Two tables with the same entries are equal. -/
theorem Table.ext_get {t u : Table n α} (h : ∀ i, t.get i = u.get i) : t = u := by
  cases t with
  | mk tc th =>
    cases u with
    | mk uc uh =>
      have : tc = uc := by
        apply List.ext_getElem (by rw [th, uh])
        intro i h1 h2
        exact h ⟨i, by omega⟩
      subst this
      rfl

/-- An entry just written reads as written. -/
@[simp] theorem Table.get_set_same (t : Table n α) (i : Fin n) (a : α) : (t.set i a).get i = a := by
  simp [Table.get, Table.set]

/-- Writing an entry leaves the others. -/
theorem Table.get_set_other (t : Table n α) {i j : Fin n} (a : α) (h : i ≠ j) : (t.set i a).get j = t.get j := by
  have : i.val ≠ j.val := fun e => h (Fin.ext e)
  simp [Table.get, Table.set, this]

/-- Reading after a write, both cases. -/
theorem Table.get_set (t : Table n α) (i j : Fin n) (a : α) :
    (t.set i a).get j = if i = j then a else t.get j := by
  by_cases h : i = j
  · subst h
    simp
  · simp [h, Table.get_set_other t a h]

/-- The entries of a tabulated function. -/
@[simp] theorem Table.get_tabulate (f : Fin n → α) (i : Fin n) : (Table.tabulate f).get i = f i := by
  simp [Table.get, Table.tabulate]

/-- The entries of an updated table. -/
@[simp] theorem Table.get_update (t : Table n α) (f : Fin n → α → α) (i : Fin n) :
    (t.update f).get i = f i (t.get i) := by
  simp [Table.update]

/-- The entries of a constant table. -/
@[simp] theorem Table.get_fill (a : α) (i : Fin n) : (Table.fill a : Table n α).get i = a := by
  simp [Table.get, Table.fill]

/-- The later of two writes of an entry stands. -/
@[simp] theorem Table.set_set (t : Table n α) (i : Fin n) (a b : α) : (t.set i a).set i b = t.set i b := by
  apply Table.ext_get
  intro j
  simp only [Table.get_set]
  split <;> rfl

/-- Writing what an entry holds changes nothing. -/
@[simp] theorem Table.set_get (t : Table n α) (i : Fin n) : t.set i (t.get i) = t := by
  apply Table.ext_get
  intro j
  rw [Table.get_set]
  split
  · rename_i h; rw [h]
  · rfl

/-- Reading after an entry is changed by a function. -/
theorem Table.get_modify (t : Table n α) (i j : Fin n) (f : α → α) :
    (t.modify i f).get j = if i = j then f (t.get j) else t.get j := by
  unfold Table.modify
  rw [Table.get_set]
  by_cases h : i = j
  · subst h
    simp
  · simp [h]

/-- Nothing is in the empty set. -/
@[simp] theorem ZoneSet.has_empty (z : Fin 16) : ZoneSet.has 0#16 z = false := by
  simp [ZoneSet.has]

/-- A single zone's set holds that zone alone. -/
theorem ZoneSet.has_single (z y : Fin 16) : ZoneSet.has (ZoneSet.single z) y = decide (y = z) := by
  revert z y
  decide

/-- Adding a zone. -/
theorem ZoneSet.has_add (m : ZoneSet) (z y : Fin 16) :
    ZoneSet.has (ZoneSet.add m z) y = (ZoneSet.has m y || decide (y = z)) := by
  have h := ZoneSet.has_single z y
  unfold ZoneSet.has at h ⊢
  unfold ZoneSet.add
  rw [BitVec.getLsbD_or, h]

/-- Removing a zone. -/
theorem ZoneSet.has_remove (m : ZoneSet) (z y : Fin 16) :
    ZoneSet.has (ZoneSet.remove m z) y = (ZoneSet.has m y && decide (y ≠ z)) := by
  have h := ZoneSet.has_single z y
  unfold ZoneSet.has at h ⊢
  unfold ZoneSet.remove
  rw [BitVec.getLsbD_and, BitVec.getLsbD_not, h]
  simp [y.isLt]

/-- The union of two sets. -/
theorem ZoneSet.has_or (m k : ZoneSet) (z : Fin 16) :
    ZoneSet.has (m ||| k) z = (ZoneSet.has m z || ZoneSet.has k z) := by
  simp [ZoneSet.has]

/-- The intersection of two sets. -/
theorem ZoneSet.has_and (m k : ZoneSet) (z : Fin 16) :
    ZoneSet.has (m &&& k) z = (ZoneSet.has m z && ZoneSet.has k z) := by
  simp [ZoneSet.has]

/-- The complement of a set. -/
theorem ZoneSet.has_not (m : ZoneSet) (z : Fin 16) : ZoneSet.has (~~~ m) z = !ZoneSet.has m z := by
  simp [ZoneSet.has, z.isLt]

/-- Two sets with the same zones are equal. -/
theorem ZoneSet.ext_has {m k : ZoneSet} (h : ∀ z, ZoneSet.has m z = ZoneSet.has k z) : m = k := by
  apply BitVec.eq_of_getLsbD_eq
  intro i hi
  exact h ⟨i, hi⟩

/-- The listed zones of a set are its zones. -/
@[simp] theorem ZoneSet.mem_zones (m : ZoneSet) (z : Fin 16) : z ∈ ZoneSet.zones m ↔ ZoneSet.has m z = true := by
  simp [ZoneSet.zones]

/-- The listed zones of a set are distinct. -/
theorem ZoneSet.zones_nodup (m : ZoneSet) : (ZoneSet.zones m).Nodup := (List.nodup_finRange 16).filter _

/-- A set less another. -/
theorem ZoneSet.has_without (m k : ZoneSet) (z : Fin 16) :
    ZoneSet.has (m &&& ~~~ k) z = (ZoneSet.has m z && decide (z ∉ ZoneSet.zones k)) := by
  rw [ZoneSet.has_and, ZoneSet.has_not]; simp

end Sys2Proof
end

