-- ==== Sys2Proof/Laws/State.lean ====
section
/-! SUPPORT. Which fields of the state an operation leaves alone: one lemma for each operation and field. -/

namespace Sys2Proof.Machine

@[simp] theorem State.notify_pending (s : State) (n : Notice) : (s.notify n).pending = s.pending := rfl
@[simp] theorem State.notify_inReset (s : State) (n : Notice) : (s.notify n).inReset = s.inReset := rfl
@[simp] theorem State.notify_address (s : State) (n : Notice) : (s.notify n).address = s.address := rfl
@[simp] theorem State.notify_due (s : State) (n : Notice) : (s.notify n).due = s.due := rfl
@[simp] theorem State.notify_now (s : State) (n : Notice) : (s.notify n).now = s.now := rfl
@[simp] theorem State.notify_calls (s : State) (n : Notice) : (s.notify n).calls = s.calls := rfl
@[simp] theorem State.notify_zones (s : State) (n : Notice) : (s.notify n).zones = s.zones := rfl
@[simp] theorem State.notify_mixers (s : State) (n : Notice) : (s.notify n).mixers = s.mixers := rfl
@[simp] theorem State.notify_sources (s : State) (n : Notice) : (s.notify n).sources = s.sources := rfl
@[simp] theorem State.notify_plans (s : State) (n : Notice) : (s.notify n).plans = s.plans := rfl
@[simp] theorem State.notify_msg (s : State) (n : Notice) : (s.notify n).msg = s.msg := rfl
@[simp] theorem State.notify_receiver (s : State) (n : Notice) : (s.notify n).receiver = s.receiver := rfl
@[simp] theorem State.notify_out (s : State) (n : Notice) : (s.notify n).out = s.out := rfl

@[simp] theorem State.changeCall_pending (s : State) (r : CallRef) (f : Call → Call) : (s.changeCall r f).pending = s.pending := rfl
@[simp] theorem State.changeCall_inReset (s : State) (r : CallRef) (f : Call → Call) : (s.changeCall r f).inReset = s.inReset := rfl
@[simp] theorem State.changeCall_address (s : State) (r : CallRef) (f : Call → Call) : (s.changeCall r f).address = s.address := rfl
@[simp] theorem State.changeCall_due (s : State) (r : CallRef) (f : Call → Call) : (s.changeCall r f).due = s.due := rfl
@[simp] theorem State.changeCall_now (s : State) (r : CallRef) (f : Call → Call) : (s.changeCall r f).now = s.now := rfl
@[simp] theorem State.changeCall_zones (s : State) (r : CallRef) (f : Call → Call) : (s.changeCall r f).zones = s.zones := rfl
@[simp] theorem State.changeCall_mixers (s : State) (r : CallRef) (f : Call → Call) : (s.changeCall r f).mixers = s.mixers := rfl
@[simp] theorem State.changeCall_sources (s : State) (r : CallRef) (f : Call → Call) : (s.changeCall r f).sources = s.sources := rfl
@[simp] theorem State.changeCall_plans (s : State) (r : CallRef) (f : Call → Call) : (s.changeCall r f).plans = s.plans := rfl
@[simp] theorem State.changeCall_notices (s : State) (r : CallRef) (f : Call → Call) : (s.changeCall r f).notices = s.notices := rfl
@[simp] theorem State.changeCall_msg (s : State) (r : CallRef) (f : Call → Call) : (s.changeCall r f).msg = s.msg := rfl
@[simp] theorem State.changeCall_receiver (s : State) (r : CallRef) (f : Call → Call) : (s.changeCall r f).receiver = s.receiver := rfl
@[simp] theorem State.changeCall_out (s : State) (r : CallRef) (f : Call → Call) : (s.changeCall r f).out = s.out := rfl

@[simp] theorem State.withPlans_pending (s : State) (p : PlanStore) : (s.withPlans p).pending = s.pending := rfl
@[simp] theorem State.withPlans_inReset (s : State) (p : PlanStore) : (s.withPlans p).inReset = s.inReset := rfl
@[simp] theorem State.withPlans_address (s : State) (p : PlanStore) : (s.withPlans p).address = s.address := rfl
@[simp] theorem State.withPlans_due (s : State) (p : PlanStore) : (s.withPlans p).due = s.due := rfl
@[simp] theorem State.withPlans_now (s : State) (p : PlanStore) : (s.withPlans p).now = s.now := rfl
@[simp] theorem State.withPlans_calls (s : State) (p : PlanStore) : (s.withPlans p).calls = s.calls := rfl
@[simp] theorem State.withPlans_zones (s : State) (p : PlanStore) : (s.withPlans p).zones = s.zones := rfl
@[simp] theorem State.withPlans_mixers (s : State) (p : PlanStore) : (s.withPlans p).mixers = s.mixers := rfl
@[simp] theorem State.withPlans_sources (s : State) (p : PlanStore) : (s.withPlans p).sources = s.sources := rfl
@[simp] theorem State.withPlans_notices (s : State) (p : PlanStore) : (s.withPlans p).notices = s.notices := rfl
@[simp] theorem State.withPlans_msg (s : State) (p : PlanStore) : (s.withPlans p).msg = s.msg := rfl
@[simp] theorem State.withPlans_receiver (s : State) (p : PlanStore) : (s.withPlans p).receiver = s.receiver := rfl
@[simp] theorem State.withPlans_out (s : State) (p : PlanStore) : (s.withPlans p).out = s.out := rfl

@[simp] theorem State.complete_pending (s : State) (always : Bool) (others : List Notice) (e : Event) : (s.complete always others e).pending = s.pending := rfl
@[simp] theorem State.complete_inReset (s : State) (always : Bool) (others : List Notice) (e : Event) : (s.complete always others e).inReset = s.inReset := rfl
@[simp] theorem State.complete_address (s : State) (always : Bool) (others : List Notice) (e : Event) : (s.complete always others e).address = s.address := rfl
@[simp] theorem State.complete_due (s : State) (always : Bool) (others : List Notice) (e : Event) : (s.complete always others e).due = s.due := rfl
@[simp] theorem State.complete_now (s : State) (always : Bool) (others : List Notice) (e : Event) : (s.complete always others e).now = s.now := rfl
@[simp] theorem State.complete_sources (s : State) (always : Bool) (others : List Notice) (e : Event) : (s.complete always others e).sources = s.sources := rfl
@[simp] theorem State.complete_plans (s : State) (always : Bool) (others : List Notice) (e : Event) : (s.complete always others e).plans = s.plans := rfl
@[simp] theorem State.complete_msg (s : State) (always : Bool) (others : List Notice) (e : Event) : (s.complete always others e).msg = s.msg := rfl
@[simp] theorem State.complete_receiver (s : State) (always : Bool) (others : List Notice) (e : Event) : (s.complete always others e).receiver = s.receiver := rfl
@[simp] theorem State.complete_out (s : State) (always : Bool) (others : List Notice) (e : Event) : (s.complete always others e).out = s.out := rfl

@[simp] theorem State.event_pending (s : State) (f : Plan → Event → Event) : (s.event f).pending = s.pending := rfl
@[simp] theorem State.event_inReset (s : State) (f : Plan → Event → Event) : (s.event f).inReset = s.inReset := rfl
@[simp] theorem State.event_address (s : State) (f : Plan → Event → Event) : (s.event f).address = s.address := rfl
@[simp] theorem State.event_due (s : State) (f : Plan → Event → Event) : (s.event f).due = s.due := rfl
@[simp] theorem State.event_now (s : State) (f : Plan → Event → Event) : (s.event f).now = s.now := rfl
@[simp] theorem State.event_sources (s : State) (f : Plan → Event → Event) : (s.event f).sources = s.sources := rfl
@[simp] theorem State.event_plans (s : State) (f : Plan → Event → Event) : (s.event f).plans = s.plans := rfl
@[simp] theorem State.event_msg (s : State) (f : Plan → Event → Event) : (s.event f).msg = s.msg := rfl
@[simp] theorem State.event_receiver (s : State) (f : Plan → Event → Event) : (s.event f).receiver = s.receiver := rfl
@[simp] theorem State.event_out (s : State) (f : Plan → Event → Event) : (s.event f).out = s.out := rfl

@[simp] theorem State.switchBanks_pending (s : State) : s.switchBanks.pending = s.pending := rfl
@[simp] theorem State.switchBanks_inReset (s : State) : s.switchBanks.inReset = s.inReset := rfl
@[simp] theorem State.switchBanks_address (s : State) : s.switchBanks.address = s.address := rfl
@[simp] theorem State.switchBanks_now (s : State) : s.switchBanks.now = s.now := rfl
@[simp] theorem State.switchBanks_calls (s : State) : s.switchBanks.calls = s.calls := rfl
@[simp] theorem State.switchBanks_zones (s : State) : s.switchBanks.zones = s.zones := rfl
@[simp] theorem State.switchBanks_mixers (s : State) : s.switchBanks.mixers = s.mixers := rfl
@[simp] theorem State.switchBanks_notices (s : State) : s.switchBanks.notices = s.notices := rfl
@[simp] theorem State.switchBanks_msg (s : State) : s.switchBanks.msg = s.msg := rfl
@[simp] theorem State.switchBanks_receiver (s : State) : s.switchBanks.receiver = s.receiver := rfl
@[simp] theorem State.switchBanks_out (s : State) : s.switchBanks.out = s.out.atSwitch := rfl

@[simp] theorem State.switchCalls_pending (s : State) (old : Plan) : (s.switchCalls old).pending = s.pending := rfl
@[simp] theorem State.switchCalls_inReset (s : State) (old : Plan) : (s.switchCalls old).inReset = s.inReset := rfl
@[simp] theorem State.switchCalls_address (s : State) (old : Plan) : (s.switchCalls old).address = s.address := rfl
@[simp] theorem State.switchCalls_due (s : State) (old : Plan) : (s.switchCalls old).due = s.due := rfl
@[simp] theorem State.switchCalls_now (s : State) (old : Plan) : (s.switchCalls old).now = s.now := rfl
@[simp] theorem State.switchCalls_sources (s : State) (old : Plan) : (s.switchCalls old).sources = s.sources := rfl
@[simp] theorem State.switchCalls_plans (s : State) (old : Plan) : (s.switchCalls old).plans = s.plans := rfl
@[simp] theorem State.switchCalls_msg (s : State) (old : Plan) : (s.switchCalls old).msg = s.msg := rfl
@[simp] theorem State.switchCalls_receiver (s : State) (old : Plan) : (s.switchCalls old).receiver = s.receiver := rfl
@[simp] theorem State.switchCalls_out (s : State) (old : Plan) : (s.switchCalls old).out = s.out := rfl

@[simp] theorem State.admitKey_pending (s : State) (t : Trunk) (cls : Fin 8) (d : ClassDef) : (s.admitKey t cls d).pending = s.pending := by
  unfold State.admitKey
  repeat' split
  all_goals rfl
@[simp] theorem State.admitKey_inReset (s : State) (t : Trunk) (cls : Fin 8) (d : ClassDef) : (s.admitKey t cls d).inReset = s.inReset := by
  unfold State.admitKey
  repeat' split
  all_goals rfl
@[simp] theorem State.admitKey_address (s : State) (t : Trunk) (cls : Fin 8) (d : ClassDef) : (s.admitKey t cls d).address = s.address := by
  unfold State.admitKey
  repeat' split
  all_goals rfl
@[simp] theorem State.admitKey_due (s : State) (t : Trunk) (cls : Fin 8) (d : ClassDef) : (s.admitKey t cls d).due = s.due := by
  unfold State.admitKey
  repeat' split
  all_goals rfl
@[simp] theorem State.admitKey_now (s : State) (t : Trunk) (cls : Fin 8) (d : ClassDef) : (s.admitKey t cls d).now = s.now := by
  unfold State.admitKey
  repeat' split
  all_goals rfl
@[simp] theorem State.admitKey_sources (s : State) (t : Trunk) (cls : Fin 8) (d : ClassDef) : (s.admitKey t cls d).sources = s.sources := by
  unfold State.admitKey
  repeat' split
  all_goals rfl
@[simp] theorem State.admitKey_plans (s : State) (t : Trunk) (cls : Fin 8) (d : ClassDef) : (s.admitKey t cls d).plans = s.plans := by
  unfold State.admitKey
  repeat' split
  all_goals rfl
@[simp] theorem State.admitKey_msg (s : State) (t : Trunk) (cls : Fin 8) (d : ClassDef) : (s.admitKey t cls d).msg = s.msg := by
  unfold State.admitKey
  repeat' split
  all_goals rfl
@[simp] theorem State.admitKey_receiver (s : State) (t : Trunk) (cls : Fin 8) (d : ClassDef) : (s.admitKey t cls d).receiver = s.receiver := by
  unfold State.admitKey
  repeat' split
  all_goals rfl
@[simp] theorem State.admitKey_out (s : State) (t : Trunk) (cls : Fin 8) (d : ClassDef) : (s.admitKey t cls d).out = s.out := by
  unfold State.admitKey
  repeat' split
  all_goals rfl

@[simp] theorem State.takeKeyUp_pending (s : State) (t : Trunk) : (s.takeKeyUp t).pending = s.pending := by
  unfold State.takeKeyUp
  repeat' split
  all_goals simp
@[simp] theorem State.takeKeyUp_inReset (s : State) (t : Trunk) : (s.takeKeyUp t).inReset = s.inReset := by
  unfold State.takeKeyUp
  repeat' split
  all_goals simp
@[simp] theorem State.takeKeyUp_address (s : State) (t : Trunk) : (s.takeKeyUp t).address = s.address := by
  unfold State.takeKeyUp
  repeat' split
  all_goals simp
@[simp] theorem State.takeKeyUp_due (s : State) (t : Trunk) : (s.takeKeyUp t).due = s.due := by
  unfold State.takeKeyUp
  repeat' split
  all_goals simp
@[simp] theorem State.takeKeyUp_now (s : State) (t : Trunk) : (s.takeKeyUp t).now = s.now := by
  unfold State.takeKeyUp
  repeat' split
  all_goals simp
@[simp] theorem State.takeKeyUp_sources (s : State) (t : Trunk) : (s.takeKeyUp t).sources = s.sources := by
  unfold State.takeKeyUp
  repeat' split
  all_goals simp
@[simp] theorem State.takeKeyUp_plans (s : State) (t : Trunk) : (s.takeKeyUp t).plans = s.plans := by
  unfold State.takeKeyUp
  repeat' split
  all_goals simp
@[simp] theorem State.takeKeyUp_msg (s : State) (t : Trunk) : (s.takeKeyUp t).msg = s.msg := by
  unfold State.takeKeyUp
  repeat' split
  all_goals simp
@[simp] theorem State.takeKeyUp_receiver (s : State) (t : Trunk) : (s.takeKeyUp t).receiver = s.receiver := by
  unfold State.takeKeyUp
  repeat' split
  all_goals simp
@[simp] theorem State.takeKeyUp_out (s : State) (t : Trunk) : (s.takeKeyUp t).out = s.out := by
  unfold State.takeKeyUp
  repeat' split
  all_goals simp

@[simp] theorem State.takeKeyDown_pending (s : State) (t : Trunk) : (s.takeKeyDown t).pending = s.pending := by
  unfold State.takeKeyDown
  repeat' split
  all_goals simp
@[simp] theorem State.takeKeyDown_inReset (s : State) (t : Trunk) : (s.takeKeyDown t).inReset = s.inReset := by
  unfold State.takeKeyDown
  repeat' split
  all_goals simp
@[simp] theorem State.takeKeyDown_address (s : State) (t : Trunk) : (s.takeKeyDown t).address = s.address := by
  unfold State.takeKeyDown
  repeat' split
  all_goals simp
@[simp] theorem State.takeKeyDown_due (s : State) (t : Trunk) : (s.takeKeyDown t).due = s.due := by
  unfold State.takeKeyDown
  repeat' split
  all_goals simp
@[simp] theorem State.takeKeyDown_now (s : State) (t : Trunk) : (s.takeKeyDown t).now = s.now := by
  unfold State.takeKeyDown
  repeat' split
  all_goals simp
@[simp] theorem State.takeKeyDown_sources (s : State) (t : Trunk) : (s.takeKeyDown t).sources = s.sources := by
  unfold State.takeKeyDown
  repeat' split
  all_goals simp
@[simp] theorem State.takeKeyDown_plans (s : State) (t : Trunk) : (s.takeKeyDown t).plans = s.plans := by
  unfold State.takeKeyDown
  repeat' split
  all_goals simp
@[simp] theorem State.takeKeyDown_msg (s : State) (t : Trunk) : (s.takeKeyDown t).msg = s.msg := by
  unfold State.takeKeyDown
  repeat' split
  all_goals simp
@[simp] theorem State.takeKeyDown_receiver (s : State) (t : Trunk) : (s.takeKeyDown t).receiver = s.receiver := by
  unfold State.takeKeyDown
  repeat' split
  all_goals simp
@[simp] theorem State.takeKeyDown_out (s : State) (t : Trunk) : (s.takeKeyDown t).out = s.out := by
  unfold State.takeKeyDown
  repeat' split
  all_goals simp

@[simp] theorem State.takeLoss_pending (s : State) (src : Source) : (s.takeLoss src).pending = s.pending := rfl
@[simp] theorem State.takeLoss_inReset (s : State) (src : Source) : (s.takeLoss src).inReset = s.inReset := rfl
@[simp] theorem State.takeLoss_address (s : State) (src : Source) : (s.takeLoss src).address = s.address := rfl
@[simp] theorem State.takeLoss_due (s : State) (src : Source) : (s.takeLoss src).due = s.due := rfl
@[simp] theorem State.takeLoss_now (s : State) (src : Source) : (s.takeLoss src).now = s.now := rfl
@[simp] theorem State.takeLoss_sources (s : State) (src : Source) : (s.takeLoss src).sources = s.sources := rfl
@[simp] theorem State.takeLoss_plans (s : State) (src : Source) : (s.takeLoss src).plans = s.plans := rfl
@[simp] theorem State.takeLoss_msg (s : State) (src : Source) : (s.takeLoss src).msg = s.msg := rfl
@[simp] theorem State.takeLoss_receiver (s : State) (src : Source) : (s.takeLoss src).receiver = s.receiver := rfl
@[simp] theorem State.takeLoss_out (s : State) (src : Source) : (s.takeLoss src).out = s.out := rfl

@[simp] theorem State.takePresence_pending (s : State) (t : Trunk) (k : Bool) : (s.takePresence t k).pending = s.pending := rfl
@[simp] theorem State.takePresence_inReset (s : State) (t : Trunk) (k : Bool) : (s.takePresence t k).inReset = s.inReset := rfl
@[simp] theorem State.takePresence_address (s : State) (t : Trunk) (k : Bool) : (s.takePresence t k).address = s.address := rfl
@[simp] theorem State.takePresence_due (s : State) (t : Trunk) (k : Bool) : (s.takePresence t k).due = s.due := rfl
@[simp] theorem State.takePresence_now (s : State) (t : Trunk) (k : Bool) : (s.takePresence t k).now = s.now := rfl
@[simp] theorem State.takePresence_calls (s : State) (t : Trunk) (k : Bool) : (s.takePresence t k).calls = s.calls := rfl
@[simp] theorem State.takePresence_zones (s : State) (t : Trunk) (k : Bool) : (s.takePresence t k).zones = s.zones := rfl
@[simp] theorem State.takePresence_mixers (s : State) (t : Trunk) (k : Bool) : (s.takePresence t k).mixers = s.mixers := rfl
@[simp] theorem State.takePresence_plans (s : State) (t : Trunk) (k : Bool) : (s.takePresence t k).plans = s.plans := rfl
@[simp] theorem State.takePresence_notices (s : State) (t : Trunk) (k : Bool) : (s.takePresence t k).notices = s.notices := rfl
@[simp] theorem State.takePresence_msg (s : State) (t : Trunk) (k : Bool) : (s.takePresence t k).msg = s.msg := rfl
@[simp] theorem State.takePresence_receiver (s : State) (t : Trunk) (k : Bool) : (s.takePresence t k).receiver = s.receiver := rfl
@[simp] theorem State.takePresence_out (s : State) (t : Trunk) (k : Bool) : (s.takePresence t k).out = s.out := rfl

@[simp] theorem State.takeDeadline_pending (s : State) (r : CallRef) (d : Call → Option Nat) (c : EndCause) : (s.takeDeadline r d c).pending = s.pending := by
  unfold State.takeDeadline
  repeat' split
  all_goals simp
@[simp] theorem State.takeDeadline_inReset (s : State) (r : CallRef) (d : Call → Option Nat) (c : EndCause) : (s.takeDeadline r d c).inReset = s.inReset := by
  unfold State.takeDeadline
  repeat' split
  all_goals simp
@[simp] theorem State.takeDeadline_address (s : State) (r : CallRef) (d : Call → Option Nat) (c : EndCause) : (s.takeDeadline r d c).address = s.address := by
  unfold State.takeDeadline
  repeat' split
  all_goals simp
@[simp] theorem State.takeDeadline_due (s : State) (r : CallRef) (d : Call → Option Nat) (c : EndCause) : (s.takeDeadline r d c).due = s.due := by
  unfold State.takeDeadline
  repeat' split
  all_goals simp
@[simp] theorem State.takeDeadline_now (s : State) (r : CallRef) (d : Call → Option Nat) (c : EndCause) : (s.takeDeadline r d c).now = s.now := by
  unfold State.takeDeadline
  repeat' split
  all_goals simp
@[simp] theorem State.takeDeadline_sources (s : State) (r : CallRef) (d : Call → Option Nat) (c : EndCause) : (s.takeDeadline r d c).sources = s.sources := by
  unfold State.takeDeadline
  repeat' split
  all_goals simp
@[simp] theorem State.takeDeadline_plans (s : State) (r : CallRef) (d : Call → Option Nat) (c : EndCause) : (s.takeDeadline r d c).plans = s.plans := by
  unfold State.takeDeadline
  repeat' split
  all_goals simp
@[simp] theorem State.takeDeadline_msg (s : State) (r : CallRef) (d : Call → Option Nat) (c : EndCause) : (s.takeDeadline r d c).msg = s.msg := by
  unfold State.takeDeadline
  repeat' split
  all_goals simp
@[simp] theorem State.takeDeadline_receiver (s : State) (r : CallRef) (d : Call → Option Nat) (c : EndCause) : (s.takeDeadline r d c).receiver = s.receiver := by
  unfold State.takeDeadline
  repeat' split
  all_goals simp
@[simp] theorem State.takeDeadline_out (s : State) (r : CallRef) (d : Call → Option Nat) (c : EndCause) : (s.takeDeadline r d c).out = s.out := by
  unfold State.takeDeadline
  repeat' split
  all_goals simp

@[simp] theorem State.takeLeadInEnd_pending (s : State) (z : Zone) : (s.takeLeadInEnd z).pending = s.pending := by
  unfold State.takeLeadInEnd
  repeat' split
  all_goals simp
@[simp] theorem State.takeLeadInEnd_inReset (s : State) (z : Zone) : (s.takeLeadInEnd z).inReset = s.inReset := by
  unfold State.takeLeadInEnd
  repeat' split
  all_goals simp
@[simp] theorem State.takeLeadInEnd_address (s : State) (z : Zone) : (s.takeLeadInEnd z).address = s.address := by
  unfold State.takeLeadInEnd
  repeat' split
  all_goals simp
@[simp] theorem State.takeLeadInEnd_due (s : State) (z : Zone) : (s.takeLeadInEnd z).due = s.due := by
  unfold State.takeLeadInEnd
  repeat' split
  all_goals simp
@[simp] theorem State.takeLeadInEnd_now (s : State) (z : Zone) : (s.takeLeadInEnd z).now = s.now := by
  unfold State.takeLeadInEnd
  repeat' split
  all_goals simp
@[simp] theorem State.takeLeadInEnd_sources (s : State) (z : Zone) : (s.takeLeadInEnd z).sources = s.sources := by
  unfold State.takeLeadInEnd
  repeat' split
  all_goals simp
@[simp] theorem State.takeLeadInEnd_plans (s : State) (z : Zone) : (s.takeLeadInEnd z).plans = s.plans := by
  unfold State.takeLeadInEnd
  repeat' split
  all_goals simp
@[simp] theorem State.takeLeadInEnd_msg (s : State) (z : Zone) : (s.takeLeadInEnd z).msg = s.msg := by
  unfold State.takeLeadInEnd
  repeat' split
  all_goals simp
@[simp] theorem State.takeLeadInEnd_receiver (s : State) (z : Zone) : (s.takeLeadInEnd z).receiver = s.receiver := by
  unfold State.takeLeadInEnd
  repeat' split
  all_goals simp
@[simp] theorem State.takeLeadInEnd_out (s : State) (z : Zone) : (s.takeLeadInEnd z).out = s.out := by
  unfold State.takeLeadInEnd
  repeat' split
  all_goals simp

@[simp] theorem State.takeRetryEnd_pending (s : State) : s.takeRetryEnd.pending = s.pending := by
  unfold State.takeRetryEnd
  repeat' split
  all_goals rfl
@[simp] theorem State.takeRetryEnd_inReset (s : State) : s.takeRetryEnd.inReset = s.inReset := by
  unfold State.takeRetryEnd
  repeat' split
  all_goals rfl
@[simp] theorem State.takeRetryEnd_address (s : State) : s.takeRetryEnd.address = s.address := by
  unfold State.takeRetryEnd
  repeat' split
  all_goals rfl
@[simp] theorem State.takeRetryEnd_due (s : State) : s.takeRetryEnd.due = s.due := by
  unfold State.takeRetryEnd
  repeat' split
  all_goals rfl
@[simp] theorem State.takeRetryEnd_now (s : State) : s.takeRetryEnd.now = s.now := by
  unfold State.takeRetryEnd
  repeat' split
  all_goals rfl
@[simp] theorem State.takeRetryEnd_calls (s : State) : s.takeRetryEnd.calls = s.calls := by
  unfold State.takeRetryEnd
  repeat' split
  all_goals rfl
@[simp] theorem State.takeRetryEnd_zones (s : State) : s.takeRetryEnd.zones = s.zones := by
  unfold State.takeRetryEnd
  repeat' split
  all_goals rfl
@[simp] theorem State.takeRetryEnd_mixers (s : State) : s.takeRetryEnd.mixers = s.mixers := by
  unfold State.takeRetryEnd
  repeat' split
  all_goals rfl
@[simp] theorem State.takeRetryEnd_sources (s : State) : s.takeRetryEnd.sources = s.sources := by
  unfold State.takeRetryEnd
  repeat' split
  all_goals rfl
@[simp] theorem State.takeRetryEnd_plans (s : State) : s.takeRetryEnd.plans = s.plans := by
  unfold State.takeRetryEnd
  repeat' split
  all_goals rfl
@[simp] theorem State.takeRetryEnd_msg (s : State) : s.takeRetryEnd.msg = s.msg := by
  unfold State.takeRetryEnd
  repeat' split
  all_goals rfl
@[simp] theorem State.takeRetryEnd_receiver (s : State) : s.takeRetryEnd.receiver = s.receiver := by
  unfold State.takeRetryEnd
  repeat' split
  all_goals rfl
@[simp] theorem State.takeRetryEnd_out (s : State) : s.takeRetryEnd.out = s.out := by
  unfold State.takeRetryEnd
  repeat' split
  all_goals rfl

@[simp] theorem State.takeCopyEnd_pending (s : State) : s.takeCopyEnd.pending = s.pending := by
  unfold State.takeCopyEnd
  repeat' split
  all_goals rfl
@[simp] theorem State.takeCopyEnd_inReset (s : State) : s.takeCopyEnd.inReset = s.inReset := by
  unfold State.takeCopyEnd
  repeat' split
  all_goals rfl
@[simp] theorem State.takeCopyEnd_address (s : State) : s.takeCopyEnd.address = s.address := by
  unfold State.takeCopyEnd
  repeat' split
  all_goals rfl
@[simp] theorem State.takeCopyEnd_due (s : State) : s.takeCopyEnd.due = s.due := by
  unfold State.takeCopyEnd
  repeat' split
  all_goals rfl
@[simp] theorem State.takeCopyEnd_now (s : State) : s.takeCopyEnd.now = s.now := by
  unfold State.takeCopyEnd
  repeat' split
  all_goals rfl
@[simp] theorem State.takeCopyEnd_calls (s : State) : s.takeCopyEnd.calls = s.calls := by
  unfold State.takeCopyEnd
  repeat' split
  all_goals rfl
@[simp] theorem State.takeCopyEnd_zones (s : State) : s.takeCopyEnd.zones = s.zones := by
  unfold State.takeCopyEnd
  repeat' split
  all_goals rfl
@[simp] theorem State.takeCopyEnd_mixers (s : State) : s.takeCopyEnd.mixers = s.mixers := by
  unfold State.takeCopyEnd
  repeat' split
  all_goals rfl
@[simp] theorem State.takeCopyEnd_sources (s : State) : s.takeCopyEnd.sources = s.sources := by
  unfold State.takeCopyEnd
  repeat' split
  all_goals rfl
@[simp] theorem State.takeCopyEnd_msg (s : State) : s.takeCopyEnd.msg = s.msg := by
  unfold State.takeCopyEnd
  repeat' split
  all_goals rfl
@[simp] theorem State.takeCopyEnd_receiver (s : State) : s.takeCopyEnd.receiver = s.receiver := by
  unfold State.takeCopyEnd
  repeat' split
  all_goals rfl
@[simp] theorem State.takeCopyEnd_out (s : State) : s.takeCopyEnd.out = s.out := by
  unfold State.takeCopyEnd
  repeat' split
  all_goals rfl

@[simp] theorem State.takeFadeEnd_pending (s : State) (z : Zone) (l : LaneId) : (s.takeFadeEnd z l).pending = s.pending := rfl
@[simp] theorem State.takeFadeEnd_inReset (s : State) (z : Zone) (l : LaneId) : (s.takeFadeEnd z l).inReset = s.inReset := rfl
@[simp] theorem State.takeFadeEnd_address (s : State) (z : Zone) (l : LaneId) : (s.takeFadeEnd z l).address = s.address := rfl
@[simp] theorem State.takeFadeEnd_due (s : State) (z : Zone) (l : LaneId) : (s.takeFadeEnd z l).due = s.due := rfl
@[simp] theorem State.takeFadeEnd_now (s : State) (z : Zone) (l : LaneId) : (s.takeFadeEnd z l).now = s.now := rfl
@[simp] theorem State.takeFadeEnd_calls (s : State) (z : Zone) (l : LaneId) : (s.takeFadeEnd z l).calls = s.calls := rfl
@[simp] theorem State.takeFadeEnd_zones (s : State) (z : Zone) (l : LaneId) : (s.takeFadeEnd z l).zones = s.zones := rfl
@[simp] theorem State.takeFadeEnd_sources (s : State) (z : Zone) (l : LaneId) : (s.takeFadeEnd z l).sources = s.sources := rfl
@[simp] theorem State.takeFadeEnd_plans (s : State) (z : Zone) (l : LaneId) : (s.takeFadeEnd z l).plans = s.plans := rfl
@[simp] theorem State.takeFadeEnd_notices (s : State) (z : Zone) (l : LaneId) : (s.takeFadeEnd z l).notices = s.notices := rfl
@[simp] theorem State.takeFadeEnd_msg (s : State) (z : Zone) (l : LaneId) : (s.takeFadeEnd z l).msg = s.msg := rfl
@[simp] theorem State.takeFadeEnd_receiver (s : State) (z : Zone) (l : LaneId) : (s.takeFadeEnd z l).receiver = s.receiver := rfl
@[simp] theorem State.takeFadeEnd_out (s : State) (z : Zone) (l : LaneId) : (s.takeFadeEnd z l).out = s.out := rfl

@[simp] theorem State.takeChimeEnd_pending (s : State) (z : Zone) : (s.takeChimeEnd z).pending = s.pending := rfl
@[simp] theorem State.takeChimeEnd_inReset (s : State) (z : Zone) : (s.takeChimeEnd z).inReset = s.inReset := rfl
@[simp] theorem State.takeChimeEnd_address (s : State) (z : Zone) : (s.takeChimeEnd z).address = s.address := rfl
@[simp] theorem State.takeChimeEnd_due (s : State) (z : Zone) : (s.takeChimeEnd z).due = s.due := rfl
@[simp] theorem State.takeChimeEnd_now (s : State) (z : Zone) : (s.takeChimeEnd z).now = s.now := rfl
@[simp] theorem State.takeChimeEnd_calls (s : State) (z : Zone) : (s.takeChimeEnd z).calls = s.calls := rfl
@[simp] theorem State.takeChimeEnd_zones (s : State) (z : Zone) : (s.takeChimeEnd z).zones = s.zones := rfl
@[simp] theorem State.takeChimeEnd_sources (s : State) (z : Zone) : (s.takeChimeEnd z).sources = s.sources := rfl
@[simp] theorem State.takeChimeEnd_plans (s : State) (z : Zone) : (s.takeChimeEnd z).plans = s.plans := rfl
@[simp] theorem State.takeChimeEnd_notices (s : State) (z : Zone) : (s.takeChimeEnd z).notices = s.notices := rfl
@[simp] theorem State.takeChimeEnd_msg (s : State) (z : Zone) : (s.takeChimeEnd z).msg = s.msg := rfl
@[simp] theorem State.takeChimeEnd_receiver (s : State) (z : Zone) : (s.takeChimeEnd z).receiver = s.receiver := rfl
@[simp] theorem State.takeChimeEnd_out (s : State) (z : Zone) : (s.takeChimeEnd z).out = s.out := rfl

@[simp] theorem State.takeToneEnd_pending (s : State) (g : Tone) : (s.takeToneEnd g).pending = s.pending := rfl
@[simp] theorem State.takeToneEnd_inReset (s : State) (g : Tone) : (s.takeToneEnd g).inReset = s.inReset := rfl
@[simp] theorem State.takeToneEnd_address (s : State) (g : Tone) : (s.takeToneEnd g).address = s.address := rfl
@[simp] theorem State.takeToneEnd_due (s : State) (g : Tone) : (s.takeToneEnd g).due = s.due := rfl
@[simp] theorem State.takeToneEnd_now (s : State) (g : Tone) : (s.takeToneEnd g).now = s.now := rfl
@[simp] theorem State.takeToneEnd_calls (s : State) (g : Tone) : (s.takeToneEnd g).calls = s.calls := rfl
@[simp] theorem State.takeToneEnd_zones (s : State) (g : Tone) : (s.takeToneEnd g).zones = s.zones := rfl
@[simp] theorem State.takeToneEnd_mixers (s : State) (g : Tone) : (s.takeToneEnd g).mixers = s.mixers := rfl
@[simp] theorem State.takeToneEnd_plans (s : State) (g : Tone) : (s.takeToneEnd g).plans = s.plans := rfl
@[simp] theorem State.takeToneEnd_notices (s : State) (g : Tone) : (s.takeToneEnd g).notices = s.notices := rfl
@[simp] theorem State.takeToneEnd_msg (s : State) (g : Tone) : (s.takeToneEnd g).msg = s.msg := rfl
@[simp] theorem State.takeToneEnd_receiver (s : State) (g : Tone) : (s.takeToneEnd g).receiver = s.receiver := rfl
@[simp] theorem State.takeToneEnd_out (s : State) (g : Tone) : (s.takeToneEnd g).out = s.out := rfl

@[simp] theorem State.clearCounters_pending (s : State) : s.clearCounters.pending = s.pending := rfl
@[simp] theorem State.clearCounters_inReset (s : State) : s.clearCounters.inReset = s.inReset := rfl
@[simp] theorem State.clearCounters_address (s : State) : s.clearCounters.address = s.address := rfl
@[simp] theorem State.clearCounters_due (s : State) : s.clearCounters.due = s.due := rfl
@[simp] theorem State.clearCounters_now (s : State) : s.clearCounters.now = s.now := rfl
@[simp] theorem State.clearCounters_zones (s : State) : s.clearCounters.zones = s.zones := rfl
@[simp] theorem State.clearCounters_mixers (s : State) : s.clearCounters.mixers = s.mixers := rfl
@[simp] theorem State.clearCounters_sources (s : State) : s.clearCounters.sources = s.sources := rfl
@[simp] theorem State.clearCounters_plans (s : State) : s.clearCounters.plans = s.plans := rfl
@[simp] theorem State.clearCounters_out (s : State) : s.clearCounters.out = s.out := rfl

@[simp] theorem State.nodeReset_pending (s : State) : s.nodeReset.pending = s.pending := rfl
@[simp] theorem State.nodeReset_inReset (s : State) : s.nodeReset.inReset = s.inReset := rfl
@[simp] theorem State.nodeReset_address (s : State) : s.nodeReset.address = s.address := rfl
@[simp] theorem State.nodeReset_now (s : State) : s.nodeReset.now = s.now := rfl
@[simp] theorem State.nodeReset_sources (s : State) : s.nodeReset.sources = s.sources := rfl
@[simp] theorem State.nodeReset_receiver (s : State) : s.nodeReset.receiver = s.receiver := rfl
@[simp] theorem State.nodeReset_out (s : State) : s.nodeReset.out = s.out := rfl

@[simp] theorem State.beginReply_pending (s : State) : s.beginReply.pending = s.pending := by
  unfold State.beginReply
  repeat' split
  all_goals rfl
@[simp] theorem State.beginReply_inReset (s : State) : s.beginReply.inReset = s.inReset := by
  unfold State.beginReply
  repeat' split
  all_goals rfl
@[simp] theorem State.beginReply_address (s : State) : s.beginReply.address = s.address := by
  unfold State.beginReply
  repeat' split
  all_goals rfl
@[simp] theorem State.beginReply_due (s : State) : s.beginReply.due = s.due := by
  unfold State.beginReply
  repeat' split
  all_goals rfl
@[simp] theorem State.beginReply_now (s : State) : s.beginReply.now = s.now := by
  unfold State.beginReply
  repeat' split
  all_goals rfl
@[simp] theorem State.beginReply_calls (s : State) : s.beginReply.calls = s.calls := by
  unfold State.beginReply
  repeat' split
  all_goals rfl
@[simp] theorem State.beginReply_zones (s : State) : s.beginReply.zones = s.zones := by
  unfold State.beginReply
  repeat' split
  all_goals rfl
@[simp] theorem State.beginReply_mixers (s : State) : s.beginReply.mixers = s.mixers := by
  unfold State.beginReply
  repeat' split
  all_goals rfl
@[simp] theorem State.beginReply_sources (s : State) : s.beginReply.sources = s.sources := by
  unfold State.beginReply
  repeat' split
  all_goals rfl
@[simp] theorem State.beginReply_plans (s : State) : s.beginReply.plans = s.plans := by
  unfold State.beginReply
  repeat' split
  all_goals rfl
@[simp] theorem State.beginReply_notices (s : State) : s.beginReply.notices = s.notices := by
  unfold State.beginReply
  repeat' split
  all_goals rfl
@[simp] theorem State.beginReply_receiver (s : State) : s.beginReply.receiver = s.receiver := by
  unfold State.beginReply
  repeat' split
  all_goals rfl
@[simp] theorem State.beginReply_out (s : State) : s.beginReply.out = s.out := by
  unfold State.beginReply
  repeat' split
  all_goals rfl

@[simp] theorem State.beginNotice_pending (s : State) (held : Bool) : (s.beginNotice held).pending = s.pending := by
  unfold State.beginNotice
  repeat' split
  all_goals rfl
@[simp] theorem State.beginNotice_inReset (s : State) (held : Bool) : (s.beginNotice held).inReset = s.inReset := by
  unfold State.beginNotice
  repeat' split
  all_goals rfl
@[simp] theorem State.beginNotice_address (s : State) (held : Bool) : (s.beginNotice held).address = s.address := by
  unfold State.beginNotice
  repeat' split
  all_goals rfl
@[simp] theorem State.beginNotice_due (s : State) (held : Bool) : (s.beginNotice held).due = s.due := by
  unfold State.beginNotice
  repeat' split
  all_goals rfl
@[simp] theorem State.beginNotice_now (s : State) (held : Bool) : (s.beginNotice held).now = s.now := by
  unfold State.beginNotice
  repeat' split
  all_goals rfl
@[simp] theorem State.beginNotice_calls (s : State) (held : Bool) : (s.beginNotice held).calls = s.calls := by
  unfold State.beginNotice
  repeat' split
  all_goals rfl
@[simp] theorem State.beginNotice_zones (s : State) (held : Bool) : (s.beginNotice held).zones = s.zones := by
  unfold State.beginNotice
  repeat' split
  all_goals rfl
@[simp] theorem State.beginNotice_mixers (s : State) (held : Bool) : (s.beginNotice held).mixers = s.mixers := by
  unfold State.beginNotice
  repeat' split
  all_goals rfl
@[simp] theorem State.beginNotice_sources (s : State) (held : Bool) : (s.beginNotice held).sources = s.sources := by
  unfold State.beginNotice
  repeat' split
  all_goals rfl
@[simp] theorem State.beginNotice_plans (s : State) (held : Bool) : (s.beginNotice held).plans = s.plans := by
  unfold State.beginNotice
  repeat' split
  all_goals rfl
@[simp] theorem State.beginNotice_receiver (s : State) (held : Bool) : (s.beginNotice held).receiver = s.receiver := by
  unfold State.beginNotice
  repeat' split
  all_goals rfl
@[simp] theorem State.beginNotice_out (s : State) (held : Bool) : (s.beginNotice held).out = s.out := by
  unfold State.beginNotice
  repeat' split
  all_goals rfl

@[simp] theorem State.arbitrate_pending (s : State) : s.arbitrate.pending = s.pending := by
  simp [State.arbitrate]
@[simp] theorem State.arbitrate_inReset (s : State) : s.arbitrate.inReset = s.inReset := by
  simp [State.arbitrate]
@[simp] theorem State.arbitrate_address (s : State) : s.arbitrate.address = s.address := by
  simp [State.arbitrate]
@[simp] theorem State.arbitrate_due (s : State) : s.arbitrate.due = s.due := by
  simp [State.arbitrate]
@[simp] theorem State.arbitrate_now (s : State) : s.arbitrate.now = s.now := by
  simp [State.arbitrate]
@[simp] theorem State.arbitrate_calls (s : State) : s.arbitrate.calls = s.calls := by
  simp [State.arbitrate]
@[simp] theorem State.arbitrate_zones (s : State) : s.arbitrate.zones = s.zones := by
  simp [State.arbitrate]
@[simp] theorem State.arbitrate_mixers (s : State) : s.arbitrate.mixers = s.mixers := by
  simp [State.arbitrate]
@[simp] theorem State.arbitrate_sources (s : State) : s.arbitrate.sources = s.sources := by
  simp [State.arbitrate]
@[simp] theorem State.arbitrate_plans (s : State) : s.arbitrate.plans = s.plans := by
  simp [State.arbitrate]
@[simp] theorem State.arbitrate_receiver (s : State) : s.arbitrate.receiver = s.receiver := by
  simp [State.arbitrate]
@[simp] theorem State.arbitrate_out (s : State) : s.arbitrate.out = s.out := by
  simp [State.arbitrate]

@[simp] theorem State.controlStage_pending (s : State) : s.controlStage.pending = s.pending := by
  unfold State.controlStage
  repeat' split
  all_goals simp
@[simp] theorem State.controlStage_inReset (s : State) : s.controlStage.inReset = s.inReset := by
  unfold State.controlStage
  repeat' split
  all_goals simp
@[simp] theorem State.controlStage_address (s : State) : s.controlStage.address = s.address := by
  unfold State.controlStage
  repeat' split
  all_goals simp
@[simp] theorem State.controlStage_due (s : State) : s.controlStage.due = s.due := by
  unfold State.controlStage
  repeat' split
  all_goals simp
@[simp] theorem State.controlStage_now (s : State) : s.controlStage.now = s.now := by
  unfold State.controlStage
  repeat' split
  all_goals simp
@[simp] theorem State.controlStage_calls (s : State) : s.controlStage.calls = s.calls := by
  unfold State.controlStage
  repeat' split
  all_goals simp
@[simp] theorem State.controlStage_zones (s : State) : s.controlStage.zones = s.zones := by
  unfold State.controlStage
  repeat' split
  all_goals simp
@[simp] theorem State.controlStage_mixers (s : State) : s.controlStage.mixers = s.mixers := by
  unfold State.controlStage
  repeat' split
  all_goals simp
@[simp] theorem State.controlStage_sources (s : State) : s.controlStage.sources = s.sources := by
  unfold State.controlStage
  repeat' split
  all_goals simp
@[simp] theorem State.controlStage_plans (s : State) : s.controlStage.plans = s.plans := by
  unfold State.controlStage
  repeat' split
  all_goals simp
@[simp] theorem State.controlStage_receiver (s : State) : s.controlStage.receiver = s.receiver := by
  unfold State.controlStage
  repeat' split
  all_goals simp

@[simp] theorem State.observeStage_pending (s : State) : s.observeStage.pending = s.pending := rfl
@[simp] theorem State.observeStage_inReset (s : State) : s.observeStage.inReset = s.inReset := rfl
@[simp] theorem State.observeStage_address (s : State) : s.observeStage.address = s.address := rfl
@[simp] theorem State.observeStage_now (s : State) : s.observeStage.now = s.now := rfl
@[simp] theorem State.observeStage_calls (s : State) : s.observeStage.calls = s.calls := rfl
@[simp] theorem State.observeStage_zones (s : State) : s.observeStage.zones = s.zones := rfl
@[simp] theorem State.observeStage_mixers (s : State) : s.observeStage.mixers = s.mixers := rfl
@[simp] theorem State.observeStage_plans (s : State) : s.observeStage.plans = s.plans := rfl
@[simp] theorem State.observeStage_notices (s : State) : s.observeStage.notices = s.notices := rfl
@[simp] theorem State.observeStage_msg (s : State) : s.observeStage.msg = s.msg := rfl
@[simp] theorem State.observeStage_receiver (s : State) : s.observeStage.receiver = s.receiver := rfl
@[simp] theorem State.observeStage_out (s : State) : s.observeStage.out = s.out := rfl

@[simp] theorem State.rampStage_pending (s : State) : s.rampStage.pending = s.pending := rfl
@[simp] theorem State.rampStage_inReset (s : State) : s.rampStage.inReset = s.inReset := rfl
@[simp] theorem State.rampStage_address (s : State) : s.rampStage.address = s.address := rfl
@[simp] theorem State.rampStage_now (s : State) : s.rampStage.now = s.now := rfl
@[simp] theorem State.rampStage_calls (s : State) : s.rampStage.calls = s.calls := rfl
@[simp] theorem State.rampStage_zones (s : State) : s.rampStage.zones = s.zones := rfl
@[simp] theorem State.rampStage_sources (s : State) : s.rampStage.sources = s.sources := rfl
@[simp] theorem State.rampStage_plans (s : State) : s.rampStage.plans = s.plans := rfl
@[simp] theorem State.rampStage_notices (s : State) : s.rampStage.notices = s.notices := rfl
@[simp] theorem State.rampStage_msg (s : State) : s.rampStage.msg = s.msg := rfl
@[simp] theorem State.rampStage_receiver (s : State) : s.rampStage.receiver = s.receiver := rfl
@[simp] theorem State.rampStage_out (s : State) : s.rampStage.out = s.out := rfl

@[simp] theorem State.sendFrame_pending (s : State) : s.sendFrame.pending = s.pending := rfl
@[simp] theorem State.sendFrame_inReset (s : State) : s.sendFrame.inReset = s.inReset := rfl
@[simp] theorem State.sendFrame_address (s : State) : s.sendFrame.address = s.address := rfl
@[simp] theorem State.sendFrame_now (s : State) : s.sendFrame.now = s.now := rfl
@[simp] theorem State.sendFrame_calls (s : State) : s.sendFrame.calls = s.calls := rfl
@[simp] theorem State.sendFrame_zones (s : State) : s.sendFrame.zones = s.zones := rfl
@[simp] theorem State.sendFrame_plans (s : State) : s.sendFrame.plans = s.plans := rfl
@[simp] theorem State.sendFrame_notices (s : State) : s.sendFrame.notices = s.notices := rfl
@[simp] theorem State.sendFrame_msg (s : State) : s.sendFrame.msg = s.msg := rfl
@[simp] theorem State.sendFrame_receiver (s : State) : s.sendFrame.receiver = s.receiver := rfl

@[simp] theorem State.abandonPointed_pending (s : State) : s.abandonPointed.pending = s.pending := by
  unfold State.abandonPointed
  repeat' split
  all_goals rfl
@[simp] theorem State.abandonPointed_inReset (s : State) : s.abandonPointed.inReset = s.inReset := by
  unfold State.abandonPointed
  repeat' split
  all_goals rfl
@[simp] theorem State.abandonPointed_address (s : State) : s.abandonPointed.address = s.address := by
  unfold State.abandonPointed
  repeat' split
  all_goals rfl
@[simp] theorem State.abandonPointed_due (s : State) : s.abandonPointed.due = s.due := by
  unfold State.abandonPointed
  repeat' split
  all_goals rfl
@[simp] theorem State.abandonPointed_now (s : State) : s.abandonPointed.now = s.now := by
  unfold State.abandonPointed
  repeat' split
  all_goals rfl
@[simp] theorem State.abandonPointed_calls (s : State) : s.abandonPointed.calls = s.calls := by
  unfold State.abandonPointed
  repeat' split
  all_goals rfl
@[simp] theorem State.abandonPointed_zones (s : State) : s.abandonPointed.zones = s.zones := by
  unfold State.abandonPointed
  repeat' split
  all_goals rfl
@[simp] theorem State.abandonPointed_mixers (s : State) : s.abandonPointed.mixers = s.mixers := by
  unfold State.abandonPointed
  repeat' split
  all_goals rfl
@[simp] theorem State.abandonPointed_sources (s : State) : s.abandonPointed.sources = s.sources := by
  unfold State.abandonPointed
  repeat' split
  all_goals rfl
@[simp] theorem State.abandonPointed_msg (s : State) : s.abandonPointed.msg = s.msg := by
  unfold State.abandonPointed
  repeat' split
  all_goals rfl
@[simp] theorem State.abandonPointed_receiver (s : State) : s.abandonPointed.receiver = s.receiver := by
  unfold State.abandonPointed
  repeat' split
  all_goals rfl
@[simp] theorem State.abandonPointed_out (s : State) : s.abandonPointed.out = s.out := by
  unfold State.abandonPointed
  repeat' split
  all_goals rfl

@[simp] theorem State.enterSearch_pending (s : State) : s.enterSearch.pending = s.pending := by
  simp [State.enterSearch]
@[simp] theorem State.enterSearch_inReset (s : State) : s.enterSearch.inReset = s.inReset := by
  simp [State.enterSearch]
@[simp] theorem State.enterSearch_address (s : State) : s.enterSearch.address = s.address := by
  simp [State.enterSearch]
@[simp] theorem State.enterSearch_due (s : State) : s.enterSearch.due = s.due := by
  simp [State.enterSearch]
@[simp] theorem State.enterSearch_now (s : State) : s.enterSearch.now = s.now := by
  simp [State.enterSearch]
@[simp] theorem State.enterSearch_calls (s : State) : s.enterSearch.calls = s.calls := by
  simp [State.enterSearch]
@[simp] theorem State.enterSearch_zones (s : State) : s.enterSearch.zones = s.zones := by
  simp [State.enterSearch]
@[simp] theorem State.enterSearch_mixers (s : State) : s.enterSearch.mixers = s.mixers := by
  simp [State.enterSearch]
@[simp] theorem State.enterSearch_sources (s : State) : s.enterSearch.sources = s.sources := by
  simp [State.enterSearch]
@[simp] theorem State.enterSearch_receiver (s : State) : s.enterSearch.receiver = s.receiver := by
  simp [State.enterSearch]
@[simp] theorem State.enterSearch_out (s : State) : s.enterSearch.out = s.out := by
  simp [State.enterSearch]

@[simp] theorem State.openBoundary_pending (s : State) (f : Frame) (u : Bool) (e : List Task) : (s.openBoundary f u e).pending = s.pending := rfl
@[simp] theorem State.openBoundary_inReset (s : State) (f : Frame) (u : Bool) (e : List Task) : (s.openBoundary f u e).inReset = s.inReset := rfl
@[simp] theorem State.openBoundary_address (s : State) (f : Frame) (u : Bool) (e : List Task) : (s.openBoundary f u e).address = s.address := rfl
@[simp] theorem State.openBoundary_mixers (s : State) (f : Frame) (u : Bool) (e : List Task) : (s.openBoundary f u e).mixers = s.mixers := rfl
@[simp] theorem State.openBoundary_sources (s : State) (f : Frame) (u : Bool) (e : List Task) : (s.openBoundary f u e).sources = s.sources := rfl
@[simp] theorem State.openBoundary_plans (s : State) (f : Frame) (u : Bool) (e : List Task) : (s.openBoundary f u e).plans = s.plans := rfl
@[simp] theorem State.openBoundary_msg (s : State) (f : Frame) (u : Bool) (e : List Task) : (s.openBoundary f u e).msg = s.msg := rfl
@[simp] theorem State.openBoundary_receiver (s : State) (f : Frame) (u : Bool) (e : List Task) : (s.openBoundary f u e).receiver = s.receiver := rfl
@[simp] theorem State.openBoundary_out (s : State) (f : Frame) (u : Bool) (e : List Task) :
    (s.openBoundary f u e).out = { s.out with switched := none } := rfl

@[simp] theorem State.assertReset_pending (s : State) : s.assertReset.pending = s.pending := rfl
@[simp] theorem State.assertReset_address (s : State) : s.assertReset.address = s.address := rfl
@[simp] theorem State.assertReset_now (s : State) : s.assertReset.now = s.now := rfl
@[simp] theorem State.assertReset_mixers (s : State) : s.assertReset.mixers = s.mixers := rfl
@[simp] theorem State.assertReset_sources (s : State) : s.assertReset.sources = s.sources := rfl

end Sys2Proof.Machine
end

