-- ==== Sys2Proof/Laws/Boundary.lean ====
section
/-! SUPPORT. A frame boundary: what its opening counts and makes due, and the whole of a boundary with nothing in its
order, on a state with nothing due. -/

namespace Sys2Proof.Machine

/-! ### What falls due -/

/-- What the opening of a boundary makes due before its stages. -/
def State.falling (s : State) (usable : Bool) (number : BitVec 16) : List Task :=
  s.calls.expiries ++ leadInExpiries s.zones ++ retryExpiries s.notices.timer ++ copyExpiries s.plans
    ++ s.plans.switchDue usable number

/-- The tasks of which a boundary makes one due besides its events. -/
def isStage : Task → Bool
  | .linkLocked => true
  | .linkSearch => true
  | .copyStep => true
  | .observe => true
  | .ramps => true
  | .control => true
  | .build => true
  | _ => false

/-- The deadline expiries that fall due (R16). -/
theorem CallTable.mem_expiries (t : CallTable) (x : Task) :
    x ∈ t.expiries ↔ ∃ r ∈ t.admission, ∃ c, t.call? r = some c ∧
      ((x = .waitEnd r ∧ c.wait = some 1) ∨ (x = .durationEnd r ∧ c.duration = some 1) ∨
        (x = .holdEnd r ∧ c.hold = some 1)) := by
  unfold CallTable.expiries
  rw [List.mem_flatMap]
  refine exists_congr fun r => and_congr_right fun _ => ?_
  cases t.call? r with
  | none => simp
  | some c =>
    simp only [Call.expiries, atLastFrame, List.mem_append, beq_iff_eq, Option.some.injEq, exists_eq_left']
    split_ifs <;> simp_all [or_assoc]

/-- The lead-ins that expire (R54). -/
theorem mem_leadInExpiries (zones : Table 16 ZoneRecord) (x : Task) :
    x ∈ leadInExpiries zones ↔ ∃ z r, x = .leadInEnd z ∧ (zones.get z).state = .leadIn r 1 := by
  simp only [leadInExpiries, List.mem_filterMap, List.mem_finRange, true_and]
  refine exists_congr fun z => ?_
  cases h : (zones.get z).state with
  | idle => simp [ZoneState.remaining?]
  | onAir r => simp [ZoneState.remaining?]
  | leadIn r n =>
    simp only [ZoneState.remaining?]
    by_cases hn : n = 1 <;> simp [hn, eq_comm]

/-- When the retry timer expires (R135). -/
theorem mem_retryExpiries (t : Option RetryTimer) (x : Task) :
    x ∈ retryExpiries t ↔ x = .retryEnd ∧ ∃ n, t = some ⟨n, false⟩ ∧ n ≤ 1 := by
  cases t with
  | none => simp [retryExpiries]
  | some t =>
    obtain ⟨n, h⟩ := t
    cases h <;> by_cases hn : n ≤ 1 <;> simp [retryExpiries, RetryTimer.ends, hn]

/-- When the last copy step falls due (R117). -/
theorem mem_copyExpiries (p : PlanStore) (x : Task) : x ∈ copyExpiries p ↔ x = .copyEnd ∧ p.copied = some 83 := by
  unfold copyExpiries
  split_ifs with h <;> simp [h]

/-- When a pending switch falls due (R119). -/
theorem mem_switchDue (p : PlanStore) (usable : Bool) (number : BitVec 16) (x : Task) :
    x ∈ p.switchDue usable number ↔ x = .switchTake ∧ (p.pending = some ⟨none⟩ ∨
      ∃ point, p.pending = some ⟨some point⟩ ∧ usable = true ∧ (number - point).toNat < 32768) := by
  unfold PlanStore.switchDue
  split
  · rename_i h; simp [h]
  · rename_i h; simp [h]
  · rename_i point h
    by_cases hu : usable = true <;> simp [h, hu, reached, and_comm]

/-- When one of the first 83 copy steps falls due (R117). -/
theorem mem_copySteps (p : PlanStore) (x : Task) :
    x ∈ copySteps p ↔ x = .copyStep ∧ ∃ k, p.copied = some k ∧ k < 83 := by
  unfold copySteps
  cases h : p.copied with
  | none => simp
  | some k => by_cases hk : k < 83 <;> simp [hk]

/-- Everything that the opening of a boundary makes due before its stages. -/
theorem State.mem_falling (s : State) (usable : Bool) (number : BitVec 16) (x : Task) :
    x ∈ s.falling usable number ↔
      (∃ r ∈ s.calls.admission, ∃ c, s.calls.call? r = some c ∧
        ((x = .waitEnd r ∧ c.wait = some 1) ∨ (x = .durationEnd r ∧ c.duration = some 1) ∨
          (x = .holdEnd r ∧ c.hold = some 1))) ∨
      (∃ z r, x = .leadInEnd z ∧ (s.zones.get z).state = .leadIn r 1) ∨
      (x = .retryEnd ∧ ∃ n, s.notices.timer = some ⟨n, false⟩ ∧ n ≤ 1) ∨
      (x = .copyEnd ∧ s.plans.copied = some 83) ∨
      (x = .switchTake ∧ (s.plans.pending = some ⟨none⟩ ∨
        ∃ point, s.plans.pending = some ⟨some point⟩ ∧ usable = true ∧ (number - point).toNat < 32768)) := by
  simp only [State.falling, List.mem_append, CallTable.mem_expiries, mem_leadInExpiries, mem_retryExpiries,
    mem_copyExpiries, mem_switchDue, or_assoc]

/-- What falls due, case by case. -/
theorem State.falling_due (s : State) (usable : Bool) (number : BitVec 16) :
    FallDue s usable number (s.falling usable number) := by
  refine ⟨?_, ?_, ?_, ?_, ?_, ?_, ?_⟩ <;> intros <;> rw [State.mem_falling] <;> simp

/-- No stage is among the events that fall due. -/
theorem State.falling_noStage (s : State) (usable : Bool) (number : BitVec 16) (x : Task)
    (h : x ∈ s.falling usable number) :
    isStage x = false := by
  rw [State.mem_falling] at h
  rcases h with ⟨r, -, c, -, ⟨rfl, -⟩ | ⟨rfl, -⟩ | ⟨rfl, -⟩⟩ | ⟨z, r, rfl, -⟩ | ⟨rfl, -⟩ | ⟨rfl, -⟩ | ⟨rfl, -⟩ <;> rfl

/-- More tasks that are none of these make no difference. -/
theorem FallDue.more {s : State} {usable : Bool} {number : BitVec 16} {a b : List Task} (h : FallDue s usable number a)
    (hab : ∀ x, (x ∈ b ↔ x ∈ a) ∨ isStage x = true ∨ (∃ t, x = .keyUp t) ∨ (∃ t, x = .keyDown t) ∨ (∃ t, x = .loss t) ∨
      (∃ t k, x = .presence t k) ∨ ∃ z l, x = .fadeEnd z l) :
    FallDue s usable number b := by
  obtain ⟨a1, a2, a3, a4, a5, a6, a7⟩ := h
  refine ⟨fun r => ?_, fun r => ?_, fun r => ?_, fun z => ?_, ?_, ?_, ?_⟩
  · rw [← a1]; have := hab (.waitEnd r); simpa [isStage] using this
  · rw [← a2]; have := hab (.holdEnd r); simpa [isStage] using this
  · rw [← a3]; have := hab (.durationEnd r); simpa [isStage] using this
  · rw [← a4]; have := hab (.leadInEnd z); simpa [isStage] using this
  · rw [← a5]; have := hab .retryEnd; simpa [isStage] using this
  · rw [← a6]; have := hab .copyEnd; simpa [isStage] using this
  · rw [← a7]; have := hab .switchTake; simpa [isStage] using this

/-- The opening counts every deadline and lead-in (R16, R54). -/
theorem State.openBoundary_counted (s : State) (f : Frame) (u : Bool) (e : List Task) :
    Counted s (s.openBoundary f u e) := by
  refine ⟨rfl, fun i => ?_, fun z r n h => ?_, fun z h => ?_⟩
  · simp only [State.openBoundary, CallTable.tick, Table.get_update]; rfl
  · simp only [State.openBoundary, Table.get_update, ZoneRecord.tick, h]
  · simp only [State.openBoundary, Table.get_update, ZoneRecord.tick]
    cases hz : (s.zones.get z).state with
    | idle => rfl
    | onAir r => rfl
    | leadIn r n => rw [hz] at h; exact absurd rfl h

/-- The tasks that stand due once a boundary is open. -/
theorem State.openBoundary_due (s : State) (f : Frame) (u : Bool) (e : List Task) :
    (s.openBoundary f u e).due = s.due ++ (s.falling u f.number ++ e ++ copySteps s.plans ++ boundaryStages) := by
  simp only [State.openBoundary, State.falling, List.append_assoc]


/-! ### Taking tasks -/

/-- A report of an observation is one of these tasks (R89, R90). -/
theorem TrunkRecord.observe_reports (r : TrunkRecord) (k : Trunk) (p q : Bool) (x : Task)
    (h : x ∈ (r.observe k p q).2) :
    (∃ q, x = .presence k q) ∨ x = .keyUp k ∨ x = .keyDown k ∨ x = .loss (trunkSource k) := by
  unfold TrunkRecord.observe at h
  revert h
  cases r.state <;> dsimp only <;> split_ifs <;> simp <;> rintro rfl <;> simp

/-- The fades of a zone that complete (R72). -/
theorem Mixer.mem_fadeEnds (m : Mixer) (z : Zone) (x : Task) :
    x ∈ m.fadeEnds z ↔ ∃ l, x = .fadeEnd z l ∧ (m.lane l).fadeReached = true := by
  have : ∀ a b : Bool,
      x ∈ (if a then [Task.fadeEnd z .foreground] else []) ++ (if b then [Task.fadeEnd z .background] else []) ↔
      (x = .fadeEnd z .foreground ∧ a = true) ∨ (x = .fadeEnd z .background ∧ b = true) := by
    intro a b
    cases a <;> cases b <;> simp
  rw [show m.fadeEnds z = _ from rfl, Mixer.fadeEnds, this]
  constructor
  · rintro (⟨h, k⟩ | ⟨h, k⟩)
    · exact ⟨.foreground, h, k⟩
    · exact ⟨.background, h, k⟩
  · rintro ⟨l, h, k⟩
    cases l
    · exact .inl ⟨h, k⟩
    · exact .inr ⟨h, k⟩

/-- Taking a task that is due. -/
theorem State.perform_due {s : State} {t : Task} (h : t ∈ s.due) :
    s.perform t = State.effect t { s with due := s.due.erase t } := by
  simp [State.perform, State.ifDue, h]

/-- A task that is not due is passed over. -/
theorem State.perform_undue {s : State} {t : Task} (h : t ∉ s.due) : s.perform t = s := by
  simp [State.perform, State.ifDue, h]


/-- Taking a task that stands due after others. -/
theorem State.perform_at {s : State} {t : Task} {l r : List Task} (hs : s.due = l ++ t :: r) (h : t ∉ l) :
    State.perform t s = State.effect t { s with due := l ++ r } := by
  rw [State.perform_due (by rw [hs]; simp), hs, List.erase_append_right _ h, List.erase_cons_head]

/-- The control stage does not read what is due. -/
theorem State.controlStage_withDue (x : State) (d : List Task) :
    State.controlStage { x with due := d } = { x.controlStage with due := d } := by
  have hr : ({ x with due := d } : State).beginReply = { x.beginReply with due := d } := by
    unfold State.beginReply
    show (if (x.transitOnly || !x.msg.mayBegin) = true then _ else _) = _
    split_ifs
    · rfl
    · show (match x.msg.replies with | [] => _ | r :: rest => _) = _
      cases x.msg.replies <;> rfl
  have hn : ∀ x : State, ({ x with due := d } : State).beginNotice false = { x.beginNotice false with due := d } := by
    intro x
    unfold State.beginNotice
    show (if (x.transitOnly || !x.msg.mayBegin || !x.msg.replies.isEmpty || !x.notices.enabled
      || !x.notices.anyUnsent) = true then _ else _) = _
    split_ifs <;> rfl
  have ha : ({ x with due := d } : State).arbitrate = { x.arbitrate with due := d } := by
    unfold State.arbitrate
    rw [hr, hn]
  unfold State.controlStage
  rw [ha]
  show (if x.transitOnly = true then _ else _) = _
  split_ifs <;> rfl

/-- What the control stage sends and leaves depends on the message block, the notice block, the node address and the
frame handed on. -/
theorem State.controlStage_congr {a b : State} (h1 : a.msg = b.msg) (h2 : a.notices = b.notices)
    (h3 : a.address = b.address) (h4 : a.now = b.now) :
    a.controlStage.msg = b.controlStage.msg ∧ a.controlStage.notices = b.controlStage.notices ∧
      a.controlStage.out.words = b.controlStage.out.words := by
  have ht : a.transitOnly = b.transitOnly := by unfold State.transitOnly; rw [h3]
  have hr : a.beginReply.msg = b.beginReply.msg ∧ a.beginReply.notices = b.beginReply.notices := by
    unfold State.beginReply
    rw [h1, ht]
    split_ifs
    · exact ⟨h1, h2⟩
    · cases b.msg.replies <;> simp [h1, h2, h3]
  have hra : ∀ s : State, s.beginReply.address = s.address := by
    intro s
    unfold State.beginReply
    split_ifs
    · rfl
    · cases s.msg.replies <;> rfl
  have hrt : a.beginReply.transitOnly = b.beginReply.transitOnly := by
    unfold State.transitOnly; rw [hra, hra, h3]
  have hn : a.arbitrate.msg = b.arbitrate.msg ∧ a.arbitrate.notices = b.arbitrate.notices := by
    unfold State.arbitrate State.beginNotice
    rw [hr.1, hr.2, hrt, hra, hra, h3]
    split_ifs
    · exact hr
    · exact ⟨rfl, rfl⟩
  have hx : ∀ s : State, s.arbitrate.now = s.now ∧ s.arbitrate.address = s.address := by
    intro s
    have : s.beginReply.now = s.now := by
      unfold State.beginReply
      split_ifs
      · rfl
      · cases s.msg.replies <;> rfl
    unfold State.arbitrate State.beginNotice
    split_ifs
    · exact ⟨this, hra s⟩
    · exact ⟨this, hra s⟩
  unfold State.controlStage
  rw [ht]
  split_ifs
  · exact ⟨h1, h2, by show a.now.frame.words = _; rw [h4]⟩
  · dsimp only
    rw [hn.1, hn.2, (hx a).1, (hx a).2, (hx b).1, (hx b).2, h3, h4]
    exact ⟨rfl, rfl, rfl⟩

/-- The last five closing stages, with nothing but events due beside them. -/
theorem State.calmStages (x : State) (F : List Task) (hF : ∀ t, isStage t = true → t ∉ F)
    (hx : x.due = F ++ (copySteps x.plans ++ boundaryStages)) :
    x.performAll [.copyStep, .observe, .ramps, .control, .build] =
      (State.rampStage (State.observeStage
        { x with plans := x.plans.copyStep, due := F })).controlStage.sendFrame := by
  have hB : x.perform .copyStep = { x with plans := x.plans.copyStep, due := F ++ boundaryStages } := by
    cases hk : x.plans.copied with
    | none =>
      have h0 : copySteps x.plans = [] := by simp [copySteps, hk]
      have h1 : x.plans.copyStep = x.plans := by simp [PlanStore.copyStep, hk]
      rw [h0, List.nil_append] at hx
      rw [State.perform_undue, h1, ← hx]
      rw [hx]; simp [boundaryStages]; exact hF _ rfl
    | some k =>
      by_cases hlt : k < 83
      · have h0 : copySteps x.plans = [.copyStep] := by simp [copySteps, hk, hlt]
        rw [State.perform_at (l := F) (r := boundaryStages) (by rw [hx, h0]; rfl) (hF _ rfl)]
        rfl
      · have h0 : copySteps x.plans = [] := by simp [copySteps, hk, hlt]
        have h1 : x.plans.copyStep = x.plans := by simp [PlanStore.copyStep, hk, hlt]
        rw [h0, List.nil_append] at hx
        rw [State.perform_undue, h1, ← hx]
        rw [hx]; simp [boundaryStages]; exact hF _ rfl
  show State.perform .build (State.perform .control (State.perform .ramps
    (State.perform .observe (x.perform .copyStep)))) = _
  rw [hB]
  generalize x.plans.copyStep = p
  generalize hy : ({ x with plans := p, due := F } : State) = y
  have hy' : ∀ d, ({ x with plans := p, due := d } : State) = { y with due := d } := by subst hy; intro d; rfl
  rw [hy']
  have hd : y.due = F := by subst hy; rfl
  clear hB hy hy' hx
  -- observations
  let R := (List.finRange 48).flatMap fun t =>
    ((y.sources.trunks.get t).observe t (observedPresent y.plan y.now t) (observedKeyed y.plan y.now t)).2
  have hR : ∀ t, isStage t = true → t ∉ R := by
    intro t ht hm
    obtain ⟨k, -, hm⟩ := List.mem_flatMap.1 hm
    rcases TrunkRecord.observe_reports _ _ _ _ _ hm with ⟨q, rfl⟩ | rfl | rfl | rfl <;> cases ht
  have h1 : State.perform .observe { y with due := F ++ boundaryStages } =
      { y.observeStage with due := (F ++ [.ramps, .control, .build]) ++ R } := by
    rw [State.perform_at (l := F) (r := [.ramps, .control, .build]) rfl (hF _ rfl)]
    rfl
  let G := (List.finRange 16).flatMap fun z => (y.observeStage.rampStage.mixers.get z).fadeEnds z
  have hG : ∀ t, isStage t = true → t ∉ G := by
    intro t ht hm
    obtain ⟨z, -, hm⟩ := List.mem_flatMap.1 hm
    obtain ⟨l, rfl, -⟩ := (Mixer.mem_fadeEnds _ _ _).1 hm
    cases ht
  have h2 : State.perform .ramps { y.observeStage with due := (F ++ [.ramps, .control, .build]) ++ R } =
      { y.observeStage.rampStage with due := ((F ++ [.control, .build]) ++ R) ++ G } := by
    rw [State.perform_at (l := F) (r := [.control, .build] ++ R) (by simp) (hF _ rfl)]
    rw [show (F ++ [Task.control, .build]) ++ R = F ++ ([.control, .build] ++ R) by simp]
    rfl
  have h3 : State.perform .control { y.observeStage.rampStage with due := ((F ++ [.control, .build]) ++ R) ++ G } =
      { y.observeStage.rampStage.controlStage with due := F ++ .build :: (R ++ G) } := by
    rw [State.perform_at (l := F) (r := .build :: (R ++ G)) (by simp) (hF _ rfl)]
    show State.controlStage _ = _
    rw [State.controlStage_withDue, State.controlStage_withDue]
  rw [h1, h2, h3, State.perform_at (l := F) (r := R ++ G) rfl (hF _ rfl)]
  have h4 : ∀ z : State, Task.ramps ∉ z.due → Task.control ∉ z.due → State.effect .build z = z.sendFrame := by
    intro z hr hc
    show State.buildStage z = _
    unfold State.buildStage State.ifDue
    rw [if_neg (c := z.due.contains .ramps = true) (by simpa using hr), if_neg (by simpa using hc)]
  have h5 : F ++ (R ++ G) = y.observeStage.rampStage.controlStage.due := by
    have : y.observeStage.rampStage.due = F ++ (R ++ G) := by
      show (y.due ++ R) ++ G = _
      rw [hd, List.append_assoc]
    rw [← this, State.controlStage_due]
  rw [h4]
  · rw [h5]
  · show Task.ramps ∉ F ++ (R ++ G)
    simp only [List.mem_append, not_or]; exact ⟨hF _ rfl, hR _ rfl, hG _ rfl⟩
  · show Task.control ∉ F ++ (R ++ G)
    simp only [List.mem_append, not_or]; exact ⟨hF _ rfl, hR _ rfl, hG _ rfl⟩


/-- What an entry to LOCKED or SEARCH leaves. -/
def entryOf (entered : List Task) (o : State) : State :=
  if entered = [.linkLocked] then o.notify (.link true) else if entered = [.linkSearch] then o.enterSearch else o

/-- A boundary with nothing in its order, on a state with nothing due: what an entry to LOCKED or SEARCH does, a copy
step, the observations, the ramp steps, the control positions and the build. -/
theorem State.calmBoundary (s : State) (frame : Frame) (usable : Bool) (entered : List Task) (hd : s.due = [])
    (he : entered = [] ∨ entered = [.linkLocked] ∨ entered = [.linkSearch]) (told : State)
    (ht : told = entryOf entered (s.openBoundary frame usable entered)) :
    s.boundary frame usable entered [] =
      (State.rampStage (State.observeStage
        { told with plans := told.plans.copyStep, due := s.falling usable frame.number })).controlStage.sendFrame := by
  have hF : ∀ t, isStage t = true → t ∉ s.falling usable frame.number := fun t ht hm => by
    rw [s.falling_noStage _ _ _ hm] at ht; cases ht
  have hdue : (s.openBoundary frame usable entered).due =
      s.falling usable frame.number ++ (entered ++ (copySteps s.plans ++ boundaryStages)) := by
    rw [s.openBoundary_due, hd]; simp only [List.nil_append, List.append_assoc]
  have hpl : (s.openBoundary frame usable entered).plans = s.plans := rfl
  have hbo : s.boundary frame usable entered [] = (s.openBoundary frame usable entered).performAll closingStages := rfl
  generalize s.openBoundary frame usable entered = o at *
  generalize s.falling usable frame.number = F at *
  have hc : ∀ t, t = Task.linkLocked ∨ t = .linkSearch → t ∉ copySteps s.plans ++ boundaryStages := by
    intro t ht hm
    rw [List.mem_append, mem_copySteps] at hm
    rcases ht with rfl | rfl <;> rcases hm with ⟨h, -⟩ | h
    · cases h
    · simp [boundaryStages] at h
    · cases h
    · simp [boundaryStages] at h
  have hA : (o.perform .linkLocked).perform .linkSearch =
      { told with due := F ++ (copySteps s.plans ++ boundaryStages) } := by
    rcases he with rfl | rfl | rfl
    · rw [show told = o from ht]
      rw [List.nil_append] at hdue
      have : ∀ t, t = Task.linkLocked ∨ t = .linkSearch → t ∉ o.due := by
        intro t ht; rw [hdue, List.mem_append, not_or]; exact ⟨hF _ (by rcases ht with rfl | rfl <;> rfl), hc t ht⟩
      rw [State.perform_undue (this _ (.inl rfl)), State.perform_undue (this _ (.inr rfl)), ← hdue]
    · rw [show told = o.notify (.link true) from ht, State.perform_at hdue (hF _ rfl), State.perform_undue]
      · rfl
      · show Task.linkSearch ∉ F ++ (copySteps s.plans ++ boundaryStages)
        rw [List.mem_append]; exact not_or.2 ⟨hF _ rfl, hc .linkSearch (.inr rfl)⟩
    · rw [show told = o.enterSearch from ht]
      have hn : Task.linkLocked ∉ o.due := by
        rw [hdue, List.mem_append]
        exact not_or.2 ⟨hF _ rfl, fun h => by
          rw [List.mem_append] at h
          rcases h with h | h
          · simp at h
          · exact hc .linkLocked (.inl rfl) h⟩
      rw [State.perform_undue hn, State.perform_at hdue (hF _ rfl)]
      show State.enterSearch _ = _
      simp only [State.enterSearch, State.notify, State.abandonPointed]
      rcases o.plans.pending with _ | ⟨_ | p⟩ <;> rfl
  have hp : copySteps told.plans = copySteps s.plans := by
    rw [ht, ← hpl]
    unfold entryOf
    split_ifs
    · rfl
    · simp only [State.enterSearch, State.notify, State.abandonPointed]
      rcases h : o.plans.pending with _ | ⟨_ | p⟩ <;> rfl
    · rfl
  have hq := State.calmStages { told with due := F ++ (copySteps s.plans ++ boundaryStages) } F hF
    (by show _ = F ++ (copySteps told.plans ++ _); rw [hp])
  rw [← hA] at hq
  have hX : State.performAll closingStages o =
      ((o.perform .linkLocked).perform .linkSearch).performAll [.copyStep, .observe, .ramps, .control, .build] := rfl
  rw [hbo, hX, hq]
  simp only [hA]

/-- What an entry leaves alone. -/
theorem entryOf_eq (entered : List Task) (o : State) :
    entryOf entered o = { o with notices := (entryOf entered o).notices, msg := (entryOf entered o).msg,
                                 plans := { o.plans with pending := (entryOf entered o).plans.pending } } := by
  unfold entryOf
  split_ifs
  · rfl
  · simp only [State.enterSearch, State.notify, State.abandonPointed]
    rcases h : o.plans.pending with _ | ⟨_ | p⟩ <;> simp
  · rfl

/-- A copy step leaves the live bank and a pending switch alone (R117). -/
theorem PlanStore.copyStep_live (p : PlanStore) :
    p.copyStep.live = p.live ∧ p.copyStep.livePlan = p.livePlan ∧ p.copyStep.pending = p.pending := by
  unfold PlanStore.copyStep
  cases p.copied with
  | none => exact ⟨rfl, rfl, rfl⟩
  | some k =>
    dsimp only
    split_ifs
    · rcases p with ⟨a, b, l, c, d⟩
      cases l <;> exact ⟨rfl, rfl, rfl⟩
    · exact ⟨rfl, rfl, rfl⟩

/-- What a copy step does to the other bank (R117). -/
theorem PlanStore.copyStep_other (p : PlanStore) :
  (∀ k, p.copied = some k → k < 83 → p.copyStep.copied = some (k + 1) ∧
    p.copyStep.otherBank = { p.otherBank with plan := p.otherBank.plan.copyEntry p.livePlan k }) ∧
  ((∀ k, p.copied = some k → 83 ≤ k) → p.copyStep = p) := by
  unfold PlanStore.copyStep
  cases h : p.copied with
  | none => simp
  | some k =>
    refine ⟨?_, fun h => ?_⟩
    · intro k' hk hl
      injection hk with hk; subst hk
      simp only [if_pos hl]
      rcases p with ⟨a, b, l, c, d⟩
      cases l <;> simp [PlanStore.copyOne, PlanStore.setBank, PlanStore.otherBank, PlanStore.bank, BankNo.other]
    · have := h k rfl
      simp only [if_neg (Nat.not_lt.2 this)]

/-- A boundary with nothing in its order, on a state with nothing due, counts and takes everything (R16, R54, R72, R88,
R117, R119, R135, R181). -/
theorem State.boundary_taken (s s0 : State) (frame : Frame) (usable : Bool) (entered : List Task) (hd : s.due = [])
    (h0 : s = { s0 with receiver := s.receiver })
    (he : entered = [] ∨ entered = [.linkLocked] ∨ entered = [.linkSearch]) :
    let told := entryOf entered (s.openBoundary frame usable entered)
    ∃ u, s.boundary frame usable entered [] = u.sendFrame ∧ BoundaryTaken s0 u frame usable told.msg told.notices ∧
      u.plans.pending = told.plans.pending ∧ u.receiver = s.receiver := by
  intro told
  have hd0 : s0.due = [] := by rw [h0] at hd; exact hd
  have hcal := s.calmBoundary frame usable entered hd he told rfl
  have hfal : s.falling usable frame.number = s0.falling usable frame.number := by rw [h0]; rfl
  have hcnt : Counted s0 (s.openBoundary frame usable entered) := by
    have := s.openBoundary_counted frame usable entered
    rw [h0] at this ⊢; exact ⟨this.1, this.2, this.3, this.4⟩
  have htold := entryOf_eq entered (s.openBoundary frame usable entered)
  rw [show entryOf entered (s.openBoundary frame usable entered) = told from rfl] at htold
  rw [hfal] at hcal
  -- the fields of told
  have f1 : told.calls = (s.openBoundary frame usable entered).calls := by rw [htold]
  have f2 : told.zones = (s.openBoundary frame usable entered).zones := by rw [htold]
  have f3 : told.now = { frame := frame, usable := usable, rates := s0.plan.rates } := by rw [htold, h0]; rfl
  have f4 : told.sources = s0.sources := by rw [htold, h0]; rfl
  have f5 : told.mixers = s0.mixers := by rw [htold, h0]; rfl
  have f6 : told.plans = { s0.plans with pending := told.plans.pending } := by rw [htold, h0]; rfl
  have f7 : told.address = s0.address ∧ told.inReset = s0.inReset ∧ told.pending = s0.pending ∧
      told.out.next = s0.out.next ∧ told.receiver = s.receiver := by
    rw [htold, h0]; exact ⟨rfl, rfl, rfl, rfl, rfl⟩
  generalize told = t at *
  refine ⟨_, hcal, ?_, ?_, ?_⟩
  · obtain ⟨c1, c2, c3⟩ := PlanStore.copyStep_live t.plans
    obtain ⟨c4, c5⟩ := PlanStore.copyStep_other t.plans
    constructor
    · simp [f3]
    · exact ⟨by simp [f1]; exact hcnt.1, by simp [f1]; exact hcnt.2, by simp [f2]; exact hcnt.3, by simp [f2]; exact hcnt.4⟩
    · simp only [State.controlStage_due]
      refine (s0.falling_due usable frame.number).more fun x => ?_
      show (x ∈ (s0.falling usable frame.number ++ _) ++ _ ↔ _) ∨ _
      simp only [List.mem_append, List.mem_flatMap, List.mem_finRange, true_and]
      by_cases hx : ∃ k, x ∈ ((t.sources.trunks.get k).observe k
          (observedPresent t.plans.copyStep.livePlan t.now k) (observedKeyed t.plans.copyStep.livePlan t.now k)).2
      · obtain ⟨k, hx⟩ := hx
        right
        rcases TrunkRecord.observe_reports _ _ _ _ _ hx with ⟨q, rfl⟩ | rfl | rfl | rfl <;> simp
      · by_cases hy : ∃ z, x ∈ Mixer.fadeEnds z ((t.mixers.update fun z m => m.ramp (t.now.rates.get z)).get z)
        · obtain ⟨z, hy⟩ := hy
          obtain ⟨l, rfl, -⟩ := (Mixer.mem_fadeEnds _ _ _).1 hy
          right; simp
        · left
          constructor
          · rintro ((h | h) | h)
            · exact h
            · exact absurd h hx
            · exact absurd h hy
          · intro h; exact .inl (.inl h)
    · intro k hk hl
      simp
      have := c4 k (by rw [f6]; exact hk) hl
      rw [f6] at this ⊢
      exact this
    · intro h
      have := c5 (by rw [f6]; exact h)
      simp
      rw [this, f6]
      exact ⟨rfl, rfl⟩
    · simp
      rw [c1, c2, f6]
      exact ⟨rfl, rfl⟩
    · intro k
      have hpl : t.plans.copyStep.livePlan = s0.plan := by rw [c2, f6]; rfl
      have e1 : observedPresent s0.plan t.now k =
          ((if usable then (s0.plan.trunks.get k).slot.map frame.slots.get else none).any fun w => w.getLsbD 31) := by
        rw [f3]; simp only [observedPresent, observedSlot?, slotPresent]
        generalize (if usable = true then (s0.plan.trunks.get k).slot.map frame.slots.get else none) = q
        cases q <;> rfl
      have e2 : observedKeyed s0.plan t.now k =
          ((if usable then (s0.plan.trunks.get k).slot.map frame.slots.get else none).any
            fun w => w.getLsbD 31 && w.getLsbD 30) := by
        rw [f3]; simp only [observedKeyed, observedSlot?, slotPresent, slotKeyed]
        generalize (if usable = true then (s0.plan.trunks.get k).slot.map frame.slots.get else none) = q
        cases q <;> rfl
      dsimp only
      rw [← e1, ← e2, ← f4, ← hpl]
      refine ⟨?_, fun x hx => ?_⟩
      · simp only [State.controlStage_sources, State.rampStage_sources]
        simp only [State.observeStage, Table.get_tabulate]
        rfl
      · simp only [State.controlStage_due]
        show x ∈ (s0.falling usable frame.number ++ _) ++ _
        rw [List.mem_append, List.mem_append]
        exact .inl (.inr (List.mem_flatMap.2 ⟨k, List.mem_finRange k, hx⟩))
    · simp [State.observeStage, f4]
    · intro z l
      have hm : ∀ z, (State.rampStage (State.observeStage
          { t with plans := t.plans.copyStep, due := s0.falling usable frame.number })).mixers.get z =
            (s0.mixers.get z).ramp (s0.plan.zones.get z).ramp := by
        intro z
        simp only [State.rampStage, State.observeStage, Table.get_update, f5, f3, Plan.rates, Table.get_tabulate]
      simp only [State.controlStage_mixers, State.controlStage_due]
      refine ⟨by rw [hm]; cases l <;> rfl, by rw [hm]; rfl, ?_⟩
      show Task.fadeEnd z l ∈ (s0.falling usable frame.number ++ _) ++ _ ↔ _
      rw [List.mem_append, List.mem_append, List.mem_flatMap, List.mem_flatMap]
      constructor
      · rintro ((h | ⟨k, -, h⟩) | ⟨y, -, h⟩)
        · rw [State.mem_falling] at h; simp at h
        · rcases TrunkRecord.observe_reports _ _ _ _ _ h with ⟨q, h⟩ | h | h | h <;> cases h
        · obtain ⟨l', h1, h2⟩ := (Mixer.mem_fadeEnds _ _ _).1 h
          cases h1
          rw [Lane.fadeReached, Bool.and_eq_true, decide_eq_true_eq] at h2
          exact h2
      · intro h
        refine .inr ⟨z, List.mem_finRange z, (Mixer.mem_fadeEnds _ _ _).2 ⟨l, rfl, ?_⟩⟩
        rw [Lane.fadeReached, Bool.and_eq_true, decide_eq_true_eq]
        exact h
    · obtain ⟨g1, -, -, -, -⟩ := f7
      generalize hv : (State.rampStage (State.observeStage
        { t with plans := t.plans.copyStep, due := s0.falling usable frame.number })) = v
      have v1 : v.msg = t.msg := by rw [← hv]; rfl
      have v2 : v.notices = t.notices := by rw [← hv]; rfl
      have v3 : v.address = s0.address := by rw [← hv]; exact g1
      intro w
      exact State.controlStage_congr v1 v2 v3 (State.controlStage_now v).symm
    · refine ⟨by simp [f7], by simp [f7], by simp [f7], ?_⟩
      simp only [State.controlStage]
      split_ifs
      · simpa using f7.2.2.2.1
      · simpa using f7.2.2.2.1
  · simp [(PlanStore.copyStep_live t.plans).2.2]
  · simp [f7]

end Sys2Proof.Machine
end

