-- ==== Sys2Proof/Laws/Calls.lean ====
section
/-! SUPPORT. What the operations of the call table and the zone arbiters do to the calls, the zone records and the event's
log: one lemma per operation, then withdrawals, reports and evaluations (R22, R42, R48, R49, R57, R60). -/

namespace Sys2Proof.Machine

/-! ### The call table -/

/-- The calls after one is changed: its own reference names the changed call, every other names what it named. -/
theorem CallTable.call?_changeCall (t : CallTable) (r q : CallRef) (f : Call → Call) :
    (t.changeCall r f).call? q = if q = r then (t.call? r).map f else t.call? q := by
  unfold CallTable.changeCall
  cases h : t.call? r with
  | none =>
    dsimp only
    split
    · rename_i e; rw [e]; exact h
    · rfl
  | some c =>
    have hg : (t.records.get r.index).gen = r.gen := by
      unfold CallTable.call? at h; split at h
      · assumption
      · cases h
    simp only [CallTable.call?, Table.get_set]
    by_cases hi : r.index = q.index
    · rw [if_pos hi]
      by_cases hq : q = r
      · subst hq; simp
      · have hne : ¬ r.gen = q.gen := fun e => hq (by cases q; cases r; simp_all)
        rw [if_neg hne, if_neg hq, ← hi, hg, if_neg hne]
    · have hq : q ≠ r := fun e => hi (by rw [e])
      rw [if_neg hi, if_neg hq]

/-- The calls after one is freed: its reference names none, every other names what it named (R22). -/
theorem CallTable.call?_free (t : CallTable) (r q : CallRef) :
    (t.free r).call? q = if q = r then none else t.call? q := by
  unfold CallTable.free
  cases h : t.call? r with
  | none =>
    dsimp only
    split
    · rename_i e; rw [e]; exact h
    · rfl
  | some c =>
    have hg : (t.records.get r.index).gen = r.gen := by
      unfold CallTable.call? at h; split at h
      · assumption
      · cases h
    simp only [CallTable.call?, Table.get_set]
    by_cases hi : r.index = q.index
    · rw [if_pos hi]
      by_cases hq : q = r
      · subst hq; simp
      · have hne : ¬ r.gen = q.gen := fun e => hq (by cases q; cases r; simp_all)
        rw [if_neg hq, ← hi, hg, if_neg hne]
        split <;> rfl
    · have hq : q ≠ r := fun e => hi (by rw [e])
      rw [if_neg hi, if_neg hq]

/-- Changing a call leaves the admission list. -/
@[simp] theorem CallTable.changeCall_admission (t : CallTable) (r : CallRef) (f : Call → Call) :
    (t.changeCall r f).admission = t.admission := by
  unfold CallTable.changeCall; split <;> rfl

/-- A freed record stands at the next generation, and its reference has left the admission list (R22). -/
theorem CallTable.free_of_open {t : CallTable} {r : CallRef} {c : Call} (h : t.call? r = some c) :
    (t.free r).records.get r.index = ⟨r.gen + 1, none⟩ ∧ (t.free r).admission = t.admission.erase r := by
  simp [CallTable.free, h]

/-- A contender of a zone is on the admission list and an open call with the zone in its target set (R36). -/
theorem Event.mem_contenders {e : Event} {z : Zone} {r : CallRef} :
    r ∈ e.contenders z ↔ r ∈ e.calls.admission ∧ ∃ c, e.calls.call? r = some c ∧ ZoneSet.has c.target z = true := by
  simp only [Event.contenders, List.mem_filter]
  cases e.calls.call? r <;> simp

/-- The first of a list under a ranking is one of the list. -/
theorem firstRanked_mem {before : CallRef → CallRef → Bool} {l : List CallRef} {w : CallRef}
    (h : firstRanked before l = some w) : w ∈ l := by
  induction l generalizing w with
  | nil => cases h
  | cons a rest ih =>
    simp only [firstRanked] at h
    cases hb : firstRanked before rest with
    | none => rw [hb] at h; injection h with h; simp [h]
    | some b =>
      rw [hb] at h
      simp only at h
      split at h <;> injection h with h
      · subst h; exact List.mem_cons_of_mem _ (ih hb)
      · simp [h]

/-- The winner of a zone contends for it (R38). -/
theorem Event.top_contends {e : Event} {p : Plan} {z : Zone} {w : CallRef} (h : e.top p z = some w) :
    w ∈ e.contenders z := by
  have := firstRanked_mem h
  simp only [Event.eligible, List.mem_filter] at this
  exact this.1

/-! ### Events: withdrawals -/

/-- The calls of an event after one is changed. -/
theorem Event.call?_changeCall (e : Event) (r q : CallRef) (f : Call → Call) :
    (e.changeCall r f).calls.call? q = if q = r then (e.calls.call? r).map f else e.calls.call? q :=
  CallTable.call?_changeCall _ _ _ _

/-- A zone record from which a call has been withdrawn (R48, R49). -/
def ZoneRecord.without (zone : ZoneRecord) (r : CallRef) (src : Source) : ZoneRecord :=
  if zone.state.live? = some r then
    { zone with
      state := .idle, lastServed := some src
      stack := zone.stack.filter fun en => decide (en.call ≠ r) }
  else { zone with stack := zone.stack.filter fun en => decide (en.call ≠ r) }

/-- A withdrawn call is neither live nor on the stack. -/
theorem ZoneRecord.without_gone (zone : ZoneRecord) (r : CallRef) (src : Source) :
    (zone.without r src).state.live? ≠ some r ∧ ∀ en ∈ (zone.without r src).stack, en.call ≠ r := by
  unfold ZoneRecord.without
  split
  · simp [ZoneState.live?]
  · rename_i h
    simp [h]

/-- Everything a withdrawal from some zones does: their records lose the call, the call's granted and suspended sets lose
the zones, and nothing else of the event changes (R48, R49, R57). -/
theorem Event.foldl_withdraw (r : CallRef) (src : Source) (zs : List Zone) (e : Event) (c : Call)
    (hc : e.calls.call? r = some c) (hz : zs.Nodup) :
    let x := zs.foldl (Event.withdraw r src) e
    x = { e with calls := x.calls, zones := x.zones } ∧ x.calls.admission = e.calls.admission ∧
      (∃ d, x.calls.call? r = some d ∧ d = { c with granted := d.granted, suspended := d.suspended } ∧
        ∀ z, ZoneSet.has d.granted z = (ZoneSet.has c.granted z && decide (z ∉ zs)) ∧
          ZoneSet.has d.suspended z = (ZoneSet.has c.suspended z && decide (z ∉ zs))) ∧
      (∀ q, q ≠ r → x.calls.call? q = e.calls.call? q) ∧
      ∀ z, x.zones.get z = if z ∈ zs then (e.zones.get z).without r src else e.zones.get z := by
  induction zs generalizing e c with
  | nil => exact ⟨rfl, rfl, ⟨c, hc, rfl, by simp⟩, fun _ _ => rfl, by simp⟩
  | cons a rest ih =>
    obtain ⟨ha, hr⟩ := List.nodup_cons.1 hz
    have hcall : ∀ q, (Event.withdraw r src e a).calls.call? q =
        if q = r then some { c with
          granted := ZoneSet.remove c.granted a, suspended := ZoneSet.remove c.suspended a }
        else e.calls.call? q := by
      intro q
      unfold Event.withdraw
      rw [Event.call?_changeCall]
      simp [Event.changeZone, hc]
    have hzone : ∀ z, (Event.withdraw r src e a).zones.get z =
        if z = a then (e.zones.get z).without r src else e.zones.get z := by
      intro z
      show (e.zones.modify a _).get z = _
      rw [Table.get_modify]
      by_cases h : a = z
      · subst h; simp only [if_true, ZoneRecord.without]
      · rw [if_neg h, if_neg (fun e => h e.symm)]
    obtain ⟨h1, h2, ⟨d, h3, h4, h5⟩, h6, h7⟩ := ih (Event.withdraw r src e a) _ (by rw [hcall, if_pos rfl]) hr
    refine ⟨?_, ?_, ⟨d, h3, ?_, ?_⟩, ?_, ?_⟩
    · rw [List.foldl_cons, h1]; rfl
    · rw [List.foldl_cons, h2]; simp [Event.withdraw, Event.changeCall, Event.changeZone]
    · rw [h4]
    · intro z
      rw [(h5 z).1, (h5 z).2, ZoneSet.has_remove, ZoneSet.has_remove]
      by_cases h : z = a <;> by_cases h' : z ∈ rest <;> simp [h, h']
    · intro q hq
      rw [List.foldl_cons, h6 q hq, hcall, if_neg hq]
    · intro z
      rw [List.foldl_cons, h7, hzone]
      by_cases h : z = a
      · subst h; simp [ha]
      · simp [h]

/-- A new target set and the withdrawal from a set of zones, as the end of a call and a retarget begin (R22, R26): the call's
record, its zones' records, and nothing else. -/
theorem Event.retarget_withdraws (e : Event) (r : CallRef) (c : Call) (hc : e.calls.call? r = some c) (t m : ZoneSet) :
    let x := (ZoneSet.zones m).foldl (Event.withdraw r c.source) (e.changeCall r fun c => { c with target := t })
    x = { e with calls := x.calls, zones := x.zones } ∧ x.calls.admission = e.calls.admission ∧
      x.calls.call? r =
        some { c with target := t, granted := c.granted &&& ~~~ m, suspended := c.suspended &&& ~~~ m } ∧
      (∀ q, q ≠ r → x.calls.call? q = e.calls.call? q) ∧
      (∀ z, x.zones.get z =
        let zone := e.zones.get z
        if ZoneSet.has m z = true then
          if zone.state.live? = some r then
            { zone with
              state := .idle, lastServed := some c.source
              stack := zone.stack.filter fun en => decide (en.call ≠ r) }
          else { zone with stack := zone.stack.filter fun en => decide (en.call ≠ r) }
        else zone) := by
  have h0 : (e.changeCall r (fun c => { c with target := t })).calls.call? r = some { c with target := t } := by
    rw [Event.call?_changeCall, if_pos rfl, hc]; rfl
  obtain ⟨h1, h2, ⟨d, h3, h4, h5⟩, h6, h7⟩ := Event.foldl_withdraw r c.source (ZoneSet.zones m) _ _ h0 (ZoneSet.zones_nodup m)
  refine ⟨?_, ?_, ?_, ?_, ?_⟩
  · rw [h1]; rfl
  · rw [h2]; simp [Event.changeCall]
  · rw [h3, h4]
    have g : d.granted = c.granted &&& ~~~ m := ZoneSet.ext_has fun z => by rw [(h5 z).1, ZoneSet.has_without]
    have s : d.suspended = c.suspended &&& ~~~ m := ZoneSet.ext_has fun z => by rw [(h5 z).2, ZoneSet.has_without]
    rw [g, s]
  · intro q hq; rw [h6 q hq, Event.call?_changeCall, if_neg hq]
  · intro z; rw [h7]; simp only [ZoneSet.mem_zones, ZoneRecord.without]; rfl

/-! ### Events: reports -/

/-- The call a report concerns. -/
def Report.call : Report → CallRef
  | .grant r => r
  | .onAir r => r
  | .loss r _ _ => r

/-- A finished call changes no other call. -/
theorem Event.call?_finishCall (e : Event) (r q : CallRef) (cause : EndCause) :
    (e.finishCall r cause).calls.call? q = if q = r then none else e.calls.call? q := by
  unfold Event.finishCall
  cases h : e.calls.call? r with
  | none =>
    dsimp only
    split
    · rename_i k; rw [k]; exact h
    · rfl
  | some c => exact CallTable.call?_free _ _ _

/-- What the taking of a report never does: change a zone record, or a call that it does not concern (R60). -/
theorem Event.takeReport_frame (e : Event) (x : Report) :
    (e.takeReport x).zones = e.zones ∧ ∀ q, q ≠ x.call → (e.takeReport x).calls.call? q = e.calls.call? q := by
  cases x with
  | grant r =>
    refine ⟨rfl, fun q hq => ?_⟩
    simp only [Event.takeReport, Report.call] at hq ⊢
    rw [Event.call?_changeCall, if_neg hq]
  | onAir r =>
    simp only [Event.takeReport, Report.call, Event.speakMoment]
    split
    · exact ⟨rfl, fun _ _ => rfl⟩
    · split
      · exact ⟨rfl, fun _ _ => rfl⟩
      · exact ⟨rfl, fun q hq => (Event.call?_changeCall e r q _).trans (if_neg hq)⟩
  | loss r z reason =>
    simp only [Event.takeReport, Report.call, Event.loseZone]
    split
    · exact ⟨rfl, fun _ _ => rfl⟩
    · split
      · refine ⟨?_, fun q hq => ?_⟩
        · unfold Event.finishCall; split <;> rfl
        · rw [Event.call?_finishCall, if_neg hq]
          exact (Event.call?_changeCall e r q _).trans (if_neg hq)
      · exact ⟨rfl, fun q hq => (Event.call?_changeCall e r q _).trans (if_neg hq)⟩

/-- Reports taken one after another change no zone record, and no call that none of them concerns (R60). -/
theorem Event.takeReports_frame (xs : List Report) (e : Event) :
    (xs.foldl Event.takeReport e).zones = e.zones ∧
      ∀ q, (∀ x ∈ xs, q ≠ x.call) → (xs.foldl Event.takeReport e).calls.call? q = e.calls.call? q := by
  induction xs generalizing e with
  | nil => exact ⟨rfl, fun _ _ => rfl⟩
  | cons x rest ih =>
    have h := Event.takeReport_frame e x
    have k := ih (e.takeReport x)
    refine ⟨k.1.trans h.1, fun q hq => ?_⟩
    rw [List.foldl_cons, k.2 q (fun y hy => hq y (by simp [hy])), h.2 q (hq x (by simp))]

/-! ### Evaluations -/

/-- Everything a grant does (R44, R57): the winner is live on the zone and off its stack, its granted set gains the zone
and its suspended set loses it, and nothing else of calls and zones changes; every report concerns the winner. -/
theorem Event.grantZone_spec (e : Event) (z : Zone) (w : CallRef) (c : Call) (hc : e.calls.call? w = some c) :
    (∃ st, ZoneState.live? st = some w ∧ (e.grantZone z w).1.zones =
      e.zones.set z { e.zones.get z with
        state := st, stack := (e.zones.get z).stack.filter fun en => decide (en.call ≠ w) }) ∧
    (∀ q, (e.grantZone z w).1.calls.call? q =
      if q = w then
        some { c with granted := ZoneSet.add c.granted z, suspended := ZoneSet.remove c.suspended z }
      else e.calls.call? q) ∧
    (e.grantZone z w).1.calls.admission = e.calls.admission ∧
    ∀ x ∈ (e.grantZone z w).2, x.call = w := by
  unfold Event.grantZone
  simp only [hc]
  refine ⟨⟨_, ?_, rfl⟩, ?_, ?_, ?_⟩
  · split
    · rename_i en _; cases en.resume <;> rfl
    · unfold freshState; split <;> rfl
  · intro q
    exact (Event.call?_changeCall _ _ _ _).trans (by simp [Event.changeZone, hc])
  · simp [Event.changeCall, Event.changeZone]
  · intro x hx
    unfold grantReports at hx
    split at hx <;> simp at hx
    · rcases hx with hx | hx <;> rw [hx] <;> rfl
    · rw [hx]; rfl
    · rw [hx]; rfl

/-- Everything the leaving of a live call does (R45 to R47, R57): the zone is IDLE; under RESUME the call is pushed, a full
stack losing its bottom entry; the sets of the calls concerned follow; no other call and no other zone changes, and
every report concerns the call that left or the one evicted. -/
theorem Event.displace_spec (e : Event) (z : Zone) (l : CallRef) (reason : LossReason) (c : Call)
    (hc : e.calls.call? l = some c) (hl : ∀ en ∈ (e.zones.get z).stack, en.call ≠ l) :
    let zone := e.zones.get z
    let evicted := if c.captured.preempt = .resume then (pushEntry zone.stack ⟨l, zone.state.resumePhase⟩).2 else none
    (e.displace z l reason).1.zones =
      e.zones.set z { zone with
        state := .idle
        stack := if c.captured.preempt = .resume then (pushEntry zone.stack ⟨l, zone.state.resumePhase⟩).1
          else zone.stack } ∧
    (e.displace z l reason).1.calls.admission = e.calls.admission ∧
    (∀ q, (e.displace z l reason).1.calls.call? q =
      if q = l then
        some { c with
          granted := ZoneSet.remove c.granted z
          suspended := if c.captured.preempt = .resume then ZoneSet.add c.suspended z else c.suspended }
      else if evicted.map StackEntry.call = some q then
        (e.calls.call? q).map fun d => { d with suspended := ZoneSet.remove d.suspended z }
      else e.calls.call? q) ∧
    ∀ x ∈ (e.displace z l reason).2, x.call = l ∨ evicted.map StackEntry.call = some x.call := by
  unfold Event.displace
  simp only [hc]
  cases hp : c.captured.preempt with
  | drop =>
    refine ⟨by simp [Event.changeCall, Event.changeZone, Table.modify], by simp [Event.changeCall, Event.changeZone], ?_, ?_⟩
    · intro q
      refine (Event.call?_changeCall _ _ _ _).trans ?_
      simp [Event.changeZone, hc]
    · intro x hx
      simp at hx
      left; rw [hx]; rfl
  | resume =>
    simp only [if_true]
    cases hx : (pushEntry (e.zones.get z).stack ⟨l, (e.zones.get z).state.resumePhase⟩).2 with
    | none =>
      refine ⟨by simp [Event.changeCall, Event.changeZone, Table.modify], by simp [Event.changeCall, Event.changeZone], ?_, by simp⟩
      intro q
      refine (Event.call?_changeCall _ _ _ _).trans ?_
      simp [Event.changeZone, hc]
    | some x =>
      have hne : x.call ≠ l := by
        apply hl
        unfold pushEntry at hx
        split at hx
        · cases hx
        · exact List.mem_of_getLast? hx
      refine ⟨by simp [Event.changeCall, Event.changeZone, Table.modify], by simp [Event.changeCall, Event.changeZone], ?_, ?_⟩
      · intro q
        refine (Event.call?_changeCall _ _ _ _).trans ?_
        rw [Event.call?_changeCall, Event.call?_changeCall]
        by_cases h1 : q = x.call
        · subst h1
          simp [Event.changeZone, hne]
        · by_cases h2 : q = l
          · simp [h2, Event.changeZone, hc, hne.symm]
          · simp [h1, h2, Event.changeZone, Ne.symm h1]
      · intro y hy
        simp at hy
        right; rw [hy]; rfl

/-- What the leaving of a live call never does: change another zone, this zone's restriction or last served source, or a
call that is neither live nor stacked there. -/
theorem Event.displace_frame (e : Event) (z : Zone) (l : CallRef) (reason : LossReason) :
    (∀ y, y ≠ z → (e.displace z l reason).1.zones.get y = e.zones.get y) ∧
    ((e.displace z l reason).1.zones.get z).restriction = (e.zones.get z).restriction ∧
    ((e.displace z l reason).1.zones.get z).state = .idle ∧
    ∀ r, r ≠ l → (∀ en ∈ (e.zones.get z).stack, en.call ≠ r) →
      (e.displace z l reason).1.calls.call? r = e.calls.call? r ∧
      (∀ en ∈ ((e.displace z l reason).1.zones.get z).stack, en.call ≠ r) ∧
      ∀ x ∈ (e.displace z l reason).2, x.call ≠ r := by
  have other : ∀ (f : ZoneRecord → ZoneRecord) (y : Zone), y ≠ z → (e.zones.modify z f).get y = e.zones.get y :=
    fun f y h => by rw [Table.get_modify, if_neg (Ne.symm h)]
  have same : ∀ f : ZoneRecord → ZoneRecord, (e.zones.modify z f).get z = f (e.zones.get z) :=
    fun f => by rw [Table.get_modify, if_pos rfl]
  have pushed : ∀ (st : List StackEntry) (en x : StackEntry) (r : CallRef), (∀ a ∈ st, a.call ≠ r) → en.call ≠ r →
      (∀ a ∈ (pushEntry st en).1, a.call ≠ r) ∧ ((pushEntry st en).2 = some x → x.call ≠ r) := by
    intro st en x r h1 h2
    unfold pushEntry
    split
    · exact ⟨by simpa [h2] using h1, by simp⟩
    · refine ⟨?_, fun h => h1 x (List.mem_of_getLast? h)⟩
      intro a ha
      rcases List.mem_cons.1 ha with ha | ha
      · rw [ha]; exact h2
      · exact h1 a (List.dropLast_subset _ ha)
  unfold Event.displace
  cases hc : e.calls.call? l with
  | none =>
    simp only [Event.changeZone]
    refine ⟨other _, by rw [same], by rw [same], fun r hr hs => ⟨trivial, ?_, by simp⟩⟩
    rw [same]; exact hs
  | some c =>
    simp only
    cases hp : c.captured.preempt with
    | drop =>
      simp only [Event.changeZone, Event.changeCall]
      refine ⟨other _, by rw [same], by rw [same], fun r hr hs => ⟨?_, ?_, ?_⟩⟩
      · rw [CallTable.call?_changeCall, if_neg hr]
      · rw [same]; exact hs
      · simp [Report.call, Ne.symm hr]
    | resume =>
      simp only
      cases hx : (pushEntry (e.zones.get z).stack ⟨l, (e.zones.get z).state.resumePhase⟩).2 with
      | none =>
        simp only [Event.changeZone, Event.changeCall]
        refine ⟨other _, by rw [same], by rw [same], fun r hr hs => ⟨?_, ?_, by simp⟩⟩
        · rw [CallTable.call?_changeCall, if_neg hr]
        · rw [same]; exact (pushed _ _ ⟨l, .onAir⟩ r hs (Ne.symm hr)).1
      | some x =>
        simp only [Event.changeZone, Event.changeCall]
        refine ⟨other _, by rw [same], by rw [same], fun r hr hs => ?_⟩
        have hxr : x.call ≠ r := (pushed _ _ x r hs (Ne.symm hr)).2 hx
        refine ⟨?_, ?_, ?_⟩
        · rw [CallTable.call?_changeCall, if_neg hxr.symm, CallTable.call?_changeCall, if_neg hr]
        · rw [same]; exact (pushed _ _ x r hs (Ne.symm hr)).1
        · simp [Report.call, hxr]

/-- What the decision of an evaluation never does: change another zone, this zone's restriction, or a call that neither
contends nor is live or stacked there; and such a call stays off the zone (R42). -/
theorem Event.decideZone_frame (e : Event) (p : Plan) (z : Zone) :
    (∀ y, y ≠ z → (e.decideZone p z).1.zones.get y = e.zones.get y) ∧
    ((e.decideZone p z).1.zones.get z).restriction = (e.zones.get z).restriction ∧
    ∀ r, r ∉ e.contenders z → (e.zones.get z).state.live? ≠ some r → (∀ en ∈ (e.zones.get z).stack, en.call ≠ r) →
      (e.decideZone p z).1.calls.call? r = e.calls.call? r ∧
      ((e.decideZone p z).1.zones.get z).state.live? ≠ some r ∧
      (∀ en ∈ ((e.decideZone p z).1.zones.get z).stack, en.call ≠ r) ∧
      ∀ x ∈ (e.decideZone p z).2, x.call ≠ r := by
  have granted : ∀ (d : Event) (w : CallRef), (∃ c, d.calls.call? w = some c) →
      (∀ y, y ≠ z → (d.grantZone z w).1.zones.get y = d.zones.get y) ∧
      ((d.grantZone z w).1.zones.get z).restriction = (d.zones.get z).restriction ∧
      ∀ r, r ≠ w → (∀ en ∈ (d.zones.get z).stack, en.call ≠ r) →
        (d.grantZone z w).1.calls.call? r = d.calls.call? r ∧
        ((d.grantZone z w).1.zones.get z).state.live? ≠ some r ∧
        (∀ en ∈ ((d.grantZone z w).1.zones.get z).stack, en.call ≠ r) ∧ ∀ x ∈ (d.grantZone z w).2, x.call ≠ r := by
    rintro d w ⟨c, hc⟩
    obtain ⟨⟨st, h1, h2⟩, h3, -, h4⟩ := Event.grantZone_spec d z w c hc
    refine ⟨fun y hy => ?_, ?_, fun r hr hs => ⟨?_, ?_, ?_, ?_⟩⟩
    · rw [h2, Table.get_set_other _ _ (Ne.symm hy)]
    · rw [h2, Table.get_set_same]
    · rw [h3, if_neg hr]
    · rw [h2, Table.get_set_same]
      simp only [h1]
      intro h; injection h with h; exact hr h.symm
    · rw [h2, Table.get_set_same]
      intro en hen
      exact hs en (List.mem_filter.1 hen).1
    · intro x hx
      rw [h4 x hx]
      exact Ne.symm hr
  unfold Event.decideZone
  cases ht : e.top p z with
  | none =>
    cases hl : (e.zones.get z).state.live? with
    | none => exact ⟨fun _ _ => rfl, rfl, fun r _ _ h3 => ⟨rfl, by rw [hl]; simp, h3, by simp⟩⟩
    | some l =>
      obtain ⟨h1, h2, h3, h4⟩ := Event.displace_frame e z l .floor
      refine ⟨h1, h2, fun r _ hr hs => ?_⟩
      obtain ⟨a, b, c⟩ := h4 r (fun h => hr (by rw [h])) hs
      exact ⟨a, by simp only [h3]; simp [ZoneState.live?], b, c⟩
  | some w =>
    have hw := Event.top_contends ht
    obtain ⟨cw, hcw, -⟩ := (Event.mem_contenders.1 hw).2
    have hne : ∀ r, r ∉ e.contenders z → r ≠ w := fun r hr h => hr (by rw [h]; exact hw)
    cases hl : (e.zones.get z).state.live? with
    | none =>
      obtain ⟨h1, h2, h3⟩ := granted e w ⟨cw, hcw⟩
      exact ⟨h1, h2, fun r hr _ hs => h3 r (hne r hr) hs⟩
    | some l =>
      simp only
      split
      · exact ⟨fun _ _ => rfl, rfl, fun r _ h2 h3 => ⟨rfl, by rw [hl]; exact h2, h3, by simp⟩⟩
      · rename_i hwl
        obtain ⟨d1, d2, d3, d4⟩ := Event.displace_frame e z l
          (if effectiveFloor p e.zones z ≤ e.priority l then .preempted else .floor)
        generalize e.displace z l (if effectiveFloor p e.zones z ≤ e.priority l then .preempted else .floor) = d at *
        by_cases ho : ∃ c, d.1.calls.call? w = some c
        · obtain ⟨g1, g2, g3⟩ := granted d.1 w ho
          refine ⟨fun y hy => (g1 y hy).trans (d1 y hy), g2.trans d2, fun r hr hlr hs => ?_⟩
          obtain ⟨a1, a2, a3⟩ := d4 r (fun h => hlr (by rw [h])) hs
          obtain ⟨b1, b2, b3, b4⟩ := g3 r (hne r hr) a2
          refine ⟨b1.trans a1, b2, b3, fun x hx => ?_⟩
          rcases List.mem_append.1 hx with hx | hx
          · exact a3 x hx
          · exact b4 x hx
        · have hn : d.1.calls.call? w = none := by
            cases h : d.1.calls.call? w with
            | none => rfl
            | some c => exact absurd ⟨c, h⟩ ho
          have hg : d.1.grantZone z w = (d.1, []) := by simp [Event.grantZone, hn]
          rw [hg]
          refine ⟨d1, d2, fun r hr hlr hs => ?_⟩
          obtain ⟨a1, a2, a3⟩ := d4 r (fun h => hlr (by rw [h])) hs
          exact ⟨a1, by simp only [d3]; simp [ZoneState.live?], a2, by simpa using a3⟩

/-- What an evaluation never does: change another zone, this zone's restriction, or a call that neither contends nor is
live or stacked there; and such a call stays off the zone (R42, R60). -/
theorem Event.evaluate_frame (e : Event) (p : Plan) (z : Zone) :
    (∀ y, y ≠ z → (Event.evaluate p e z).zones.get y = e.zones.get y) ∧
    ((Event.evaluate p e z).zones.get z).restriction = (e.zones.get z).restriction ∧
    ∀ r, r ∉ e.contenders z → (e.zones.get z).state.live? ≠ some r → (∀ en ∈ (e.zones.get z).stack, en.call ≠ r) →
      (Event.evaluate p e z).calls.call? r = e.calls.call? r ∧
      ((Event.evaluate p e z).zones.get z).state.live? ≠ some r ∧
      ∀ en ∈ ((Event.evaluate p e z).zones.get z).stack, en.call ≠ r := by
  unfold Event.evaluate
  split
  · obtain ⟨h1, h2, h3⟩ := Event.decideZone_frame e p z
    obtain ⟨k1, k2⟩ := Event.takeReports_frame (e.decideZone p z).2 (e.decideZone p z).1
    simp only [k1]
    refine ⟨h1, h2, fun r hr hl hs => ?_⟩
    obtain ⟨a, b, c, d⟩ := h3 r hr hl hs
    exact ⟨(k2 r fun x hx => (d x hx).symm).trans a, b, c⟩
  · exact ⟨fun _ _ => rfl, rfl, fun r _ h2 h3 => ⟨rfl, h2, h3⟩⟩

/-- Evaluations of some zones change no other zone and no restriction; a call with an empty target set that is live and
stacked on none of them is not changed and stays off them all. -/
theorem Event.evaluateAll_frame (p : Plan) (zs : List Zone) (e : Event) :
    (∀ y, y ∉ zs → (e.evaluateAll p zs).zones.get y = e.zones.get y) ∧
    (∀ y, ((e.evaluateAll p zs).zones.get y).restriction = (e.zones.get y).restriction) ∧
    ∀ r c, e.calls.call? r = some c → c.target = 0#16 →
      (∀ z ∈ zs, (e.zones.get z).state.live? ≠ some r ∧ ∀ en ∈ (e.zones.get z).stack, en.call ≠ r) →
      (e.evaluateAll p zs).calls.call? r = some c := by
  induction zs generalizing e with
  | nil => exact ⟨fun _ _ => rfl, fun _ => rfl, fun r c h _ _ => h⟩
  | cons z rest ih =>
    obtain ⟨h1, h2, h3⟩ := Event.evaluate_frame e p z
    obtain ⟨k1, k2, k3⟩ := ih (Event.evaluate p e z)
    refine ⟨fun y hy => ?_, fun y => ?_, fun r c hc ht hz => ?_⟩
    · simp only [List.mem_cons, not_or] at hy
      exact (k1 y hy.2).trans (h1 y hy.1)
    · refine (k2 y).trans ?_
      by_cases h : y = z
      · rw [h]; exact h2
      · rw [h1 y h]
    · have hn : r ∉ e.contenders z := by
        rw [Event.mem_contenders]
        rintro ⟨-, d, hd, hz⟩
        rw [hc] at hd
        injection hd with hd
        rw [← hd, ht] at hz
        simp at hz
      obtain ⟨a1, a2, a3⟩ := h3 r hn (hz z (by simp)).1 (hz z (by simp)).2
      refine k3 r c (a1.trans hc) ht fun y hy => ?_
      by_cases h : y = z
      · rw [h]; exact ⟨a2, a3⟩
      · rw [h1 y h]; exact hz y (by simp [hy])

end Sys2Proof.Machine
end

