-- ==== Sys2Proof/Laws/Requests.lean ====
section
/-! SUPPORT. What the request processor can do with a request: taking, checking, answering (R151 to R155). -/

namespace Sys2Proof.Machine

/-- No field fails exactly when every check passes (R153). -/
theorem firstBad_eq_none (l : List Bool) : firstBad l = none ↔ ∀ b ∈ l, b = true := by
  induction l with
  | nil => simp [firstBad]
  | cons b rest ih => cases b <;> simp [firstBad, ih]

/-- The common checks either answer without reaching the owner, or hand on a payload that passes them. -/
theorem checked_cases (len : Nat) (fields : List Word → List Bool) (act : List Word → Owner) (r : Request) (s : State) :
    (∃ a, checked len fields act r s = (s, a)) ∨
      (r.len = len ∧ firstBad (fields r.payload) = none ∧ checked len fields act r s = act r.payload r s) := by
  by_cases hl : r.len = len
  · cases hf : firstBad (fields r.payload) with
    | some n => exact Or.inl ⟨Answer.badFieldAt n, by simp [checked, hl, hf]⟩
    | none => exact Or.inr ⟨hl, rfl, by simp [checked, hl, hf]⟩
  · exact Or.inl ⟨Answer.refuse .badLength, by simp [checked, hl]⟩

/-- A payload of the right length whose fields pass reaches the owner (R153). -/
theorem checked_of_good {len : Nat} {fields : List Word → List Bool} {act : List Word → Owner} {r : Request}
    (hl : r.len = len) (hf : firstBad (fields r.payload) = none) (s : State) :
    checked len fields act r s = act r.payload r s := by
  simp [checked, hl, hf]

/-- The duplicate check does not read what taking a request changes. -/
@[simp] theorem duplicate_take (m : MessageBlock) (rest : List Request) (r : Request) :
    (m.take rest).duplicate? r = m.duplicate? r := rfl

/-- An offered request is taken, executed and answered (R151). -/
theorem takeRequest_of_offers {s : State} {kind : BitVec 8} {r : Request} {rest : List Request}
    (h : s.Offers kind r rest) {isKind : BitVec 8 → Bool} (hk : isKind kind = true) (own : Owner) :
    s.takeRequest isKind own = (own r (s.taken rest)).1.answered r (own r (s.taken rest)).2 := by
  have hk' : isKind r.kind = true := by rw [h.isKind]; exact hk
  have hd := h.fresh
  simp only [State.takeRequest, h.front, hk', h.room, Bool.and_self, if_true, State.handle, duplicate_take, hd,
    State.taken, State.answered]

/-- What `takeRequest` can do: nothing; replay a stored answer; or execute and answer (R151, R152). -/
theorem takeRequest_cases (s : State) (isKind : BitVec 8 → Bool) (own : Owner) :
    s.takeRequest isKind own = s ∨
      ∃ r rest, s.msg.requests = r :: rest ∧ isKind r.kind = true ∧ s.msg.canTake r = true ∧
        ((∃ a, s.msg.duplicate? r = some a ∧
            s.takeRequest isKind own = { s with msg := (s.msg.take rest).replay r a }) ∨
          (s.msg.duplicate? r = none ∧
            s.takeRequest isKind own = (own r (s.taken rest)).1.answered r (own r (s.taken rest)).2)) := by
  cases hq : s.msg.requests with
  | nil => left; simp [State.takeRequest, hq]
  | cons r rest =>
    by_cases hc : (isKind r.kind && s.msg.canTake r) = true
    · right
      have hk : isKind r.kind = true := by revert hc; cases isKind r.kind <;> simp
      have hr : s.msg.canTake r = true := by revert hc; cases s.msg.canTake r <;> simp
      refine ⟨r, rest, rfl, hk, hr, ?_⟩
      cases hd : s.msg.duplicate? r with
      | some a =>
        left
        exact ⟨a, rfl, by simp only [State.takeRequest, hq, hc, if_true, State.handle, duplicate_take, hd]⟩
      | none =>
        right
        exact ⟨rfl, by
          simp only [State.takeRequest, hq, hc, if_true, State.handle, duplicate_take, hd, State.taken, State.answered]⟩
    · left
      simp only [State.takeRequest, hq, hc]
      rfl

/-- A property of states that every request owner keeps: one clause for each act that changes a state; the others
change none. A PLAN_WRITE and a NOTICE_CONFIG reach their owner only with fields in range. -/
structure KeptByOwners (P : State → Prop) : Prop where
  opened : ∀ cls src m r s, P s → P (openCall cls src m r s).1
  released : ∀ c s, P s → P (releaseCall c s).1
  retargeted : ∀ c add remove s, P s → P (retargetCall c add remove s).1
  cleared : ∀ p k s, P s → P (Machine.clearCalls p k s).1
  restricted : ∀ m (f : Nat) s, f ≤ 15 → P s → P (restrictZones m f s).1
  written : ∀ b e ws s, firstBad (applyChecks (entryChecks e) ws) = none → P s → P (writePlan b e ws s).1
  erased : ∀ b s, P s → P (erasePlan b s).1
  sealedBank : ∀ b s, P s → P (sealPlan b s).1
  unsealed : ∀ b s, P s → P (unsealPlan b s).1
  copied : ∀ s, P s → P (copyPlan s).1
  switched : ∀ p s, P s → P (Machine.switchPlan p s).1
  acked : ∀ q s, P s → P (ackNotices q s).1
  configured : ∀ c e (n : Nat) s, 10 ≤ n → n ≤ 2000 → P s → P (configNotices c e n s).1
  read : ∀ c s, P s → P (readCounters c s).1
  reset : ∀ s, P s → P s.nodeReset

/-- A checked owner keeps what its act keeps. -/
theorem checked_keeps {P : State → Prop} {len : Nat} {fields : List Word → List Bool} {act : List Word → Owner}
    (h : ∀ ws r s, firstBad (fields ws) = none → P s → P (act ws r s).1) (r : Request) (s : State) (hs : P s) :
    P (checked len fields act r s).1 := by
  rcases checked_cases len fields act r s with ⟨a, e⟩ | ⟨-, hf, e⟩
  · rw [e]; exact hs
  · rw [e]; exact h _ _ _ hf hs

/-- A word in a range. -/
theorem inRange_eq {lo hi : Nat} {w : Word} : inRange lo hi w = true ↔ lo ≤ w.toNat ∧ w.toNat ≤ hi := by
  simp [inRange]

/-- The read-only act of PLAN_READ changes no state. -/
@[simp] theorem readPlan_state (b : BankNo) (e : EntryName) (s : State) : (readPlan b e s).1 = s := by
  unfold readPlan; split <;> rfl

/-- The read-only act of CALL_READ changes no state. -/
@[simp] theorem readCall_state (c : CallRef) (s : State) : (readCall c s).1 = s := by
  unfold readCall; split <;> rfl

/-- The read-only act of ZONE_PROBE changes no state. -/
@[simp] theorem probeZone_state (z : Zone) (p : Nat) (s : State) : (probeZone z p s).1 = s := by
  unfold probeZone; split <;> rfl

/-- Every owner of Table 7-3 keeps what the acts keep. -/
theorem ownerOf_keeps {P : State → Prop} (h : KeptByOwners P) (kind : BitVec 8) (r : Request) (s : State) (hs : P s) :
    P (ownerOf kind r s).1 := by
  suffices key : ∀ own : Owner, own = ownerOf kind → P (own r s).1 from key _ rfl
  intro own ho
  unfold ownerOf at ho
  split at ho <;> subst ho
  · exact checked_keeps (fun ws r s _ hs => h.opened _ _ _ _ _ hs) r s hs
  · exact checked_keeps (fun ws r s _ hs => h.released _ _ hs) r s hs
  · exact checked_keeps (fun ws r s _ hs => h.retargeted _ _ _ _ hs) r s hs
  · exact checked_keeps (fun ws r s _ hs => h.cleared _ _ _ hs) r s hs
  · exact checked_keeps (fun ws r s _ hs => by rw [readCall_state]; exact hs) r s hs
  · refine checked_keeps (fun ws r s hf hs => h.restricted _ _ _ ?_ hs) r s hs
    have hw := (firstBad_eq_none _).1 hf (inRange 0 15 (wordAt ws 1)) (by simp)
    exact (inRange_eq.1 hw).2
  · exact checked_keeps (fun ws r s _ hs => by rw [probeZone_state]; exact hs) r s hs
  · exact checked_keeps (fun ws r s _ hs => hs) r s hs
  · exact checked_keeps (fun ws r s _ hs => hs) r s hs
  · refine checked_keeps (fun ws r s hf hs => h.written _ _ _ _ ?_ hs) r s hs
    rw [firstBad_eq_none] at hf ⊢
    intro b hb
    exact hf b (by simp [hb])
  · exact checked_keeps (fun ws r s _ hs => by rw [readPlan_state]; exact hs) r s hs
  · exact checked_keeps (fun ws r s _ hs => h.erased _ _ hs) r s hs
  · exact checked_keeps (fun ws r s _ hs => h.sealedBank _ _ hs) r s hs
  · exact checked_keeps (fun ws r s _ hs => h.unsealed _ _ hs) r s hs
  · exact checked_keeps (fun ws r s _ hs => h.copied _ hs) r s hs
  · exact checked_keeps (fun ws r s _ hs => h.switched _ _ hs) r s hs
  · exact checked_keeps (fun ws r s _ hs => hs) r s hs
  · exact checked_keeps (fun ws r s _ hs => h.acked _ _ hs) r s hs
  · refine checked_keeps (fun ws r s hf hs => h.configured _ _ _ _ ?_ ?_ hs) r s hs
    · have hw := (firstBad_eq_none _).1 hf (inRange 10 2000 (wordAt ws 2)) (by simp)
      exact (inRange_eq.1 hw).1
    · have hw := (firstBad_eq_none _).1 hf (inRange 10 2000 (wordAt ws 2)) (by simp)
      exact (inRange_eq.1 hw).2
  · exact hs
  · exact checked_keeps (fun ws r s _ hs => h.read _ _ hs) r s hs
  · exact checked_keeps (P := P) (act := fun _ _ s => (s.nodeReset, Answer.okWith [])) (fun ws r s _ hs => h.reset s hs) r s hs
  · exact hs

end Sys2Proof.Machine
end

