-- ==== Sys2Proof/Laws/Kept.lean ====
section
/-! SUPPORT. Everything a command can do, said once: a property that each small operation keeps is kept by every
command and every step. -/

namespace Sys2Proof.Machine

/-- A property of states that every operation of the machine keeps. Each clause is one operation; `Kept.exec`
and `Kept.step` put them together. -/
structure Kept (P : State → Prop) : Prop where
  due : ∀ s d, P s → P { s with due := d }
  resets : ∀ s straps, P s → P { State.afterReset straps with pending := s.pending }
  asserts : ∀ s, P s → P s.assertReset
  finds : ∀ s place w, P s → P { s with receiver := s.receiver.findSync place w }
  judges : ∀ s present n, P s → P { s with receiver := (s.receiver.judge present n).receiver }
  opens : ∀ s f u e, P s → P (s.openBoundary f u e)
  locks : ∀ s, P s → P (s.notify (.link true))
  searches : ∀ s, P s → P s.enterSearch
  observes : ∀ s, P s → P s.observeStage
  ramps : ∀ s, P s → P s.rampStage
  controls : ∀ s, P s → P s.controlStage
  sends : ∀ s, P s → P s.sendFrame
  presences : ∀ s t k, P s → P (s.takePresence t k)
  keyUps : ∀ s t, P s → P (s.takeKeyUp t)
  keyDowns : ∀ s t, P s → P (s.takeKeyDown t)
  losses : ∀ s src, P s → P (s.takeLoss src)
  waits : ∀ s r, P s → P (s.takeDeadline r Call.wait .waitExpired)
  holds : ∀ s r, P s → P (s.takeDeadline r Call.hold .unkeyed)
  durations : ∀ s r, P s → P (s.takeDeadline r Call.duration .duration)
  leadIns : ∀ s z, P s → P (s.takeLeadInEnd z)
  retries : ∀ s, P s → P s.takeRetryEnd
  copySteps : ∀ s, P s → P { s with plans := s.plans.copyStep }
  copies : ∀ s, P s → P s.takeCopyEnd
  fades : ∀ s z l, P s → P (s.takeFadeEnd z l)
  chimes : ∀ s z, P s → P (s.takeChimeEnd z)
  tones : ∀ s g, P s → P (s.takeToneEnd g)
  banks : ∀ s p, s.plans.pending = some p → P s → P s.switchBanks
  switchZones : ∀ s old, P s → P (s.switchCalls old)
  begins : ∀ s, P s → P s.beginReply
  notices : ∀ s held, P s → P (s.beginNotice held)
  requests : ∀ s isKind kind, P s → P (s.takeRequest isKind (ownerOf kind))

variable {P : State → Prop}

/-- Taking a task that is due. -/
theorem Kept.ifDue (k : Kept P) {s : State} (t : Task) {f : State → State} (hf : ∀ s, P s → P (f s)) (hs : P s) :
    P (s.ifDue t f) := by
  unfold State.ifDue
  split
  · exact hf _ (k.due _ _ hs)
  · exact hs

/-- A plan switch. -/
theorem Kept.takeSwitch (k : Kept P) {s : State} (lost : List Tone) (hs : P s) : P (s.takeSwitch lost) := by
  unfold State.takeSwitch
  split
  · exact hs
  · rename_i p hp
    apply k.switchZones
    have hb : P s.switchBanks := k.banks s p hp hs
    generalize s.switchBanks = b at hb
    induction lost generalizing b with
    | nil => exact hb
    | cons g rest ih => exact ih _ (k.ifDue _ (fun s h => k.losses s _ h) hb)

/-- The work of a task. -/
theorem Kept.effect (k : Kept P) (t : Task) {s : State} (hs : P s) : P (State.effect t s) := by
  cases t with
  | linkLocked => exact k.locks s hs
  | linkSearch => exact k.searches s hs
  | observe => exact k.observes s hs
  | ramps => exact k.ramps s hs
  | control => exact k.controls s hs
  | build =>
    exact k.sends _ (k.ifDue _ (fun s h => k.controls s h) (k.ifDue _ (fun s h => k.ramps s h) hs))
  | presence src keyed => exact k.presences s _ _ hs
  | keyUp src => exact k.keyUps s _ hs
  | keyDown src => exact k.keyDowns s _ hs
  | loss src => exact k.losses s _ hs
  | waitEnd r => exact k.waits s _ hs
  | holdEnd r => exact k.holds s _ hs
  | durationEnd r => exact k.durations s _ hs
  | leadInEnd z => exact k.leadIns s _ hs
  | retryEnd => exact k.retries s hs
  | copyStep => exact k.copySteps s hs
  | copyEnd => exact k.copies s hs
  | fadeEnd z l => exact k.fades s _ _ hs
  | chimeEnd z => exact k.chimes s _ hs
  | toneEnd g => exact k.tones s _ hs
  | switchTake => exact k.takeSwitch [] hs

/-- Taking a task. -/
theorem Kept.perform (k : Kept P) (t : Task) {s : State} (hs : P s) : P (s.perform t) :=
  k.ifDue t (fun _ h => k.effect t h) hs

/-- Taking some tasks. -/
theorem Kept.performAll (k : Kept P) (ts : List Task) {s : State} (hs : P s) : P (s.performAll ts) := by
  unfold State.performAll
  induction ts generalizing s with
  | nil => exact hs
  | cons t rest ih => exact ih (k.perform t hs)

/-- The processor's own try, whose owner depends on the request, is a try with one owner. -/
theorem takeOldest_eq (s : State) : ∃ kind, s.takeOldest = s.takeRequest (fun _ => true) (ownerOf kind) := by
  unfold State.takeOldest
  cases hq : s.msg.requests with
  | nil => exact ⟨0#8, by simp [State.takeRequest, hq]⟩
  | cons r rest => exact ⟨r.kind, by simp [State.takeRequest, hq, State.handle]⟩

/-- The processor's own try. -/
theorem Kept.takeOldest (k : Kept P) {s : State} (hs : P s) : P s.takeOldest := by
  obtain ⟨kind, e⟩ := takeOldest_eq s
  rw [e]
  exact k.requests _ _ _ hs

/-- A move of a boundary's order. -/
theorem Kept.makeMove (k : Kept P) (m : Move) {s : State} (hs : P s) : P (s.makeMove m) := by
  cases m with
  | perform t => exact k.perform t hs
  | switchAfterLosses lost => exact k.ifDue _ (fun _ h => k.takeSwitch lost h) hs
  | request => exact k.takeOldest hs

/-- Taking everything that is due. -/
theorem Kept.drain (k : Kept P) {s : State} (hs : P s) : P s.drain := k.performAll _ (k.performAll _ hs)

/-- The processor's run. -/
theorem Kept.processRequests (k : Kept P) (n : Nat) {s : State} (hs : P s) : P (State.processRequests n s) := by
  induction n generalizing s with
  | zero => exact hs
  | succ n ih =>
    exact ih (k.takeOldest hs)

/-- What happens at the latest before a boundary. -/
theorem Kept.settleBoundary (k : Kept P) {s : State} (hs : P s) : P s.settleBoundary :=
  k.processRequests _ (k.drain hs)

/-- A boundary. -/
theorem Kept.boundary (k : Kept P) {s : State} (f : Frame) (u : Bool) (e : List Task) (order : List Move) (hs : P s) :
    P (s.boundary f u e order) := by
  apply k.performAll
  have ho : P (s.openBoundary f u e) := k.opens s f u e hs
  generalize s.openBoundary f u e = b at ho
  induction order generalizing b with
  | nil => exact ho
  | cons m rest ih => exact ih _ (k.makeMove m ho)

/-- A free-run boundary. -/
theorem Kept.takeFreeRun (k : Kept P) {s : State} (order : List Move) (hs : P s) : P (s.takeFreeRun order) := by
  unfold State.takeFreeRun
  split
  · exact k.boundary _ _ _ _ (k.settleBoundary hs)
  · exact hs

/-- The judgement of a frame. -/
theorem Kept.takeFrame (k : Kept P) {s : State} (bits : BitVec 2152) (order : List Move) (hs : P s) :
    P (s.takeFrame bits order) := by
  unfold State.takeFrame
  dsimp only
  split
  · exact k.boundary _ _ _ _ (k.judges _ _ _ (k.settleBoundary hs))
  · exact k.performAll _ (k.due { s with receiver := _ } _ (k.judges _ _ _ hs))

/-- Outside a hardware reset a command's effect is a function of the state; inside one, nothing happens (R190). -/
theorem running_eq_next (s : State) (f : State → State) :
    s.running f = .next (if s.inReset then s else f s) := rfl

/-- A running command keeps what its function keeps. -/
theorem running_keeps {s s' : State} {f : State → State} (hf : P s → P (f s)) (hs : P s)
    (h : s.running f = .next s') : P s' := by
  unfold State.running at h
  injection h with h
  subst h
  split
  · exact hs
  · exact hf hs

/-- What every operation keeps, every command keeps. -/
theorem Kept.exec (k : Kept P) (c : Instr) {s s' : State} (hs : P s) (h : exec c s = .next s') : P s' := by
  cases c with
  | hardwareReset straps =>
    simp only [Machine.exec, execHardwareReset] at h
    injection h with h
    subst h
    exact k.resets s straps hs
  | resetAsserted =>
    simp only [Machine.exec, execResetAsserted] at h
    injection h with h
    subst h
    exact k.asserts s hs
  | syncFound place w => exact running_keeps (f := fun s => { s with receiver := s.receiver.findSync place w }) (k.finds s place w) hs h
  | frameJudged bits order => exact running_keeps (f := fun s => s.takeFrame bits order) (k.takeFrame bits order) hs h
  | freeRunBoundary order => exact running_keeps (f := fun s => s.takeFreeRun order) (k.takeFreeRun order) hs h
  | presenceConfirmed src =>
    exact running_keeps (f := fun s => (s.perform (.presence src true)).perform (.presence src false)) (fun h => k.perform _ (k.perform _ h)) hs h
  | quietToKeyedEdge src => exact running_keeps (k.perform _) hs h
  | keyedToQuietEdge src => exact running_keeps (k.perform _) hs h
  | sourceLoss src => exact running_keeps (k.perform _) hs h
  | waitExpiry r => exact running_keeps (k.perform _) hs h
  | holdExpiry r => exact running_keeps (k.perform _) hs h
  | durationExpiry r => exact running_keeps (k.perform _) hs h
  | leadInExpiry z => exact running_keeps (k.perform _) hs h
  | retryExpiry => exact running_keeps (k.perform _) hs h
  | copyDone => exact running_keeps (k.perform _) hs h
  | fadeCompletion z l => exact running_keeps (k.perform _) hs h
  | chimeStepEnd z => exact running_keeps (k.perform _) hs h
  | toneStepEnd g => exact running_keeps (k.perform _) hs h
  | switchTaken lost => exact running_keeps (f := fun s => s.makeMove (.switchAfterLosses lost)) (k.makeMove _) hs h
  | replyBegin => exact running_keeps (k.begins s) hs h
  | noticeMessage => exact running_keeps (f := fun s => s.beginNotice true) (k.notices s true) hs h
  | callOpen => exact running_keeps (k.requests s _ 1#8) hs h
  | callRelease => exact running_keeps (k.requests s _ 2#8) hs h
  | callRetarget => exact running_keeps (k.requests s _ 3#8) hs h
  | clearCalls => exact running_keeps (k.requests s _ 4#8) hs h
  | callRead => exact running_keeps (k.requests s _ 5#8) hs h
  | zoneRestrict => exact running_keeps (k.requests s _ 16#8) hs h
  | zoneProbe => exact running_keeps (k.requests s _ 17#8) hs h
  | zoneRead => exact running_keeps (k.requests s _ 18#8) hs h
  | sourceRead => exact running_keeps (k.requests s _ 24#8) hs h
  | planWrite => exact running_keeps (k.requests s _ 32#8) hs h
  | planRead => exact running_keeps (k.requests s _ 33#8) hs h
  | planErase => exact running_keeps (k.requests s _ 34#8) hs h
  | planSeal => exact running_keeps (k.requests s _ 35#8) hs h
  | planUnseal => exact running_keeps (k.requests s _ 36#8) hs h
  | planCopy => exact running_keeps (k.requests s _ 37#8) hs h
  | planSwitch => exact running_keeps (k.requests s _ 38#8) hs h
  | planStatus => exact running_keeps (k.requests s _ 39#8) hs h
  | noticeAck => exact running_keeps (k.requests s _ 48#8) hs h
  | noticeConfig => exact running_keeps (k.requests s _ 49#8) hs h
  | echo => exact running_keeps (k.requests s _ 64#8) hs h
  | countersRead => exact running_keeps (k.requests s _ 65#8) hs h
  | nodeReset => exact running_keeps (k.requests s _ 66#8) hs h
  | unknownKindRequest => exact running_keeps (k.requests s _ 0#8) hs h

/-- What every operation keeps and the queue does not bear on, every step keeps. -/
theorem Kept.step (k : Kept P) (hq : ∀ s q, P s → P { s with pending := q }) {s s' : State} (hs : P s)
    (h : step s = .next s') : P s' := by
  unfold Machine.step at h
  split at h
  · injection h with h
    subst h
    exact hs
  · exact k.exec _ (hq _ _ hs) h

/-- The request clause, from what the owners keep and what taking and answering a request keep. -/
theorem requests_of_owners (ho : KeptByOwners P)
    (htake : ∀ s r rest, s.msg.requests = r :: rest → P s → P (s.taken rest))
    (hreplay : ∀ s r rest a, s.msg.requests = r :: rest → s.msg.canTake r = true → s.msg.duplicate? r = some a → P s →
      P { s with msg := (s.msg.take rest).replay r a })
    (hanswer : ∀ s r a, P s → P (s.answered r a)) (s : State) (isKind : BitVec 8 → Bool) (kind : BitVec 8) (hs : P s) :
    P (s.takeRequest isKind (ownerOf kind)) := by
  rcases takeRequest_cases s isKind (ownerOf kind) with h | ⟨r, rest, hq, -, hc, ⟨a, hd, h⟩ | ⟨-, h⟩⟩
  · rw [h]; exact hs
  · rw [h]; exact hreplay s r rest a hq hc hd hs
  · rw [h]; exact hanswer _ _ _ (ownerOf_keeps ho kind r _ (htake s r rest hq hs))

end Sys2Proof.Machine
end

