-- ==== Sys2Proof/Laws/Events.lean ====
section
/-! SUPPORT. What an event of calls and zones, a lane update and a submission can do (R71, R129), and how a command takes
an offered request or a task that is due. -/

namespace Sys2Proof.Machine

/-- A command whose task is due does the task's work on the state with the task crossed off. -/
theorem running_perform {s : State} {t : Task} (hr : s.inReset = false) (hd : t ∈ s.due) :
    s.running (fun s => s.perform t) = .next (State.effect t (s.undue t)) := by
  simp [State.running, hr, State.perform, State.ifDue, hd, State.undue]

/-- A command whose request is offered executes and answers it (R151). -/
theorem running_takeRequest {s : State} {kind : BitVec 8} {r : Request} {rest : List Request} (h : s.Offers kind r rest)
    {isKind : BitVec 8 → Bool} (hk : isKind kind = true) (own : Owner) :
    s.running (fun s => s.takeRequest isKind own) =
      .next ((own r (s.taken rest)).1.answered r (own r (s.taken rest)).2) := by
  rw [running_eq_next, h.running, takeRequest_of_offers h hk]
  rfl

/-- An event that changes no call and no zone changes nothing. -/
theorem event_id (s : State) : s.event (fun _ e => e) = s := by
  unfold State.event State.complete
  simp only [Event.settle, Event.start, List.foldl_nil]
  have hm : (s.mixers.update fun z m => m.afterEvent s.plan s.calls (s.plan.zones.get z) (s.zones.get z).state
      (s.zones.get z).state (([] : List Zone).contains z) false) = s.mixers := by
    apply Table.ext_get
    intro i
    simp [Mixer.afterEvent, zoneChanged]
  have hn : eventNotices s.calls (Event.start s) = [] := by
    simp only [eventNotices, Event.start, List.append_nil]
    rw [List.flatMap_eq_nil_iff]
    intro r _
    unfold callNotices
    simp only [List.filterMap_nil]
    cases h : s.calls.status? r <;> simp
  simp only [Event.start] at hn
  rw [hm, hn]
  rfl

/-- A lane update leaves the lane's attenuation (R71). -/
@[simp] theorem Lane.apply_att (l : Lane) (d : Desired) : (l.apply d).att = l.att := by
  unfold Lane.apply
  cases l.pending <;> simp only <;> split <;> (try split) <;> rfl

/-- What a submission never changes: configuration, timer and retries (R129). -/
theorem submit_keeps (b : NoticeBlock) (n : Notice) :
    (b.submit n).enabled = b.enabled ∧ (b.submit n).recipient = b.recipient ∧
      (b.submit n).intervalMs = b.intervalMs ∧ (b.submit n).timer = b.timer ∧ (b.submit n).retries = b.retries := by
  unfold NoticeBlock.submit NoticeBlock.coalesce NoticeBlock.append NoticeBlock.lose
  split
  · exact ⟨rfl, rfl, rfl, rfl, rfl⟩
  · split
    · split <;> exact ⟨rfl, rfl, rfl, rfl, rfl⟩
    · split <;> exact ⟨rfl, rfl, rfl, rfl, rfl⟩

/-- What submissions never change, one after another (R132). -/
theorem submitAll_keeps (ns : List Notice) (b : NoticeBlock) :
    (b.submitAll ns).enabled = b.enabled ∧ (b.submitAll ns).recipient = b.recipient ∧
      (b.submitAll ns).intervalMs = b.intervalMs ∧ (b.submitAll ns).timer = b.timer ∧
      (b.submitAll ns).retries = b.retries := by
  induction ns generalizing b with
  | nil => exact ⟨rfl, rfl, rfl, rfl, rfl⟩
  | cons n rest ih =>
    have h := ih (b.submit n)
    have k := submit_keeps b n
    exact ⟨h.1.trans k.1, h.2.1.trans k.2.1, h.2.2.1.trans k.2.2.1, h.2.2.2.1.trans k.2.2.2.1,
      h.2.2.2.2.trans k.2.2.2.2⟩

end Sys2Proof.Machine
end

