-- ==== Sys2Proof/Laws/Narrows.lean ====
section
/-! SUPPORT. No operation of the call table or the zone arbiters but an admission and a retarget opens a call or widens a
target set: what every call that is open afterwards was before (R3, R15, R29, R57). -/

namespace Sys2Proof.Machine

/-- A call as an event may leave it: what it was admitted with stands, and its target set has no zone more. -/
structure Call.Narrowed (c d : Call) : Prop where
  origin : d.origin = c.origin
  cls : d.cls = c.cls
  captured : d.captured = c.captured
  source : d.source = c.source
  hold : d.hold = c.hold
  target : ∀ z, ZoneSet.has d.target z = true → ZoneSet.has c.target z = true

/-- A call is a narrowed form of itself. -/
theorem Call.Narrowed.refl (c : Call) : c.Narrowed c := ⟨rfl, rfl, rfl, rfl, rfl, fun _ h => h⟩

/-- Narrowing composes. -/
theorem Call.Narrowed.trans {a b c : Call} (h : a.Narrowed b) (k : b.Narrowed c) : a.Narrowed c :=
  ⟨k.origin.trans h.origin, k.cls.trans h.cls, k.captured.trans h.captured, k.source.trans h.source,
    k.hold.trans h.hold, fun z hz => h.target z (k.target z hz)⟩

/-- Every call open in the second event was open in the first and is narrowed; and the admission list, if it lists every
open call, goes on doing so. -/
structure Event.Narrows (e f : Event) : Prop where
  calls : ∀ r d, f.calls.call? r = some d → ∃ c, e.calls.call? r = some c ∧ c.Narrowed d
  listed : (∀ r, (e.calls.call? r).isSome = true → r ∈ e.calls.admission) →
    ∀ r, (f.calls.call? r).isSome = true → r ∈ f.calls.admission

/-- An event narrows itself. -/
theorem Event.Narrows.refl (e : Event) : e.Narrows e := ⟨fun _ d h => ⟨d, h, .refl d⟩, fun h => h⟩

/-- Narrowing composes. -/
theorem Event.Narrows.trans {a b c : Event} (h : a.Narrows b) (k : b.Narrows c) : a.Narrows c := by
  refine ⟨fun r d hd => ?_, fun hl => k.listed (h.listed hl)⟩
  obtain ⟨x, hx, kx⟩ := k.calls r d hd
  obtain ⟨y, hy, ky⟩ := h.calls r x hx
  exact ⟨y, hy, ky.trans kx⟩

/-- Only the call table matters. -/
theorem Event.Narrows.of_calls {e f g : Event} (h : e.Narrows f) (hg : g.calls = f.calls) : e.Narrows g := by
  refine ⟨fun r d hd => h.calls r d (by rw [← hg]; exact hd), fun hl => ?_⟩
  rw [hg]
  exact h.listed hl

/-- A fold of narrowing steps narrows. -/
theorem Event.Narrows.foldl {α : Type} (f : Event → α → Event)
    (hf : ∀ (e : Event) (a : α), e.Narrows (f e a)) (l : List α) (e : Event) :
    e.Narrows (l.foldl f e) := by
  induction l generalizing e with
  | nil => exact .refl e
  | cons a rest ih => exact (hf e a).trans (ih (f e a))

/-- A change of a call that narrows it. -/
theorem Event.narrows_changeCall (e : Event) (r : CallRef) (f : Call → Call) (hf : ∀ c : Call, c.Narrowed (f c)) :
    e.Narrows (e.changeCall r f) := by
  refine ⟨fun q d hd => ?_, fun hl q hq => ?_⟩
  · rw [Event.call?_changeCall] at hd
    split at hd
    · rename_i h
      cases hc : e.calls.call? r with
      | none => rw [hc] at hd; cases hd
      | some c =>
        rw [hc] at hd
        injection hd with hd
        rw [h]
        exact ⟨c, hc, by rw [← hd]; exact hf c⟩
    · exact ⟨d, hd, .refl d⟩
  · rw [show (e.changeCall r f).calls.admission = e.calls.admission from CallTable.changeCall_admission _ _ _]
    rw [Event.call?_changeCall] at hq
    split at hq
    · rename_i h
      rw [h]
      exact hl r (by simpa using hq)
    · exact hl q hq

/-- The end of a call. -/
theorem Event.narrows_finishCall (e : Event) (r : CallRef) (cause : EndCause) : e.Narrows (e.finishCall r cause) := by
  refine ⟨fun q d hd => ?_, fun hl q hq => ?_⟩
  · rw [Event.call?_finishCall] at hd
    split at hd
    · cases hd
    · exact ⟨d, hd, .refl d⟩
  · rw [Event.call?_finishCall] at hq
    split at hq
    · cases hq
    · rename_i h
      unfold Event.finishCall
      split
      · exact hl q hq
      · rename_i c hc
        show q ∈ (CallTable.free _ r).admission
        rw [(CallTable.free_of_open hc).2]
        exact (List.mem_erase_of_ne h).2 (hl q hq)

/-- Everything the loss of a zone does to an open call (R15): the zone leaves its target set with the reason recorded, and
a call with no zone left ends NO_ZONES; no other call and no zone record changes. -/
theorem Event.loseZone_spec (e : Event) (r : CallRef) (z : Zone) (reason : LossReason) (c : Call)
    (hc : e.calls.call? r = some c) :
    (∀ q, (e.loseZone r z reason).calls.call? q =
      if q = r then
        if ZoneSet.remove c.target z = 0#16 then none else some { c with target := ZoneSet.remove c.target z }
      else e.calls.call? q) ∧
    (e.loseZone r z reason).lost = e.lost ++ [(r, z, reason)] ∧
    (e.loseZone r z reason).ended =
      e.ended ++ (if ZoneSet.remove c.target z = 0#16 then [(r, .noZones)] else []) ∧
    (e.loseZone r z reason).zones = e.zones := by
  have hx : (e.changeCall r fun c => { c with target := ZoneSet.remove c.target z }).calls.call? r =
      some { c with target := ZoneSet.remove c.target z } := by
    rw [Event.call?_changeCall, if_pos rfl, hc]
    rfl
  simp only [Event.loseZone, hc]
  by_cases h : ZoneSet.remove c.target z = 0#16
  · simp only [h, if_true, Event.finishCall]
    rw [h] at hx
    simp only [hx]
    refine ⟨fun q => ?_, trivial, rfl, rfl⟩
    rw [CallTable.call?_free]
    split
    · rfl
    · rename_i hq
      rw [Event.call?_changeCall, if_neg hq]
  · simp only [h, if_false]
    refine ⟨fun q => ?_, trivial, (List.append_nil _).symm, rfl⟩
    refine (Event.call?_changeCall _ _ _ _).trans ?_
    simp [hc]

/-- Two changes of a call are one. -/
theorem CallTable.changeCall_twice (t : CallTable) (r : CallRef) (c : Call) (f g : Call → Call) (h : t.call? r = some c) :
    (t.changeCall r f).changeCall r g = t.changeCall r fun c => g (f c) := by
  have k := CallTable.call?_changeCall t r r f
  rw [if_pos rfl, h] at k
  unfold CallTable.changeCall at k ⊢
  simp only [h, Option.map] at k ⊢
  simp only [k, Table.set_set]

/-- A change of a call before it is freed is lost. -/
theorem CallTable.changeCall_free (t : CallTable) (r : CallRef) (c : Call) (f : Call → Call) (h : t.call? r = some c) :
    (t.changeCall r f).free r = t.free r := by
  have k := CallTable.call?_changeCall t r r f
  rw [if_pos rfl, h] at k
  unfold CallTable.changeCall CallTable.free at *
  simp only [h, Option.map] at k ⊢
  simp only [k, Table.set_set]

/-- A call changed to itself. -/
theorem CallTable.changeCall_id (t : CallTable) (r : CallRef) (c : Call) (h : t.call? r = some c) :
    t.changeCall r (fun _ => c) = t := by
  unfold CallTable.changeCall
  simp only [h]
  have hg : t.records.get r.index = ⟨r.gen, some c⟩ := by
    unfold CallTable.call? at h
    split at h
    · rename_i k
      cases hh : t.records.get r.index with
      | mk g q => rw [hh] at k h; simp only at k h; rw [k, h]
    · cases h
  rw [← hg, Table.set_get]

/-- Losses of some distinct zones that a call wants, one after another (R14): the zones leave its target set, and if none
is left the call ends NO_ZONES. -/
theorem Event.foldl_loseZone_late (r : CallRef) (zs : List Zone) (hz : zs.Nodup) (e : Event) (c : Call)
    (hc : e.calls.call? r = some c) (hw : ∀ z ∈ zs, ZoneSet.has c.target z = true) (m : ZoneSet)
    (hm : ∀ z, ZoneSet.has m z = (ZoneSet.has c.target z && decide (z ∉ zs))) :
    let told := e.lost ++ zs.map fun z => (r, z, LossReason.late)
    (m ≠ 0#16 → zs.foldl (fun e z => e.loseZone r z .late) e =
      { e.changeCall r (fun c => { c with target := m }) with lost := told }) ∧
    (m = 0#16 → zs ≠ [] → zs.foldl (fun e z => e.loseZone r z .late) e =
      { e with calls := e.calls.free r, lost := told, ended := e.ended ++ [(r, .noZones)] }) := by
  induction zs generalizing e c with
  | nil =>
    have k : m = c.target := ZoneSet.ext_has fun z => by rw [hm]; simp
    subst k
    refine ⟨fun _ => ?_, fun _ h => absurd rfl h⟩
    have k : e.calls.changeCall r (fun d => { d with target := c.target }) = e.calls := by
      refine Eq.trans ?_ (CallTable.changeCall_id e.calls r c hc)
      simp [CallTable.changeCall, hc]
    simp [Event.changeCall, k]
  | cons z rest ih =>
    obtain ⟨hz1, hz2⟩ := List.nodup_cons.1 hz
    have hx : (e.changeCall r fun c => { c with target := ZoneSet.remove c.target z }).calls.call? r =
        some { c with target := ZoneSet.remove c.target z } := by
      rw [Event.call?_changeCall, if_pos rfl, hc]; rfl
    have last : rest = [] → m = ZoneSet.remove c.target z := by
      rintro rfl
      exact ZoneSet.ext_has fun y => by rw [hm, ZoneSet.has_remove]; simp
    by_cases ht : ZoneSet.remove c.target z = 0#16
    · have hr : rest = [] := by
        cases rest with
        | nil => rfl
        | cons y ys =>
          have h1 := hw y (by simp)
          have h2 : ZoneSet.has (ZoneSet.remove c.target z) y = false := by rw [ht]; simp
          rw [ZoneSet.has_remove, h1] at h2
          simp at h2
          subst h2
          simp at hz1
      refine ⟨fun h => absurd ((last hr).trans ht) h, fun _ _ => ?_⟩
      subst hr
      simp only [List.foldl_cons, List.foldl_nil, Event.loseZone, hc, ht, if_true, Event.finishCall, hx]
      simp only [Event.changeCall, CallTable.changeCall_free _ r c _ hc]
      simp
    · have hl : e.loseZone r z .late =
          { e.changeCall r (fun c => { c with target := ZoneSet.remove c.target z }) with
            lost := e.lost ++ [(r, z, .late)] } := by
        simp only [Event.loseZone, hc, ht, if_false]
      obtain ⟨i1, i2⟩ := ih hz2 (e.loseZone r z .late) { c with target := ZoneSet.remove c.target z }
        (by rw [hl]; exact hx)
        (by intro y hy; simp only [ZoneSet.has_remove]; rw [hw y (by simp [hy])]; simp; rintro rfl; exact hz1 hy)
        (by intro y; rw [hm]; simp only [ZoneSet.has_remove]; by_cases h : y = z <;> simp [h])
      refine ⟨fun h => ?_, fun h _ => ?_⟩
      · rw [List.foldl_cons, i1 h, hl]
        simp [Event.changeCall, CallTable.changeCall_twice _ r c _ _ hc]
      · have hne : rest ≠ [] := fun k => ht ((last k).symm.trans h)
        rw [List.foldl_cons, i2 h hne, hl]
        simp [Event.changeCall, CallTable.changeCall_free _ r c _ hc]

/-- A loss of a zone. -/
theorem Event.narrows_loseZone (e : Event) (r : CallRef) (z : Zone) (reason : LossReason) :
    e.Narrows (e.loseZone r z reason) := by
  unfold Event.loseZone
  split
  · exact .refl e
  · have h : e.Narrows { e.changeCall r (fun c => { c with target := ZoneSet.remove c.target z }) with
        lost := e.lost ++ [(r, z, reason)] } := by
      refine (e.narrows_changeCall r (fun c => { c with target := ZoneSet.remove c.target z }) fun c => ?_).of_calls rfl
      refine ⟨rfl, rfl, rfl, rfl, rfl, fun y hy => ?_⟩
      simp only [ZoneSet.has_remove, Bool.and_eq_true] at hy
      exact hy.1
    dsimp only
    split
    · exact h.trans (Event.narrows_finishCall _ _ _)
    · exact h

/-- A report. -/
theorem Event.narrows_takeReport (e : Event) (x : Report) : e.Narrows (e.takeReport x) := by
  cases x with
  | grant r =>
    refine e.narrows_changeCall r _ fun c => ?_
    unfold Call.firstGrant
    split
    · exact .refl c
    · exact ⟨rfl, rfl, rfl, rfl, rfl, fun _ h => h⟩
  | onAir r =>
    simp only [Event.takeReport, Event.speakMoment]
    split
    · exact .refl e
    · split
      · exact .refl e
      · exact (e.narrows_changeCall r (fun c => { c with speak := true })
          fun c => ⟨rfl, rfl, rfl, rfl, rfl, fun _ h => h⟩).of_calls rfl
  | loss r z reason => exact e.narrows_loseZone r z reason

/-- A change of a call's granted and suspended sets. -/
theorem Event.narrows_sets (e : Event) (r : CallRef) (g h : Call → ZoneSet) :
    e.Narrows (e.changeCall r fun c => { c with granted := g c, suspended := h c }) :=
  e.narrows_changeCall r _ fun _ => ⟨rfl, rfl, rfl, rfl, rfl, fun _ h => h⟩

/-- A grant. -/
theorem Event.narrows_grantZone (e : Event) (z : Zone) (w : CallRef) : e.Narrows (e.grantZone z w).1 := by
  unfold Event.grantZone
  split
  · exact .refl e
  · exact (e.narrows_sets w (fun c => ZoneSet.add c.granted z) fun c => ZoneSet.remove c.suspended z).of_calls rfl

/-- A displacement. -/
theorem Event.narrows_displace (e : Event) (z : Zone) (l : CallRef) (reason : LossReason) :
    e.Narrows (e.displace z l reason).1 := by
  unfold Event.displace
  split
  · exact (Event.Narrows.refl e).of_calls rfl
  · split
    · exact (e.narrows_sets l (fun c => ZoneSet.remove c.granted z) Call.suspended).of_calls rfl
    · have h := e.narrows_sets l (fun c => ZoneSet.remove c.granted z) fun c => ZoneSet.add c.suspended z
      dsimp only
      split
      · exact h.of_calls rfl
      · exact (h.trans (Event.narrows_sets _ _ Call.granted fun c => ZoneSet.remove c.suspended z)).of_calls rfl

/-- An evaluation. -/
theorem Event.narrows_evaluate (p : Plan) (e : Event) (z : Zone) : e.Narrows (Event.evaluate p e z) := by
  unfold Event.evaluate
  split
  · refine Event.Narrows.trans ?_ (Event.Narrows.foldl _ Event.narrows_takeReport _ _)
    unfold Event.decideZone
    split
    · exact .refl e
    · exact e.narrows_displace _ _ _
    · exact e.narrows_grantZone _ _
    · split
      · exact .refl e
      · exact (e.narrows_displace _ _ _).trans (Event.narrows_grantZone _ _ _)
  · exact .refl e

/-- Evaluations of some zones. -/
theorem Event.narrows_evaluateAll (p : Plan) (zs : List Zone) (e : Event) : e.Narrows (e.evaluateAll p zs) :=
  Event.Narrows.foldl _ (Event.narrows_evaluate p) zs e

/-- The pruning at the end of an event. -/
theorem Event.narrows_settle (e : Event) : e.Narrows e.settle := by
  refine Event.Narrows.foldl _ (fun e r => ?_) _ _
  unfold Event.prune
  split
  · exact .refl e
  · exact Event.Narrows.foldl _ (fun e z => e.narrows_loseZone r z .late) _ _

/-- The end of a call with its withdrawals and evaluations. -/
theorem Event.narrows_endCall (p : Plan) (r : CallRef) (cause : EndCause) (e : Event) :
    e.Narrows (e.endCall p r cause) := by
  unfold Event.endCall
  split
  · exact .refl e
  · rename_i c _
    have h1 : e.Narrows (e.changeCall r fun c => { c with target := 0#16 }) :=
      e.narrows_changeCall r _ fun c => ⟨rfl, rfl, rfl, rfl, rfl, fun z h => by simp at h⟩
    have h2 := Event.Narrows.foldl (Event.withdraw r c.source)
      (fun e z => (e.narrows_sets r (fun c => ZoneSet.remove c.granted z)
        fun c => ZoneSet.remove c.suspended z).of_calls rfl)
      (ZoneSet.zones (c.granted ||| c.suspended)) (e.changeCall r fun c => { c with target := 0#16 })
    exact ((h1.trans h2).trans (Event.narrows_evaluateAll _ _ _)).trans (Event.narrows_finishCall _ _ _)

/-- A zone made unused at a plan switch. -/
theorem Event.narrows_emptyZone (e : Event) (z : Zone) : e.Narrows (e.emptyZone z) := by
  unfold Event.emptyZone
  dsimp only
  refine Event.Narrows.trans ?_ (Event.Narrows.foldl _ (fun e r => e.narrows_loseZone r z .plan) _ _)
  refine Event.Narrows.trans ?_ (Event.Narrows.foldl _ (fun e r =>
    e.narrows_sets r (fun c => ZoneSet.remove c.granted z) fun c => ZoneSet.remove c.suspended z) _ _)
  exact (Event.Narrows.refl e).of_calls rfl

/-- The removal of an unused zone from the target sets. -/
theorem Event.narrows_dropTargets (e : Event) (z : Zone) : e.Narrows (e.dropTargets z) :=
  Event.Narrows.foldl _ (fun e r => e.narrows_loseZone r z .plan) _ _

/-- A plan switch: no call opens, no target set widens. -/
theorem Event.narrows_switchPlan (old new : Plan) (e : Event) : e.Narrows (e.switchPlan old new) :=
  ((Event.Narrows.foldl _ Event.narrows_emptyZone _ _).trans
    (Event.Narrows.foldl _ Event.narrows_dropTargets _ _)).trans (Event.narrows_evaluateAll _ _ _)

end Sys2Proof.Machine
end

