-- ==== Sys2Proof/Laws/Sine.lean ====
section
/-! SUPPORT. The fixed-point sine is the sine of R77, rounded to the nearest integer (log 17). -/

namespace Sys2Proof.Machine

/-! ### The series of the sine over the reals -/

/-- The partial sum of `fuel` terms of the alternating series that begins with the term of order `n`. -/
noncomputable def sineSum (x : ℝ) : Nat → Nat → ℝ
  | 0, _ => 0
  | fuel + 1, n => x ^ n / n.factorial - sineSum x fuel (n + 2)

/-- The partial sums as sums over a range. -/
theorem sineSum_eq (x : ℝ) (fuel n : Nat) :
    sineSum x fuel n = ∑ i ∈ Finset.range fuel, (-1) ^ i * (x ^ (n + 2 * i) / (n + 2 * i).factorial) := by
  induction fuel generalizing n with
  | zero => simp [sineSum]
  | succ fuel ih =>
    rw [sineSum, ih, Finset.sum_range_succ', sub_eq_add_neg, add_comm, ← Finset.sum_neg_distrib]
    congr 1
    · refine Finset.sum_congr rfl fun i _ => ?_
      rw [show n + 2 + 2 * i = n + 2 * (i + 1) by ring, pow_succ]
      ring
    · simp

/-- For an angle up to 3/2 and a little, the sine lies between 14 and 15 terms of its series. -/
theorem sine_between (x : ℝ) (h0 : 0 ≤ x) (h2 : x ≤ 2) :
    sineSum x 14 1 ≤ Real.sin x ∧ Real.sin x ≤ sineSum x 14 1 + x ^ 29 / (29).factorial := by
  let f : ℕ → ℝ := fun i => x ^ (1 + 2 * i) / (1 + 2 * i).factorial
  have hf : Antitone f := by
    refine antitone_nat_of_succ_le fun i => ?_
    have hk : 0 < ((1 + 2 * i).factorial : ℝ) := by positivity
    show x ^ (1 + 2 * (i + 1)) / ((1 + 2 * (i + 1)).factorial : ℝ) ≤ x ^ (1 + 2 * i) / (1 + 2 * i).factorial
    rw [show 1 + 2 * (i + 1) = (1 + 2 * i + 1) + 1 by ring, Nat.factorial_succ, Nat.factorial_succ, pow_succ, pow_succ]
    push_cast
    rw [div_le_div_iff₀ (by positivity) hk]
    have hp : 0 ≤ x ^ (1 + 2 * i) := by positivity
    have hx : x * x ≤ (1 + 2 * (i : ℝ) + 1 + 1) * (1 + 2 * (i : ℝ) + 1) := by
      have hi : (0 : ℝ) ≤ i := Nat.cast_nonneg i
      nlinarith
    nlinarith [mul_le_mul_of_nonneg_left hx (mul_nonneg hp hk.le)]
  have hs : Filter.Tendsto (fun n => ∑ i ∈ Finset.range n, (-1) ^ i * f i) Filter.atTop (nhds (Real.sin x)) := by
    have := (Real.hasSum_sin x).tendsto_sum_nat
    refine this.congr fun n => Finset.sum_congr rfl fun i _ => ?_
    show (-1) ^ i * x ^ (2 * i + 1) / ((2 * i + 1).factorial : ℝ) = (-1) ^ i * (x ^ (1 + 2 * i) / (1 + 2 * i).factorial)
    rw [add_comm 1 (2 * i)]
    ring
  have lo := hf.alternating_series_le_tendsto hs 7
  have hi := hf.tendsto_le_alternating_series hs 7
  rw [sineSum_eq]
  refine ⟨lo, hi.trans ?_⟩
  rw [Finset.sum_range_succ]
  have : (-1 : ℝ) ^ (2 * 7) * f (2 * 7) = x ^ 29 / (29).factorial := by
    show (-1 : ℝ) ^ (2 * 7) * (x ^ (1 + 2 * (2 * 7)) / (1 + 2 * (2 * 7)).factorial) = _
    norm_num
  rw [this]

/-! ### The fixed-point series -/

/-- The scale of the fixed-point numbers. -/
noncomputable def fixedScale : ℝ := 18446744073709551616

/-- A quotient of natural numbers lies within one of the real quotient. -/
theorem div_between (a b : Nat) (hb : 0 < b) : (a : ℝ) / b - 1 < (a / b : Nat) ∧ ((a / b : Nat) : ℝ) ≤ (a : ℝ) / b := by
  have hb' : (0 : ℝ) < b := by exact_mod_cast hb
  refine ⟨?_, Nat.cast_div_le⟩
  rw [sub_lt_iff_lt_add, div_lt_iff₀ hb']
  have := Nat.lt_div_mul_add (a := a) hb
  have h : a < (a / b + 1) * b := by nlinarith
  exact_mod_cast h

/-- A result of the series is at most its first term. -/
theorem sineSeries_le (sq fuel n term : Nat) : sineSeries sq fuel n term ≤ term := by
  cases fuel with
  | zero => exact Nat.zero_le _
  | succ fuel => exact Nat.sub_le _ _

/-- The fixed-point series follows the real one: each term is at most 5 units off. -/
theorem sineSeries_near (x : ℝ) (sq : Nat) (h0 : 0 ≤ x) (hx : x * x ≤ 5 / 2)
    (hsq : |(sq : ℝ) - x * x * fixedScale| ≤ 2) (fuel n term : Nat) (hn : 1 ≤ n)
    (hs : x ^ n / n.factorial ≤ 2)
    (ht : |(term : ℝ) - x ^ n / n.factorial * fixedScale| ≤ 5) :
    |(sineSeries sq fuel n term : ℝ) - sineSum x fuel n * fixedScale| ≤ 5 * fuel := by
  induction fuel generalizing n term with
  | zero => simp [sineSeries, sineSum]
  | succ fuel ih =>
    set next := term * sq / 18446744073709551616 / ((n + 1) * (n + 2)) with hnext
    have hS : fixedScale = 18446744073709551616 := rfl
    have hf : (0 : ℝ) < n.factorial := by positivity
    have ht0 : 0 ≤ x ^ n / n.factorial := by positivity
    have hn' : (1 : ℝ) ≤ n := by exact_mod_cast hn
    have hd : (6 : ℝ) ≤ (n + 1) * (n + 2) := by nlinarith
    have hstep : x ^ (n + 2) / ((n + 2).factorial : ℝ) = x ^ n / n.factorial * (x * x) / ((n + 1) * (n + 2)) := by
      rw [Nat.factorial_succ, Nat.factorial_succ, pow_succ, pow_succ]
      push_cast
      field_simp
      ring
    -- the product of the term and the square, in fixed point
    have ⟨p1, p2⟩ := div_between (term * sq) 18446744073709551616 (by norm_num)
    have ⟨q1, q2⟩ := div_between (term * sq / 18446744073709551616) ((n + 1) * (n + 2)) (by positivity)
    set t := x ^ n / (n.factorial : ℝ) with htd
    have hsq1 := abs_le.1 hsq
    have ht1 := abs_le.1 ht
    have hterm0 : (0 : ℝ) ≤ term := Nat.cast_nonneg _
    have hsq0 : (0 : ℝ) ≤ sq := Nat.cast_nonneg _
    have hy : (0 : ℝ) ≤ x * x := mul_self_nonneg x
    have hprod : |((term * sq / 18446744073709551616 : Nat) : ℝ) - t * (x * x) * fixedScale| ≤ 19 := by
      push_cast at p1 p2
      rw [hS] at *
      have e1 : (term : ℝ) * sq / 18446744073709551616 - t * (x * x) * 18446744073709551616 =
          ((term - t * 18446744073709551616) * sq + t * 18446744073709551616 * (sq - x * x * 18446744073709551616)) /
            18446744073709551616 := by
        field_simp
        ring
      have e2 : |(term - t * 18446744073709551616) * sq + t * 18446744073709551616 * (sq - x * x * 18446744073709551616)| ≤
          18 * 18446744073709551616 := by
        refine (abs_add_le _ _).trans ?_
        rw [abs_mul, abs_mul, abs_of_nonneg hsq0, abs_of_nonneg (by positivity : (0 : ℝ) ≤ t * 18446744073709551616)]
        have a1 : |(term : ℝ) - t * 18446744073709551616| * sq ≤ 5 * (5 / 2 * 18446744073709551616 + 2) := by
          refine mul_le_mul ht ?_ hsq0 (by norm_num)
          nlinarith [hsq1.2]
        have a2 : t * 18446744073709551616 * |(sq : ℝ) - x * x * 18446744073709551616| ≤
            (2 * 18446744073709551616) * 2 := by
          refine mul_le_mul (by nlinarith) hsq (abs_nonneg _) (by norm_num)
        nlinarith
      have e3 : |(term : ℝ) * sq / 18446744073709551616 - t * (x * x) * 18446744073709551616| ≤ 18 := by
        rw [e1, abs_div, abs_of_pos (by norm_num : (0 : ℝ) < 18446744073709551616), div_le_iff₀ (by norm_num)]
        exact e2
      have e4 := abs_le.1 e3
      rw [abs_le]
      constructor <;> linarith
    have hnear : |(next : ℝ) - x ^ (n + 2) / ((n + 2).factorial : ℝ) * fixedScale| ≤ 5 := by
      have hp := abs_le.1 hprod
      have hd0 : (0 : ℝ) < (n + 1) * (n + 2) := by linarith
      push_cast at q1 q2
      rw [hstep]
      have e : t * (x * x) / ((n + 1) * (n + 2)) * fixedScale = t * (x * x) * fixedScale / ((n + 1) * (n + 2)) := by ring
      rw [e]
      have b1 : |((term * sq / 18446744073709551616 : Nat) : ℝ) / ((n + 1) * (n + 2)) -
          t * (x * x) * fixedScale / ((n + 1) * (n + 2))| ≤ 19 / 6 := by
        rw [← sub_div, abs_div, abs_of_pos hd0]
        calc _ ≤ 19 / ((n + 1) * (n + 2) : ℝ) := by gcongr
          _ ≤ 19 / 6 := by gcongr
      have b2 := abs_le.1 b1
      rw [abs_le]
      rw [hnext]
      constructor <;> linarith
    have hsmall : x ^ (n + 2) / ((n + 2).factorial : ℝ) ≤ 2 := by
      rw [hstep, div_le_iff₀ (by linarith)]
      nlinarith
    have hle : next ≤ term := by
      have hsq3 : sq ≤ 6 * 18446744073709551616 := by
        have : (sq : ℝ) ≤ 6 * 18446744073709551616 := by rw [hS] at hsq1; nlinarith [hsq1.2]
        exact_mod_cast this
      have h1 : term * sq / 18446744073709551616 ≤ term * 6 := by
        apply Nat.div_le_of_le_mul
        nlinarith
      have h2 : 6 ≤ (n + 1) * (n + 2) := by nlinarith
      calc next ≤ term * 6 / ((n + 1) * (n + 2)) := Nat.div_le_div_right h1
        _ ≤ term * 6 / 6 := Nat.div_le_div_left h2 (by norm_num)
        _ = term := by omega
    have hi := ih (n + 2) next (by omega) hsmall hnear
    have hlast : sineSeries sq fuel (n + 2) next ≤ term := (sineSeries_le _ _ _ _).trans hle
    rw [sineSeries, Nat.cast_sub hlast, sineSum]
    have e : ((term : ℝ) - (sineSeries sq fuel (n + 2) next : ℝ)) - (t - sineSum x fuel (n + 2)) * fixedScale =
        (term - t * fixedScale) - ((sineSeries sq fuel (n + 2) next : ℝ) - sineSum x fuel (n + 2) * fixedScale) := by ring
    rw [e]
    refine (abs_sub _ _).trans ?_
    push_cast
    linarith

/-! ### The rounding -/

/-- The sine of an angle of j/48,000 of a cycle in fixed point, before it is scaled and rounded. -/
def fixedSine (j : Nat) : Nat :=
  let angle := piScaled * j / 24000
  sineSeries (angle * angle / 18446744073709551616) 14 1 angle

/-- The fixed-point sine of a first-quarter angle is the sine to 46 bits. -/
theorem fixedSine_near (j : Nat) (hj : j ≤ 12000) :
    |(fixedSine j : ℝ) - Real.sin (Real.pi * j / 24000) * fixedScale| ≤ 100 := by
  have hS : fixedScale = 18446744073709551616 := rfl
  have hj' : (j : ℝ) ≤ 12000 := by exact_mod_cast hj
  have hj0 : (0 : ℝ) ≤ j := Nat.cast_nonneg j
  obtain ⟨a1, a2⟩ := div_between (piScaled * j) 24000 (by norm_num)
  set angle := piScaled * j / 24000 with hangle
  have hP : (piScaled : ℝ) = 57952155664616982739 := by norm_num [piScaled]
  push_cast at a1 a2
  rw [hP] at a1 a2
  set x : ℝ := angle / fixedScale with hx
  have hxs : x * fixedScale = angle := by rw [hx, hS]; field_simp
  have hx0 : 0 ≤ x := by rw [hx, hS]; positivity
  have hxu : x ≤ 1.5708 := by
    rw [hx, hS, div_le_iff₀ (by norm_num)]
    have : (57952155664616982739 : ℝ) * j / 24000 ≤ 57952155664616982739 * 12000 / 24000 := by gcongr
    norm_num at this ⊢
    linarith
  have hxx : x * x ≤ 5 / 2 := by nlinarith
  have hsq : |((angle * angle / 18446744073709551616 : Nat) : ℝ) - x * x * fixedScale| ≤ 2 := by
    obtain ⟨b1, b2⟩ := div_between (angle * angle) 18446744073709551616 (by norm_num)
    have e : x * x * fixedScale = (angle : ℝ) * angle / 18446744073709551616 := by
      rw [hx, hS]; field_simp
    rw [e, abs_le]
    push_cast at b1 b2 ⊢
    constructor <;> linarith
  have hnear := sineSeries_near x _ hx0 hxx hsq 14 1 angle (le_refl 1) (by norm_num; linarith)
    (by norm_num; rw [hxs]; norm_num)
  obtain ⟨s1, s2⟩ := sine_between x hx0 (by linarith)
  have hlast : x ^ 29 / ((29).factorial : ℝ) * fixedScale ≤ 1 := by
    have : x ^ 29 ≤ 2 ^ 29 := by gcongr; linarith
    have h29 : ((Nat.factorial 29 : ℕ) : ℝ) = 8841761993739701954543616000000 := by norm_num [Nat.factorial]
    rw [hS, h29]
    rw [div_mul_eq_mul_div, div_le_iff₀ (by norm_num)]
    nlinarith
  -- the angle against the true one
  have hpi : |Real.pi * j / 24000 - x| * fixedScale ≤ 2 := by
    have p1 := Real.pi_gt_d20
    have p2 := Real.pi_lt_d20
    have e : (Real.pi * j / 24000 - x) * fixedScale = Real.pi * j / 24000 * fixedScale - angle := by rw [sub_mul, hxs]
    have hpos : 0 < fixedScale := by rw [hS]; norm_num
    have ea : |Real.pi * j / 24000 - x| * fixedScale = |(Real.pi * j / 24000 - x) * fixedScale| := by
      rw [abs_mul, abs_of_pos hpos]
    rw [ea, e, hS, abs_le]
    have c1 : (Real.pi * 18446744073709551616 - 57952155664616982739) * (j / 24000) ≤ 1 := by
      have : Real.pi * 18446744073709551616 - 57952155664616982739 ≤ 2 := by norm_num at p2 ⊢; linarith
      have h2 : (j : ℝ) / 24000 ≤ 1 / 2 := by linarith
      have h3 : (0 : ℝ) ≤ j / 24000 := by positivity
      nlinarith
    have c2 : -1 ≤ (Real.pi * 18446744073709551616 - 57952155664616982739) * (j / 24000) := by
      have : -2 ≤ Real.pi * 18446744073709551616 - 57952155664616982739 := by norm_num at p1 ⊢; linarith
      have h2 : (j : ℝ) / 24000 ≤ 1 / 2 := by linarith
      have h3 : (0 : ℝ) ≤ j / 24000 := by positivity
      nlinarith
    constructor <;> nlinarith
  have hlip : |Real.sin (Real.pi * j / 24000) - Real.sin x| ≤ |Real.pi * j / 24000 - x| := by
    have := Real.abs_sin_sub_sin_le (Real.pi * j / 24000) x
    exact this
  have hpos : 0 < fixedScale := by rw [hS]; norm_num
  have hsin : |Real.sin (Real.pi * j / 24000) * fixedScale - Real.sin x * fixedScale| ≤ 2 := by
    rw [← sub_mul, abs_mul, abs_of_pos hpos]
    exact (mul_le_mul_of_nonneg_right hlip hpos.le).trans hpi
  have hn := abs_le.1 hnear
  have hs := abs_le.1 hsin
  have s1' := mul_le_mul_of_nonneg_right s1 hpos.le
  have s2' := mul_le_mul_of_nonneg_right s2 hpos.le
  rw [add_mul] at s2'
  show |((sineSeries (angle * angle / 18446744073709551616) 14 1 angle : Nat) : ℝ) - _| ≤ 100
  rw [abs_le]
  push_cast at hn
  constructor <;> linarith

/-- A scaled sine stays clear of the halves, where its rounding could go wrong. -/
def clearOfHalf (j : Nat) : Bool :=
  let r := (fixedSine j * 4194304 + 9223372036854775808) % 18446744073709551616
  decide (1099511627776 ≤ r) && decide (r ≤ 18446742974197923840)

/-- The scaled sines of some successive angles stay clear of the halves. -/
def allClear : Nat → Nat → Bool
  | 0, _ => true
  | n + 1, j => clearOfHalf j && allClear n (j + 1)

/-- Each of the angles checked is clear. -/
theorem allClear_spec {n j : Nat} (h : allClear n j = true) : ∀ i, j ≤ i → i < j + n → clearOfHalf i = true := by
  induction n generalizing j with
  | zero => intro i h1 h2; omega
  | succ n ih =>
    simp only [allClear, Bool.and_eq_true] at h
    intro i h1 h2
    by_cases e : i = j
    · subst e; exact h.1
    · exact ih h.2 i (by omega) (by omega)

/-! The angles are checked in six parts. -/

theorem clear_0 : allClear 2000 0 = true := by decide +kernel
theorem clear_2000 : allClear 2000 2000 = true := by decide +kernel
theorem clear_4000 : allClear 2000 4000 = true := by decide +kernel
theorem clear_6000 : allClear 2000 6000 = true := by decide +kernel
theorem clear_8000 : allClear 2000 8000 = true := by decide +kernel
theorem clear_10000 : allClear 2001 10000 = true := by decide +kernel

/-- Every first-quarter angle is clear. -/
theorem clear_all (j : Nat) (hj : j ≤ 12000) : clearOfHalf j = true := by
  by_cases h1 : j < 2000
  · exact allClear_spec clear_0 j (by omega) (by omega)
  by_cases h2 : j < 4000
  · exact allClear_spec clear_2000 j (by omega) (by omega)
  by_cases h3 : j < 6000
  · exact allClear_spec clear_4000 j (by omega) (by omega)
  by_cases h4 : j < 8000
  · exact allClear_spec clear_6000 j (by omega) (by omega)
  by_cases h5 : j < 10000
  · exact allClear_spec clear_8000 j (by omega) (by omega)
  · exact allClear_spec clear_10000 j (by omega) (by omega)

/-- In the first quarter the sample is the scaled sine rounded to the nearest integer (R77). -/
theorem quarterSine_nearest (j : Nat) (hj : j ≤ 12000) :
    |(quarterSine j : ℝ) - 4194304 * Real.sin (Real.pi * j / 24000)| < 1 / 2 := by
  have hn := abs_le.1 (fixedSine_near j hj)
  have hc := clear_all j hj
  simp only [clearOfHalf, Bool.and_eq_true, decide_eq_true_eq] at hc
  have hq : quarterSine j = (fixedSine j * 4194304 + 9223372036854775808) / 18446744073709551616 := rfl
  have hd := Nat.div_add_mod (fixedSine j * 4194304 + 9223372036854775808) 18446744073709551616
  rw [← hq] at hd
  set r := (fixedSine j * 4194304 + 9223372036854775808) % 18446744073709551616 with hr
  have hd' : 18446744073709551616 * (quarterSine j : ℝ) + r = fixedSine j * 4194304 + 9223372036854775808 := by
    exact_mod_cast hd
  have c1 : (1099511627776 : ℝ) ≤ r := by exact_mod_cast hc.1
  have c2 : (r : ℝ) ≤ 18446742974197923840 := by exact_mod_cast hc.2
  simp only [fixedScale] at hn
  rw [abs_lt]
  constructor <;> linarith

/-- The sample of the sine rule is 4,194,304 times the sine of the phase, rounded to the nearest integer (R77). -/
theorem sineSample_nearest (k : Nat) (hk : k < 48000) :
    |(sineSample k : ℝ) - 4194304 * Real.sin (2 * Real.pi * (k / 48000))| < 1 / 2 := by
  have e : 2 * Real.pi * ((k : ℝ) / 48000) = Real.pi * k / 24000 := by ring
  rw [e]
  have hr : k % 12000 ≤ 12000 := (Nat.mod_lt _ (by norm_num)).le
  have hm := Nat.div_add_mod k 12000
  have hk' : (k : ℝ) = 12000 * (k / 12000 : Nat) + (k % 12000 : Nat) := by exact_mod_cast hm.symm
  have n1 := quarterSine_nearest (k % 12000) hr
  have n2 := quarterSine_nearest (12000 - k % 12000) (by omega)
  rw [Nat.cast_sub hr] at n2
  have hq : k / 12000 < 4 := by omega
  have hcases : k / 12000 = 0 ∨ k / 12000 = 1 ∨ k / 12000 = 2 ∨ k / 12000 = 3 := by omega
  simp only [sineSample]
  set r := k % 12000 with hrd
  have comp : Real.sin (Real.pi * ((12000 : ℕ) - (r : ℝ)) / 24000) = Real.cos (Real.pi * r / 24000) := by
    rw [← Real.sin_pi_div_two_sub]; congr 1; push_cast; ring
  rw [comp] at n2
  rcases hcases with h | h | h | h <;> rw [h] at hk' ⊢ <;> push_cast at hk' ⊢ <;> rw [hk']
  · rw [show Real.pi * (12000 * 0 + (r : ℝ)) / 24000 = Real.pi * r / 24000 by ring]; exact n1
  · rw [show Real.pi * (12000 * 1 + (r : ℝ)) / 24000 = Real.pi * r / 24000 + Real.pi / 2 by ring, Real.sin_add_pi_div_two]
    exact n2
  · rw [show Real.pi * (12000 * 2 + (r : ℝ)) / 24000 = Real.pi * r / 24000 + Real.pi by ring, Real.sin_add_pi]
    rw [abs_lt] at n1 ⊢
    constructor <;> linarith
  · rw [show Real.pi * (12000 * 3 + (r : ℝ)) / 24000 = Real.pi * r / 24000 + Real.pi / 2 + Real.pi by ring, Real.sin_add_pi,
      Real.sin_add_pi_div_two]
    rw [abs_lt] at n2 ⊢
    constructor <;> linarith

end Sys2Proof.Machine
end

