-- ==== Sys2Proof/Laws/Switch.lean ====
section
/-! SUPPORT. The removals of a plan switch (R29, R61): what they make of every call, said by the pairs of a call and a zone
that have been removed so far. -/

namespace Sys2Proof.Machine

/-- How an event stands to the call table it started from, when the zones that `gone` names have left the target sets and
those that `unheld` names the granted and suspended sets: the losses are recorded, a call with no zone left has ended
NO_ZONES, and every other call keeps all but its sets. -/
structure Removed (calls : CallTable) (x : Event) (gone unheld : CallRef → Zone → Prop) : Prop where
  told : ∀ r c, calls.call? r = some c → ∀ z, ZoneSet.has c.target z = true → gone r z →
    (r, z, LossReason.plan) ∈ x.lost
  finished : ∀ r c, calls.call? r = some c → (∀ z, ZoneSet.has c.target z = true → gone r z) →
    x.calls.call? r = none ∧ (r, EndCause.noZones) ∈ x.ended
  kept : ∀ r c, calls.call? r = some c → (∃ z, ZoneSet.has c.target z = true ∧ ¬ gone r z) →
    ∃ d, x.calls.call? r = some d ∧
      d = { c with target := d.target, granted := d.granted, suspended := d.suspended } ∧
      ∀ z, (ZoneSet.has d.target z = true ↔ ZoneSet.has c.target z = true ∧ ¬ gone r z) ∧
        (ZoneSet.has d.granted z = true ↔ ZoneSet.has c.granted z = true ∧ ¬ unheld r z) ∧
        (ZoneSet.has d.suspended z = true ↔ ZoneSet.has c.suspended z = true ∧ ¬ unheld r z)

/-- At the start nothing is removed. -/
theorem Removed.start {x : Event} (h : ∀ r c, x.calls.call? r = some c → c.target ≠ 0#16) :
    Removed x.calls x (fun _ _ => False) fun _ _ => False := by
  refine ⟨fun r c _ z _ k => k.elim, fun r c hc k => ?_, fun r c hc _ => ⟨c, hc, rfl, by simp⟩⟩
  exact absurd (ZoneSet.ext_has fun z => by rw [ZoneSet.has_empty]; exact eq_false_of_ne_true (k z)) (h r c hc)

/-- Only the zones that a call wants, or holds, matter. -/
theorem Removed.congr {calls : CallTable} {x : Event} {gone gone' unheld unheld' : CallRef → Zone → Prop}
    (h : Removed calls x gone unheld)
    (hg : ∀ r c z, calls.call? r = some c → ZoneSet.has c.target z = true → (gone r z ↔ gone' r z))
    (hu : ∀ r c z, calls.call? r = some c → (ZoneSet.has c.granted z = true ∨ ZoneSet.has c.suspended z = true) →
      (unheld r z ↔ unheld' r z)) :
    Removed calls x gone' unheld' := by
  refine ⟨fun r c hc z hz k => h.told r c hc z hz ((hg r c z hc hz).2 k),
    fun r c hc k => h.finished r c hc fun z hz => (hg r c z hc hz).2 (k z hz), fun r c hc ⟨y, hy, k⟩ => ?_⟩
  obtain ⟨d, hd, he, hs⟩ := h.kept r c hc ⟨y, hy, fun q => k ((hg r c y hc hy).1 q)⟩
  refine ⟨d, hd, he, fun z => ⟨?_, ?_, ?_⟩⟩
  · rw [(hs z).1]
    exact and_congr_right fun q => not_congr (hg r c z hc q)
  · rw [(hs z).2.1]
    exact and_congr_right fun q => not_congr (hu r c z hc (.inl q))
  · rw [(hs z).2.2]
    exact and_congr_right fun q => not_congr (hu r c z hc (.inr q))

/-- Changes of zone records and other parts of the log do not matter. -/
theorem Removed.of_eq {calls : CallTable} {x y : Event} {gone unheld : CallRef → Zone → Prop}
    (h : Removed calls x gone unheld) (h1 : y.calls = x.calls) (h2 : y.lost = x.lost) (h3 : y.ended = x.ended) :
    Removed calls y gone unheld := by
  refine ⟨?_, ?_, ?_⟩
  · rw [h2]; exact h.told
  · rw [h1, h3]; exact h.finished
  · rw [h1]; exact h.kept

/-- One zone is lost. -/
theorem Removed.loseZone {calls : CallTable} {x : Event} {gone unheld : CallRef → Zone → Prop}
    (h : Removed calls x gone unheld) (r : CallRef) (z : Zone) :
    Removed calls (x.loseZone r z .plan) (fun q y => gone q y ∨ (q = r ∧ y = z)) unheld := by
  cases hx : x.calls.call? r with
  | none =>
    have hs : x.loseZone r z .plan = x := by simp [Event.loseZone, hx]
    rw [hs]
    refine h.congr (fun q c y hc hy => ⟨Or.inl, ?_⟩) fun _ _ _ _ _ => Iff.rfl
    rintro (k | ⟨rfl, rfl⟩)
    · exact k
    · refine Classical.byContradiction fun k => ?_
      obtain ⟨d, hd, -⟩ := h.kept q c hc ⟨y, hy, k⟩
      rw [hx] at hd
      cases hd
  | some d =>
    obtain ⟨hc', hl, he, -⟩ := Event.loseZone_spec x r z .plan d hx
    -- Where the call is open, its target set is the old one without the zones gone.
    have open_ : ∀ c, calls.call? r = some c → (∃ y, ZoneSet.has c.target y = true ∧ ¬ gone r y) := by
      intro c hc
      refine Classical.byContradiction fun k => ?_
      have := (h.finished r c hc fun y hy => Classical.byContradiction fun q => k ⟨y, hy, q⟩).1
      rw [hx] at this
      cases this
    have empty : ∀ c, calls.call? r = some c → (ZoneSet.remove d.target z = 0#16 ↔
        ∀ y, ZoneSet.has c.target y = true → gone r y ∨ y = z) := by
      intro c hc
      obtain ⟨d', hd', -, hs⟩ := h.kept r c hc (open_ c hc)
      rw [hx] at hd'
      injection hd' with hd'
      subst hd'
      constructor
      · intro k y hy
        have : ZoneSet.has (ZoneSet.remove d.target z) y = false := by rw [k, ZoneSet.has_empty]
        rw [ZoneSet.has_remove] at this
        by_cases q : y = z
        · exact .inr q
        · left
          refine Classical.byContradiction fun g => ?_
          rw [(hs y).1.2 ⟨hy, g⟩] at this
          simp [q] at this
      · intro k
        refine ZoneSet.ext_has fun y => ?_
        rw [ZoneSet.has_remove, ZoneSet.has_empty]
        cases hy : ZoneSet.has d.target y with
        | false => rfl
        | true =>
          obtain ⟨h1, h2⟩ := (hs y).1.1 hy
          rcases k y h1 with q | q
          · exact absurd q h2
          · simp [q]
    refine ⟨fun q c hc y hy k => ?_, fun q c hc k => ?_, fun q c hc ⟨y, hy, k⟩ => ?_⟩
    · rw [hl]
      rcases k with k | ⟨rfl, rfl⟩
      · exact List.mem_append_left _ (h.told q c hc y hy k)
      · exact List.mem_append_right _ (by simp)
    · rw [hc', he]
      by_cases hq : q = r
      · subst hq
        rw [if_pos rfl, if_pos ((empty c hc).2 fun y hy => (k y hy).imp_right And.right),
          if_pos ((empty c hc).2 fun y hy => (k y hy).imp_right And.right)]
        exact ⟨rfl, by simp⟩
      · rw [if_neg hq]
        obtain ⟨h1, h2⟩ := h.finished q c hc fun y hy => (k y hy).resolve_right fun g => hq g.1
        exact ⟨h1, List.mem_append_left _ h2⟩
    · obtain ⟨d', hd', he', hs⟩ := h.kept q c hc ⟨y, hy, fun g => k (.inl g)⟩
      by_cases hq : q = r
      · subst hq
        rw [hx] at hd'
        injection hd' with hd'
        subst hd'
        have hne : ZoneSet.remove d.target z ≠ 0#16 := fun g => by
          rcases (empty c hc).1 g y hy with g | g
          · exact k (.inl g)
          · exact k (.inr ⟨rfl, g⟩)
        refine ⟨{ d with target := ZoneSet.remove d.target z }, by rw [hc', if_pos rfl, if_neg hne], by rw [he'],
          fun v => ⟨?_, (hs v).2.1, (hs v).2.2⟩⟩
        rw [ZoneSet.has_remove, Bool.and_eq_true, (hs v).1]
        simp only [decide_eq_true_eq, true_and, not_or, and_assoc]
      · refine ⟨d', by rw [hc', if_neg hq]; exact hd', he', fun v => ⟨?_, (hs v).2.1, (hs v).2.2⟩⟩
        rw [(hs v).1]
        simp [hq]

/-- Some calls lose a zone. -/
theorem Removed.loseZones {calls : CallTable} {gone unheld : CallRef → Zone → Prop} (z : Zone) (rs : List CallRef)
    {x : Event} (h : Removed calls x gone unheld) :
    Removed calls (rs.foldl (fun e r => e.loseZone r z .plan) x) (fun q y => gone q y ∨ (q ∈ rs ∧ y = z)) unheld := by
  induction rs generalizing x gone with
  | nil => exact h.congr (by simp) (by simp)
  | cons r rest ih =>
    refine (ih (h.loseZone r z)).congr (fun q c y _ _ => ?_) (by simp)
    simp only [List.mem_cons]
    tauto

/-- A zone leaves a call's granted and suspended sets. -/
theorem Removed.unhold {calls : CallTable} {x : Event} {gone unheld : CallRef → Zone → Prop}
    (h : Removed calls x gone unheld) (r : CallRef) (z : Zone) :
    Removed calls
      (x.changeCall r fun c =>
        { c with granted := ZoneSet.remove c.granted z, suspended := ZoneSet.remove c.suspended z })
      gone fun q y => unheld q y ∨ (q = r ∧ y = z) := by
  refine ⟨h.told, fun q c hc k => ?_, fun q c hc k => ?_⟩
  · obtain ⟨h1, h2⟩ := h.finished q c hc k
    refine ⟨?_, h2⟩
    rw [Event.call?_changeCall]
    split
    · rename_i e; subst e; rw [h1]; rfl
    · exact h1
  · obtain ⟨d, hd, he, hs⟩ := h.kept q c hc k
    rw [Event.call?_changeCall]
    by_cases hq : q = r
    · subst hq
      refine ⟨{ d with granted := ZoneSet.remove d.granted z, suspended := ZoneSet.remove d.suspended z },
        by rw [if_pos rfl, hd]; rfl, by rw [he], fun v => ⟨(hs v).1, ?_, ?_⟩⟩
      · rw [ZoneSet.has_remove, Bool.and_eq_true, (hs v).2.1]
        simp only [decide_eq_true_eq, true_and, not_or, and_assoc]
      · rw [ZoneSet.has_remove, Bool.and_eq_true, (hs v).2.2]
        simp only [decide_eq_true_eq, true_and, not_or, and_assoc]
    · refine ⟨d, by rw [if_neg hq]; exact hd, he, fun v => ⟨(hs v).1, ?_, ?_⟩⟩
      · rw [(hs v).2.1]; simp [hq]
      · rw [(hs v).2.2]; simp [hq]

/-- A zone leaves the granted and suspended sets of some calls. -/
theorem Removed.unholds {calls : CallTable} {gone unheld : CallRef → Zone → Prop} (z : Zone) (rs : List CallRef)
    {x : Event} (h : Removed calls x gone unheld) :
    Removed calls
      (rs.foldl (fun e r => e.changeCall r fun c =>
        { c with granted := ZoneSet.remove c.granted z, suspended := ZoneSet.remove c.suspended z }) x)
      gone fun q y => unheld q y ∨ (q ∈ rs ∧ y = z) := by
  induction rs generalizing x unheld with
  | nil => exact h.congr (by simp) (by simp)
  | cons r rest ih =>
    refine (ih (h.unhold r z)).congr (by simp) (fun q c y _ _ => ?_)
    simp only [List.mem_cons]
    tauto

/-- The calls that are live or stacked on a zone. -/
def ZoneRecord.holders (zone : ZoneRecord) : List CallRef :=
  zone.state.live?.toList ++ zone.stack.map StackEntry.call

/-- Losses of zones and changes of calls leave the zone records. -/
theorem Event.foldl_loseZone_zones (z : Zone) (why : LossReason) (rs : List CallRef) (x : Event) :
    (rs.foldl (fun e r => e.loseZone r z why) x).zones = x.zones := by
  induction rs generalizing x with
  | nil => rfl
  | cons r rest ih => exact (ih _).trans (Event.takeReport_frame x (.loss r z why)).1

/-- Changes of calls leave the zone records. -/
theorem Event.foldl_changeCall_zones (f : Call → Call) (rs : List CallRef) (x : Event) :
    (rs.foldl (fun e r => e.changeCall r f) x).zones = x.zones := by
  induction rs generalizing x with
  | nil => rfl
  | cons r rest ih => exact ih _

/-- The record a zone made unused is left with (R61): the source of its live call is the last it served. -/
def ZoneRecord.vacated (zone : ZoneRecord) (calls : CallTable) : ZoneRecord :=
  { zone with
    state := .idle, stack := []
    lastServed := match zone.state.live? with
      | none => zone.lastServed
      | some l => match calls.call? l with
        | none => zone.lastServed
        | some c => some c.source }

/-- The records once a zone is made unused: its own is vacated (R61). -/
theorem Event.emptyZone_record (e : Event) (z y : Zone) :
    (e.emptyZone z).zones.get y = if y = z then (e.zones.get y).vacated e.calls else e.zones.get y := by
  unfold Event.emptyZone
  dsimp only
  rw [Event.foldl_loseZone_zones, Event.foldl_changeCall_zones]
  show (e.zones.modify z _).get y = _
  rw [Table.get_modify]
  by_cases h : z = y
  · subst h; rw [if_pos rfl, if_pos rfl]; rfl
  · rw [if_neg h, if_neg (Ne.symm h)]

/-- Everything a zone made unused does (R61): every call that was live or stacked there loses it with reason PLAN, its own
record is vacated, no other zone changes. -/
theorem Event.emptyZone_spec {calls : CallTable} {x : Event} {gone unheld : CallRef → Zone → Prop}
    (h : Removed calls x gone unheld) (z : Zone) :
    let held := (x.zones.get z).holders
    Removed calls (x.emptyZone z) (fun q y => gone q y ∨ (q ∈ held ∧ y = z)) (fun q y => unheld q y ∨ (q ∈ held ∧ y = z)) ∧
      ∀ y, (x.emptyZone z).zones.get y = if y = z then (x.zones.get y).vacated x.calls else x.zones.get y := by
  have h' : Removed calls (x.changeZone z fun zr => zr.vacated x.calls) gone unheld := h.of_eq rfl rfl rfl
  exact ⟨((h'.unholds z (x.zones.get z).holders).loseZones z (x.zones.get z).holders).of_eq rfl rfl rfl,
    Event.emptyZone_record x z⟩

/-- Everything the removal of an unused zone from the target sets does (R29). -/
theorem Event.dropTargets_spec {calls : CallTable} {x : Event} {gone unheld : CallRef → Zone → Prop}
    (h : Removed calls x gone unheld) (hl : ∀ r, (x.calls.call? r).isSome = true → r ∈ x.calls.admission) (z : Zone) :
    Removed calls (x.dropTargets z) (fun q y => gone q y ∨ y = z) unheld ∧ (x.dropTargets z).zones = x.zones := by
  refine ⟨(h.loseZones z (x.contenders z)).congr (fun r c y hc hy => ?_) (by simp), Event.foldl_loseZone_zones _ _ _ _⟩
  constructor
  · rintro (k | ⟨-, k⟩)
    · exact .inl k
    · exact .inr k
  · rintro (k | rfl)
    · exact .inl k
    · by_cases k : gone r y
      · exact .inl k
      · obtain ⟨d, hd, -, hs⟩ := h.kept r c hc ⟨y, hy, k⟩
        exact .inr ⟨Event.mem_contenders.2 ⟨hl r (by rw [hd]; rfl), d, hd, (hs y).1.2 ⟨hy, k⟩⟩, rfl⟩

/-- The unused zones leave every target set (R29), one after another. -/
theorem Event.dropTargets_foldl {calls : CallTable} {unheld : CallRef → Zone → Prop} (zs : List Zone)
    {x : Event} {gone : CallRef → Zone → Prop}
    (h : Removed calls x gone unheld) (hl : ∀ r, (x.calls.call? r).isSome = true → r ∈ x.calls.admission) :
    Removed calls (zs.foldl Event.dropTargets x) (fun q y => gone q y ∨ y ∈ zs) unheld ∧
      (zs.foldl Event.dropTargets x).zones = x.zones := by
  induction zs generalizing x gone with
  | nil => exact ⟨h.congr (by simp) (by simp), rfl⟩
  | cons z rest ih =>
    obtain ⟨h1, h2⟩ := Event.dropTargets_spec h hl z
    obtain ⟨k1, k2⟩ := ih h1 ((x.narrows_dropTargets z).listed hl)
    refine ⟨k1.congr (fun r c y _ _ => ?_) (by simp), k2.trans h2⟩
    simp only [List.mem_cons]
    tauto

/-- The zones made unused (R61), one after another, where the zone records name open calls that want the zone. -/
theorem Event.emptyZone_foldl {calls : CallTable} (zones : Table 16 ZoneRecord) (zs : List Zone) (hz : zs.Nodup)
    (hopen : ∀ z l, (zones.get z).state.live? = some l →
      ∃ c, calls.call? l = some c ∧ ZoneSet.has c.target z = true)
    {x : Event} {done : List Zone} (hd : ∀ z ∈ zs, z ∉ done)
    (h : Removed calls x (fun q y => y ∈ done ∧ q ∈ (zones.get y).holders) fun q y =>
      y ∈ done ∧ q ∈ (zones.get y).holders)
    (hr : ∀ y, x.zones.get y = if y ∈ done then (zones.get y).vacated calls else zones.get y) :
    Removed calls (zs.foldl Event.emptyZone x) (fun q y => (y ∈ done ∨ y ∈ zs) ∧ q ∈ (zones.get y).holders)
        (fun q y => (y ∈ done ∨ y ∈ zs) ∧ q ∈ (zones.get y).holders) ∧
      ∀ y, (zs.foldl Event.emptyZone x).zones.get y =
        if y ∈ done ∨ y ∈ zs then (zones.get y).vacated calls else zones.get y := by
  induction zs generalizing x done with
  | nil => exact ⟨h.congr (by simp) (by simp), by simpa using hr⟩
  | cons z rest ih =>
    obtain ⟨hzr, hrest⟩ := List.nodup_cons.1 hz
    have hzd := hd z (by simp)
    obtain ⟨h1, h2⟩ := Event.emptyZone_spec h z
    have hxz : x.zones.get z = zones.get z := by rw [hr, if_neg hzd]
    rw [hxz] at h1
    -- The live call is still open with its source, so the record is vacated as the call table first stood.
    have hv : (zones.get z).vacated x.calls = (zones.get z).vacated calls := by
      unfold ZoneRecord.vacated
      cases hl : (zones.get z).state.live? with
      | none => rfl
      | some l =>
        obtain ⟨c, hc, ht⟩ := hopen z l hl
        obtain ⟨d, hdd, he, -⟩ := h.kept l c hc ⟨z, ht, fun k => hzd k.1⟩
        have : d.source = c.source := by rw [he]
        simp only [hc, hdd, this]
    have step : ∀ q y, ((y ∈ done ∧ q ∈ (zones.get y).holders) ∨ (q ∈ (zones.get z).holders ∧ y = z)) ↔
        (y ∈ z :: done ∧ q ∈ (zones.get y).holders) := by
      intro q y
      by_cases e : y = z
      · subst e; simp [hzd]
      · simp [e]
    have k := ih hrest (x := x.emptyZone z) (done := z :: done)
      (fun y hy => by
        simp only [List.mem_cons, not_or]
        exact ⟨fun e => hzr (e ▸ hy), hd y (by simp [hy])⟩)
      (h1.congr (fun q c y _ _ => step q y) fun q c y _ _ => step q y)
      (fun y => by
        rw [h2]
        by_cases e : y = z
        · subst e; rw [if_pos rfl, hxz, hv, if_pos (by simp)]
        · rw [if_neg e, hr]; simp [e])
    refine ⟨k.1.congr (fun q c y _ _ => ?_) (fun q c y _ _ => ?_), fun y => ?_⟩
    · simp only [List.mem_cons]; tauto
    · simp only [List.mem_cons]; tauto
    · rw [List.foldl_cons, k.2]
      congr 1
      simp only [List.mem_cons, eq_iff_iff]
      tauto

/-! ### What events never touch -/

/-- A loss of a zone leaves the zone records. -/
theorem Event.loseZone_zones (e : Event) (r : CallRef) (z : Zone) (w : LossReason) : (e.loseZone r z w).zones = e.zones :=
  (Event.takeReport_frame e (.loss r z w)).1

/-- The pruning at the end of an event leaves the zone records (R14). -/
theorem Event.settle_zones (e : Event) : e.settle.zones = e.zones := by
  unfold Event.settle
  generalize e.skippers = sk
  induction sk generalizing e with
  | nil => rfl
  | cons r rest ih =>
    rw [List.foldl_cons, ih]
    unfold Event.prune
    split
    · rfl
    · rename_i heq
      clear heq
      generalize (List.finRange 16).filter _ = zs
      induction zs generalizing e with
      | nil => rfl
      | cons z zs ih2 => rw [List.foldl_cons, ih2, Event.loseZone_zones]

/-- Freeing a call leaves the zone records. -/
theorem Event.finishCall_zones (e : Event) (r : CallRef) (c : EndCause) : (e.finishCall r c).zones = e.zones := by
  unfold Event.finishCall; split <;> rfl

/-- Withdrawals leave every restriction. -/
theorem Event.foldl_withdraw_restriction (r : CallRef) (src : Source) (zs : List Zone) (e : Event) (y : Zone) :
    ((zs.foldl (Event.withdraw r src) e).zones.get y).restriction = (e.zones.get y).restriction := by
  induction zs generalizing e with
  | nil => rfl
  | cons z rest ih =>
    rw [List.foldl_cons, ih]
    show ((e.zones.modify z _).get y).restriction = _
    rw [Table.get_modify]
    split
    · split <;> rfl
    · rfl

/-- The end of a call leaves every restriction (R22). -/
theorem Event.endCall_restriction (p : Plan) (r : CallRef) (c : EndCause) (e : Event) (y : Zone) :
    ((e.endCall p r c).zones.get y).restriction = (e.zones.get y).restriction := by
  unfold Event.endCall
  split
  · rfl
  · dsimp only
    rw [Event.finishCall_zones, (Event.evaluateAll_frame p _ _).2.1, Event.foldl_withdraw_restriction]
    rfl

/-- The notices of an event are ZONE_LOST, CALL_STATUS and CALL_ENDED (R23). -/
theorem eventNotices_codes (t : CallTable) (e : Event) :
    ∀ n ∈ eventNotices t e, n.code = 3 ∨ n.code = 4 ∨ n.code = 5 := by
  intro n hn
  simp only [eventNotices, List.mem_flatMap] at hn
  obtain ⟨r, -, hn⟩ := hn
  simp only [callNotices, List.mem_append, List.mem_flatMap, List.mem_filterMap] at hn
  rcases hn with (⟨z, -, l, -, h⟩ | h) | ⟨x, -, h⟩
  · split at h
    · injection h with h; subst h; simp [Notice.code]
    · cases h
  · split at h
    · simp at h
    · split at h
      · simp at h; subst h; simp [Notice.code]
      · simp at h
  · split at h
    · injection h with h; subst h; simp [Notice.code]
    · cases h

/-! ### The removals, in any state -/

/-- Zones made unused: no restriction changes, and each is IDLE with an empty stack (R35, R61). -/
theorem Event.foldl_emptyZone_frame (zs : List Zone) (e : Event) (y : Zone) :
    let after := (zs.foldl Event.emptyZone e).zones.get y
    after.restriction = (e.zones.get y).restriction ∧ (y ∈ zs → after.state = .idle ∧ after.stack = []) ∧
      ((e.zones.get y).state = .idle → (e.zones.get y).stack = [] → after.state = .idle ∧ after.stack = []) := by
  induction zs generalizing e with
  | nil => exact ⟨rfl, by simp, fun a b => ⟨a, b⟩⟩
  | cons z rest ih =>
    have hz := Event.emptyZone_record e z y
    obtain ⟨h1, h2, h3⟩ := ih (e.emptyZone z)
    rw [List.foldl_cons]
    refine ⟨?_, fun hy => ?_, fun a b => h3 ?_ ?_⟩
    · rw [h1, hz]; split <;> rfl
    · rcases List.mem_cons.1 hy with hy | hy
      · subst hy
        rw [if_pos rfl] at hz
        exact h3 (by rw [hz]; rfl) (by rw [hz]; rfl)
      · exact h2 hy
    · rw [hz]
      split
      · rfl
      · exact a
    · rw [hz]
      split
      · rfl
      · exact b

/-- Unused zones leave the target sets; the zone records stay. -/
theorem Event.foldl_dropTargets_zones (zs : List Zone) (e : Event) : (zs.foldl Event.dropTargets e).zones = e.zones := by
  induction zs generalizing e with
  | nil => rfl
  | cons z rest ih => rw [List.foldl_cons, ih]; exact Event.foldl_loseZone_zones _ _ _ _

/-- A call that has lost a zone does not want it. -/
theorem Event.foldl_loseZone_gone (z : Zone) (rs : List CallRef) (e : Event) (r : CallRef) (hr : r ∈ rs) (d : Call)
    (h : (rs.foldl (fun e r => e.loseZone r z .plan) e).calls.call? r = some d) : ZoneSet.has d.target z = false := by
  induction rs generalizing e with
  | nil => simp at hr
  | cons a rest ih =>
    by_cases hm : r ∈ rest
    · exact ih _ hm h
    · have hra : r = a := by simpa [hm] using hr
      subst hra
      rw [List.foldl_cons] at h
      have hn := Event.Narrows.foldl (fun e r => e.loseZone r z .plan) (fun e r => e.narrows_loseZone r z .plan) rest
        (e.loseZone r z .plan)
      obtain ⟨c, hc, hk⟩ := hn.calls r d h
      cases hx : ZoneSet.has d.target z with
      | false => rfl
      | true =>
        have := hk.target z hx
        cases he : e.calls.call? r with
        | none => simp [Event.loseZone, he] at hc
        | some q =>
          have hs := (Event.loseZone_spec e r z .plan q he).1 r
          rw [hc, if_pos rfl] at hs
          split at hs
          · cases hs
          · injection hs with hs
            rw [hs] at this
            simp [ZoneSet.has_remove] at this

/-- A zone that is removed from the target sets is in none (R29). -/
theorem Event.foldl_dropTargets_gone (zs : List Zone) (e : Event)
    (hl : ∀ r, (e.calls.call? r).isSome = true → r ∈ e.calls.admission)
    (r : CallRef) (d : Call) (h : (zs.foldl Event.dropTargets e).calls.call? r = some d) (z : Zone) (hz : z ∈ zs) :
    ZoneSet.has d.target z = false := by
  induction zs generalizing e with
  | nil => simp at hz
  | cons y rest ih =>
    rw [List.foldl_cons] at h
    by_cases hm : z ∈ rest
    · exact ih _ ((e.narrows_dropTargets y).listed hl) h hm
    · have hzy : z = y := by simpa [hm] using hz
      subst hzy
      have hn := Event.Narrows.foldl Event.dropTargets Event.narrows_dropTargets rest (e.dropTargets z)
      obtain ⟨c, hc, hk⟩ := hn.calls r d h
      have hc0 : ZoneSet.has c.target z = false := by
        by_cases hmem : r ∈ e.contenders z
        · exact Event.foldl_loseZone_gone z _ e r hmem c hc
        · obtain ⟨c', hc', hk'⟩ := (e.narrows_dropTargets z).calls r c hc
          cases hx : ZoneSet.has c.target z with
          | false => rfl
          | true =>
            exact absurd (Event.mem_contenders.2 ⟨hl r (by rw [hc']; rfl), c', hc', hk'.target z hx⟩) hmem
      cases hx : ZoneSet.has d.target z with
      | false => rfl
      | true => rw [hk.target z hx] at hc0; cases hc0

end Sys2Proof.Machine
end

