-- ==== Sys2Proof/Laws/Words.lean ====
section
/-! SUPPORT. What the words of a payload decode to and read back as (R187), and the zone sets a plan refuses. -/

namespace Sys2Proof.Machine

/-- A word read as a number is the same word. -/
theorem numWord_toNat (w : Word) : numWord w.toNat = w := by simp [numWord]

/-- A word that holds an index names it. -/
theorem wordFin_eq {n : Nat} [NeZero n] {w : Word} {x : Fin n} (h : w.toNat = x.val) : wordFin n w = x := by
  unfold wordFin
  rw [h]
  apply Fin.ext
  simp [Fin.ofNat, Nat.mod_eq_of_lt x.isLt]

/-- A word that holds a reference names it. -/
theorem wordRef_eq {w : Word} {c : CallRef} (h : w.toNat = c.index.val * 16 + c.gen.val) : wordRef w = c := by
  unfold wordRef
  obtain ⟨i, g⟩ := c
  simp only at h
  congr
  · apply Fin.ext; simp [Fin.ofNat, h]; omega
  · apply Fin.ext; simp [Fin.ofNat, h]

/-- A word that holds a reference passes the check of a reference field. -/
theorem isRef_of_eq {w : Word} {c : CallRef} (h : w.toNat = c.index.val * 16 + c.gen.val) : isRef w = true := by
  have := c.index.isLt
  have := c.gen.isLt
  simp [isRef, inRange]
  omega

/-- A flag's word is read as the flag and passes its check. -/
theorem wordFlag_flagWord (b : Bool) : wordFlag (flagWord b) = b ∧ isFlag (flagWord b) = true := by
  cases b <;> decide

/-- A bank's word is read as the bank and passes its check. -/
theorem wordBank_word (b : BankNo) : wordBank b.word = b ∧ isBank b.word = true := by cases b <;> decide

/-- Of two banks, the one that is not the first is the other one. -/
theorem eq_other_of_ne (b n : BankNo) : b ≠ n → b = n.other := by cases b <;> cases n <;> decide

/-- A number up to 254 or NONE reads back as it was written (Table 10-5). -/
theorem opt8Word_wordOptFin {n : Nat} [NeZero n] (hn : n ≤ 255) {w : Word} (h : inRangeOrNone (n - 1) w = true) :
    opt8Word (wordOptFin n w) = w := by
  unfold inRangeOrNone inRange at h
  unfold wordOptFin
  split
  · rename_i h2
    simp [opt8Word, h2]
  · rename_i h2
    simp [h2] at h
    have : 0 < n := Nat.pos_of_ne_zero (NeZero.ne n)
    simp [opt8Word, wordFin, numWord]
    rw [Nat.mod_eq_of_lt (by omega)]
    simp

/-- A word in 0-1 is 0 or 1. -/
theorem word_cases2 {w : Word} (h : inRange 0 1 w = true) : w = 0#16 ∨ w = 1#16 := by
  simp [inRange] at h
  have : w.toNat = 0 ∨ w.toNat = 1 := by omega
  rcases this with h | h
  · left; apply BitVec.eq_of_toNat_eq; exact h
  · right; apply BitVec.eq_of_toNat_eq; exact h

/-- A word in 0-2 is 0, 1 or 2. -/
theorem word_cases3 {w : Word} (h : inRange 0 2 w = true) : w = 0#16 ∨ w = 1#16 ∨ w = 2#16 := by
  simp [inRange] at h
  have : w.toNat = 0 ∨ w.toNat = 1 ∨ w.toNat = 2 := by omega
  rcases this with h | h | h
  · left; apply BitVec.eq_of_toNat_eq; exact h
  · right; left; apply BitVec.eq_of_toNat_eq; exact h
  · right; right; apply BitVec.eq_of_toNat_eq; exact h

/-- Eleven words, each by its own name. -/
theorem eleven_words {ws : List Word} (h : ws.length = 11) :
    ∃ a b c d e f g i j k l, ws = [a, b, c, d, e, f, g, i, j, k, l] := by
  match ws, h with
  | [a, b, c, d, e, f, g, i, j, k, l], _ => exact ⟨a, b, c, d, e, f, g, i, j, k, l, rfl⟩

/-- A set holds an unused zone. -/
theorem hasUnused_iff {p : Plan} {m : ZoneSet} :
    p.hasUnused m = true ↔ ∃ z, ZoneSet.has m z = true ∧ p.used z = false := by
  simp [Plan.hasUnused]

/-- A set holds used zones alone. -/
theorem hasUnused_false_iff {p : Plan} {m : ZoneSet} :
    p.hasUnused m = false ↔ ∀ z, ZoneSet.has m z = true → p.used z = true := by
  simp [Plan.hasUnused]

/-- An item of the seal check passes when it fails nowhere (R113). -/
theorem itemFailure_none_iff {n : Nat} {bad : Fin n → Bool} {a b : Nat} :
    itemFailure a b bad = none ↔ ∀ i, bad i = false := by
  simp [itemFailure]

/-- The first field that fails is the one refused (R153). -/
theorem firstBad_of_first (l : List Bool) (n : Nat) (h : l[n]? = some false) (h' : ∀ j, j < n → l[j]? = some true) :
    firstBad l = some (n + 1) := by
  induction l generalizing n with
  | nil => simp at h
  | cons b rest ih =>
    cases n with
    | zero => simp at h; subst h; rfl
    | succ n =>
      have k := h' 0 (by omega)
      simp at k
      subst k
      simp [firstBad, ih n (by simpa using h) fun j hj => by simpa using h' (j + 1) (by omega)]

/-- The check of each of the eleven words of an entry is its range (R102 to R105, R188). -/
theorem entryCheck_word (e : EntryName) (i : Nat) (hi : i < 11) :
    ∃ f, (entryChecks e)[i]? = some f ∧ ∀ w : Word, f w = true ↔ entryWordInRange e i w.toNat := by
  have h8 : ∀ w : Word, w = 255#16 ↔ w.toNat = 255 :=
    fun w => ⟨fun h => by rw [h]; rfl, fun h => by apply BitVec.eq_of_toNat_eq; exact h⟩
  have h0 : ∀ w : Word, w = 0#16 ↔ w.toNat = 0 :=
    fun w => ⟨fun h => by rw [h]; rfl, fun h => by apply BitVec.eq_of_toNat_eq; exact h⟩
  have hlt : ∀ w : Word, w.toNat ≤ 65535 := fun w => by have := w.isLt; omega
  cases e <;> interval_cases i <;> refine ⟨_, rfl, fun w => ?_⟩ <;>
    simp [entryWordInRange, isFlag, inRange, inRangeOrNone, isZero, anyWord, isFrequency, isDuration, Config.none8,
      List.replicate, h8, h0, hlt]

end Sys2Proof.Machine
end

