-- ==== Sys2Proof/Tests/Slice0.lean ====
section
/-! SUPPORT. The model's own tests: small steps against the manual's own examples, the well-formedness smoke, and for every
statement with hypotheses a concrete state and operands that meet them. -/

namespace Sys2Proof.Machine.Tests

-- One theorem at a time: many at once ask for more threads than the check's memory holds.
set_option Elab.async false

/-! ### Small states -/

/-- A request of controller 60 with tag 5. -/
def req (kind : BitVec 8) (payload : List Word) : Request :=
  { source := .c60, isBroadcast := false, kind := kind, tag := 5#8, len := payload.length, payload := payload }

/-- A state with one request waiting. -/
def asked (s : State) (r : Request) : State := { s with msg := { s.msg with requests := [r] } }

/-- A state with one task due. -/
def withDue (s : State) (t : Task) : State := { s with due := [t] }

/-- A state with another plan store. -/
def withPlans (s : State) (p : PlanStore) : State := { s with plans := p }

/-- A state with another link state and current frame number. -/
def linked (s : State) (l : LinkState) (n : Option (BitVec 16)) : State :=
  { s with receiver := { s.receiver with link := l, alignment := some 4304, frameNumber := n } }

/-- A request waiting in a state with no reset in force, no reply waiting and an empty cache is offered. -/
theorem offers_asked {s : State} {r : Request} (hs : s.inReset = false) (hb : r.isBroadcast = false)
    (hr : s.msg.replies = []) (hc : s.msg.cache = emptyCache) : (asked s r).Offers r.kind r [] := by
  refine ⟨hs, rfl, rfl, ?_, ?_⟩
  · simp [MessageBlock.canTake, asked, hb, hr, Config.replyQueueLimit]
  · cases hk : r.source <;> simp [MessageBlock.duplicate?, asked, hb, hc, emptyCache, Cache.entry, hk]

/-- The call reference with index 0 and generation 0. -/
def call0 : CallRef := ⟨0, 0⟩

/-- A bed announcement of class 0 on generator 0 to zone 3, opened over the factory default plan. -/
def opened : State := takeCallOpen (asked State.reset (req 1#8 [0#16, 48#16, 8#16]))

/-- The same state with the reply sent and the cache empty. -/
def called : State := { opened with msg := State.reset.msg }

/-- The factory default plan with key class 0 and key targets zone 3 on trunk source 0. -/
def keyPlan : Plan :=
  { factoryPlan with trunks := factoryPlan.trunks.set 0 { slot := some 0, keyClass := some 0, keyTargets := 8#16 } }

/-- The part under `keyPlan`. -/
def keyable : State := withPlans State.reset { State.reset.plans with bank0 := ⟨.sealed, keyPlan⟩ }

/-- The part under `keyPlan` with a key call from trunk source 0. -/
def keyed : State := (withDue keyable (.keyUp 0)).perform (.keyUp 0)

/-- The part with a sealed copy of the default plan in bank 1. -/
def twoPlans : State := withPlans State.reset { State.reset.plans with bank1 := ⟨.sealed, factoryPlan⟩ }

/-- The part with bank 1 open and blank. -/
def openBank : State := withPlans State.reset { State.reset.plans with bank1 := ⟨.opened, blankPlan⟩ }

/-- The part copying, with 83 entries copied. -/
def copying : State := withPlans State.reset { State.reset.plans with bank1 := ⟨.copying, blankPlan⟩, copied := some 83 }

/-- A SENT POWER_UP and an UNSENT LINK, with the retry timer at its last frame. -/
def sentNotices : NoticeBlock :=
  { State.reset.notices with
    queue := [⟨0#8, .powerUp, true⟩, ⟨1#8, .link true, false⟩], next := 2#8, timer := some ⟨1, false⟩ }

/-- The part copying, with 82 entries copied. -/
def copying82 : State := withPlans State.reset { copying.plans with copied := some 82 }

/-- The announcement's state at the last frame of its wait, its lead-in and the retry timer, two frames before the end of
its duration, with 82 entries copied and a switch without a point pending. -/
def counting : State :=
  { called with
    calls := called.calls.changeCall call0 fun c => { c with wait := some 1, duration := some 2 }
    zones := called.zones.modify 3 fun z => { z with state := .leadIn call0 1 }
    notices := sentNotices
    plans := { copying82.plans with pending := some ⟨none⟩ } }

/-- The part with a pointed switch pending. -/
def pointed : State :=
  withPlans State.reset { State.reset.plans with bank1 := ⟨.sealed, factoryPlan⟩, pending := some ⟨some 500#16⟩ }

/-- The announcement's state with another plan sealed in bank 1, a switch to it pending and due. -/
def switching (p : Plan) : State :=
  { called with
    plans := { resetPlanStore with bank1 := ⟨.sealed, p⟩, pending := some ⟨none⟩ }
    due := [.switchTake] }

/-- The factory default plan with zone 3 unused, generator 0 removed and generator 2 playing pattern 0. -/
def fewerPlan : Plan :=
  { factoryPlan with
    zones := factoryPlan.zones.set 3 { factoryZone 3 with slot := none }
    tones := (factoryPlan.tones.set 0 none).set 2 (some 0) }

/-- The announcement's state with a second call, in record 1, from generator 1 to zone 3 under the class given. -/
def twoCalls (d : ClassDef) : Event :=
  let other := (called.calls.changeCall call0 fun c => { c with captured := d, source := 49, granted := 0#16 }).records.get 0
  { Event.start called with
    calls := { called.calls with records := called.calls.records.set 1 other, admission := [call0, ⟨1, 0⟩] } }

/-- The part whose POWER_UP notice is SENT and whose retry timer stands at its last frame. -/
def sentNotice : State := { State.reset with notices := sentNotices }

/-- 2,152 bits that begin with the sync pattern and carry frame number 7. -/
def goodBits : BitVec 2152 := BitVec.ofNat 2152 ((62288 * 65536 + 7) * 2 ^ 2120)

/-! ### Well-formedness (each check refuses an ill-formed command) -/

theorem test_wf_accepts : (Instr.freeRunBoundary [.perform .observe, .switchAfterLosses [0, 1]]).wf = true := by decide
theorem test_wf_requests : (Instr.freeRunBoundary [.request, .perform .observe, .request]).wf = true := by decide
theorem test_wf_task_twice : (Instr.freeRunBoundary [.perform .observe, .perform .observe]).wf = false := by decide
theorem test_wf_two_switches : (Instr.frameJudged 0 [.perform .switchTake, .switchAfterLosses []]).wf = false := by decide
theorem test_wf_tone_twice_in_move : (Instr.freeRunBoundary [.switchAfterLosses [2, 2]]).wf = false := by decide
theorem test_wf_tone_twice : (Instr.switchTaken [1, 1]).wf = false := by decide
theorem test_no_word_spells_a_command : decodeTableWord 16 0 = none := rfl

/-! ### The manual's numbers -/

/-- The check word of the manual's ZONE_RESTRICT message (Wire Formats, 10.10). -/
theorem test_check_word : checkWord [11217#16, 296#16, 3#16, 0#16, 22#16, 32#16] = 22528#16 := by decide +kernel

/-- Gains of Table 3-3. -/
theorem test_gains : [12, 24, 40, 80, 120, 126, 127].map gain = [32846, 16462, 6554, 655, 66, 46, 0] := by decide

/-- Samples of the sine rule at the quarters of a cycle. -/
theorem test_sine_quarters :
    [0, 12000, 24000, 36000].map sineSample = [0, 4194304, 0, -4194304] := by decide +kernel

/-- Rotation distances (R39). -/
theorem test_rotation :
    [rotationDistance (some 48) 3, rotationDistance (some 48) 40, rotationDistance (some 3) 48,
      rotationDistance (some 3) 40, rotationDistance none 7] = [6, 43, 44, 36, 7] := by decide

/-- Switch points ahead and not ahead (R118). -/
theorem test_ahead :
    [isAhead 20480 20000, isAhead 20000 20000, isAhead 19990 20000, isAhead 300 65000] = [true, false, false, true] := by
  decide

/-! ### Single steps -/

/-- A CALL_OPEN on the default plan takes record 0, enters LEAD_IN for 57,600 frames and replies CHIME. -/
theorem test_call_open :
    ((opened.zones.get 3).state, opened.msg.replies.map fun r => r.answer) =
      (.leadIn call0 57600, [⟨.ok, [0#16, 2#16, 8#16]⟩]) := by decide +kernel

/-- Its release frees the record with generation 1 and ends the zone's call. -/
theorem test_call_release :
    let t := takeCallRelease (asked called (req 2#8 [0#16]))
    (t.calls.records.get 0, (t.zones.get 3).state, t.msg.replies.map fun r => r.answer) =
      (⟨1, none⟩, .idle, [⟨.ok, [0#16]⟩]) := by decide +kernel

/-- A retarget of zone 3 to zone 4. -/
theorem test_call_retarget :
    let t := takeCallRetarget (asked called (req 3#8 [0#16, 16#16, 8#16]))
    ((t.zones.get 3).state, (t.zones.get 4).state, t.msg.replies.map fun r => r.answer) =
      (.idle, .leadIn call0 57600, [⟨.ok, [0#16, 2#16, 16#16, 16#16]⟩]) := by decide +kernel

/-- CLEAR_CALLS up to priority 4 ends the class 0 call; up to 3 it does not. -/
theorem test_clear_calls :
    ((takeClearCalls (asked called (req 4#8 [4#16, 0#16]))).msg.replies.map fun r => r.answer,
      (takeClearCalls (asked called (req 4#8 [3#16, 0#16]))).msg.replies.map fun r => r.answer) =
      ([⟨.ok, [1#16]⟩], [⟨.ok, [0#16]⟩]) := by decide +kernel

/-- CALL_READ gives 24 words; state CHIME, class 0, priority 4, source 48. -/
theorem test_call_read :
    ((takeCallRead (asked called (req 5#8 [0#16]))).msg.replies.map fun r => r.answer.results.take 3) =
      [[0#16, 2#16, 0#16]] := by decide +kernel

/-- ZONE_RESTRICT above the call's priority suspends it. -/
theorem test_zone_restrict :
    let t := takeZoneRestrict (asked called (req 16#8 [8#16, 5#16]))
    ((t.zones.get 3).state, (t.zones.get 3).stack, t.msg.replies.map fun r => r.answer) =
      (.idle, [⟨call0, .leadIn⟩], [⟨.ok, [8#16]⟩]) := by decide +kernel

/-- ZONE_PROBE over a live RESUME call: GRANT with fate SUSPEND, and WAIT at its own priority. -/
theorem test_zone_probe :
    ((takeZoneProbe (asked called (req 17#8 [3#16, 9#16]))).msg.replies.map fun r => r.answer.results,
      (takeZoneProbe (asked called (req 17#8 [3#16, 4#16]))).msg.replies.map fun r => r.answer.results) =
      ([[0#16, 0#16, 4#16, 1#16, 0#16, 1#16, 65535#16]], [[0#16, 0#16, 4#16, 2#16, 65535#16, 0#16, 65535#16]]) := by
  decide +kernel

/-- ZONE_READ of the zone: used, LEAD_IN, live call, 1,200 ms remaining. -/
theorem test_zone_read :
    ((takeZoneRead (asked called (req 18#8 [3#16]))).msg.replies.map fun r => r.answer.results.take 5) =
      [[1#16, 1#16, 0#16, 1200#16, 0#16]] := by decide +kernel

/-- SOURCE_READ of generator 0: QUIET, call 0, pattern 0, step 1 with 500 ms remaining. -/
theorem test_source_read :
    ((takeSourceRead (asked called (req 24#8 [48#16]))).msg.replies.map fun r => r.answer.results) =
      [[48#16, 1#16, 0#16, 0#16, 255#16, 0#16, 1#16, 1#16, 500#16, 0#16, 0#16]] := by decide +kernel

/-- A zone entry written to the empty bank opens it; the live bank refuses. -/
theorem test_plan_write :
    let words : List Word := [1, 1, 3, 7, 255, 0, 0, 0, 3, 0, 1, 0, 0, 0].map (BitVec.ofNat 16)
    let t := takePlanWrite (asked State.reset (req 32#8 words))
    (t.plans.bank1.state, (t.plans.bank1.plan.zones.get 3).slot,
      (takePlanWrite (asked State.reset (req 32#8 (0#16 :: words.drop 1)))).msg.replies.map fun r => r.answer.status) =
      (.opened, some 7, [.bankLive]) := by decide +kernel

/-- PLAN_READ of an undefined class of the empty bank gives the blank values (Table 5-3). -/
theorem test_plan_read :
    ((takePlanRead (asked State.reset (req 33#8 [1#16, 0#16, 5#16]))).msg.replies.map fun r => r.answer.results) =
      [[0#16, 0#16, 1#16, 0#16, 0#16, 255#16, 0#16, 2#16, 0#16, 0#16, 0#16, 0#16]] := by decide +kernel

theorem test_plan_erase :
    (takePlanErase (asked twoPlans (req 34#8 [1#16]))).plans.bank1 = ⟨.empty, blankPlan⟩ := by decide +kernel

/-- A blank open bank seals; a bank whose two zones share a slot is refused with item 1 and the higher zone. -/
theorem test_plan_seal :
    let twice := { blankPlan with zones := (blankPlan.zones.set 2 (factoryZone 9)).set 5 (factoryZone 9) }
    let clash := withPlans State.reset { State.reset.plans with bank1 := ⟨.opened, twice⟩ }
    ((takePlanSeal (asked openBank (req 35#8 [1#16]))).plans.bank1.state,
      (takePlanSeal (asked clash (req 35#8 [1#16]))).msg.replies.map fun r => r.answer) =
      (.sealed, [⟨.checkFailed, [1#16, 5#16]⟩]) := by decide +kernel

theorem test_plan_unseal : (takePlanUnseal (asked twoPlans (req 36#8 [1#16]))).plans.bank1.state = .opened := by
  decide +kernel

theorem test_plan_copy :
    let t := takePlanCopy (asked openBank (req 37#8 []))
    (t.plans.bank1.state, t.plans.copied) = (.copying, some 0) := by decide +kernel

theorem test_plan_switch :
    (takePlanSwitch (asked twoPlans (req 38#8 [0#16, 9#16]))).plans.pending = some ⟨none⟩ := by decide +kernel

theorem test_plan_status :
    ((takePlanStatus (asked State.reset (req 39#8 []))).msg.replies.map fun r => r.answer.results) =
      [[0#16, 3#16, 0#16, 0#16, 0#16, 65535#16, 0#16, 0#16]] := by decide +kernel

/-- An acknowledgement of a SENT entry removes it and stops the timer; one of an UNSENT entry is refused. -/
theorem test_notice_ack :
    let t := takeNoticeAck (asked sentNotice (req 48#8 [0#16]))
    (t.notices.queue.length, t.notices.timer, t.msg.replies.map fun r => r.answer,
      (takeNoticeAck (asked sentNotice (req 48#8 [1#16]))).msg.replies.map fun r => r.answer) =
      (1, none, [⟨.ok, [1#16, 1#16]⟩], [⟨.badField, [1#16]⟩]) := by decide +kernel

theorem test_notice_config :
    ((takeNoticeConfig (asked State.reset (req 49#8 [60#16, 1#16, 100#16]))).msg.replies.map fun r => r.answer.results) =
      [[60#16, 1#16, 100#16, 1#16, 1#16, 0#16, 0#16]] := by decide +kernel

theorem test_echo :
    ((takeEcho (asked State.reset (req 64#8 [1#16, 2#16]))).msg.replies.map fun r => r.answer) =
      [⟨.ok, [1#16, 2#16]⟩] := by decide +kernel

/-- COUNTERS_READ has counted itself, and clears after reading. -/
theorem test_counters_read :
    let t := takeCountersRead (asked State.reset (req 65#8 [1#16]))
    (t.msg.counters.taken, t.msg.replies.map fun r => r.answer.results.take 2) = (0, [[1#16, 0#16]]) := by
  decide +kernel

/-- NODE_RESET frees the call, empties the notice queue into NODE_RESET number 0, and keeps the counters. -/
theorem test_node_reset :
    let t := takeNodeReset (asked called (req 66#8 []))
    (t.calls.records.get 0, t.calls.admitted, t.notices.queue) = (⟨1, none⟩, 1, [⟨0#8, .nodeReset, false⟩]) := by
  decide +kernel

theorem test_unknown_kind :
    ((takeUnknownKind (asked State.reset (req 99#8 []))).msg.replies.map fun r => r.answer) =
      [⟨.unknownKind, []⟩] := by decide +kernel

/-- The first free-run boundary after reset begins frame 0 with the POWER_UP message and the zone slots PRESENT (R184). -/
theorem test_first_boundary :
    let t := State.reset.takeFreeRun []
    (t.out.next, t.out.sending.map fun f => f.number, t.out.words.cells.map fun w => w.marker, t.notices.anySent,
      t.due) = (1#16, some 0#16, [.first, .more, .more, .more], true, []) := by decide +kernel

/-- In LOCKED a frame without its sync enters SLIP and numbers on; a good one is taken with its number. -/
theorem test_frame_judged :
    let s := linked State.reset .locked (some 6#16)
    ((s.takeFrame 0#2152 []).receiver.link, (s.takeFrame 0#2152 []).receiver.slips,
      (s.takeFrame goodBits []).receiver.frameNumber, (s.takeFrame goodBits []).out.next) =
      (.slip 0, 1, some 7#16, 8#16) := by decide +kernel

theorem test_sync_found :
    (resetReceiver.findSync 9 0xF350#16).link = .confirm 0 ∧ (resetReceiver.findSync 9 0xF350#16).alignment = some 2161 ∧
      (resetReceiver.findSync 9 0xF351#16).link = .search := by decide

/-- A lead-in at its last frame goes ON_AIR, and the call speaks. -/
theorem test_lead_in_expiry :
    let z : ZoneRecord := { called.zones.get 3 with state := .leadIn call0 1 }
    let t := ({ called with zones := called.zones.set 3 z } : State).takeLeadInEnd 3
    ((t.zones.get 3).state, (t.calls.call? call0).map fun c => c.state) = (.onAir call0, some .live) := by
  decide +kernel

/-- A key edge opens a KEY call, its release starts the hold of 500 ms, and the hold's expiry ends it UNKEYED. -/
theorem test_key_edges :
    let held := keyed.takeKeyDown 0
    ((keyed.calls.call? call0).map (fun c => c.origin), (held.calls.call? call0).map fun c => c.hold) =
      (some .key, some (some 24000)) := by decide +kernel

theorem test_hold_expiry :
    let last := keyed.changeCall call0 fun c => { c with hold := some 1 }
    (last.takeDeadline call0 Call.hold .unkeyed).calls.call? call0 = none := by decide +kernel

theorem test_source_loss :
    (called.takeLoss 48).notices.queue.map (fun e => e.notice) = [.powerUp, .callEnded call0 .sourceLost] := by
  decide +kernel

theorem test_copy_done :
    let t := copying.takeCopyEnd
    (t.plans.bank1.state, t.plans.copied, t.notices.queue.map fun e => e.notice) =
      (.opened, none, [.powerUp, .copyDone .b1]) := by decide +kernel

theorem test_switch_taken :
    let s := withPlans twoPlans { twoPlans.plans with pending := some ⟨none⟩ }
    (s.takeSwitch []).plans.live = .b1 ∧ (s.takeSwitch []).plans.pending = none := by decide +kernel

theorem test_retry_expiry :
    sentNotice.takeRetryEnd.notices.queue.map (fun e => e.sent) = [false, false] ∧
      sentNotice.takeRetryEnd.notices.retries = 1 := by decide

theorem test_fade_completion :
    let fading : Lane := { current := .chime, att := 127, target := 127, pending := some .none }
    fading.completeFade 12 = { current := .none, att := 127, target := 12, pending := none } := by decide

theorem test_step_ends :
    let player : ChimePlayer := { pattern := some [⟨1000, 9⟩, ⟨800, 5⟩], pos := some ⟨1, 1⟩, phase := 7 }
    player.endStep.pos = some ⟨2, 5⟩ ∧ player.endStep.endStep.pos = none := by decide

theorem test_tone_step_end :
    let g : ToneGen := { playing := some ⟨0, [⟨800, 9⟩], true, some ⟨1, 1⟩⟩, phase := 7 }
    (g.endStep.playing.map fun p => p.pos) = some (some ⟨1, 9⟩) := by decide

theorem test_presence : (resetTrunk.confirmPresence true).state = .quiet := by decide

/-- The reply of an ECHO begins as an own message of 4 words. -/
theorem test_reply_begin :
    let s : State := { State.reset with msg := { State.reset.msg with
      replies := [{ dest := .c60, kind := 64#8, tag := 5#8, answer := ⟨.ok, []⟩ }] } }
    s.beginReply.msg.own.map (fun w => w.marker) = [.first, .more, .more, .last] ∧ s.beginReply.msg.replies = [] := by
  decide +kernel

/-- The POWER_UP notice message has 8 words, and its entry becomes SENT. -/
theorem test_notice_message :
    (State.reset.beginNotice true).msg.own.length = 8 ∧ (State.reset.beginNotice true).notices.anySent = true := by
  decide +kernel

theorem test_resets :
    opened.assertReset.linkOk = false ∧ opened.assertReset.out.sending = none ∧
      (State.afterReset 63#6).transitOnly = true ∧ (State.afterReset 59#6).transitOnly = false := by decide +kernel

/-- A request whose last word arrives in a boundary's frame can be taken before that boundary's observations (R95, log 6). -/
theorem test_request_move :
    let body : List Word := [0x2BC1#16, 0x4005#16, 0#16]
    let s : State := { State.reset with msg := { resetMessages with input := .consume, assembler := body } }
    let f : Frame := { silentFrame with words := silentFrame.words.set 0 ⟨.last, checkWord body⟩ }
    let order : List Move := [.perform .control, .request, .perform .observe]
    ((s.boundary f true [] order).msg.replies.length, (s.boundary f true [] []).msg.requests.length) = (1, 1) := by
  decide +kernel

/-- A boundary counts: what stood at its last frame is due, a duration of 2 is 1, and the 83rd entry is copied (R16, R54,
R117, R119, R135). -/
theorem test_boundary_counts :
    let t := counting.takeFreeRun []
    (t.calls.call? call0).map (fun c => (c.wait, c.duration)) = some (some 1, some 1) ∧
      [Task.waitEnd call0, .leadInEnd 3, .retryEnd, .switchTake].all t.due.contains = true ∧
      (t.due.contains (.durationEnd call0), t.plans.copied) = (false, some 83) := by decide +kernel

/-- A PLAN_STATUS that a boundary's order takes before the boundary's copy step reports the progress before it (R117). -/
theorem test_status_around_copy_step :
    let s := asked copying82 (req 39#8 [])
    let told := fun order : List Move =>
      ((s.boundary silentFrame false [] order).msg.cache.entry .c60).map fun e => e.answer.results.getD 5 0#16
    (told [.request], told [.perform .copyStep, .request]) = (some 82#16, some 83#16) := by decide +kernel

/-- A ramp step after a switch, and after the erasure of the bank it left, still takes the rate of the plan that was live
when the boundary began (R72, R83; log 11). -/
theorem test_ramp_after_erase :
    let fast := { factoryPlan with zones := factoryPlan.zones.set 3 { factoryZone 3 with ramp := 8 } }
    let s := asked (withPlans State.reset { State.reset.plans with bank1 := ⟨.sealed, fast⟩, pending := some ⟨none⟩ })
      (req 34#8 [0#16])
    let t := s.boundary silentFrame false [] [.perform .switchTake, .request, .perform .ramps]
    (t.plans.bank0.state, (t.mixers.get 3).background.att) = (.empty, 125) := by decide +kernel

/-- A frame built while a switch is due is sent with the removed generators at 0 if the switch is taken, and with their
tone if a node reset abandons it (R93, R97, R125, log 12). -/
theorem test_switched_frame :
    let built : State := withDue (switching fewerPlan) .switchTake |>.sendFrame
    built.out.switched.isSome = true ∧ (built.perform .switchTake).out.sending = built.out.switched ∧
      (takeNodeReset (asked built (req 66#8 []))).out.sending = built.out.sending := by decide +kernel

/-- The first observation after a switch has cleared the runs counts as 1 (R96). -/
theorem test_presence_after_switch :
    (resetTrunk.takePresence 0 true true true).presence = 1 ∧ (resetTrunk.takePresence 0 true true true).state = .absent ∧
      ({ resetTrunk with presence := 47 } : TrunkRecord).takePresence 0 true true true = resetTrunk.confirmPresence true := by
  decide

/-- A whole request, word by word through the incoming stream, reaches the request queue (R145 to R150). -/
theorem test_intake :
    let body : List Word := [0x2BC1#16, 0x4005#16, 0#16]
    let ws := markWords (body ++ [checkWord body])
    (ws.foldl (fun m w => m.intake 10#6 w) resetMessages).requests = [req 64#8 []] := by decide +kernel

/-! ### Witnesses: for every statement with hypotheses, states and operands that meet them, clause by clause -/

theorem witness_StepRunsFrontCommand :
    ({ State.reset with pending := [.echo, .retryExpiry] } : State).pending = .echo :: [.retryExpiry] ∧
      State.reset.pending = [] := ⟨rfl, rfl⟩

theorem witness_ResetInForceTakesNothing :
    State.reset.assertReset.inReset = true ∧ (∀ straps, Instr.echo ≠ .hardwareReset straps) ∧
      Instr.echo ≠ .resetAsserted := ⟨rfl, (by intro _ h; cases h), by decide⟩

theorem witness_HardwareResetFreesCalls : ∀ i, (Event.start State.reset).calls.records.get i = ⟨0, none⟩ := by decide

theorem witness_SyncFoundEntersConfirm :
    (State.reset.inReset = false ∧ State.reset.receiver.link = .search ∧ State.reset.receiver.hunt ≤ 0) ∧
      (linked State.reset .locked none).receiver.link ≠ .search ∧ (0xF351#16 : BitVec 16) ≠ 0xF350#16 ∧
      4 < ({ resetReceiver with hunt := 5 } : Receiver).hunt := by decide

theorem witness_JudgementFollowsTable :
    (linked State.reset (.confirm 2) none).receiver.link = .confirm 2 ∧ 2 + 1 < 4 ∧
      (linked State.reset (.confirm 3) none).receiver.link = .confirm 3 ∧ 4 ≤ 3 + 1 ∧
      (linked State.reset .locked none).receiver.link = .locked ∧
      (linked State.reset (.slip 1) none).receiver.link = .slip 1 ∧
      (linked State.reset (.slip 2) none).receiver.link = .slip 2 := by decide

theorem witness_UsableFrameLocks :
    frameSync goodBits = 0xF350#16 ∧ (linked State.reset .locked none).inReset = false ∧
      (linked State.reset .locked none).receiver.link = .locked ∧
      (linked State.reset (.slip 2) none).receiver.link = .slip 2 ∧
      (linked State.reset (.confirm 3) none).receiver.link = .confirm 3 ∧
      (linked counting .locked none).due = [] ∧ (linked counting .locked none).msg.requests = [] := by decide +kernel

/-- The cases of what a boundary counts and makes due, at their last values and one before: deadlines, a lead-in, the retry
timer with and without its mark, a copy, and a switch with its point reached and not. -/
theorem witness_boundary_counts :
    ((counting.calls.call? call0).map (fun c => (c.wait, c.duration)) = some (some 1, some 2) ∧
      call0 ∈ counting.calls.admission ∧ (counting.zones.get 3).state = .leadIn call0 1 ∧
      (called.zones.get 3).state.remaining? = some 57600 ∧ (counting.zones.get 2).state.phase ≠ .leadIn) ∧
    (counting.notices.timer = some ⟨1, false⟩ ∧ (State.reset.beginNotice true).notices.timer = some ⟨4800, true⟩) ∧
    (counting.plans.copied = some 82 ∧ 82 < 83 ∧ copying.plans.copied = some 83 ∧ 83 ≤ 83 ∧
      State.reset.plans.copied = none) ∧
    (counting.plans.pending = some ⟨none⟩ ∧ pointed.plans.pending = some ⟨some 500#16⟩ ∧
      ((500#16 - 500#16 : BitVec 16).toNat < 32768 ∧ ¬ (499#16 - 500#16 : BitVec 16).toNat < 32768)) ∧
    ∀ x ∈ [Task.linkLocked], x = .linkLocked ∨ x = .linkSearch := by decide +kernel

theorem witness_UnlockedJudgementIsNoBoundary :
    (State.reset.inReset = false ∧ Task.linkSearch ∉ State.reset.due ∧ State.reset.receiver.link = .search) ∧
      ((linked State.reset (.confirm 2) none).receiver.link = .confirm 2 ∧ frameSync goodBits = 0xF350#16) ∧
      ((linked pointed (.confirm 3) none).receiver.link = .confirm 3 ∧ frameSync 0#2152 ≠ 0xF350#16) ∧
      (linked pointed (.confirm 3) none).plans.pending = some ⟨some 500#16⟩ ∧
      (linked State.reset (.confirm 0) none).plans.pending = none := by decide +kernel

theorem witness_UnusableBoundaryNumbersOn :
    (State.reset.inReset = false ∧ Task.build ∉ State.reset.due ∧ State.reset.receiver.link = .search) ∧
      (linked State.reset (.confirm 3) none).receiver.link = .confirm 3 ∧
      (linked State.reset .locked none).receiver.link = .locked ∧
      (linked State.reset (.slip 2) none).receiver.link = .slip 2 ∧ frameSync 0#2152 ≠ 0xF350#16 ∧
      ((linked pointed (.slip 2) none).due = [] ∧ (linked pointed (.slip 2) none).msg.requests = [] ∧
        (linked pointed (.slip 2) none).plans.pending = some ⟨some 500#16⟩ ∧
        (linked State.reset (.slip 2) none).plans.pending = none ∧
        (linked State.reset (.slip 1) none).receiver.link = .slip 1) := by decide +kernel

theorem witness_OutputFrameContents :
    (State.afterReset 0#6).transitOnly = true ∧ State.reset.transitOnly = false ∧
      (∀ z, (State.reset.plan.zones.get z).slot ≠ some 47) ∧ (State.reset.plan.zones.get 0).slot = some 48 ∧
      ∀ y, (State.reset.plan.zones.get y).slot = some 48 → y = 0 := by decide +kernel

/-- A frame built with a switch due, and with none; the four sources a lane carries, with a PRESENT slot and an absent one;
a player and a generator in a step, at its last frame and before it, and silent. -/
theorem witness_OutputFrameContents_sources :
    (Task.switchTake ∈ (switching fewerPlan).due ∧ Task.switchTake ∉ State.reset.due ∧
      ((switching fewerPlan).plans.otherBank.plan.tones.get 0 = none ∧
        (switching fewerPlan).plans.otherBank.plan.tones.get 2 ≠ none)) ∧
    ((resetMixer.foreground.current = .none ∧ (called.mixers.get 3).foreground.current = .chime) ∧
      ∃ l m : Lane, l.current = .source (trunkSource 47) ∧ m.current = .source (toneSource 0)) ∧
    (((Frame.ofBits (goodBits ||| BitVec.ofNat 2152 (2 ^ 2119))).slots.get 0).getLsbD 31 = true ∧
      (silentFrame.slots.get 0).getLsbD 31 = false ∧ (State.reset.plan.trunks.get 0).slot = some 0) ∧
    ((called.mixers.get 3).player.pattern.bind (fun steps => steps[0]?) = some ⟨1000, 14400⟩ ∧
      (called.mixers.get 3).player.pos = some ⟨1, 14400⟩ ∧ resetMixer.player.pattern = none) ∧
    ((State.reset.sources.tones.get 0).playing = some ⟨0, [⟨800, 24000⟩, ⟨1000, 24000⟩], true, some ⟨1, 24000⟩⟩ ∧
      (State.reset.sources.tones.get 2).playing = none ∧
      ∃ g : TonePlaying, g.steps[1]? = some ⟨0, 9⟩ ∧ g.pos = some ⟨2, 1⟩) := by
  refine ⟨by decide +kernel, ⟨by decide +kernel, ⟨.source (trunkSource 47), 0, 0, none⟩,
    ⟨.source (toneSource 0), 0, 0, none⟩, rfl, rfl⟩, by decide +kernel, by decide +kernel, by decide +kernel,
    by decide +kernel, ⟨0, [⟨800, 9⟩, ⟨0, 9⟩], false, some ⟨2, 1⟩⟩, rfl, rfl⟩

theorem witness_ObservationFollowsTable :
    ((withDue State.reset (.presence 47 true)).inReset = false ∧
      Task.presence 47 true ∈ (withDue State.reset (.presence 47 true)).due ∧
      Task.presence 47 false ∉ (withDue State.reset (.presence 47 true)).due ∧
      (State.reset.sources.trunks.get 47).state = .absent ∧
      ¬ 48 ≤ (State.reset.sources.trunks.get 47).presence + 1) ∧
    (let s : State := withDue { State.reset with sources := { State.reset.sources with
        trunks := State.reset.sources.trunks.set 0 { resetTrunk with presence := 47 } } } (.presence 0 false);
      s.inReset = false ∧ Task.presence 0 false ∈ s.due ∧ Task.presence 0 true ∉ s.due ∧
        (s.sources.trunks.get 0).state = .absent ∧ 48 ≤ (s.sources.trunks.get 0).presence + 1) ∧
    (∃ t : TrunkRecord, t.state = .absent ∧ t.presence + 1 < 48 ∧ t.presence = 46) ∧
    (∃ t : TrunkRecord, t.state = .absent ∧ 48 ≤ t.presence + 1) ∧
    (∃ t : TrunkRecord, t.state = .quiet ∧ t.key + 1 < 96 ∧ t.key = 94 ∧ 2400 ≤ t.absence + 1) ∧
    (∃ t : TrunkRecord, t.state = .quiet ∧ 96 ≤ t.key + 1 ∧ t.absence + 1 < 2400 ∧ t.absence = 2398) ∧
    (∃ t : TrunkRecord, t.state = .keyed ∧ t.release + 1 < 96 ∧ t.release = 94) ∧
    ∃ t : TrunkRecord, t.state = .keyed ∧ 96 ≤ t.release + 1 :=
  ⟨by decide, by decide, ⟨{ resetTrunk with presence := 46 }, by decide⟩, ⟨{ resetTrunk with presence := 47 }, by decide⟩,
    ⟨{ resetTrunk with state := .quiet, key := 94, absence := 2399 }, by decide⟩,
    ⟨{ resetTrunk with state := .quiet, key := 95, absence := 2398 }, by decide⟩,
    ⟨{ resetTrunk with state := .keyed, release := 94 }, by decide⟩,
    ⟨{ resetTrunk with state := .keyed, release := 95 }, by decide⟩⟩

theorem witness_RampStepMovesLane :
    let up : Lane := { current := .none, att := 0, target := 127, pending := none }
    let down : Lane := { current := .none, att := 127, target := 0, pending := none }
    (up.att < up.target ∧ down.target < down.att ∧ ({ up with att := 127 } : Lane).att = up.target) ∧
      (1 ≤ 2 ∧ (up.target - up.att) + (up.att - up.target) ≤ 64 * 2) := by decide

theorem witness_GainIsNearest : 47999 < 48000 ∧ (1 ≤ 1 ∧ 1 ≤ 126) ∧ 1 ≤ 126 ∧ 126 ≤ 126 := by decide

theorem witness_LaneUpdateFollowsTable :
    (∃ (l : Lane) (d : Desired), l.pending = none ∧ d.source = l.current) ∧
    (∃ (l : Lane) (d : Desired), l.pending = none ∧ d.source ≠ l.current ∧ l.att = 127) ∧
    (∃ (l : Lane) (d : Desired), l.pending = none ∧ d.source ≠ l.current ∧ l.att ≠ 127 ∧ l.att = 126) ∧
    (∃ (l : Lane) (d : Desired), l.pending ≠ none ∧ d.source = l.current) ∧
    (∃ (l : Lane) (d : Desired), l.pending ≠ none ∧ d.source ≠ l.current) ∧
    ((called.zones.get 3).state.live? = some call0 ∧ (called.calls.call? call0).map (fun c => c.captured.duck) = some .duck) ∧
    (∃ c : ClassDef, c.duck = .keep) ∧ (∃ c : ClassDef, c.duck = .mute) ∧
    (factoryZone 3).programme = none ∧ ({ factoryZone 3 with programme := some 51 } : ZoneEntry).programme = some 51 :=
  ⟨⟨resetMixer.foreground, ⟨.none, 3⟩, by decide⟩, ⟨resetMixer.foreground, ⟨.chime, 3⟩, by decide⟩,
    ⟨{ resetMixer.foreground with att := 126 }, ⟨.chime, 3⟩, by decide⟩,
    ⟨{ resetMixer.foreground with pending := some .chime }, ⟨.none, 3⟩, by decide⟩,
    ⟨{ resetMixer.foreground with pending := some .chime }, ⟨.source 0, 3⟩, by decide⟩, by decide +kernel,
    ⟨blankClass, rfl⟩, ⟨factoryClass7, rfl⟩, rfl, rfl⟩

theorem witness_KeyUpFollowsCases :
    let held := withDue (keyed.changeCall call0 fun c => { c with hold := some 1 }) (.keyUp 0)
    (held.inReset = false ∧ Task.keyUp 0 ∈ held.due ∧ held.calls.ofSource? (trunkSource 0) = some call0 ∧
      (held.calls.call? call0).map (fun c => (c.origin, c.hold.isSome)) = some (.key, true)) ∧
    ((withDue keyed (.keyUp 0)).calls.ofSource? (trunkSource 0) = some call0 ∧
      ((withDue keyed (.keyUp 0)).calls.call? call0).map (fun c => c.hold) = some none) ∧
    (State.reset.calls.ofSource? (trunkSource 47) = none ∧ (State.reset.plan.trunks.get 47).keyClass = none) ∧
    (keyable.calls.ofSource? (trunkSource 0) = none ∧ (keyable.plan.trunks.get 0).keyClass = some 0 ∧
      keyable.plan.classes.get 0 = some factoryClass0 ∧ keyable.calls.freeIndex? = some 0) := by decide +kernel

/-- The last case of R10's list: no record is FREE. -/
theorem witness_KeyUpFollowsCases_full :
    ({ resetCallTable with records := Table.fill ⟨0, some
        { origin := .key, cls := 0, captured := factoryClass0, source := 51, target := 1#16, granted := 0#16
          suspended := 0#16, speak := false, everGranted := false, wait := none, duration := none, hold := none }⟩ }
      : CallTable).freeIndex? = none := by decide

theorem witness_KeyDownFollowsCases :
    ((withDue keyed (.keyDown 0)).calls.ofSource? (trunkSource 0) = some call0 ∧
      (keyed.calls.call? call0).map (fun c => (c.origin, c.captured.holdMs)) = some (.key, 500)) ∧
    ((keyed.changeCall call0 fun c => { c with captured := factoryClass6 }).calls.call? call0).map
      (fun c => (c.origin, c.captured.holdMs)) = some (.key, 0) ∧
    (State.reset.calls.ofSource? (trunkSource 0) = none) ∧
    ((keyed.changeCall call0 fun c => { c with origin := .controller .c62 0#8 }).calls.call? call0).map
      (fun c => decide (c.origin ≠ .key)) = some true := by decide +kernel

theorem witness_LossAndExpiriesEndCalls :
    (Task.loss 48 ∈ (withDue called (.loss 48)).due ∧ called.inReset = false ∧
      called.calls.ofSource? 48 = some call0 ∧ called.calls.ofSource? 51 = none) ∧
    ((called.changeCall call0 fun c => { c with wait := some 1, hold := some 1, duration := some 1 }).calls.call? call0).map
      (fun c => (c.wait, c.hold, c.duration)) = some (some 1, some 1, some 1) ∧
    Task.waitEnd call0 ∈ (withDue called (.waitEnd call0)).due ∧
    Task.holdEnd call0 ∈ (withDue called (.holdEnd call0)).due ∧
    Task.durationEnd call0 ∈ (withDue called (.durationEnd call0)).due := by decide +kernel

theorem witness_LeadInExpiryGoesOnAir :
    let s : State := withDue { called with
      zones := called.zones.set 3 { called.zones.get 3 with state := .leadIn call0 1 } } (.leadInEnd 3)
    s.inReset = false ∧ Task.leadInEnd 3 ∈ s.due ∧ (s.zones.get 3).state = .leadIn call0 1 ∧
      (s.calls.call? call0).map (fun c => c.speak) = some false := by decide +kernel

theorem witness_RetryExpiryReturnsEntries :
    (withDue sentNotice .retryEnd).inReset = false ∧ Task.retryEnd ∈ (withDue sentNotice .retryEnd).due ∧
      sentNotice.notices.timer = some ⟨1, false⟩ := by decide

theorem witness_CopyDoneOpensBank :
    (withDue copying .copyEnd).inReset = false ∧ Task.copyEnd ∈ (withDue copying .copyEnd).due ∧
      copying.plans.copied = some 83 ∧ Task.copyStep ∈ (withDue copying82 .copyStep).due ∧
      copying82.plans.copied = some 82 ∧ 82 < 83 := by decide

theorem witness_FadeAndStepEnds :
    (let s : State := withDue { State.reset with mixers := Table.fill { resetMixer with
        background := { resetMixer.background with pending := some (.source 0), target := 127 } } } (.fadeEnd 15 .background);
      s.inReset = false ∧ Task.fadeEnd 15 .background ∈ s.due ∧
        ((s.mixers.get 15).lane .background).pending = some (.source 0) ∧
        ((s.mixers.get 15).lane .background).att = 127) ∧
    (let s : State := withDue { State.reset with mixers := Table.fill { resetMixer with
        player := { pattern := some [⟨1000, 9⟩], pos := some ⟨1, 1⟩, phase := 0 } } } (.chimeEnd 0);
      Task.chimeEnd 0 ∈ s.due ∧ (s.mixers.get 0).player.pattern = some [⟨1000, 9⟩] ∧
        (s.mixers.get 0).player.pos = some ⟨1, 1⟩) ∧
    (let g : ToneGen := { playing := some ⟨0, [⟨800, 9⟩], true, some ⟨1, 1⟩⟩, phase := 7 };
      let s : State := withDue { State.reset with sources := { State.reset.sources with tones := Table.fill g } } (.toneEnd 3);
      Task.toneEnd 3 ∈ s.due ∧ (s.sources.tones.get 3).playing = some ⟨0, [⟨800, 9⟩], true, some ⟨1, 1⟩⟩) := by
  decide +kernel

theorem witness_ArbiterBeginsMessage :
    (State.reset.transitOnly = false ∧ State.reset.msg.own = [] ∧ State.reset.msg.transit = [] ∧
      State.reset.msg.input ≠ .forward ∧ State.reset.msg.input ≠ .broadcast ∧ State.reset.msg.replies = [] ∧
      State.reset.notices.enabled = true ∧ State.reset.notices.anyUnsent = true) ∧
    opened.msg.replies ≠ [] ∧ (State.afterReset 60#6).transitOnly = true := by decide +kernel

/-- Every kind of Table 10-8 with one length: a request of the wrong length is offered. -/
theorem witness_CommonChecksRefuse_length (x : Instr × BitVec 8 × Nat) (_h : x ∈ requestCommands) :
    (asked State.reset (req x.2.1 (List.replicate (x.2.2 + 1) 0#16))).Offers x.2.1
        (req x.2.1 (List.replicate (x.2.2 + 1) 0#16)) [] ∧
      (req x.2.1 (List.replicate (x.2.2 + 1) 0#16)).len ≠ x.2.2 :=
  ⟨offers_asked rfl rfl rfl rfl, by simp [req]⟩

/-- A call event that enters LEAD_IN with a captured chime pattern, one without, a defined and an undefined pattern; a loss
that leaves a target set empty, and not; a call that has spoken, and one that has not. -/
theorem witness_CallEventsLeaveOtherBlocks :
    (let e := Event.start State.reset |>.openRecord State.reset.plan .key 0 factoryClass0 48 8#16 |>.settle;
      3 ∈ e.leadIns ∧ (e.zones.get 3).state = .leadIn call0 57600 ∧
        (e.calls.call? call0).map (fun c => c.captured.chime) = some factoryClass0.chime ∧
        factoryClass0.chime.bind State.reset.plan.patterns.get ≠ none ∧ blankPlan.patterns.get 0 = none ∧
        (State.reset.zones.get 3).state.phase ≠ (e.zones.get 3).state.phase ∧ 2 ∉ e.leadIns ∧
        (State.reset.zones.get 2).state.phase = (e.zones.get 2).state.phase) ∧
    (((Event.start called).calls.call? call0).map (fun c => (c.target, c.speak)) = some (8#16, false) ∧
      (∀ y, ZoneSet.has 8#16 y = true → y = 3) ∧ (∃ y, ZoneSet.has 24#16 y = true ∧ y ≠ 3) ∧
      (((Event.start called).takeReport (.onAir call0)).calls.call? call0).map (fun c => c.speak) = some true) := by
  decide +kernel

theorem witness_CommonChecksRefuse_kind :
    (asked State.reset (req 255#8 [])).Offers 255#8 (req 255#8 []) [] ∧ (255#8 : BitVec 8) ≠ 64#8 ∧
      ∀ x ∈ requestCommands, (255#8 : BitVec 8) ≠ x.2.1 := ⟨offers_asked rfl rfl rfl rfl, by decide, by decide⟩

/-- Field values just outside their ranges. -/
theorem witness_CommonChecksRefuse_fields :
    (asked State.reset (req 1#8 [7#16, 52#16, 0#16])).Offers 1#8 (req 1#8 [7#16, 52#16, 0#16]) [] ∧
      (7 < (8#16 : Word).toNat ∧ (7#16 : Word).toNat ≤ 7 ∧ 51 < (52#16 : Word).toNat ∧ 511 < (512#16 : Word).toNat ∧
        (0#16 : Word).toNat = 0 ∧ 15 < (16#16 : Word).toNat ∧ 1 < (2#16 : Word).toNat ∧ 255 < (256#16 : Word).toNat ∧
        (59#16 : Word).toNat < 60 ∧ 62 < (63#16 : Word).toNat ∧ (9#16 : Word).toNat < 10 ∧
        2000 < (2001#16 : Word).toNat) := ⟨offers_asked rfl rfl rfl rfl, by decide⟩

/-- The later fields of CLEAR_CALLS, ZONE_PROBE, PLAN_READ and NOTICE_CONFIG. -/
theorem witness_CommonChecksRefuse_later :
    (asked called (req 4#8 [15#16, 2#16])).Offers 4#8 (req 4#8 [15#16, 2#16]) [] ∧
    (asked called (req 17#8 [15#16, 16#16])).Offers 17#8 (req 17#8 [15#16, 16#16]) [] ∧
    (asked called (req 33#8 [1#16, 3#16, 8#16])).Offers 33#8 (req 33#8 [1#16, 3#16, 8#16]) [] ∧
    (asked called (req 49#8 [62#16, 2#16, 10#16])).Offers 49#8 (req 49#8 [62#16, 2#16, 10#16]) [] ∧
    ((1 ≤ (15#16 : Word).toNat ∧ (15#16 : Word).toNat ≤ 15 ∧ 1 < (2#16 : Word).toNat ∧ 15 < (16#16 : Word).toNat) ∧
      ((1#16 : Word).toNat ≤ 1 ∧ 3 < (4#16 : Word).toNat ∧ (3#16 : Word).toNat ≤ 3 ∧ tableSize 3#16 ≤ (8#16 : Word).toNat) ∧
      (60 ≤ (62#16 : Word).toNat ∧ (62#16 : Word).toNat ≤ 62)) :=
  ⟨offers_asked rfl rfl rfl rfl, offers_asked rfl rfl rfl rfl, offers_asked rfl rfl rfl rfl, offers_asked rfl rfl rfl rfl,
    by decide⟩

/-- PLAN_WRITE of generator 3's entry with a key target, its third entry word: field 6 (R104). -/
theorem witness_CommonChecksRefuse_entry :
    let words : List Word := [1, 2, 51, 7, 255, 1, 0, 0, 0, 0, 0, 0, 0, 0].map (BitVec.ofNat 16)
    (asked called (req 32#8 words)).Offers 32#8 (req 32#8 words) [] ∧
      (words.length = 14 ∧ (wordAt words 0).toNat ≤ 1 ∧ (wordAt words 1).toNat ≤ 3 ∧
        (wordAt words 2).toNat < tableSize (wordAt words 1) ∧ entryName (wordAt words 1) (wordAt words 2) = .tone 3) ∧
      (∀ j, j < 2 → entryWordInRange (.tone 3) j (wordAt words (3 + j)).toNat) ∧
      ¬ entryWordInRange (.tone 3) 2 (wordAt words 5).toNat := by
  refine ⟨offers_asked rfl rfl rfl rfl, by decide, fun j hj => ?_, ?_⟩
  · match j, hj with
    | 0, _ => exact .inl (by decide)
    | 1, _ => exact rfl
  · exact (by decide : ¬ (1 : Nat) = 0)

theorem witness_DuplicatesAreReplayed :
    let s := asked opened (req 1#8 [0#16, 48#16, 8#16])
    (s.inReset = false ∧ s.msg.requests = [req 1#8 [0#16, 48#16, 8#16]] ∧ s.msg.replies.length < 4 ∧
      (s.msg.cache.entry .c60).map (fun e => (e.tag, e.kind)) = some (5#8, 1#8)) ∧
    4 ≤ ({ s.msg with replies := s.msg.replies ++ s.msg.replies ++ s.msg.replies ++ s.msg.replies }
      : MessageBlock).replies.length ∧
    State.reset.msg.requests = [] ∧ ({ req 2#8 [] with isBroadcast := true } : Request).isBroadcast = true := by
  decide +kernel

/-- ECHO and UNKNOWN_KIND_REQUEST among the request commands: their kinds, a duplicate of each, and a front that is
neither's. -/
theorem witness_DuplicatesAreReplayed_others :
    (let s := asked (takeEcho (asked State.reset (req 64#8 [7#16]))) (req 64#8 [7#16]);
      s.msg.replies.length < 4 ∧ (s.msg.cache.entry .c60).map (fun e => (e.tag, e.kind)) = some (5#8, 64#8)) ∧
    (let s := asked (takeUnknownKind (asked State.reset (req 99#8 []))) (req 99#8 []);
      (99#8 : BitVec 8) ≠ 64#8 ∧ (∀ x ∈ requestCommands, (99#8 : BitVec 8) ≠ x.2.1) ∧
        (s.msg.cache.entry .c60).map (fun e => (e.tag, e.kind)) = some (5#8, 99#8)) ∧
    ¬ (1#8 : BitVec 8) = 64#8 ∧ ¬ ((1#8 : BitVec 8) ≠ 64#8 ∧ ∀ x ∈ requestCommands, (1#8 : BitVec 8) ≠ x.2.1) := by
  decide +kernel

theorem witness_CallOpenFollowsChecks :
    (asked State.reset (req 1#8 [0#16, 48#16, 8#16])).Offers 1#8 (req 1#8 [0#16, 48#16, 8#16]) [] ∧
    ((State.reset.plan.classes.get 1 = none ∧ State.reset.plan.classes.get 0 = some factoryClass0) ∧
      (State.reset.plan.mapped 51 = false ∧ State.reset.plan.mapped 48 = true ∧
        State.reset.sources.isAbsent 48 = false ∧ State.reset.sources.isAbsent 47 = true) ∧
      (State.reset.plan.used 3 = true ∧ blankPlan.used 15 = false ∧ ZoneSet.has 8#16 3 = true) ∧
      (State.reset.calls.ofSource? 48 = none ∧ called.calls.ofSource? 48 = some call0) ∧
      State.reset.calls.freeIndex? = some 0) := ⟨offers_asked rfl rfl rfl rfl, by decide +kernel⟩

theorem witness_CallRequests :
    (asked called (req 2#8 [0#16])).Offers 2#8 (req 2#8 [0#16]) [] ∧
    (asked called (req 3#8 [0#16, 16#16, 8#16])).Offers 3#8 (req 3#8 [0#16, 16#16, 8#16]) [] ∧
    (asked called (req 4#8 [15#16, 1#16])).Offers 4#8 (req 4#8 [15#16, 1#16]) [] ∧
    (asked called (req 5#8 [0#16])).Offers 5#8 (req 5#8 [0#16]) [] ∧
    (called.calls.call? call0 ≠ none ∧ called.calls.call? ⟨31, 15⟩ = none ∧
      (0#16 : Word).toNat = call0.index.val * 16 + call0.gen.val ∧ (511#16 : Word).toNat = 31 * 16 + 15 ∧
      (16#16 &&& 8#16 : ZoneSet) = 0#16 ∧ (24#16 &&& 8#16 : ZoneSet) ≠ 0#16 ∧
      (1#16 : Word) = flagWord true) :=
  ⟨offers_asked rfl rfl rfl rfl, offers_asked rfl rfl rfl rfl, offers_asked rfl rfl rfl rfl,
    offers_asked rfl rfl rfl rfl, by decide +kernel⟩

/-- The events of a retarget and of the pruning: a zone removed where the call is live, and where it is on the stack; a
target set left empty, and not; a spoken SKIP call that waits on a zone, with another left and with none. -/
theorem witness_RetargetFollowsChecks_events :
    (let e := Event.start called;
      (e.calls.call? call0).map (fun c => (c.target, c.granted, c.suspended)) = some (8#16, 8#16, 0#16) ∧
        (e.zones.get 3).state.live? = some call0 ∧ ZoneSet.has (8#16 &&& 8#16 &&& (8#16 ||| 0#16)) 3 = true ∧
        ((8#16 &&& ~~~ 8#16 : ZoneSet) ||| 0#16) = 0#16 ∧ ((8#16 &&& ~~~ 8#16 : ZoneSet) ||| 16#16) ≠ 0#16) ∧
    (let e := Event.start (takeZoneRestrict (asked called (req 16#8 [8#16, 5#16])));
      (e.calls.call? call0).map (fun c => (c.target, c.granted, c.suspended)) = some (8#16, 0#16, 8#16) ∧
        (e.zones.get 3).state.live? ≠ some call0) ∧
    (let e := (Event.start called).changeCall call0 fun c =>
        { c with speak := true, target := 24#16, captured := { c.captured with late := .skip } };
      (e.calls.call? call0).map (fun c => (c.speak, c.captured.late)) = some (true, .skip) ∧
        (24#16 &&& (8#16 ||| 0#16) : ZoneSet) ≠ 0#16) ∧
    (let e := (Event.start called).changeCall call0 fun c => { c with granted := 0#16 };
      (e.calls.call? call0).map (fun c => c.target &&& (c.granted ||| c.suspended)) = some 0#16 ∧ (8#16 : ZoneSet) ≠ 0#16) := by
  decide +kernel

theorem witness_ReadsChangeNothing :
    (asked called (req 5#8 [0#16])).Offers 5#8 (req 5#8 [0#16]) [] ∧
    (asked called (req 24#8 [47#16])).Offers 24#8 (req 24#8 [47#16]) [] ∧
    (asked called (req 24#8 [48#16])).Offers 24#8 (req 24#8 [48#16]) [] ∧
    (asked called (req 18#8 [15#16])).Offers 18#8 (req 18#8 [15#16]) [] ∧
    (asked called (req 24#8 [51#16])).Offers 24#8 (req 24#8 [51#16]) [] ∧
    (asked called (req 33#8 [1#16, 2#16, 51#16])).Offers 33#8 (req 33#8 [1#16, 2#16, 51#16]) [] ∧
    (asked called (req 39#8 [])).Offers 39#8 (req 39#8 []) [] ∧
    ((1#16 : Word) = BankNo.b1.word ∧ (51#16 : Word).toNat < tableSize 2#16 ∧ (copying.plans.bank .b1).state = .copying ∧
      (called.plans.bank .b1).state ≠ .copying ∧ entryName 2#16 51#16 = .tone 3) :=
  ⟨offers_asked rfl rfl rfl rfl, offers_asked rfl rfl rfl rfl, offers_asked rfl rfl rfl rfl,
    offers_asked rfl rfl rfl rfl, offers_asked rfl rfl rfl rfl, offers_asked rfl rfl rfl rfl,
    offers_asked rfl rfl rfl rfl, by decide +kernel⟩

theorem witness_ZoneRestrictSetsFloors :
    (asked called (req 16#8 [8#16, 15#16])).Offers 16#8 (req 16#8 [8#16, 15#16]) [] ∧
      (∀ z, ZoneSet.has 8#16 z = true → called.plan.used z = true) ∧
      (ZoneSet.has 8#16 3 = true ∧ blankPlan.used 3 = false) := ⟨offers_asked rfl rfl rfl rfl, by decide +kernel⟩

theorem witness_ZoneProbeAnswersOutcome :
    (asked called (req 17#8 [3#16, 15#16])).Offers 17#8 (req 17#8 [3#16, 15#16]) [] ∧
      (called.plan.used 3 = true ∧ blankPlan.used 3 = false ∧ (called.zones.get 2).state = .idle ∧
        (called.zones.get 3).state.live? = some call0 ∧
        (called.calls.call? call0).map (fun c => (c.captured.priority, c.captured.preempt)) = some (4, .resume) ∧
        (called.zones.get 3).stack.length < 4 ∧
        ([⟨call0, .onAir⟩, ⟨call0, .onAir⟩, ⟨call0, .onAir⟩, ⟨⟨1, 1⟩, .onAir⟩] : List StackEntry).getLast? =
          some ⟨⟨1, 1⟩, .onAir⟩) := ⟨offers_asked rfl rfl rfl rfl, by decide +kernel⟩

/-- PLAN_WRITE of generator 3's entry with every field in range. -/
theorem witness_PlanWriteStoresEntry :
    let words : List Word := [1, 2, 51, 7, 255, 0, 0, 0, 0, 0, 0, 0, 0, 0].map (BitVec.ofNat 16)
    (asked State.reset (req 32#8 words)).Offers 32#8 (req 32#8 words) [] ∧
      ((applyChecks (entryChecks (.tone 3)) (words.drop 3)).all id = true ∧ entryName 2#16 51#16 = .tone 3 ∧
        BankNo.b1 ≠ State.reset.plans.live ∧ (State.reset.plans.bank .b1).state = .empty ∧
        (twoPlans.plans.bank .b1).state = .sealed ∧ (copying.plans.bank .b1).state = .copying) :=
  ⟨offers_asked rfl rfl rfl rfl, by decide +kernel⟩

theorem witness_EntryReadsBackAsWritten :
    (applyChecks (entryChecks (.cls 7)) ([1, 15, 1, 1, 7, 10000, 2, 1, 2, 3, 0].map (BitVec.ofNat 16))).all id = true ∧
    (applyChecks (entryChecks (.cls 7)) ([0, 15, 1, 1, 7, 10000, 2, 1, 2, 3, 0].map (BitVec.ofNat 16))).all id = true ∧
    (applyChecks (entryChecks (.zone 0)) ([63, 51, 127, 127, 127, 15, 1, 8, 0, 0, 0].map (BitVec.ofNat 16))).all id = true ∧
    (applyChecks (entryChecks (.trunk 0)) ([255, 7, 9, 0, 0, 0, 0, 0, 0, 0, 0].map (BitVec.ofNat 16))).all id = true ∧
    (applyChecks (entryChecks (.tone 0)) ([255, 255, 0, 0, 0, 0, 0, 0, 0, 0, 0].map (BitVec.ofNat 16))).all id = true ∧
    (applyChecks (entryChecks (.pattern 1)) ([1, 4, 1, 100, 1, 4000, 10000, 0, 1, 0, 1].map (BitVec.ofNat 16))).all id
      = true ∧
    (applyChecks (entryChecks (.pattern 1)) ([0, 1, 1, 100, 1, 4000, 10000, 0, 1, 0, 1].map (BitVec.ofNat 16))).all id
      = true := by decide

theorem witness_BankRequests :
    (asked twoPlans (req 34#8 [1#16])).Offers 34#8 (req 34#8 [1#16]) [] ∧
    (asked twoPlans (req 35#8 [1#16])).Offers 35#8 (req 35#8 [1#16]) [] ∧
    (asked twoPlans (req 36#8 [1#16])).Offers 36#8 (req 36#8 [1#16]) [] ∧
    (asked twoPlans (req 37#8 [])).Offers 37#8 (req 37#8 []) [] ∧
    (asked twoPlans (req 38#8 [1#16, 9#16])).Offers 38#8 (req 38#8 [1#16, 9#16]) [] ∧
    ((BankNo.b0 = twoPlans.plans.live ∧ BankNo.b1 ≠ twoPlans.plans.live ∧ twoPlans.plans.pending = none ∧
        pointed.plans.pending ≠ none ∧ twoPlans.plans.otherBank.state = .sealed ∧
        copying.plans.otherBank.state = .copying ∧ openBank.plans.otherBank.state = .opened ∧
        State.reset.plans.otherBank.state = .empty) ∧
      (sealFailure blankPlan = none ∧
        sealFailure { blankPlan with tones := blankPlan.tones.set 3 (some 7) } = some (7, 51)) ∧
      ((linked twoPlans .locked (some 8#16)).receiver.link = .locked ∧ twoPlans.receiver.link ≠ .locked ∧
        (9#16 - 8#16 : BitVec 16).toNat = 1 ∧ (32775#16 - 8#16 : BitVec 16).toNat = 32767 ∧
        (32776#16 - 8#16 : BitVec 16).toNat = 32768 ∧ (8#16 - 8#16 : BitVec 16).toNat = 0)) :=
  ⟨offers_asked rfl rfl rfl rfl, offers_asked rfl rfl rfl rfl, offers_asked rfl rfl rfl rfl,
    offers_asked rfl rfl rfl rfl, offers_asked rfl rfl rfl rfl, by decide +kernel⟩

theorem witness_NoticeRequests :
    (asked sentNotice (req 48#8 [0#16])).Offers 48#8 (req 48#8 [0#16]) [] ∧
    (asked sentNotice (req 49#8 [62#16, 0#16, 10#16])).Offers 49#8 (req 49#8 [62#16, 0#16, 10#16]) [] ∧
    ((∀ e ∈ sentNotice.notices.queue, e.sent = true → e.seq ≠ 1#8) ∧
      sentNotice.notices.queue = [] ++ ⟨0#8, .powerUp, true⟩ :: [⟨1#8, .link true, false⟩] ∧
      sentNotice.notices.lost = 0 ∧ 0 < ({ sentNotice.notices with lost := 255 } : NoticeBlock).lost ∧
      (62#16 : Word).toNat = Controller.c62.address.toNat ∧ (0#16 : Word) = flagWord false) :=
  ⟨offers_asked rfl rfl rfl rfl, offers_asked rfl rfl rfl rfl, by decide⟩

theorem witness_SystemRequests :
    (asked called (req 64#8 (List.replicate 28 7#16))).Offers 64#8 (req 64#8 (List.replicate 28 7#16)) [] ∧
    (asked called (req 65#8 [1#16])).Offers 65#8 (req 65#8 [1#16]) [] ∧
    (asked called (req 66#8 [])).Offers 66#8 (req 66#8 []) [] ∧ (1#16 : Word) = flagWord true :=
  ⟨offers_asked rfl rfl rfl rfl, offers_asked rfl rfl rfl rfl, offers_asked rfl rfl rfl rfl, rfl⟩

/-- A node reset with a key-up edge, a switch, a copy step and a loss due, and a copy in progress. -/
theorem witness_NodeResetEffects :
    let s : State := { asked copying (req 66#8 []) with due := [.keyUp 47, .switchTake, .copyStep, .loss 48] }
    s.Offers 66#8 (req 66#8 []) [] ∧ s.plans.copied ≠ none ∧ called.plans.copied = none ∧
      s.due.filter Task.survivesReset = [.loss 48] :=
  ⟨⟨rfl, rfl, rfl, rfl, rfl⟩, by decide⟩

/-- The end of a call that is live on a zone, and of one that is on its stack. -/
theorem witness_EndFreesRecord :
    ((Event.start called).calls.call? call0).map (fun c => c.granted ||| c.suspended) = some 8#16 ∧
      ((Event.start called).zones.get 3).state.live? = some call0 ∧ called.calls.admission.Nodup ∧
      ZoneSet.has 8#16 3 = true ∧ ZoneSet.has 8#16 15 = false ∧
      (let e := Event.start (takeZoneRestrict (asked called (req 16#8 [8#16, 5#16])));
        (e.calls.call? call0).map (fun c => c.granted ||| c.suspended) = some 8#16 ∧
          (e.zones.get 3).state.live? = none) := by decide +kernel

/-- Contenders for each key of Table 2-2: a higher priority; the live call among equals; stacked before waiting, and nearer
the top; first in the admission list, and the smaller rotation distance. -/
theorem witness_RankingFollowsKeys :
    (let e := twoCalls factoryClass7;
      (e.calls.call? ⟨1, 0⟩).map (fun c => c.captured.priority) = some 15 ∧
        (e.calls.call? call0).map (fun c => c.captured.priority) = some 4) ∧
    (let e := twoCalls factoryClass0;
      (e.calls.call? ⟨1, 0⟩).map (fun c => (c.captured.priority, c.source)) = some (4, 49) ∧
        (e.calls.call? call0).map (fun c => (c.captured.priority, c.source)) = some (4, 48) ∧
        (⟨1, 0⟩ : CallRef) ≠ call0 ∧ (e.zones.get 3).state.live? = some call0 ∧
        (factoryPlan.zones.get 3).order = .fifo ∧ e.calls.admission.idxOf call0 < e.calls.admission.idxOf ⟨1, 0⟩ ∧
        rotationDistance (some 48) 49 < rotationDistance (some 48) 48 ∧ rotationDistance none 48 < rotationDistance none 49) ∧
    (let z : ZoneRecord := { resetZone with stack := [⟨call0, .onAir⟩, ⟨⟨1, 0⟩, .leadIn⟩] };
      z.state.live? = none ∧ (∃ en ∈ z.stack, en.call = call0) ∧ (∃ en ∈ z.stack, en.call = ⟨1, 0⟩) ∧
        (z.stack.findIdx fun en => decide (en.call = call0)) < z.stack.findIdx fun en => decide (en.call = ⟨1, 0⟩)) ∧
    ¬ ∃ en ∈ ({ resetZone with stack := [⟨call0, .onAir⟩] } : ZoneRecord).stack, en.call = ⟨1, 0⟩ := by decide +kernel

theorem witness_ArbiterOperations :
    (((Event.start called).calls.call? call0).map (fun c => c.everGranted) = some true ∧
      ((Event.start (called.changeCall call0 fun c => { c with everGranted := false })).calls.call? call0).map
        (fun c => c.everGranted) = some false) ∧
    (((Event.start State.reset).calls.records.get 0).call = none ∧ called.calls.admission.Nodup ∧
      ((Event.start called).calls.records.get 1).call = none ∧ ((Event.start called).calls.records.get 0).call ≠ none) ∧
    ((Event.start called).top called.plan 3 = some call0 ∧ (Event.start called).top called.plan 2 = none ∧
      call0 ∈ (Event.start called).contenders 3 ∧
      effectiveFloor called.plan (Event.start called).zones 3 ≤ (Event.start called).priority call0) := by decide +kernel

/-- The evaluations of Table 2-3: a restricted zone makes its live call leave (V2); an idle zone with a waiting call or a
stacked one grants it (V4); a higher call displaces the live one (V5). -/
theorem witness_EvaluationFollowsCases :
    (let e := (Event.start called).changeZone 3 fun z => { z with restriction := 5 };
      e.top called.plan 3 = none ∧ (e.zones.get 3).state.live? = some call0 ∧
        (e.calls.call? call0).map (fun c => c.captured.preempt) = some .resume ∧ (e.zones.get 3).stack.length < 4) ∧
    (let e := (Event.start called).changeZone 3 fun z => { z with state := .idle };
      e.top called.plan 3 = some call0 ∧ (e.zones.get 3).state.live? = none ∧ (e.zones.get 3).stack = []) ∧
    (let e := (Event.start called).changeZone 3 fun z => { z with state := .idle, stack := [⟨call0, .onAir⟩] };
      e.top called.plan 3 = some call0 ∧ ⟨call0, .onAir⟩ ∈ (e.zones.get 3).stack) ∧
    (let e := twoCalls factoryClass7;
      e.top called.plan 3 = some ⟨1, 0⟩ ∧ (⟨1, 0⟩ : CallRef) ≠ call0 ∧ (e.zones.get 3).state.live? = some call0 ∧
        (e.calls.call? ⟨1, 0⟩).isSome = true ∧
        (e.calls.call? call0).map (fun c => c.captured.preempt) = some .resume ∧ (e.zones.get 3).stack = []) ∧
    (let full : List StackEntry := [⟨⟨2, 0⟩, .onAir⟩, ⟨⟨3, 0⟩, .onAir⟩, ⟨⟨4, 0⟩, .onAir⟩, ⟨⟨5, 0⟩, .leadIn⟩];
      let e := (twoCalls factoryClass7).changeZone 3 fun z => { z with stack := full };
      e.top called.plan 3 = some ⟨1, 0⟩ ∧ (e.zones.get 3).state.live? = some call0 ∧
        (∀ en ∈ (e.zones.get 3).stack, en.call ≠ ⟨1, 0⟩) ∧ 4 ≤ (e.zones.get 3).stack.length ∧
        (e.zones.get 3).stack.getLast? = some ⟨⟨5, 0⟩, .leadIn⟩) := by decide +kernel

theorem witness_SubmissionFollowsCases :
    ({ resetNotices with enabled := false } : NoticeBlock).enabled = false ∧ resetNotices.enabled = true ∧
    ((Notice.callEnded call0 .released).coalesces? = some call0 ∧
      NoticeEntry.isOpenStatus call0 ⟨3#8, .callStatus call0 .live 8#16, false⟩ = true ∧
      NoticeEntry.isOpenStatus call0 ⟨4#8, .link true, false⟩ = false) ∧
    (Notice.link true).coalesces? = none ∧ resetNotices.queue.length < 16 ∧
    16 ≤ (List.replicate 16 (⟨4#8, .link true, false⟩ : NoticeEntry)).length := by decide

theorem witness_MessageChecksInOrder :
    3 ≤ ([0x2BC1#16, 0x4005#16, 0#16] : List Word).length ∧ classOf 0x2BC1#16 = 1#4 ∧
      controllerAt (srcOf 0x2BC1#16) = some .c60 ∧ classOf 0x2BC2#16 ≠ 1#4 ∧ controllerAt (srcOf 0x2BB1#16) = none ∧
      resetMessages.requests.length < 4 ∧ 4 ≤ (List.replicate 4 (req 64#8 [])).length := by decide

/-- Lengths at which assembly turns: 1 and 2 words, 3 with a length of 28 and 29, the last word in time, early and late. -/
theorem witness_MessageChecksInOrder_assembly :
    (([] : List Word) ++ [0#16]).length < 3 ∧ ([1#16, 2#16] ++ [3#16] : List Word).length = 3 ∧
      28 < lengthOf (wordAt ([1#16, 2#16] ++ [29#16]) 2) ∧ lengthOf (wordAt ([1#16, 2#16] ++ [28#16]) 2) ≤ 28 ∧
      4 + lengthOf (wordAt ([1#16, 2#16, 0#16] ++ [4#16]) 2) ≤ ([1#16, 2#16, 0#16] ++ [4#16] : List Word).length ∧
      ([1#16, 2#16, 1#16] ++ [4#16] : List Word).length < 4 + lengthOf (wordAt ([1#16, 2#16, 1#16] ++ [4#16]) 2) := by
  decide

/-- The four dispositions at address 10, and what an abandoned message leaves of the transit buffer. -/
theorem witness_MessageChecksInOrder_stream :
    (destOf 0x2BC1#16 = 10#6 ∧ (10#6 : BitVec 6) ≠ 63#6 ∧ destOf 0xFFC1#16 = 63#6 ∧
      destOf 0x2FC1#16 ≠ 10#6 ∧ destOf 0x2FC1#16 ≠ 63#6 ∧ srcOf 0x2FC1#16 ≠ 10#6 ∧
      destOf 0x2CA1#16 ≠ 10#6 ∧ srcOf 0x2CA1#16 = 10#6) ∧
    (abandonForwarded [⟨.last, 1#16⟩, ⟨.first, 2#16⟩, ⟨.more, 3#16⟩] = [⟨.last, 1#16⟩] ∧
      abandonForwarded [⟨.first, 2#16⟩] = []) ∧
    ((State.afterReset 60#6).transitOnly = true ∧ State.reset.transitOnly = false ∧
      resetMessages.own = [] ∧ resetMessages.transit = []) := by decide

/-- The step of the invariants' premises: an idle step, and a frame boundary right after reset, which answers a next state. -/
theorem witness_invariants_premises :
    step State.reset = .next State.reset ∧
      ∃ t, step { State.reset with pending := [.freeRunBoundary []] } = .next t :=
  ⟨rfl, _, rfl⟩

/-- The premises of the queues' invariants, met by a state with a SENT notice, a LOCKED receiver and a KEYED source. -/
theorem witness_StepKeepsQueues :
    sentNotice.notices.Wf ∧ opened.msg.Wf ∧ (linked State.reset .locked (some 6#16)).receiver.Wf ∧
      ({ resetTrunk with state := .keyed, release := 95, absence := 95 } : TrunkRecord).Wf := by
  refine ⟨?_, ?_, ?_, ?_⟩
  · refine ⟨by decide, by decide, by decide, by decide, by decide, by decide⟩
  · refine ⟨by decide +kernel, by decide +kernel, by decide +kernel, by decide +kernel, by decide +kernel,
      by decide +kernel, by decide +kernel, by decide +kernel, ?_⟩
    intro k e h
    cases k
    · have : e.answer.results.length = 3 := by
        have hc : opened.msg.cache.e60.map (fun e => e.answer.results.length) = some 3 := by decide +kernel
        simp only [Cache.entry] at h
        rw [h] at hc
        simpa using hc
      rw [this]; decide
    · have hc : opened.msg.cache.e61 = none := by decide +kernel
      simp [Cache.entry, hc] at h
    · have hc : opened.msg.cache.e62 = none := by decide +kernel
      simp [Cache.entry, hc] at h
  · refine ⟨by decide, ?_, ?_, by decide, by decide, by decide⟩
    · intro k h; simp [linked] at h
    · intro m h; simp [linked] at h
  · refine ⟨by decide, by decide, by decide, by decide, ?_, ?_, ?_⟩ <;> decide

/-- The premises of the plan store's invariant, met by a state with two sealed banks. -/
theorem witness_StepKeepsPlansAndLanes :
    twoPlans.msg.Wf ∧ twoPlans.plans.Wf ∧ factoryPlan.InRange ∧ ∀ z, (twoPlans.mixers.get z).Wf := by
  have hs : sealFailure factoryPlan = none := by decide +kernel
  refine ⟨⟨by decide, by decide, by decide, by decide, by decide, by decide, by decide, by decide, ?_⟩, ⟨rfl, by decide +kernel, ?_, (fun h => nomatch h), ?_, ?_⟩, ⟨?_, ?_, ?_⟩, ?_⟩
  · intro k e h; cases k <;> cases h
  · intro k h; cases h
  · intro n h; cases n <;> cases h
  · intro n _; cases n <;> exact hs
  · have : ∀ i, ((factoryPlan.classes.get i).all fun d =>
        decide (1 ≤ d.priority ∧ d.priority ≤ 15 ∧ d.chimeMs ≤ 10000 ∧ d.waitMs ≤ 65535 ∧ d.durationMs ≤ 65535 ∧
          d.holdMs ≤ 65535)) = true := by decide +kernel
    intro i d h
    have := this i
    rw [h] at this
    simpa [ClassDef.InRange] using this
  · have : ∀ z, decide ((factoryPlan.zones.get z).programmeAtt ≤ 127 ∧ (factoryPlan.zones.get z).duckAtt ≤ 127 ∧
        (factoryPlan.zones.get z).foregroundAtt ≤ 127 ∧ (factoryPlan.zones.get z).floor ≤ 15 ∧
        1 ≤ (factoryPlan.zones.get z).ramp ∧ (factoryPlan.zones.get z).ramp ≤ 8) = true := by decide +kernel
    intro z
    have h := this z
    simp only [decide_eq_true_eq] at h
    exact h
  · have : ∀ i, ((factoryPlan.patterns.get i).all fun q =>
        decide (1 ≤ q.steps.length ∧ q.steps.length ≤ 4 ∧
          ∀ st ∈ q.steps, (st.hz = 0 ∨ (100 ≤ st.hz ∧ st.hz ≤ 4000)) ∧ 1 ≤ st.ms ∧ st.ms ≤ 10000)) = true := by
      decide +kernel
    intro i q h
    have := this i
    rw [h] at this
    simpa [Pattern.InRange, PatternStep.InRange] using this
  · intro z
    have hz : twoPlans.mixers.get z = resetMixer := by simp [twoPlans, withPlans, State.reset, State.afterReset]
    rw [hz]
    exact ⟨⟨by decide, by decide, by decide⟩, ⟨by decide, by decide, by decide⟩, by decide⟩

/-- In the state with one announcement, every call reference that is open is `call0`. -/
theorem called_open {r : CallRef} {c : Call} (h : called.calls.call? r = some c) : r = call0 := by
  have hn : ∀ i : Fin 32, i ≠ 0 → (called.calls.records.get i).call = none := by decide +kernel
  have hg : (called.calls.records.get 0).gen = 0 := by decide +kernel
  unfold CallTable.call? at h
  split at h
  · rename_i e
    by_cases hi : r.index = 0
    · rw [hi, hg] at e
      cases r
      simp_all [call0]
    · rw [hn _ hi] at h
      cases h
  · cases h

/-- The premises of the agreement of call table and zone records, met by the state with one announcement. -/
theorem witness_StepKeepsCallsAndZones : called.Coherent := by
  have hc : (called.calls.call? call0).map (fun c => (c.granted, c.suspended, c.target)) = some (8#16, 0#16, 8#16) := by
    decide +kernel
  have hz : ∀ z, ((called.zones.get z).state.live? = if z = 3 then some call0 else none) ∧
      (called.zones.get z).stack = [] := by decide +kernel
  have hcall : ∀ c, called.calls.call? call0 = some c → c.granted = 8#16 ∧ c.suspended = 0#16 ∧ c.target = 8#16 := by
    intro c h
    rw [h] at hc
    simpa using hc
  refine ⟨?_, ⟨by decide +kernel, ?_, ?_, by decide +kernel, by decide +kernel⟩,
    ⟨?_, ?_, ?_, ?_, ?_, ?_, ?_, ?_, ?_⟩, ?_, ?_, ?_, ?_, ?_, ?_⟩
  · have hp : called.plans = resetPlanStore := rfl
    rw [hp]
    have hs : sealFailure factoryPlan = none := by decide +kernel
    refine ⟨rfl, by decide, fun k h => by (cases h), (fun h => nomatch h), ?_, ?_⟩
    · intro n h; cases n
      · cases h
      · rfl
    · intro n h; cases n
      · exact hs
      · cases h
  · intro r
    have ha : called.calls.admission = [call0] := by decide +kernel
    have hs : (called.calls.call? call0).isSome = true := by decide +kernel
    rw [ha, List.mem_singleton]
    constructor
    · intro h; rw [h]; exact hs
    · intro h
      obtain ⟨c, h⟩ := Option.isSome_iff_exists.1 h
      exact called_open h
  · intro r r' c c' h h' _
    rw [called_open h, called_open h']
  · intro r c z h
    have e := called_open h
    subst e
    rw [(hcall c h).1, (hz z).1]
    revert z
    decide
  · intro r c z h
    have e := called_open h
    subst e
    rw [(hcall c h).2.1, (hz z).2]
    simp
  · intro r c h
    have e := called_open h
    subst e
    rw [(hcall c h).1, (hcall c h).2.1]
    decide
  · intro r c h
    have e := called_open h
    subst e
    rw [(hcall c h).1, (hcall c h).2.1, (hcall c h).2.2]
    decide
  · intro r c h
    have e := called_open h
    subst e
    rw [(hcall c h).2.2]
    decide
  · intro z r h
    rw [(hz z).1] at h
    split at h
    · injection h with h
      rw [← h]
      decide +kernel
    · cases h
  · intro z en h
    rw [(hz z).2] at h
    cases h
  · intro z
    rw [(hz z).2]
    decide
  · intro z
    rw [(hz z).2]
    decide
  · intro z l en cl ce _ h
    rw [(hz z).2] at h
    cases h
  · intro z h
    have hu : ∀ z, called.plan.used z = true := by decide +kernel
    rw [hu z] at h
    cases h
  · intro z l cl _ _
    have hf : ∀ z, max (called.plan.zones.get z).floor (called.zones.get z).restriction = 0 := by decide +kernel
    rw [hf z]
    exact Nat.zero_le _
  · intro z l cl r c _ hl hr _
    rw [called_open hl] at hl
    rw [called_open hr, hl] at hr
    injection hr with hr
    rw [hr]
  · intro z r c _ hi hr ht
    have e := called_open hr
    subst e
    rw [(hcall c hr).2.2] at ht
    rw [(hz z).1] at hi
    have hn : ∀ z : Zone, (if z = 3 then some call0 else none) = none → ZoneSet.has 8#16 z = false := by decide
    rw [hn z hi] at ht
    cases ht
  · intro z en ce _ h
    rw [(hz z).2] at h
    cases h

/-- Call table and zone records that agree, with an open call. -/
theorem witness_EvaluationFollowsCases_agree :
    Agree (Event.start called).calls (Event.start called).zones ∧
      ((Event.start called).calls.call? call0).isSome = true :=
  ⟨witness_StepKeepsCallsAndZones.agree, by decide +kernel⟩

/-- A sealed bank 1 that passes the seal check keeps the agreement. -/
theorem switching_coherent {p : Plan} (hp : sealFailure p = none) : (switching p).Coherent := by
  have h := witness_StepKeepsCallsAndZones
  have hs : sealFailure factoryPlan = none := by decide +kernel
  have hw : ∀ k, (switching p).plans.copied = some k → k ≤ 83 := fun k hk => nomatch hk
  refine ⟨⟨rfl, ⟨(fun hk => nomatch hk), (fun hk => nomatch hk)⟩, hw, fun _ => rfl, ?_, ?_⟩, h.calls, h.agree, h.stackBelow,
    h.unusedEmpty, h.liveEligible, h.liveHighest, h.idleBelow, h.stackBelowFloor⟩
  · intro n h; cases n <;> cases h
  · intro n _; cases n
    · exact hs
    · exact hp

/-- One state, with a call live on a zone that the new plan makes unused, and generators removed, kept and started; the
same call where the new plan keeps its zone; and a generator whose pattern differs in the new plan. -/
theorem witness_SwitchTakenChangesBank :
    (let s := switching fewerPlan;
      s.Coherent ∧ (s.inReset = false ∧ Task.switchTake ∈ s.due ∧ s.plans.pending = some ⟨none⟩) ∧
        (s.plan.used 3 = true ∧ s.plans.otherBank.plan.used 3 = false ∧ (s.zones.get 3).state.live? = some call0 ∧
          (s.calls.call? call0).map (fun c => c.target) = some 8#16 ∧ ZoneSet.has 8#16 3 = true) ∧
        (fewerPlan.tones.get 0 = none ∧ (s.sources.tones.get 0).playing.isSome = true ∧
          fewerPlan.tones.get 1 = some 2 ∧ fewerPlan.patterns.get 2 = some factoryPattern2 ∧
          (s.sources.tones.get 1).playing.map (fun pl => (pl.number, pl.steps, pl.repeats)) =
            some (2, factoryPattern2.steps.map (fun st => (⟨st.hz, st.ms * 48⟩ : ToneStep)), factoryPattern2.repeats) ∧
          fewerPlan.tones.get 2 = some 0 ∧ fewerPlan.patterns.get 0 = some factoryPattern0 ∧
          (s.sources.tones.get 2).playing = none)) ∧
    (let s := switching { factoryPlan with tones := factoryPlan.tones.set 1 (some 0) };
      s.Coherent ∧ (s.calls.call? call0).map (fun c => c.target) = some 8#16 ∧
        (ZoneSet.has 8#16 3 = true ∧ s.plans.otherBank.plan.used 3 = true) ∧
        s.plans.otherBank.plan.tones.get 1 = some 0 ∧
        (s.sources.tones.get 1).playing.map (fun pl => decide (pl.number ≠ 0)) = some true) :=
  ⟨⟨switching_coherent (by decide +kernel), by decide +kernel⟩, switching_coherent (by decide +kernel), by decide +kernel⟩

end Sys2Proof.Machine.Tests
end

section
/-! What every operation of an event keeps: one induction over the operations, used for the call table's own conditions,
for the log of admissions and for the records that are FREE. -/

namespace Sys2Proof.Machine

/-! ### The call table's own conditions -/

/-- A change of a call that keeps its source keeps the call table's conditions (R4, R7). -/
theorem CallTable.Wf.changeCall {t : CallTable} (h : t.Wf) (r : CallRef) {f : Call → Call}
    (hf : ∀ c, (f c).source = c.source) : (t.changeCall r f).Wf := by
  have source : ∀ q c, (t.changeCall r f).call? q = some c → ∃ d, t.call? q = some d ∧ d.source = c.source := by
    intro q c hc
    rw [CallTable.call?_changeCall] at hc
    split at hc
    · rename_i e
      obtain ⟨d, hd, rfl⟩ := Option.map_eq_some_iff.1 hc
      exact ⟨d, e ▸ hd, (hf d).symm⟩
    · exact ⟨c, hc, rfl⟩
  have counters : (t.changeCall r f).admitted = t.admitted ∧ (t.changeCall r f).keyRefused = t.keyRefused := by
    unfold CallTable.changeCall; split <;> exact ⟨rfl, rfl⟩
  refine ⟨?_, fun q => ?_, fun q q' c c' hq hq' hs => ?_, ?_, ?_⟩
  · rw [CallTable.changeCall_admission]; exact h.once
  · rw [CallTable.changeCall_admission, h.listed, CallTable.call?_changeCall]
    split
    · rename_i e; rw [e, Option.isSome_map]
    · rfl
  · obtain ⟨d, hd, e⟩ := source q c hq
    obtain ⟨d', hd', e'⟩ := source q' c' hq'
    exact h.oneSource q q' d d' hd hd' (e.trans (hs.trans e'.symm))
  · rw [counters.1]; exact h.admittedBound
  · rw [counters.2]; exact h.refusedBound

/-- The end of a call keeps the call table's conditions (R22). -/
theorem CallTable.Wf.free {t : CallTable} (h : t.Wf) (r : CallRef) : (t.free r).Wf := by
  cases hr : t.call? r with
  | none =>
    have e : t.free r = t := by simp [CallTable.free, hr]
    rw [e]; exact h
  | some c =>
    have still : ∀ q d, (t.free r).call? q = some d → t.call? q = some d := by
      intro q d hd
      rw [CallTable.call?_free] at hd
      split at hd
      · cases hd
      · exact hd
    have counters : (t.free r).admitted = t.admitted ∧ (t.free r).keyRefused = t.keyRefused := by
      simp [CallTable.free, hr]
    refine ⟨?_, fun q => ?_, fun q q' d d' hq hq' => h.oneSource q q' d d' (still q d hq) (still q' d' hq'), ?_, ?_⟩
    · rw [(CallTable.free_of_open hr).2]; exact h.once.erase r
    · rw [(CallTable.free_of_open hr).2, h.once.mem_erase_iff, h.listed, CallTable.call?_free]
      by_cases e : q = r <;> simp [e]
    · rw [counters.1]; exact h.admittedBound
    · rw [counters.2]; exact h.refusedBound

/-! ### What every operation of an event keeps -/

/-- A fold of steps that keep a property keeps it. -/
theorem foldl_keeps {α β : Type} {P : β → Prop} {f : β → α → β} (hf : ∀ b a, P b → P (f b a)) (l : List α) {b : β}
    (h : P b) : P (l.foldl f b) := by
  induction l generalizing b with
  | nil => exact h
  | cons a rest ih => exact ih (hf b a h)

/-- A property of events that every small operation of an event keeps; an admission is not among them. -/
structure KeptByEvents (P : Event → Prop) : Prop where
  zones : ∀ e z f, P e → P (e.changeZone z f)
  calls : ∀ e r f, (∀ c, (f c).source = c.source) → P e → P (e.changeCall r f)
  ends : ∀ e r cause, P e → P (e.finishCall r cause)
  log : ∀ (e : Event) lost leadIns skippers, P e → P { e with lost := lost, leadIns := leadIns, skippers := skippers }

namespace KeptByEvents

variable {P : Event → Prop} (k : KeptByEvents P)
include k

/-- A loss of a zone. -/
theorem loseZone (r : CallRef) (z : Zone) (reason : LossReason) {e : Event} (h : P e) : P (e.loseZone r z reason) := by
  unfold Event.loseZone
  split
  · exact h
  · have hl := k.log _ (e.lost ++ [(r, z, reason)]) e.leadIns e.skippers
      (k.calls e r (fun c => { c with target := ZoneSet.remove c.target z }) (fun _ => rfl) h)
    dsimp only
    split
    · exact k.ends _ _ _ hl
    · exact hl

/-- A report. -/
theorem takeReport (x : Report) {e : Event} (h : P e) : P (e.takeReport x) := by
  cases x with
  | grant r =>
    refine k.calls e r _ (fun c => ?_) h
    unfold Call.firstGrant
    split <;> rfl
  | onAir r =>
    simp only [Event.takeReport, Event.speakMoment]
    split
    · exact h
    · split
      · exact h
      · exact k.log _ e.lost e.leadIns _ (k.calls e r (fun c => { c with speak := true }) (fun _ => rfl) h)
  | loss r z reason => exact k.loseZone r z reason h

/-- A grant. -/
theorem grantZone (z : Zone) (w : CallRef) {e : Event} (h : P e) : P (e.grantZone z w).1 := by
  unfold Event.grantZone
  split
  · exact h
  · exact k.log _ e.lost _ e.skippers (k.calls _ w _ (fun _ => rfl) (k.zones e z _ h))

/-- A displacement. -/
theorem displace (z : Zone) (l : CallRef) (reason : LossReason) {e : Event} (h : P e) :
    P (e.displace z l reason).1 := by
  unfold Event.displace
  split
  · exact k.zones e z _ h
  · split
    · exact k.calls _ l _ (fun _ => rfl) (k.zones e z _ h)
    · have hp := k.calls _ l (fun c => { c with
        granted := ZoneSet.remove c.granted z, suspended := ZoneSet.add c.suspended z }) (fun _ => rfl)
          (k.zones e z (fun zr => { zr with state := .idle, stack := (pushEntry (e.zones.get z).stack
            ⟨l, (e.zones.get z).state.resumePhase⟩).1 }) h)
      dsimp only
      split
      · exact hp
      · exact k.calls _ _ _ (fun _ => rfl) hp

/-- An evaluation. -/
theorem evaluate (p : Plan) (z : Zone) {e : Event} (h : P e) : P (Event.evaluate p e z) := by
  unfold Event.evaluate
  split
  · refine foldl_keeps (fun e x he => k.takeReport x he) _ ?_
    unfold Event.decideZone
    split
    · exact h
    · exact k.displace _ _ _ h
    · exact k.grantZone _ _ h
    · split
      · exact h
      · exact k.grantZone _ _ (k.displace _ _ _ h)
  · exact h

/-- Evaluations of some zones. -/
theorem evaluateAll (p : Plan) (zs : List Zone) {e : Event} (h : P e) : P (e.evaluateAll p zs) :=
  foldl_keeps (fun _ z he => k.evaluate p z he) zs h

/-- A withdrawal. -/
theorem withdraw (r : CallRef) (src : Source) (z : Zone) {e : Event} (h : P e) : P (Event.withdraw r src e z) :=
  k.calls _ r _ (fun _ => rfl) (k.zones e z _ h)

/-- The end of a call with its withdrawals and evaluations. -/
theorem endCall (p : Plan) (r : CallRef) (cause : EndCause) {e : Event} (h : P e) : P (e.endCall p r cause) := by
  unfold Event.endCall
  split
  · exact h
  · exact k.ends _ _ _ (k.evaluateAll _ _
      (foldl_keeps (fun _ z he => k.withdraw _ _ z he) _ (k.calls e r _ (fun _ => rfl) h)))

/-- A zone made unused at a plan switch. -/
theorem emptyZone (z : Zone) {e : Event} (h : P e) : P (e.emptyZone z) := by
  refine foldl_keeps (fun _ r he => k.loseZone r z .plan he) _ ?_
  refine foldl_keeps (fun _ r he => k.calls _ r (fun c =>
    { c with granted := ZoneSet.remove c.granted z, suspended := ZoneSet.remove c.suspended z }) (fun _ => rfl) he) _ ?_
  exact k.zones e z _ h

/-- The removal of an unused zone from the target sets. -/
theorem dropTargets (z : Zone) {e : Event} (h : P e) : P (e.dropTargets z) :=
  foldl_keeps (fun _ r he => k.loseZone r z .plan he) _ h

/-- The pruning at the end of an event. -/
theorem settle {e : Event} (h : P e) : P e.settle := by
  refine foldl_keeps (fun e r he => ?_) _ h
  unfold Event.prune
  split
  · exact he
  · exact foldl_keeps (fun _ z he => k.loseZone r z .late he) _ he

end KeptByEvents

/-- Every operation keeps the call table's own conditions. -/
theorem keptByEvents_table : KeptByEvents fun e => e.calls.Wf :=
  { zones := fun _ _ _ h => h
    calls := fun _ r _ hf h => h.changeCall r hf
    ends := fun e r cause h => by
      unfold Event.finishCall
      split
      · exact h
      · exact h.free r
    log := fun _ _ _ _ h => h }

/-- No operation but an admission admits a call. -/
theorem keptByEvents_admitted (l : List CallRef) : KeptByEvents fun e => e.admitted = l :=
  { zones := fun _ _ _ h => h
    calls := fun _ _ _ _ h => h
    ends := fun e r cause h => by
      unfold Event.finishCall
      split <;> exact h
    log := fun _ _ _ _ h => h }

/-- References leave the admission list only. -/
theorem keptByEvents_listedOnce : KeptByEvents fun e => e.calls.admission.Nodup :=
  { zones := fun _ _ _ h => h
    calls := fun e r f _ h => by
      rw [show (e.changeCall r f).calls.admission = e.calls.admission from CallTable.changeCall_admission _ _ _]
      exact h
    ends := fun e r cause h => by
      unfold Event.finishCall
      split
      · exact h
      · rename_i c hc
        show (CallTable.free _ r).admission.Nodup
        rw [(CallTable.free_of_open hc).2]
        exact h.erase r
    log := fun _ _ _ _ h => h }

/-- A current reference that names a call is not to a FREE record. -/
theorem CallTable.index_ne_of_open {t : CallTable} {r : CallRef} {c : Call} {i : Fin 32} {g : Fin 16}
    (hc : t.call? r = some c) (hi : t.records.get i = ⟨g, none⟩) : r.index ≠ i := by
  rintro rfl
  rw [CallTable.call?, hi] at hc
  split at hc <;> cases hc

/-- A FREE record stays as it is (R7, R22). -/
theorem keptByEvents_freeRecord (i : Fin 32) (g : Fin 16) :
    KeptByEvents fun e => e.calls.records.get i = ⟨g, none⟩ :=
  { zones := fun _ _ _ h => h
    calls := fun e r f _ h => by
      show (CallTable.changeCall _ r f).records.get i = _
      unfold CallTable.changeCall
      split
      · exact h
      · rename_i c hc
        exact (Table.get_set_other _ _ (CallTable.index_ne_of_open hc h)).trans h
    ends := fun e r cause h => by
      unfold Event.finishCall
      split
      · exact h
      · rename_i c hc
        show (CallTable.free _ r).records.get i = _
        simp only [CallTable.free, hc]
        exact (Table.get_set_other _ _ (CallTable.index_ne_of_open hc h)).trans h
    log := fun _ _ _ _ h => h }

end Sys2Proof.Machine
end

section
/-! One zone and what it sees of the open calls: the agreement of R1, R33 and R34 and the condition of R50, said of one
zone record, and what a grant, a displacement and the dropping of calls do to them. -/

namespace Sys2Proof.Machine

/-! ### What a zone sees -/

/-- What a zone sees of an open call: its priority, and whether its three sets hold the zone. -/
structure Seen where
  priority : Nat
  granted : Bool
  suspended : Bool
  target : Bool

/-- What a zone sees of a call. -/
def Call.seenFrom (c : Call) (z : Zone) : Seen :=
  { priority := c.captured.priority
    granted := ZoneSet.has c.granted z
    suspended := ZoneSet.has c.suspended z
    target := ZoneSet.has c.target z }

/-- What a zone sees of the call each reference names. -/
abbrev View := CallRef → Option Seen

/-- A zone's view of a call table. -/
def CallTable.view (t : CallTable) (z : Zone) : View := fun r => (t.call? r).map fun c => c.seenFrom z

/-- A reference is seen where it names a call. -/
theorem CallTable.view_eq_some {t : CallTable} {z : Zone} {r : CallRef} {s : Seen} :
    t.view z r = some s ↔ ∃ c, t.call? r = some c ∧ c.seenFrom z = s := Option.map_eq_some_iff

/-- What a zone sees of an open call. -/
theorem CallTable.view_of_open {t : CallTable} {r : CallRef} {c : Call} (h : t.call? r = some c) (z : Zone) :
    t.view z r = some (c.seenFrom z) := by
  simp [CallTable.view, h]

/-- A zone record agrees with the zone's view (R1, R33, R34): the call it is granted to is its live call, the calls
suspended there are those on its stack, all of them are open and want the zone, no call is stacked twice or stacked and
live, and no stacked call has a higher priority than the live call. -/
structure Matches (v : View) (zone : ZoneRecord) : Prop where
  granted : ∀ r s, v r = some s → (s.granted = true ↔ zone.state.live? = some r)
  suspended : ∀ r s, v r = some s → (s.suspended = true ↔ r ∈ zone.stack.map StackEntry.call)
  live : ∀ r, zone.state.live? = some r → ∃ s, v r = some s ∧ s.target = true ∧ s.suspended = false
  stacked : ∀ r, r ∈ zone.stack.map StackEntry.call → ∃ s, v r = some s ∧ s.target = true
  size : zone.stack.length ≤ Config.stackLimit
  once : (zone.stack.map StackEntry.call).Nodup
  below : ∀ l sl r sr, zone.state.live? = some l → v l = some sl → v r = some sr → sr.suspended = true →
    sr.priority ≤ sl.priority

/-- A zone record stands as an evaluation leaves it (R50), under an effective floor. -/
structure Settled (floor : Nat) (v : View) (zone : ZoneRecord) : Prop where
  idle : zone.state.live? = none → ∀ r s, v r = some s → s.target = true → s.priority < floor
  eligible : ∀ l sl, zone.state.live? = some l → v l = some sl → floor ≤ sl.priority
  highest : ∀ l sl r s, zone.state.live? = some l → v l = some sl → v r = some s → s.target = true →
    s.priority ≤ sl.priority

/-- A zone record without a live call and without a stack (R61). -/
def ZoneRecord.Vacant (zone : ZoneRecord) : Prop := zone.state = .idle ∧ zone.stack = []

/-- The state IDLE has no live call (R33). -/
@[simp] theorem ZoneState.live?_idle : ZoneState.live? .idle = none := rfl

/-- Only the state IDLE has no live call (R33). -/
theorem ZoneState.live?_eq_none {st : ZoneState} : st.live? = none ↔ st = .idle := by
  cases st <;> simp [ZoneState.live?]

/-- Where no call is granted or suspended, a vacant record agrees with the view. -/
theorem ZoneRecord.Vacant.agrees {v : View} {zone : ZoneRecord} (h : zone.Vacant)
    (hv : ∀ r s, v r = some s → s.granted = false ∧ s.suspended = false) : Matches v zone := by
  obtain ⟨hi, hs⟩ := h
  have hl : zone.state.live? = none := ZoneState.live?_eq_none.2 hi
  refine ⟨fun r s k => ?_, fun r s k => ?_, fun r k => ?_, fun r k => ?_, ?_, ?_, fun l _ _ _ k => ?_⟩
  · simp [(hv r s k).1, hl]
  · simp [(hv r s k).2, hs]
  · rw [hl] at k; cases k
  · rw [hs] at k; cases k
  · rw [hs]; exact Nat.zero_le _
  · rw [hs]; exact List.nodup_nil
  · rw [hl] at k; cases k

/-- A call is held at no vacant zone. -/
theorem Matches.unheld_of_vacant {v : View} {zone : ZoneRecord} (h : Matches v zone) (hz : zone.Vacant) (r : CallRef)
    (s : Seen) (hr : v r = some s) : s.granted = false ∧ s.suspended = false := by
  refine ⟨?_, ?_⟩
  · rw [Bool.eq_false_iff, ne_eq, h.granted r s hr, hz.1]
    simp [ZoneState.live?]
  · rw [Bool.eq_false_iff, ne_eq, h.suspended r s hr, hz.2]
    simp

/-- A zone holds only calls that want it (R1). -/
theorem Matches.wants_of_held {v : View} {zone : ZoneRecord} (h : Matches v zone) {r : CallRef} {s : Seen}
    (hr : v r = some s) (hs : s.granted = true ∨ s.suspended = true) : s.target = true := by
  rcases hs with hs | hs
  · obtain ⟨s', hr', ht, -⟩ := h.live r ((h.granted r s hr).1 hs)
    rw [hr] at hr'
    injection hr' with e
    rwa [e]
  · obtain ⟨s', hr', ht⟩ := h.stacked r ((h.suspended r s hr).1 hs)
    rw [hr] at hr'
    injection hr' with e
    rwa [e]

/-! ### Calls that drop out -/

/-- The second view is the first after some calls that the zone does not hold have given the zone up or ended. -/
def Dropped (v w : View) : Prop :=
  ∀ r, w r = v r ∨ ∃ s, v r = some s ∧ s.granted = false ∧ s.suspended = false ∧
    (w r = none ∨ w r = some { s with target := false })

/-- Nothing has dropped out. -/
theorem Dropped.refl (v : View) : Dropped v v := fun _ => .inl rfl

/-- Dropping out composes. -/
theorem Dropped.trans {u v w : View} (h : Dropped u v) (k : Dropped v w) : Dropped u w := by
  intro r
  rcases k r with hk | ⟨s, hv, hg, hs, hw⟩
  · rw [hk]; exact h r
  · rcases h r with hu | ⟨s', hu, hg', hs', hv'⟩
    · exact .inr ⟨s, hu ▸ hv, hg, hs, hw⟩
    · refine .inr ⟨s', hu, hg', hs', ?_⟩
      rcases hv' with hv' | hv'
      · rw [hv] at hv'; cases hv'
      · rw [hv] at hv'
        injection hv' with e
        subst e
        exact hw

/-- What a view shows after some calls have dropped out it showed before, but for a target. -/
theorem Dropped.before {v w : View} (h : Dropped v w) {r : CallRef} {s : Seen} (hr : w r = some s) :
    ∃ s', v r = some s' ∧ s.priority = s'.priority ∧ s.granted = s'.granted ∧ s.suspended = s'.suspended ∧
      (s.target = true → s'.target = true) := by
  rcases h r with e | ⟨s', hv, -, -, hw | hw⟩
  · exact ⟨s, e ▸ hr, rfl, rfl, rfl, id⟩
  · rw [hr] at hw; cases hw
  · rw [hr] at hw
    injection hw with e
    subst e
    exact ⟨s', hv, rfl, rfl, rfl, fun k => nomatch k⟩

/-- A call that the zone holds has not dropped out. -/
theorem Dropped.of_held {v w : View} (h : Dropped v w) {r : CallRef} {s : Seen} (hr : v r = some s)
    (hs : s.granted = true ∨ s.suspended = true) : w r = some s := by
  rcases h r with e | ⟨s', hv, hg, hp, -⟩
  · rw [e, hr]
  · rw [hr] at hv
    injection hv with e
    subst e
    rw [hg, hp] at hs
    simp at hs

/-- Dropping out keeps the agreement of a zone. -/
theorem Matches.of_dropped {v w : View} {zone : ZoneRecord} (h : Matches v zone) (d : Dropped v w) : Matches w zone := by
  refine ⟨fun r s hr => ?_, fun r s hr => ?_, fun r hl => ?_, fun r hs => ?_, h.size, h.once,
    fun l sl r sr hl hvl hvr hs => ?_⟩
  · obtain ⟨s', hr', -, e, -, -⟩ := d.before hr
    rw [e]; exact h.granted r s' hr'
  · obtain ⟨s', hr', -, -, e, -⟩ := d.before hr
    rw [e]; exact h.suspended r s' hr'
  · obtain ⟨s, hr, ht, hn⟩ := h.live r hl
    exact ⟨s, d.of_held hr (.inl ((h.granted r s hr).2 hl)), ht, hn⟩
  · obtain ⟨s, hr, ht⟩ := h.stacked r hs
    exact ⟨s, d.of_held hr (.inr ((h.suspended r s hr).2 hs)), ht⟩
  · obtain ⟨sl', hl', e, -⟩ := d.before hvl
    obtain ⟨sr', hr', e', -, e'', -⟩ := d.before hvr
    rw [e, e']
    exact h.below l sl' r sr' hl hl' hr' (e'' ▸ hs)

/-- Dropping out keeps what an evaluation has left (R50). -/
theorem Settled.of_dropped {floor : Nat} {v w : View} {zone : ZoneRecord} (h : Settled floor v zone)
    (d : Dropped v w) : Settled floor w zone := by
  refine ⟨fun hi r s hr ht => ?_, fun l sl hl hvl => ?_, fun l sl r s hl hvl hr ht => ?_⟩
  · obtain ⟨s', hr', e, -, -, k⟩ := d.before hr
    rw [e]; exact h.idle hi r s' hr' (k ht)
  · obtain ⟨sl', hl', e, -⟩ := d.before hvl
    rw [e]; exact h.eligible l sl' hl hl'
  · obtain ⟨sl', hl', e, -⟩ := d.before hvl
    obtain ⟨s', hr', e', -, -, k⟩ := d.before hr
    rw [e, e']
    exact h.highest l sl' r s' hl hl' hr' (k ht)

/-! ### A grant and a displacement -/

/-- A grant to a call that wants an idle zone and is below no stacked call keeps the zone's agreement (R44, R50). -/
theorem Matches.grant {v v' : View} {zone : ZoneRecord} {w : CallRef} {s : Seen} {st : ZoneState}
    (h : Matches v zone) (hi : zone.state.live? = none) (hw : v w = some s) (ht : s.target = true)
    (hb : ∀ r sr, v r = some sr → sr.suspended = true → sr.priority ≤ s.priority) (hst : st.live? = some w)
    (hv : ∀ r, v' r = if r = w then some { s with granted := true, suspended := false } else v r) :
    Matches v' { zone with state := st, stack := zone.stack.filter fun en => decide (en.call ≠ w) } := by
  have mem : ∀ r, r ∈ (zone.stack.filter fun en => decide (en.call ≠ w)).map StackEntry.call ↔
      r ∈ zone.stack.map StackEntry.call ∧ r ≠ w := by
    intro r
    simp only [List.mem_map, List.mem_filter, decide_eq_true_eq]
    constructor
    · rintro ⟨en, ⟨h1, h2⟩, rfl⟩; exact ⟨⟨en, h1, rfl⟩, h2⟩
    · rintro ⟨⟨en, h1, rfl⟩, h2⟩; exact ⟨en, ⟨h1, h2⟩, rfl⟩
  have same : v' w = some { s with granted := true, suspended := false } := by rw [hv, if_pos rfl]
  have other : ∀ r, r ≠ w → v' r = v r := fun r hr => by rw [hv, if_neg hr]
  refine ⟨fun r sr hr => ?_, fun r sr hr => ?_, fun r hl => ?_, fun r hs => ?_, ?_, ?_,
    fun l sl r sr hl hvl hvr hs => ?_⟩
  · by_cases e : r = w
    · subst e
      rw [same] at hr
      injection hr with hr
      subst hr
      simp [hst]
    · rw [other r e] at hr
      simp [h.granted r sr hr, hi, hst, Ne.symm e]
  · rw [mem]
    by_cases e : r = w
    · subst e
      rw [same] at hr
      injection hr with hr
      subst hr
      simp
    · rw [other r e] at hr
      simp [h.suspended r sr hr, e]
  · rw [hst] at hl
    injection hl with hl
    subst hl
    exact ⟨_, same, ht, rfl⟩
  · obtain ⟨hs, e⟩ := (mem r).1 hs
    rw [other r e]
    exact h.stacked r hs
  · exact (List.length_filter_le _ _).trans h.size
  · exact List.Nodup.sublist (List.filter_sublist.map _) h.once
  · rw [hst] at hl
    injection hl with hl
    subst hl
    rw [same] at hvl
    injection hvl with hvl
    subst hvl
    by_cases e : r = w
    · subst e
      rw [same] at hvr
      injection hvr with hvr
      subst hvr
      cases hs
    · rw [other r e] at hvr
      exact hb r sr hvr hs

/-- A live call lost under DROP keeps the zone's agreement (R47). -/
theorem Matches.drop {v v' : View} {zone : ZoneRecord} {l : CallRef} {s : Seen} (h : Matches v zone)
    (hl : zone.state.live? = some l) (hs : v l = some s)
    (hv : ∀ r, v' r = if r = l then some { s with granted := false } else v r) :
    Matches v' { zone with state := .idle } := by
  have same : v' l = some { s with granted := false } := by rw [hv, if_pos rfl]
  have other : ∀ r, r ≠ l → v' r = v r := fun r hr => by rw [hv, if_neg hr]
  refine ⟨fun r sr hr => ?_, fun r sr hr => ?_, fun r k => ?_, fun r k => ?_, h.size, h.once, fun r _ _ _ k => ?_⟩
  · by_cases e : r = l
    · subst e
      rw [same] at hr
      injection hr with hr
      subst hr
      simp
    · rw [other r e] at hr
      simp [h.granted r sr hr, hl, Ne.symm e]
  · by_cases e : r = l
    · subst e
      rw [same] at hr
      injection hr with hr
      subst hr
      exact h.suspended r s hs
    · rw [other r e] at hr
      exact h.suspended r sr hr
  · cases k
  · obtain ⟨sr, hr, ht⟩ := h.stacked r k
    by_cases e : r = l
    · subst e
      rw [hs] at hr
      injection hr with hr
      subst hr
      exact ⟨_, same, ht⟩
    · exact ⟨sr, (other r e).trans hr, ht⟩
  · cases k

/-- A push on a suspended stack: the new entry is on top, a full stack loses its bottom entry (R34, R46). -/
theorem pushEntry_cases (stack : List StackEntry) (en : StackEntry) (h : stack.length ≤ Config.stackLimit) :
    (pushEntry stack en = (en :: stack, none) ∧ stack.length < Config.stackLimit) ∨
      ∃ rest x, stack = rest ++ [x] ∧ pushEntry stack en = (en :: rest, some x) := by
  unfold pushEntry
  by_cases hs : stack.length < Config.stackLimit
  · exact .inl ⟨if_pos hs, hs⟩
  · have hne : stack ≠ [] := by
      rintro rfl
      exact hs (by decide)
    refine .inr ⟨stack.dropLast, stack.getLast hne, (List.dropLast_append_getLast hne).symm, ?_⟩
    rw [if_neg hs, List.getLast?_eq_getLast_of_ne_nil hne]

/-- A live call suspended under RESUME keeps the zone's agreement; so does the call that a full stack gives up (R46). -/
theorem Matches.suspend {v v' : View} {zone : ZoneRecord} {l : CallRef} {s : Seen} {en : StackEntry} (h : Matches v zone)
    (hl : zone.state.live? = some l) (hs : v l = some s) (hen : en.call = l)
    (hv : ∀ r, v' r = if r = l then some { s with granted := false, suspended := true }
      else if (pushEntry zone.stack en).2.map StackEntry.call = some r then
        (v r).map fun sr => { sr with suspended := false }
      else v r) :
    Matches v' { zone with state := .idle, stack := (pushEntry zone.stack en).1 } := by
  obtain ⟨s', hs', ht, hoff⟩ := h.live l hl
  rw [hs] at hs'
  injection hs' with e
  subst e
  have off : l ∉ zone.stack.map StackEntry.call := by
    rw [← h.suspended l s hs, hoff]; simp
  have same : v' l = some { s with granted := false, suspended := true } := by rw [hv, if_pos rfl]
  -- The new stack holds the new entry and the old ones but for the one given up, whose call alone ceases to be suspended.
  obtain ⟨evicted, stack', hp, hmem, hone, hsize⟩ : ∃ (evicted : Option CallRef) (stack' : List StackEntry),
      ((pushEntry zone.stack en).1 = stack' ∧ (pushEntry zone.stack en).2.map StackEntry.call = evicted) ∧
      (∀ r, r ∈ stack'.map StackEntry.call ↔ r = l ∨ (r ∈ zone.stack.map StackEntry.call ∧ evicted ≠ some r)) ∧
      (stack'.map StackEntry.call).Nodup ∧ stack'.length ≤ Config.stackLimit := by
    rcases pushEntry_cases zone.stack en h.size with ⟨e, hlt⟩ | ⟨rest, x, hst, e⟩
    · refine ⟨none, en :: zone.stack, by rw [e]; exact ⟨rfl, rfl⟩, fun r => ?_, ?_, hlt⟩
      · simp [hen]
      · rw [List.map_cons, hen]; exact List.nodup_cons.2 ⟨off, h.once⟩
    · have ho := h.once
      rw [hst, List.map_append, List.nodup_append] at ho
      obtain ⟨hrest, -, hx⟩ := ho
      rw [hst, List.map_append, List.mem_append, not_or] at off
      refine ⟨some x.call, en :: rest, by rw [e]; exact ⟨rfl, rfl⟩, fun r => ?_, ?_, ?_⟩
      · rw [List.map_cons, List.mem_cons, hen, hst, List.map_append, List.mem_append, List.map_singleton,
          List.mem_singleton]
        constructor
        · rintro (k | k)
          · exact .inl k
          · exact .inr ⟨.inl k, fun q => hx r k x.call (by simp) (Option.some.inj q).symm⟩
        · rintro (k | ⟨k | k, q⟩)
          · exact .inl k
          · exact .inr k
          · exact absurd (congrArg some k.symm) q
      · rw [List.map_cons, hen]; exact List.nodup_cons.2 ⟨off.1, hrest⟩
      · have := h.size
        rw [hst, List.length_append] at this
        simpa using this
  rw [hp.1]
  rw [hp.2] at hv
  have other : ∀ r sr, r ≠ l → v' r = some sr →
      ∃ s, v r = some s ∧ sr = { s with suspended := sr.suspended } ∧
        (sr.suspended = true ↔ s.suspended = true ∧ evicted ≠ some r) := by
    intro r sr hr hv'
    rw [hv, if_neg hr] at hv'
    split at hv'
    · rename_i k
      obtain ⟨s', hs', rfl⟩ := Option.map_eq_some_iff.1 hv'
      exact ⟨s', hs', rfl, by simp [k]⟩
    · rename_i k
      exact ⟨sr, hv', rfl, by simp [k]⟩
  refine ⟨fun r sr hr => ?_, fun r sr hr => ?_, fun r k => ?_, fun r k => ?_, hsize, hone, fun r _ _ _ k => ?_⟩
  · by_cases e : r = l
    · subst e
      rw [same] at hr
      injection hr with hr
      subst hr
      simp
    · obtain ⟨s', hs', es, -⟩ := other r sr e hr
      rw [es]
      simp [h.granted r s' hs', hl, Ne.symm e]
  · rw [hmem]
    by_cases e : r = l
    · subst e
      rw [same] at hr
      injection hr with hr
      subst hr
      simp
    · obtain ⟨s', hs', -, k⟩ := other r sr e hr
      rw [k, h.suspended r s' hs']
      simp [e]
  · cases k
  · rcases (hmem r).1 k with rfl | ⟨k, q⟩
    · exact ⟨_, same, ht⟩
    · obtain ⟨sr, hr, ht'⟩ := h.stacked r k
      have e : r ≠ l := by rintro rfl; exact off k
      exact ⟨sr, by rw [hv, if_neg e, if_neg q, hr], ht'⟩
  · cases k

end Sys2Proof.Machine
end

section
/-! An evaluation keeps the agreement of every zone and settles its own (R42, R50, R57, R60): the ranking's winner, the
displacement and the grant, and the reports that are taken after them. -/

namespace Sys2Proof.Machine

/-! ### The winner (R36 to R38) -/

/-- Only an empty list has no first. -/
theorem firstRanked_eq_none {before : CallRef → CallRef → Bool} {l : List CallRef} (h : firstRanked before l = none) :
    l = [] := by
  cases l with
  | nil => rfl
  | cons a rest =>
    simp only [firstRanked] at h
    split at h
    · cases h
    · split at h <;> cases h

/-- No member of a list ranks before its first, under a strict weak order. -/
theorem firstRanked_first {before : CallRef → CallRef → Bool} (asymm : ∀ a b, before a b = true → before b a = false)
    (trans : ∀ a b c, before b a = false → before c b = false → before c a = false) {l : List CallRef} {w : CallRef}
    (h : firstRanked before l = some w) : ∀ r ∈ l, before r w = false := by
  have irrefl : ∀ a, before a a = false := fun a => by
    cases k : before a a with
    | false => rfl
    | true => rw [asymm a a k] at k; cases k
  induction l generalizing w with
  | nil => cases h
  | cons a rest ih =>
    simp only [firstRanked] at h
    cases hb : firstRanked before rest with
    | none =>
      rw [hb] at h
      injection h with h
      rw [firstRanked_eq_none hb, ← h]
      simpa using irrefl a
    | some b =>
      rw [hb] at h
      simp only at h
      split at h
      · rename_i k
        injection h with h
        subst h
        intro r hr
        rcases List.mem_cons.1 hr with rfl | hr
        · exact asymm _ _ k
        · exact ih hb r hr
      · rename_i k
        injection h with h
        subst h
        intro r hr
        rcases List.mem_cons.1 hr with rfl | hr
        · exact irrefl r
        · exact trans _ _ _ (Bool.eq_false_iff.2 k) (ih hb r hr)

/-- Ranking before another contender: the higher priority, then the smaller place (R38, Table 2-2). -/
theorem Event.ranksBefore_iff (e : Event) (p : Plan) (z : Zone) (a b : CallRef) :
    e.ranksBefore p z a b = true ↔
      e.priority b < e.priority a ∨ (e.priority a = e.priority b ∧ e.place p z a < e.place p z b) := by
  simp [Event.ranksBefore]

/-- No eligible contender ranks before the winner (R38). -/
theorem Event.top_first {e : Event} {p : Plan} {z : Zone} {w : CallRef} (h : e.top p z = some w) :
    ∀ r ∈ e.eligible p z,
      ¬ (e.priority w < e.priority r ∨ (e.priority r = e.priority w ∧ e.place p z r < e.place p z w)) := by
  intro r hr
  rw [← e.ranksBefore_iff p z r w, Bool.not_eq_true]
  refine firstRanked_first (fun a b k => ?_) (fun a b c k1 k2 => ?_) h r hr
  · rw [e.ranksBefore_iff] at k
    rw [Bool.eq_false_iff, ne_eq, e.ranksBefore_iff]
    omega
  · rw [Bool.eq_false_iff, ne_eq, e.ranksBefore_iff] at k1 k2 ⊢
    omega

/-- The live call has the first place of its zone, and no other contender has it (Table 2-2, key 2). -/
theorem Event.place_eq_zero {e : Event} {p : Plan} {z : Zone} {r : CallRef} :
    e.place p z r = 0 ↔ (e.zones.get z).state.live? = some r := by
  unfold Event.place
  dsimp only
  split
  · rename_i k; simp [k]
  · rename_i k
    split
    · simp [k]
    · simp [k]

/-- An eligible contender, by what the zone sees of it (R36, R37). -/
theorem Event.mem_eligible {e : Event} (h : e.calls.Wf) {p : Plan} {z : Zone} {r : CallRef} :
    r ∈ e.eligible p z ↔
      ∃ s, e.calls.view z r = some s ∧ s.target = true ∧ effectiveFloor p e.zones z ≤ s.priority := by
  simp only [Event.eligible, List.mem_filter, Event.mem_contenders, decide_eq_true_eq, h.listed]
  constructor
  · rintro ⟨⟨-, c, hc, hz⟩, hf⟩
    refine ⟨c.seenFrom z, CallTable.view_of_open hc z, hz, ?_⟩
    simpa [Event.priority, hc, Call.seenFrom] using hf
  · rintro ⟨s, hs, ht, hf⟩
    obtain ⟨c, hc, rfl⟩ := CallTable.view_eq_some.1 hs
    refine ⟨⟨by rw [hc]; rfl, c, hc, ht⟩, ?_⟩
    simpa [Event.priority, hc, Call.seenFrom] using hf

/-- The priority of a call that a zone sees. -/
theorem Event.priority_of_view {e : Event} {z : Zone} {r : CallRef} {s : Seen} (h : e.calls.view z r = some s) :
    e.priority r = s.priority := by
  obtain ⟨c, hc, rfl⟩ := CallTable.view_eq_some.1 h
  simp [Event.priority, hc, Call.seenFrom]

/-- Without a winner every contender is below the effective floor (R37, R38). -/
theorem Event.top_none {e : Event} (h : e.calls.Wf) {p : Plan} {z : Zone} (ht : e.top p z = none) (r : CallRef)
    (s : Seen) (hr : e.calls.view z r = some s) (hs : s.target = true) : s.priority < effectiveFloor p e.zones z := by
  have he : e.eligible p z = [] := firstRanked_eq_none ht
  refine Nat.lt_of_not_le fun k => ?_
  have := (Event.mem_eligible h).2 ⟨s, hr, hs, k⟩
  rw [he] at this
  cases this

/-- The winner is eligible, no contender has a higher priority, and a live call that does not win has a lower one (R38). -/
theorem Event.top_some {e : Event} (h : e.calls.Wf) {p : Plan} {z : Zone} {w : CallRef} (ht : e.top p z = some w) :
    ∃ s, e.calls.view z w = some s ∧ s.target = true ∧ effectiveFloor p e.zones z ≤ s.priority ∧
      ∀ r sr, e.calls.view z r = some sr → sr.target = true → sr.priority ≤ s.priority ∧
        ((e.zones.get z).state.live? = some r → w ≠ r → sr.priority < s.priority) := by
  obtain ⟨s, hs, hst, hf⟩ := (Event.mem_eligible h).1 (firstRanked_mem ht)
  refine ⟨s, hs, hst, hf, fun r sr hr hrt => ?_⟩
  by_cases k : effectiveFloor p e.zones z ≤ sr.priority
  · have hfirst := Event.top_first ht r ((Event.mem_eligible h).2 ⟨sr, hr, hrt, k⟩)
    rw [Event.priority_of_view hs, Event.priority_of_view hr] at hfirst
    refine ⟨by omega, fun hl hw => ?_⟩
    have hp : e.place p z w ≠ 0 := by
      rw [ne_eq, Event.place_eq_zero, hl]
      exact fun q => hw (Option.some.inj q).symm
    rw [Event.place_eq_zero.2 hl] at hfirst
    omega
  · exact ⟨by omega, fun _ _ => by omega⟩

/-! ### Sound events -/

/-- Call table and zone records agree, every zone matching what it sees of the calls; the target set of an open call is not
empty, but for the calls that `ending` names, whose end is still to come in the event. -/
structure Event.Sound (ending : CallRef → Prop) (e : Event) : Prop where
  table : e.calls.Wf
  wanted : ∀ r c, e.calls.call? r = some c → ¬ ending r → c.target ≠ 0#16
  zone : ∀ z, Matches (e.calls.view z) (e.zones.get z)

/-- The zone stands as an evaluation under the plan leaves it, if it is used (R50, R61). -/
def Event.SettledAt (p : Plan) (e : Event) (z : Zone) : Prop :=
  p.used z = true → Settled (effectiveFloor p e.zones z) (e.calls.view z) (e.zones.get z)

/-- The second event differs from the first at one zone alone: in its record, but for the restriction, and in the granted
and suspended sets of calls as far as they hold that zone. -/
structure Event.OnlyAt (z : Zone) (e f : Event) : Prop where
  zones : ∀ y, y ≠ z → f.zones.get y = e.zones.get y
  restriction : (f.zones.get z).restriction = (e.zones.get z).restriction
  calls : ∀ r, (f.calls.call? r).map (fun c => (c.captured, c.target)) =
    (e.calls.call? r).map fun c => (c.captured, c.target)
  views : ∀ y, y ≠ z → f.calls.view y = e.calls.view y

variable {ending : CallRef → Prop} {e f g : Event} {z : Zone}

/-- No difference. -/
theorem Event.OnlyAt.refl (z : Zone) (e : Event) : e.OnlyAt z e := ⟨fun _ _ => rfl, rfl, fun _ => rfl, fun _ _ => rfl⟩

/-- Differences at one zone compose. -/
theorem Event.OnlyAt.trans (h : e.OnlyAt z f) (k : f.OnlyAt z g) : e.OnlyAt z g :=
  ⟨fun y hy => (k.zones y hy).trans (h.zones y hy), k.restriction.trans h.restriction,
    fun r => (k.calls r).trans (h.calls r), fun y hy => (k.views y hy).trans (h.views y hy)⟩

/-- A call that is open after such a difference was open before, with the same captured fields and target set. -/
theorem Event.OnlyAt.before (h : e.OnlyAt z f) {r : CallRef} {d : Call} (hd : f.calls.call? r = some d) :
    ∃ c, e.calls.call? r = some c ∧ d.captured = c.captured ∧ d.target = c.target := by
  have k := h.calls r
  rw [hd, Option.map_some] at k
  obtain ⟨c, hc, e⟩ := Option.map_eq_some_iff.1 k.symm
  exact ⟨c, hc, (congrArg Prod.fst e).symm, (congrArg Prod.snd e).symm⟩

/-- What the zone sees after such a difference it saw before, with the same priority and target. -/
theorem Event.OnlyAt.seen_before (h : e.OnlyAt z f) {r : CallRef} {s : Seen} (hs : f.calls.view z r = some s) :
    ∃ s', e.calls.view z r = some s' ∧ s.priority = s'.priority ∧ s.target = s'.target := by
  obtain ⟨d, hd, rfl⟩ := CallTable.view_eq_some.1 hs
  obtain ⟨c, hc, h1, h2⟩ := h.before hd
  exact ⟨c.seenFrom z, CallTable.view_of_open hc z, by simp [Call.seenFrom, h1], by simp [Call.seenFrom, h2]⟩

/-- A difference at one zone keeps an event sound if the zone's own agreement holds. -/
theorem Event.Sound.of_onlyAt (h : e.Sound ending) (o : e.OnlyAt z f) (ht : f.calls.Wf)
    (hz : Matches (f.calls.view z) (f.zones.get z)) : f.Sound ending := by
  refine ⟨ht, fun r d hd hr => ?_, fun y => ?_⟩
  · obtain ⟨c, hc, -, e⟩ := o.before hd
    rw [e]; exact h.wanted r c hc hr
  · by_cases hy : y = z
    · subst hy; exact hz
    · rw [o.views y hy, o.zones y hy]; exact h.zone y

/-! ### Reports (R60) -/

/-- A report of a loss concerns a call that does not hold the zone any more. -/
def Report.Harmless (e : Event) : Report → Prop
  | .grant _ => True
  | .onAir _ => True
  | .loss r z _ => ∀ s, e.calls.view z r = some s → s.granted = false ∧ s.suspended = false

/-- The loss of a zone that a call does not hold: for every zone the call has at most dropped out (R15). -/
theorem Event.Sound.loseZone (h : e.Sound ending) (r : CallRef) (z : Zone) (why : LossReason)
    (hr : ∀ s, e.calls.view z r = some s → s.granted = false ∧ s.suspended = false) :
    (e.loseZone r z why).Sound ending ∧ (∀ y, Dropped (e.calls.view y) ((e.loseZone r z why).calls.view y)) ∧
      (e.loseZone r z why).zones = e.zones := by
  have hzones := (Event.takeReport_frame e (.loss r z why)).1
  have htable := keptByEvents_table.loseZone r z why h.table
  cases hc : e.calls.call? r with
  | none =>
    have hs : e.loseZone r z why = e := by simp [Event.loseZone, hc]
    rw [hs]
    exact ⟨h, fun _ => .refl _, rfl⟩
  | some c =>
    obtain ⟨hcall, -⟩ := Event.loseZone_spec e r z why c hc
    have dropped : ∀ y, Dropped (e.calls.view y) ((e.loseZone r z why).calls.view y) := by
      intro y q
      by_cases hq : q = r
      · subst hq
        have hv : (e.loseZone q z why).calls.view y q = if ZoneSet.remove c.target z = 0#16 then none
            else some { c.seenFrom y with target := ZoneSet.has (ZoneSet.remove c.target z) y } := by
          rw [CallTable.view, hcall, if_pos rfl]
          split <;> rfl
        rw [hv, CallTable.view_of_open hc y, ZoneSet.has_remove]
        by_cases hy : y = z
        · subst hy
          obtain ⟨hg, hp⟩ := hr _ (CallTable.view_of_open hc y)
          refine .inr ⟨_, rfl, hg, hp, ?_⟩
          split
          · exact .inl rfl
          · right; simp
        · by_cases h0 : ZoneSet.remove c.target z = 0#16
          · -- Nothing is left of the target set, so the zone does not hold the call.
            have hn : ¬ ZoneSet.has c.target y = true := by
              intro k
              have : ZoneSet.has (ZoneSet.remove c.target z) y = true := by rw [ZoneSet.has_remove, k]; simp [hy]
              rw [h0] at this
              simp at this
            refine .inr ⟨_, rfl, ?_, ?_, .inl (if_pos h0)⟩
            · exact Bool.eq_false_iff.2 fun k => hn ((h.zone y).wants_of_held (CallTable.view_of_open hc y) (.inl k))
            · exact Bool.eq_false_iff.2 fun k => hn ((h.zone y).wants_of_held (CallTable.view_of_open hc y) (.inr k))
          · left
            rw [if_neg h0]
            simp [Call.seenFrom, hy]
      · left
        rw [CallTable.view, hcall, if_neg hq, CallTable.view]
    refine ⟨⟨htable, fun q d hd hq => ?_, fun y => ?_⟩, dropped, hzones⟩
    · rw [hcall] at hd
      split at hd
      · split at hd
        · cases hd
        · rename_i k
          injection hd with hd
          rw [← hd]
          exact k
      · exact h.wanted q d hd hq
    · rw [show (e.loseZone r z why).zones = e.zones from hzones]
      exact (h.zone y).of_dropped (dropped y)

/-- A change of a call that no zone sees keeps an event sound. -/
theorem Event.Sound.changeCall_unseen (h : e.Sound ending) (r : CallRef) (f : Call → Call)
    (hf : ∀ c, (f c).source = c.source ∧ (f c).target = c.target ∧ ∀ z, (f c).seenFrom z = c.seenFrom z) :
    (e.changeCall r f).Sound ending ∧ ∀ y, (e.changeCall r f).calls.view y = e.calls.view y := by
  have views : ∀ y, (e.changeCall r f).calls.view y = e.calls.view y := by
    intro y
    funext q
    rw [CallTable.view, CallTable.view, Event.call?_changeCall]
    split
    · rename_i k
      rw [k, Option.map_map]
      congr 1
      funext c
      exact (hf c).2.2 y
    · rfl
  refine ⟨⟨h.table.changeCall r fun c => (hf c).1, fun q d hd hq => ?_, fun y => ?_⟩, views⟩
  · rw [Event.call?_changeCall] at hd
    split at hd
    · rename_i k
      obtain ⟨c, hc, rfl⟩ := Option.map_eq_some_iff.1 hd
      rw [(hf c).2.1]
      exact h.wanted q c (k ▸ hc) hq
    · exact h.wanted q d hd hq
  · rw [views]
    exact h.zone y

/-- A change of the log keeps an event sound. -/
theorem Event.Sound.of_log (h : e.Sound ending) (hc : f.calls = e.calls) (hz : f.zones = e.zones) :
    f.Sound ending := by
  refine ⟨?_, ?_, ?_⟩
  · rw [hc]; exact h.table
  · rw [hc]; exact h.wanted
  · rw [hc, hz]; exact h.zone

/-- The first-grant actions change nothing that a zone sees (R12). -/
theorem Call.firstGrant_unseen (c : Call) :
    c.firstGrant.source = c.source ∧ c.firstGrant.target = c.target ∧ ∀ z, c.firstGrant.seenFrom z = c.seenFrom z := by
  unfold Call.firstGrant
  split <;> exact ⟨rfl, rfl, fun _ => rfl⟩

/-- The taking of a harmless report (R60): for every zone calls have at most dropped out. -/
theorem Event.Sound.takeReport (h : e.Sound ending) (x : Report) (hx : x.Harmless e) :
    (e.takeReport x).Sound ending ∧ (∀ y, Dropped (e.calls.view y) ((e.takeReport x).calls.view y)) ∧
      (e.takeReport x).zones = e.zones := by
  cases x with
  | grant r =>
    obtain ⟨hs, hv⟩ := h.changeCall_unseen r Call.firstGrant Call.firstGrant_unseen
    exact ⟨hs, fun y => by rw [show e.takeReport (.grant r) = e.changeCall r Call.firstGrant from rfl, hv]; exact .refl _,
      rfl⟩
  | onAir r =>
    obtain ⟨hs, hv⟩ := h.changeCall_unseen r (fun c => { c with speak := true }) fun c => ⟨rfl, rfl, fun _ => rfl⟩
    simp only [Event.takeReport, Event.speakMoment]
    split
    · exact ⟨h, fun _ => .refl _, rfl⟩
    · split
      · exact ⟨h, fun _ => .refl _, rfl⟩
      · exact ⟨hs.of_log rfl rfl, fun y => (congrArg (Dropped _) (hv y)).mpr (.refl _), rfl⟩
  | loss r z why => exact h.loseZone r z why hx

/-- Harmless reports stay harmless as calls drop out. -/
theorem Report.Harmless.of_dropped {x : Report} (h : x.Harmless e)
    (d : ∀ y, Dropped (e.calls.view y) (f.calls.view y)) : x.Harmless f := by
  cases x with
  | grant r => trivial
  | onAir r => trivial
  | loss r z why =>
    intro s hs
    obtain ⟨s', hs', -, hg, hp, -⟩ := (d z).before hs
    obtain ⟨h1, h2⟩ := h s' hs'
    exact ⟨hg.trans h1, hp.trans h2⟩

/-- The taking of harmless reports, one after another (R60). -/
theorem Event.Sound.takeReports (xs : List Report) (h : e.Sound ending) (hx : ∀ x ∈ xs, x.Harmless e) :
    (xs.foldl Event.takeReport e).Sound ending ∧
      (∀ y, Dropped (e.calls.view y) ((xs.foldl Event.takeReport e).calls.view y)) ∧
      (xs.foldl Event.takeReport e).zones = e.zones := by
  induction xs generalizing e with
  | nil => exact ⟨h, fun _ => .refl _, rfl⟩
  | cons x rest ih =>
    obtain ⟨h1, h2, h3⟩ := h.takeReport x (hx x (by simp))
    obtain ⟨k1, k2, k3⟩ := ih h1 fun y hy => (hx y (by simp [hy])).of_dropped h2
    exact ⟨k1, fun y => (h2 y).trans (k2 y), k3.trans h3⟩

/-! ### Displacement and grant (R44 to R47) -/

/-- The reports of a displacement (R45 to R47): the loss of the call that left under DROP, or of the call that a full stack
gave up. -/
theorem Event.displace_reports (e : Event) (z : Zone) (l : CallRef) (why : LossReason) (c : Call)
    (hc : e.calls.call? l = some c) :
    ∀ x ∈ (e.displace z l why).2, (c.captured.preempt = .drop ∧ x = .loss l z why) ∨
      ∃ en, c.captured.preempt = .resume ∧
        (pushEntry (e.zones.get z).stack ⟨l, (e.zones.get z).state.resumePhase⟩).2 = some en ∧
        x = .loss en.call z .depth := by
  intro x hx
  unfold Event.displace at hx
  simp only [hc] at hx
  cases hp : c.captured.preempt with
  | drop =>
    rw [hp] at hx
    exact .inl ⟨rfl, List.mem_singleton.1 hx⟩
  | resume =>
    rw [hp] at hx
    simp only at hx
    split at hx
    · cases hx
    · rename_i en hen
      exact .inr ⟨en, rfl, hen, List.mem_singleton.1 hx⟩

/-- The reports of a displacement are losses of its zone. -/
theorem Event.displace_losses (e : Event) (z : Zone) (l : CallRef) (why : LossReason) :
    ∀ x ∈ (e.displace z l why).2, ∃ r w, x = .loss r z w := by
  intro x hx
  cases hc : e.calls.call? l with
  | none => simp [Event.displace, hc] at hx
  | some c =>
    rcases e.displace_reports z l why c hc x hx with ⟨-, k⟩ | ⟨en, -, -, k⟩
    · exact ⟨l, why, k⟩
    · exact ⟨en.call, .depth, k⟩

/-- The reports of a grant are harmless. -/
theorem Event.grantZone_reports (e f : Event) (z : Zone) (w : CallRef) : ∀ x ∈ (e.grantZone z w).2, x.Harmless f := by
  intro x hx
  unfold Event.grantZone at hx
  split at hx
  · cases hx
  · unfold grantReports at hx
    dsimp only at hx
    split at hx <;> simp only [List.mem_cons, List.not_mem_nil, or_false] at hx
    · rcases hx with rfl | rfl <;> trivial
    · subst hx; trivial
    · subst hx; trivial

/-- The call that the leaving of a live call takes off a full stack, if it does (R46). -/
def Event.evictedCall (e : Event) (z : Zone) (l : CallRef) (c : Call) : Option CallRef :=
  (if c.captured.preempt = .resume then
    (pushEntry (e.zones.get z).stack ⟨l, (e.zones.get z).state.resumePhase⟩).2 else none).map StackEntry.call

/-- The live call of a zone is not on its stack. -/
theorem Event.Sound.live_not_stacked (h : e.Sound ending) {l : CallRef} (hl : (e.zones.get z).state.live? = some l) :
    ∀ en ∈ (e.zones.get z).stack, en.call ≠ l := by
  rintro en hen rfl
  obtain ⟨s, hs, -, hoff⟩ := (h.zone z).live en.call hl
  have := ((h.zone z).suspended en.call _ hs).2 (List.mem_map_of_mem hen)
  rw [hoff] at this
  cases this

/-- The calls after a live call has left (R45 to R47). -/
theorem Event.call?_displace {l : CallRef} {c : Call} (hc : e.calls.call? l = some c)
    (off : ∀ en ∈ (e.zones.get z).stack, en.call ≠ l) (why : LossReason) (q : CallRef) :
    (e.displace z l why).1.calls.call? q =
      if q = l then some { c with
          granted := ZoneSet.remove c.granted z
          suspended := if c.captured.preempt = .resume then ZoneSet.add c.suspended z else c.suspended }
      else if e.evictedCall z l c = some q then
        (e.calls.call? q).map fun d => { d with suspended := ZoneSet.remove d.suspended z }
      else e.calls.call? q :=
  (e.displace_spec z l why c hc off).2.2.1 q

/-- What every zone sees of every call after a live call has left (R45 to R47). -/
theorem Event.view_displace {l : CallRef} {c : Call} (hc : e.calls.call? l = some c)
    (off : ∀ en ∈ (e.zones.get z).stack, en.call ≠ l) (why : LossReason) (y : Zone) (q : CallRef) :
    (e.displace z l why).1.calls.view y q =
      if q = l then some { c.seenFrom y with
          granted := ZoneSet.has c.granted y && decide (y ≠ z)
          suspended := if c.captured.preempt = .resume then ZoneSet.has c.suspended y || decide (y = z)
            else ZoneSet.has c.suspended y }
      else if e.evictedCall z l c = some q then
        (e.calls.view y q).map fun sq => { sq with suspended := sq.suspended && decide (y ≠ z) }
      else e.calls.view y q := by
  rw [CallTable.view, Event.call?_displace hc off]
  split
  · simp only [Option.map_some, Call.seenFrom, ZoneSet.has_remove]
    split
    · rw [ZoneSet.has_add]
    · rfl
  · split
    · simp only [CallTable.view, Option.map_map]
      congr 1
      funext k
      simp only [Function.comp, Call.seenFrom, ZoneSet.has_remove]
    · rfl

/-- The leaving of a live call differs at its zone alone. -/
theorem Event.onlyAt_displace {l : CallRef} {c : Call} (hc : e.calls.call? l = some c)
    (off : ∀ en ∈ (e.zones.get z).stack, en.call ≠ l) (why : LossReason) : e.OnlyAt z (e.displace z l why).1 := by
  obtain ⟨hzones, -⟩ := e.displace_spec z l why c hc off
  refine ⟨fun y hy => ?_, ?_, fun q => ?_, fun y hy => ?_⟩
  · rw [hzones, Table.get_set_other _ _ (Ne.symm hy)]
  · rw [hzones, Table.get_set_same]
  · rw [Event.call?_displace hc off]
    split
    · rename_i k; rw [k, hc]; rfl
    · split
      · rw [Option.map_map]; rfl
      · rfl
  · funext q
    rw [Event.view_displace hc off]
    split
    · rename_i k
      rw [k, CallTable.view_of_open hc y]
      simp [Call.seenFrom, hy]
    · split
      · simp [hy]
      · rfl

/-- The zone that a live call has left agrees with what it sees. -/
theorem Event.Sound.displace_matches (h : e.Sound ending) {l : CallRef} {c : Call}
    (hl : (e.zones.get z).state.live? = some l) (hc : e.calls.call? l = some c) (why : LossReason) :
    Matches ((e.displace z l why).1.calls.view z) ((e.displace z l why).1.zones.get z) := by
  have off := h.live_not_stacked hl
  have seen := CallTable.view_of_open hc z
  rw [(e.displace_spec z l why c hc off).1, Table.get_set_same]
  by_cases hp : c.captured.preempt = .resume
  · rw [if_pos hp]
    refine (h.zone z).suspend hl seen (en := ⟨l, (e.zones.get z).state.resumePhase⟩) rfl fun q => ?_
    rw [Event.view_displace hc off]
    simp only [Event.evictedCall, hp, if_true, ne_eq, not_true, decide_false, decide_true, Bool.and_false, Bool.or_true]
  · rw [if_neg hp]
    refine (h.zone z).drop hl seen fun q => ?_
    rw [Event.view_displace hc off]
    simp only [Event.evictedCall, hp, if_false, ne_eq, not_true, decide_false, Bool.and_false, Option.map_none,
      reduceCtorEq]
    rfl

/-- An entry that a push gives up was on the stack. -/
theorem mem_of_pushEntry {stack : List StackEntry} {en x : StackEntry} (h : (pushEntry stack en).2 = some x) :
    x ∈ stack := by
  unfold pushEntry at h
  split at h
  · cases h
  · exact List.mem_of_getLast? h

/-- The leaving of a live call differs at its zone alone, keeps every zone's agreement and leaves the zone IDLE; its reports
are harmless, and concern the call itself or one that was stacked (R45 to R47). -/
theorem Event.Sound.displace (h : e.Sound ending) {l : CallRef} (hl : (e.zones.get z).state.live? = some l)
    (why : LossReason) :
    e.OnlyAt z (e.displace z l why).1 ∧ (e.displace z l why).1.Sound ending ∧
      ((e.displace z l why).1.zones.get z).state.live? = none ∧
      ∀ x ∈ (e.displace z l why).2, x.Harmless (e.displace z l why).1 ∧
        (x.call = l ∨ ∃ s, e.calls.view z x.call = some s ∧ s.suspended = true) := by
  obtain ⟨s, hs, -, hoff⟩ := (h.zone z).live l hl
  obtain ⟨c, hc, rfl⟩ := CallTable.view_eq_some.1 hs
  have off := h.live_not_stacked hl
  have only := Event.onlyAt_displace hc off why
  have agrees := h.displace_matches hl hc why
  have idle : ((e.displace z l why).1.zones.get z).state.live? = none := by
    rw [(e.displace_spec z l why c hc off).1, Table.get_set_same]
    rfl
  have ungranted : ∀ r sr, (e.displace z l why).1.calls.view z r = some sr → sr.granted = false := fun r sr hsr => by
    rw [Bool.eq_false_iff, ne_eq, agrees.granted r sr hsr, idle]
    simp
  refine ⟨only, h.of_onlyAt only (keptByEvents_table.displace z l why h.table) agrees, idle, fun x hx => ?_⟩
  rcases e.displace_reports z l why c hc x hx with ⟨hp, rfl⟩ | ⟨en, hp, hen, rfl⟩
  · refine ⟨fun sr hsr => ⟨ungranted l sr hsr, ?_⟩, .inl rfl⟩
    rw [Event.view_displace hc off, if_pos rfl] at hsr
    injection hsr with hsr
    rw [← hsr]
    simp only [hp, reduceCtorEq, if_false]
    exact hoff
  · have hmem := mem_of_pushEntry hen
    obtain ⟨sx, hsx, -⟩ := (h.zone z).stacked en.call (List.mem_map_of_mem hmem)
    have evicted : e.evictedCall z l c = some en.call := by rw [Event.evictedCall, if_pos hp, hen]; rfl
    refine ⟨fun sr hsr => ⟨ungranted _ sr hsr, ?_⟩,
      .inr ⟨sx, hsx, ((h.zone z).suspended _ sx hsx).2 (List.mem_map_of_mem hmem)⟩⟩
    rw [Event.view_displace hc off, if_neg (off en hmem), if_pos evicted, hsx] at hsr
    injection hsr with hsr
    rw [← hsr]
    simp

/-- A grant to a call that wants an idle zone and is below no stacked call differs at the zone alone and keeps every zone's
agreement; the call is live there, and no other call's sets change (R44). -/
theorem Event.Sound.grantZone (h : e.Sound ending) (hi : (e.zones.get z).state.live? = none) {w : CallRef} {s : Seen}
    (hw : e.calls.view z w = some s) (ht : s.target = true)
    (hb : ∀ r sr, e.calls.view z r = some sr → sr.suspended = true → sr.priority ≤ s.priority) :
    e.OnlyAt z (e.grantZone z w).1 ∧ (e.grantZone z w).1.Sound ending ∧
      ((e.grantZone z w).1.zones.get z).state.live? = some w ∧
      (∀ q, q ≠ w → (e.grantZone z w).1.calls.view z q = e.calls.view z q) := by
  obtain ⟨c, hc, rfl⟩ := CallTable.view_eq_some.1 hw
  obtain ⟨⟨st, hst, hzones⟩, hcall, -, -⟩ := e.grantZone_spec z w c hc
  have htable := keptByEvents_table.grantZone z w h.table
  set g := e.grantZone z w with hg
  have views : ∀ y q, g.1.calls.view y q =
      if q = w then some { c.seenFrom y with
          granted := ZoneSet.has c.granted y || decide (y = z)
          suspended := ZoneSet.has c.suspended y && decide (y ≠ z) }
      else e.calls.view y q := by
    intro y q
    rw [CallTable.view, hcall q]
    split
    · simp only [Option.map_some, Call.seenFrom, ZoneSet.has_remove, ZoneSet.has_add]
    · rfl
  have only : e.OnlyAt z g.1 := by
    refine ⟨fun y hy => ?_, ?_, fun q => ?_, fun y hy => ?_⟩
    · rw [hzones, Table.get_set_other _ _ (Ne.symm hy)]
    · rw [hzones, Table.get_set_same]
    · rw [hcall q]
      split
      · rename_i k; rw [k, hc]; rfl
      · rfl
    · funext q
      rw [views]
      split
      · rename_i k
        rw [k, CallTable.view_of_open hc y]
        simp [Call.seenFrom, hy]
      · rfl
  refine ⟨only, h.of_onlyAt only htable ?_, ?_, fun q hq => ?_⟩
  · rw [hzones, Table.get_set_same]
    refine (h.zone z).grant hi hw ht hb hst fun q => ?_
    rw [views]
    simp
  · rw [hzones, Table.get_set_same]; exact hst
  · rw [views, if_neg hq]

/-! ### Evaluation (R42, R50) -/

/-- The effective floor of a zone depends on its own restriction alone (R35). -/
theorem effectiveFloor_congr (p : Plan) {zones zones' : Table 16 ZoneRecord} {z : Zone}
    (h : (zones'.get z).restriction = (zones.get z).restriction) :
    effectiveFloor p zones' z = effectiveFloor p zones z := by
  unfold effectiveFloor; rw [h]

/-- An idle zone is settled when every contender was below the floor. -/
theorem Settled.of_idle {floor : Nat} {v : View} {zone : ZoneRecord} (hi : zone.state.live? = none)
    (h : ∀ r s, v r = some s → s.target = true → s.priority < floor) : Settled floor v zone :=
  ⟨fun _ => h, fun l sl hl => by (rw [hi] at hl; cases hl), fun l sl r s hl => by (rw [hi] at hl; cases hl)⟩

/-- A zone is settled when its live call is eligible and no contender has a higher priority. -/
theorem Settled.of_live {floor : Nat} {v : View} {zone : ZoneRecord} {w : CallRef} {s : Seen}
    (hl : zone.state.live? = some w) (hw : v w = some s) (hf : floor ≤ s.priority)
    (h : ∀ r sr, v r = some sr → sr.target = true → sr.priority ≤ s.priority) : Settled floor v zone := by
  have the : ∀ l sl, zone.state.live? = some l → v l = some sl → sl = s := by
    intro l sl hl' hvl
    rw [hl] at hl'
    injection hl' with k
    subst k
    rw [hw] at hvl
    exact (Option.some.inj hvl).symm
  refine ⟨fun hi => ?_, fun l sl hl' hvl => ?_, fun l sl r sr hl' hvl hr ht => ?_⟩
  · rw [hi] at hl; cases hl
  · rw [the l sl hl' hvl]; exact hf
  · rw [the l sl hl' hvl]; exact h r sr hr ht

/-- A grant to the winner of an idle zone, on an event that differs at this zone alone from the one that was ranked, keeps
every zone's agreement and settles the zone (R44, R50). -/
theorem Event.Sound.grantTop (h : e.Sound ending) {p : Plan} {w : CallRef} (ht : e.top p z = some w)
    (hf : f.Sound ending) (o : e.OnlyAt z f) (hi : (f.zones.get z).state.live? = none) :
    e.OnlyAt z (f.grantZone z w).1 ∧ (f.grantZone z w).1.Sound ending ∧
      Settled (effectiveFloor p (f.grantZone z w).1.zones z) ((f.grantZone z w).1.calls.view z)
        ((f.grantZone z w).1.zones.get z) ∧
      ∀ q, q ≠ w → (f.grantZone z w).1.calls.view z q = f.calls.view z q := by
  obtain ⟨s, hs, hst, hfl, hmax⟩ := Event.top_some h.table ht
  obtain ⟨c, hc, rfl⟩ := CallTable.view_eq_some.1 hs
  obtain ⟨d, hd⟩ : ∃ d, f.calls.call? w = some d := by
    have k := o.calls w
    rw [hc] at k
    obtain ⟨d, hd, -⟩ := Option.map_eq_some_iff.1 k
    exact ⟨d, hd⟩
  have hw := CallTable.view_of_open hd z
  obtain ⟨s', hs', hp, ht'⟩ := o.seen_before hw
  rw [hs] at hs'
  injection hs' with k
  subst k
  obtain ⟨only, sound, live, others⟩ := hf.grantZone hi hw (ht'.trans hst) fun r sr hr hsr => by
    obtain ⟨s0, h0, hp0, ht0⟩ := o.seen_before hr
    rw [hp0, hp]
    exact (hmax r s0 h0 (ht0 ▸ (hf.zone z).wants_of_held hr (.inr hsr))).1
  have o' := o.trans only
  obtain ⟨sw, hsw, -⟩ := (sound.zone z).live w live
  obtain ⟨s1, h1, hp1, -⟩ := o'.seen_before hsw
  rw [hs] at h1
  injection h1 with k
  subst k
  refine ⟨o', sound, ?_, others⟩
  rw [effectiveFloor_congr p o'.restriction]
  refine .of_live live hsw (hp1 ▸ hfl) fun r sr hr hsr => ?_
  obtain ⟨s2, h2, hp2, ht2⟩ := o'.seen_before hr
  rw [hp2, hp1]
  exact (hmax r s2 h2 (ht2 ▸ hsr)).1

/-- The winner that displaces a live call is neither that call nor one that was stacked: both have a lower priority (R50). -/
theorem Event.Sound.top_ne_left (h : e.Sound ending) {p : Plan} {w l r : CallRef} (ht : e.top p z = some w)
    (hl : (e.zones.get z).state.live? = some l) (hwl : w ≠ l)
    (hr : r = l ∨ ∃ s, e.calls.view z r = some s ∧ s.suspended = true) : r ≠ w := by
  obtain ⟨s, hs, -, -, hmax⟩ := Event.top_some h.table ht
  rcases hr with k | ⟨sx, hsx, hp⟩
  · rw [k]; exact Ne.symm hwl
  · rintro rfl
    rw [hs] at hsx
    injection hsx with k
    subst k
    obtain ⟨sl, hsl, htl, -⟩ := (h.zone z).live l hl
    have below := (h.zone z).below l sl r s hl hsl hs hp
    have above := (hmax l sl hsl htl).2 hl hwl
    omega

/-- A displacement and the grant to the winner (R45 to R47, R44), together: the last case of Table 2-3. -/
theorem Event.Sound.displace_grant (h : e.Sound ending) {p : Plan} {w l : CallRef} (ht : e.top p z = some w)
    (hl : (e.zones.get z).state.live? = some l) (hwl : w ≠ l) (why : LossReason) :
    let left := e.displace z l why
    let granted := left.1.grantZone z w
    e.OnlyAt z granted.1 ∧ granted.1.Sound ending ∧
      Settled (effectiveFloor p granted.1.zones z) (granted.1.calls.view z) (granted.1.zones.get z) ∧
      ∀ x ∈ left.2 ++ granted.2, x.Harmless granted.1 := by
  obtain ⟨o, hd, hi, hx⟩ := h.displace hl why
  obtain ⟨only, sound, settled, others⟩ := h.grantTop ht hd o hi
  refine ⟨only, sound, settled, fun x hx' => ?_⟩
  rcases List.mem_append.1 hx' with hx' | hx'
  · obtain ⟨r, why', rfl⟩ := e.displace_losses z l why _ hx'
    obtain ⟨hharm, hwho⟩ := hx _ hx'
    intro sr hsr
    rw [others r (h.top_ne_left ht hl hwl hwho)] at hsr
    exact hharm sr hsr
  · exact Event.grantZone_reports _ _ z w x hx'

/-- The decision of an evaluation (R42, Table 2-3) differs at its zone alone, keeps every zone's agreement and settles its
own; its reports are harmless. -/
theorem Event.Sound.decideZone (h : e.Sound ending) (p : Plan) (z : Zone) :
    let d := e.decideZone p z
    e.OnlyAt z d.1 ∧ d.1.Sound ending ∧
      Settled (effectiveFloor p d.1.zones z) (d.1.calls.view z) (d.1.zones.get z) ∧ ∀ x ∈ d.2, x.Harmless d.1 := by
  dsimp only
  unfold Event.decideZone
  cases ht : e.top p z with
  | none =>
    cases hl : (e.zones.get z).state.live? with
    | none => exact ⟨.refl z e, h, .of_idle hl (Event.top_none h.table ht), by simp⟩
    | some l =>
      obtain ⟨o, hd, hi, hx⟩ := h.displace hl .floor
      refine ⟨o, hd, .of_idle hi fun r s hr hs => ?_, fun x hx' => (hx x hx').1⟩
      obtain ⟨s', hs', hp, ht'⟩ := o.seen_before hr
      rw [hp, effectiveFloor_congr p o.restriction]
      exact Event.top_none h.table ht r s' hs' (ht' ▸ hs)
  | some w =>
    cases hl : (e.zones.get z).state.live? with
    | none =>
      obtain ⟨only, sound, settled, -⟩ := h.grantTop ht h (.refl z e) hl
      exact ⟨only, sound, settled, e.grantZone_reports _ z w⟩
    | some l =>
      dsimp only
      by_cases hwl : w = l
      · subst hwl
        obtain ⟨s, hs, -, hfl, hmax⟩ := Event.top_some h.table ht
        rw [if_pos rfl]
        exact ⟨.refl z e, h, .of_live hl hs hfl fun r sr hr hsr => (hmax r sr hr hsr).1, by simp⟩
      · rw [if_neg hwl]
        exact h.displace_grant ht hl hwl _

/-- An evaluation keeps every zone's agreement and settles its own zone; no other record changes, and for every other zone
calls have at most dropped out (R42, R50, R60). -/
theorem Event.Sound.evaluate (h : e.Sound ending) (p : Plan) (z : Zone) :
    (Event.evaluate p e z).Sound ending ∧ (Event.evaluate p e z).SettledAt p z ∧
      ∀ y, y ≠ z → Dropped (e.calls.view y) ((Event.evaluate p e z).calls.view y) ∧
        (Event.evaluate p e z).zones.get y = e.zones.get y := by
  unfold Event.evaluate
  by_cases hu : p.used z = true
  · rw [if_pos hu]
    obtain ⟨o, hd, hs, hx⟩ := h.decideZone p z
    obtain ⟨h1, h2, h3⟩ := hd.takeReports _ hx
    refine ⟨h1, fun _ => ?_, fun y hy => ⟨?_, ?_⟩⟩
    · rw [h3]; exact hs.of_dropped (h2 z)
    · rw [← o.views y hy]; exact h2 y
    · rw [h3]; exact o.zones y hy
  · rw [if_neg hu]
    exact ⟨h, fun k => absurd k hu, fun y _ => ⟨.refl _, rfl⟩⟩

/-- What an evaluation has left stands as calls drop out. -/
theorem Event.SettledAt.of_dropped {p : Plan} (h : e.SettledAt p z) (hz : f.zones.get z = e.zones.get z)
    (d : Dropped (e.calls.view z) (f.calls.view z)) : f.SettledAt p z := by
  intro hu
  rw [effectiveFloor_congr p (congrArg ZoneRecord.restriction hz), hz]
  exact (h hu).of_dropped d

/-- Evaluations of some zones keep every zone's agreement; if every other zone was settled, all are (R50). -/
theorem Event.Sound.evaluateAll (p : Plan) (zs : List Zone) (h : e.Sound ending) :
    (e.evaluateAll p zs).Sound ending ∧
      ((∀ z, z ∉ zs → e.SettledAt p z) → ∀ z, (e.evaluateAll p zs).SettledAt p z) := by
  induction zs generalizing e with
  | nil => exact ⟨h, fun k z => k z (by simp)⟩
  | cons a rest ih =>
    obtain ⟨h1, h2, h3⟩ := h.evaluate p a
    obtain ⟨k1, k2⟩ := ih h1
    refine ⟨k1, fun k => k2 fun z hz => ?_⟩
    by_cases hza : z = a
    · subst hza; exact h2
    · exact (k z (by simp [hza, hz])).of_dropped (h3 z hza).2 (h3 z hza).1

end Sys2Proof.Machine
end

section
/-! The events of the call table and the zone arbiters keep the agreement of calls and zones and leave every zone settled
(R7, R14, R22, R26, R27, R54, R63). -/

namespace Sys2Proof.Machine

/-! ### One zone -/

/-- The condition of R50 rests on the calls that want the zone and on the live call alone. -/
theorem Settled.of_fewer {floor : Nat} {v w : View} {zone zone' : ZoneRecord} (h : Settled floor v zone)
    (hz : zone'.state.live? = zone.state.live?)
    (hw : ∀ r s, w r = some s → s.target = true → ∃ s', v r = some s' ∧ s'.target = true ∧ s.priority = s'.priority)
    (hl : ∀ l s, zone.state.live? = some l → w l = some s → ∃ s', v l = some s' ∧ s.priority = s'.priority) :
    Settled floor w zone' := by
  refine ⟨fun hi r s hr ht => ?_, fun l sl k hvl => ?_, fun l sl r s k hvl hr ht => ?_⟩
  · obtain ⟨s', hr', ht', e⟩ := hw r s hr ht
    rw [e]; exact h.idle (hz ▸ hi) r s' hr' ht'
  · obtain ⟨s', hl', e⟩ := hl l sl (hz ▸ k) hvl
    rw [e]; exact h.eligible l s' (hz ▸ k) hl'
  · obtain ⟨sl', hl', e⟩ := hl l sl (hz ▸ k) hvl
    obtain ⟨s', hr', ht', e'⟩ := hw r s hr ht
    rw [e, e']; exact h.highest l sl' r s' (hz ▸ k) hl' hr' ht'

/-- The agreement rests on the live call and the stack alone. -/
theorem Matches.of_record {v : View} {zone zone' : ZoneRecord} (h : Matches v zone)
    (hl : zone'.state.live? = zone.state.live?) (hs : zone'.stack = zone.stack) : Matches v zone' := by
  refine ⟨?_, ?_, ?_, ?_, ?_, ?_, ?_⟩
  · rw [hl]; exact h.granted
  · rw [hs]; exact h.suspended
  · rw [hl]; exact h.live
  · rw [hs]; exact h.stacked
  · rw [hs]; exact h.size
  · rw [hs]; exact h.once
  · rw [hl]; exact h.below

/-- A call withdrawn from a zone leaves the zone's agreement (R48, R49). -/
theorem Matches.withdraw {v v' : View} {zone : ZoneRecord} {r : CallRef} (src : Source) {s : Seen} (h : Matches v zone)
    (hs : v r = some s) {wants : Bool}
    (hv : ∀ q, v' q = if q = r then some { s with granted := false, suspended := false, target := wants } else v q) :
    Matches v' (zone.without r src) := by
  obtain ⟨gone, unstacked⟩ := zone.without_gone r src
  have live : ∀ q, q ≠ r → ((zone.without r src).state.live? = some q ↔ zone.state.live? = some q) := by
    intro q hq
    unfold ZoneRecord.without
    split
    · rename_i k; simp [k, Ne.symm hq]
    · rfl
  have stack : (zone.without r src).stack = zone.stack.filter fun en => decide (en.call ≠ r) := by
    unfold ZoneRecord.without; split <;> rfl
  have mem : ∀ q, q ∈ (zone.without r src).stack.map StackEntry.call ↔
      q ∈ zone.stack.map StackEntry.call ∧ q ≠ r := by
    intro q
    rw [stack]
    simp only [List.mem_map, List.mem_filter, decide_eq_true_eq]
    constructor
    · rintro ⟨en, ⟨h1, h2⟩, rfl⟩; exact ⟨⟨en, h1, rfl⟩, h2⟩
    · rintro ⟨⟨en, h1, rfl⟩, h2⟩; exact ⟨en, ⟨h1, h2⟩, rfl⟩
  have other : ∀ q, q ≠ r → v' q = v q := fun q hq => by rw [hv, if_neg hq]
  have liveNe : ∀ q, (zone.without r src).state.live? = some q → q ≠ r := by rintro q k rfl; exact gone k
  refine ⟨fun q sq hq => ?_, fun q sq hq => ?_, fun q k => ?_, fun q k => ?_, ?_, ?_, fun l sl q sq k hl hq hsq => ?_⟩
  · by_cases e : q = r
    · subst e
      rw [hv, if_pos rfl] at hq
      injection hq with hq
      subst hq
      simpa using gone
    · rw [other q e] at hq
      rw [live q e]
      exact h.granted q sq hq
  · rw [mem]
    by_cases e : q = r
    · subst e
      rw [hv, if_pos rfl] at hq
      injection hq with hq
      subst hq
      simp
    · rw [other q e] at hq
      simp [h.suspended q sq hq, e]
  · rw [other q (liveNe q k)]
    exact h.live q ((live q (liveNe q k)).1 k)
  · obtain ⟨k1, k2⟩ := (mem q).1 k
    rw [other q k2]
    exact h.stacked q k1
  · rw [stack]; exact (List.length_filter_le _ _).trans h.size
  · rw [stack]; exact List.Nodup.sublist (List.filter_sublist.map _) h.once
  · have hlr := liveNe l k
    rw [other l hlr] at hl
    by_cases e : q = r
    · subst e
      rw [hv, if_pos rfl] at hq
      injection hq with hq
      subst hq
      cases hsq
    · rw [other q e] at hq
      exact h.below l sl q sq ((live l hlr).1 k) hl hq hsq

/-- A new target set that still has the zone, if the zone holds the call, leaves the zone's agreement (R26). -/
theorem Matches.retarget {v v' : View} {zone : ZoneRecord} {r : CallRef} {s : Seen} (h : Matches v zone)
    (hs : v r = some s) {wants : Bool} (hk : s.granted = true ∨ s.suspended = true → wants = true)
    (hv : ∀ q, v' q = if q = r then some { s with target := wants } else v q) : Matches v' zone := by
  have back : ∀ q sq, v' q = some sq → ∃ s', v q = some s' ∧ sq.granted = s'.granted ∧ sq.suspended = s'.suspended ∧
      sq.priority = s'.priority := by
    intro q sq hq
    rw [hv] at hq
    split at hq
    · rename_i e
      injection hq with hq
      subst hq
      exact ⟨s, e ▸ hs, rfl, rfl, rfl⟩
    · exact ⟨sq, hq, rfl, rfl, rfl⟩
  have keeps : ∀ q s', v q = some s' → s'.target = true → (s'.granted = true ∨ s'.suspended = true) →
      ∃ sq, v' q = some sq ∧ sq.target = true ∧ sq.suspended = s'.suspended := by
    intro q s' hq ht hheld
    rw [hv]
    by_cases e : q = r
    · subst e
      rw [hs] at hq
      injection hq with hq
      subst hq
      exact ⟨_, if_pos rfl, hk hheld, rfl⟩
    · exact ⟨s', by rw [if_neg e, hq], ht, rfl⟩
  refine ⟨fun q sq hq => ?_, fun q sq hq => ?_, fun q k => ?_, fun q k => ?_, h.size, h.once,
    fun l sl q sq k hl hq hsq => ?_⟩
  · obtain ⟨s', hq', e, -⟩ := back q sq hq
    rw [e]; exact h.granted q s' hq'
  · obtain ⟨s', hq', -, e, -⟩ := back q sq hq
    rw [e]; exact h.suspended q s' hq'
  · obtain ⟨s', hq, ht, hn⟩ := h.live q k
    obtain ⟨sq, hq', ht', e⟩ := keeps q s' hq ht (.inl ((h.granted q s' hq).2 k))
    exact ⟨sq, hq', ht', e.trans hn⟩
  · obtain ⟨s', hq, ht⟩ := h.stacked q k
    obtain ⟨sq, hq', ht', -⟩ := keeps q s' hq ht (.inr ((h.suspended q s' hq).2 k))
    exact ⟨sq, hq', ht'⟩
  · obtain ⟨sl', hl', -, -, e⟩ := back l sl hl
    obtain ⟨sq', hq', -, e', e''⟩ := back q sq hq
    rw [e, e'']
    exact h.below l sl' q sq' k hl' hq' (e' ▸ hsq)

/-- An admitted call, granted and suspended nowhere, leaves the zone's agreement (R7). -/
theorem Matches.admits {v v' : View} {zone : ZoneRecord} {r : CallRef} {s : Seen} (h : Matches v zone) (hr : v r = none)
    (hg : s.granted = false) (hp : s.suspended = false) (hv : ∀ q, v' q = if q = r then some s else v q) :
    Matches v' zone := by
  have other : ∀ q sq, v q = some sq → v' q = some sq := by
    intro q sq hq
    rw [hv, if_neg]
    · exact hq
    · rintro rfl; rw [hr] at hq; cases hq
  have unlive : zone.state.live? ≠ some r := by
    intro k
    obtain ⟨s', hs', -⟩ := h.live r k
    rw [hr] at hs'; cases hs'
  have unstacked : r ∉ zone.stack.map StackEntry.call := by
    intro k
    obtain ⟨s', hs', -⟩ := h.stacked r k
    rw [hr] at hs'; cases hs'
  have cases_ : ∀ q sq, v' q = some sq → (q = r ∧ sq = s) ∨ v q = some sq := by
    intro q sq hq
    rw [hv] at hq
    split at hq
    · exact .inl ⟨‹_›, (Option.some.inj hq).symm⟩
    · exact .inr hq
  refine ⟨fun q sq hq => ?_, fun q sq hq => ?_, fun q k => ?_, fun q k => ?_, h.size, h.once,
    fun l sl q sq k hl hq hsq => ?_⟩
  · rcases cases_ q sq hq with ⟨rfl, rfl⟩ | hq
    · simp [hg, unlive]
    · exact h.granted q sq hq
  · rcases cases_ q sq hq with ⟨rfl, rfl⟩ | hq
    · simp only [hp, Bool.false_eq_true, false_iff]; exact unstacked
    · exact h.suspended q sq hq
  · obtain ⟨s', hq, ht⟩ := h.live q k
    exact ⟨s', other q s' hq, ht⟩
  · obtain ⟨s', hq, ht⟩ := h.stacked q k
    exact ⟨s', other q s' hq, ht⟩
  · rcases cases_ l sl hl with ⟨rfl, rfl⟩ | hl
    · exact absurd k unlive
    · rcases cases_ q sq hq with ⟨rfl, rfl⟩ | hq
      · rw [hp] at hsq; cases hsq
      · exact h.below l sl q sq k hl hq hsq

/-! ### Good events -/

/-- An event as every event leaves calls and zones under the live plan: call table and zones agree, every used zone stands
as an evaluation leaves it (R50), and an unused one is IDLE with an empty stack (R61). -/
structure Event.Good (p : Plan) (e : Event) : Prop where
  sound : e.Sound fun _ => False
  settled : ∀ z, e.SettledAt p z
  unused : ∀ z, p.used z = false → (e.zones.get z).Vacant

variable {ending : CallRef → Prop} {p : Plan} {e f : Event} {z : Zone}

/-- Calls that drop out leave an event good. -/
theorem Event.Good.of_dropped (h : e.Good p) (hs : f.Sound fun _ => False) (hz : f.zones = e.zones)
    (d : ∀ y, Dropped (e.calls.view y) (f.calls.view y)) : f.Good p :=
  ⟨hs, fun z => (h.settled z).of_dropped (by rw [hz]) (d z), fun z hu => by rw [hz]; exact h.unused z hu⟩

/-- Changes of calls and records that no zone sees leave an event good. -/
theorem Event.Good.of_unseen (h : e.Good p) (ht : f.calls.Wf)
    (hc : ∀ r d, f.calls.call? r = some d → ∃ c, e.calls.call? r = some c ∧ d.target = c.target)
    (hv : ∀ y, f.calls.view y = e.calls.view y)
    (hz : ∀ y, (f.zones.get y).state.live? = (e.zones.get y).state.live? ∧
      (f.zones.get y).stack = (e.zones.get y).stack ∧ (f.zones.get y).restriction = (e.zones.get y).restriction) :
    f.Good p := by
  refine ⟨⟨ht, fun r d hd k => ?_, fun y => ?_⟩, fun y hu => ?_, fun y hu => ?_⟩
  · obtain ⟨c, hr, e⟩ := hc r d hd
    rw [e]; exact h.sound.wanted r c hr k
  · rw [hv]; exact (h.sound.zone y).of_record (hz y).1 (hz y).2.1
  · rw [effectiveFloor_congr p (hz y).2.2, hv]
    exact (h.settled y hu).of_fewer (hz y).1 (fun q s hq ht => ⟨s, hq, ht, rfl⟩) fun q s _ hq => ⟨s, hq, rfl⟩
  · obtain ⟨k1, k2⟩ := h.unused y hu
    exact ⟨ZoneState.live?_eq_none.1 (by rw [(hz y).1, k1]; rfl), (hz y).2.1.trans k2⟩

/-- The pruning of a call (R14): it drops out of the zones it waits for. -/
theorem Event.Sound.prune (h : e.Sound ending) (r : CallRef) :
    (e.prune r).Sound ending ∧ (∀ y, Dropped (e.calls.view y) ((e.prune r).calls.view y)) ∧
      (e.prune r).zones = e.zones := by
  unfold Event.prune
  split
  · exact ⟨h, fun _ => .refl _, rfl⟩
  · rename_i c hc
    have hfold : ∀ (zs : List Zone) (e : Event), zs.foldl (fun e z => e.loseZone r z .late) e =
        (zs.map fun z => Report.loss r z .late).foldl Event.takeReport e := by
      intro zs e
      rw [List.foldl_map]
      rfl
    rw [hfold]
    refine h.takeReports _ fun x hx => ?_
    obtain ⟨z, hz, rfl⟩ := List.mem_map.1 hx
    intro s hs
    rw [CallTable.view_of_open hc] at hs
    injection hs with hs
    subst hs
    have hw := (List.mem_filter.1 hz).2
    simp only [Call.waitsOn, Bool.and_eq_true, Bool.not_eq_true'] at hw
    exact ⟨hw.1.2, hw.2⟩

/-- The pruning at the end of an event keeps it sound; calls at most drop out (R14). -/
theorem Event.Sound.settle (h : e.Sound ending) :
    e.settle.Sound ending ∧ ∀ y, Dropped (e.calls.view y) (e.settle.calls.view y) := by
  unfold Event.settle
  generalize e.skippers = rs
  induction rs generalizing e with
  | nil => exact ⟨h, fun _ => .refl _⟩
  | cons r rest ih =>
    obtain ⟨h1, h2, -⟩ := h.prune r
    obtain ⟨k1, k2⟩ := ih h1
    exact ⟨k1, fun y => (h2 y).trans (k2 y)⟩

/-- The pruning at the end of an event leaves it good. -/
theorem Event.Good.settle (h : e.Good p) : e.settle.Good p :=
  h.of_dropped h.sound.settle.1 e.settle_zones h.sound.settle.2

/-- The end of a call with an empty target set (R22): it drops out of every zone's view. -/
theorem Event.Sound.finishCall (r : CallRef) (cause : EndCause) (h : e.Sound (· = r))
    (hr : ∀ c, e.calls.call? r = some c → c.target = 0#16) :
    (e.finishCall r cause).Sound (fun _ => False) ∧
      (∀ y, Dropped (e.calls.view y) ((e.finishCall r cause).calls.view y)) ∧
      (e.finishCall r cause).zones = e.zones := by
  have hz := Event.finishCall_zones e r cause
  have dropped : ∀ y, Dropped (e.calls.view y) ((e.finishCall r cause).calls.view y) := by
    intro y q
    rw [CallTable.view, Event.call?_finishCall]
    by_cases hq : q = r
    · subst hq
      rw [if_pos rfl]
      cases hc : e.calls.call? q with
      | none => left; simp [CallTable.view, hc]
      | some c =>
        have hv := CallTable.view_of_open hc y
        have ht : ¬ (c.seenFrom y).target = true := by simp [Call.seenFrom, hr c hc]
        refine .inr ⟨_, hv, ?_, ?_, .inl rfl⟩
        · exact Bool.eq_false_iff.2 fun k => ht ((h.zone y).wants_of_held hv (.inl k))
        · exact Bool.eq_false_iff.2 fun k => ht ((h.zone y).wants_of_held hv (.inr k))
    · left
      rw [if_neg hq]
      rfl
  refine ⟨⟨keptByEvents_table.ends e r cause h.table, fun q d hd _ => ?_, fun y => ?_⟩, dropped, hz⟩
  · rw [Event.call?_finishCall] at hd
    split at hd
    · cases hd
    · exact h.wanted q d hd ‹_›
  · rw [hz]; exact (h.zone y).of_dropped (dropped y)

/-- A new target set and the withdrawal from a set of zones, which takes every zone that held the call and that it wants no
more: the event stays sound, and what an evaluation left stands where the call is not withdrawn and wants no more than
before (R22, R26, R48, R49). -/
theorem Event.Sound.withdraws (h : e.Sound fun _ => False) {r : CallRef} {c : Call} (hc : e.calls.call? r = some c)
    (t m : ZoneSet)
    (hm : ∀ z, ZoneSet.has (c.granted ||| c.suspended) z = true → ZoneSet.has m z = false → ZoneSet.has t z = true) :
    let x := (ZoneSet.zones m).foldl (Event.withdraw r c.source) (e.changeCall r fun c => { c with target := t })
    x.Sound (fun q => q = r ∧ t = 0#16) ∧
      (∀ z, ZoneSet.has m z = false → x.zones.get z = e.zones.get z) ∧
      ∀ z, ZoneSet.has m z = false → (ZoneSet.has t z = true → ZoneSet.has c.target z = true) →
        e.SettledAt p z → x.SettledAt p z := by
  obtain ⟨-, -, hr, hother, hzone⟩ := e.retarget_withdraws r c hc t m
  have htable : ((ZoneSet.zones m).foldl (Event.withdraw r c.source)
      (e.changeCall r fun c => { c with target := t })).calls.Wf :=
    foldl_keeps (P := fun e : Event => e.calls.Wf) (fun _ z he => keptByEvents_table.withdraw _ _ z he) _
      (keptByEvents_table.calls e r _ (fun _ => rfl) h.table)
  dsimp only
  set x := (ZoneSet.zones m).foldl (Event.withdraw r c.source) (e.changeCall r fun c => { c with target := t })
  have views : ∀ y q, x.calls.view y q =
      if q = r then some { c.seenFrom y with
        granted := ZoneSet.has c.granted y && !ZoneSet.has m y
        suspended := ZoneSet.has c.suspended y && !ZoneSet.has m y
        target := ZoneSet.has t y }
      else e.calls.view y q := by
    intro y q
    by_cases hq : q = r
    · subst hq
      rw [if_pos rfl, CallTable.view_of_open hr]
      simp only [Call.seenFrom, ZoneSet.has_and, ZoneSet.has_not]
    · rw [if_neg hq, CallTable.view, hother q hq]
      rfl
  have zones : ∀ y, ZoneSet.has m y = false → x.zones.get y = e.zones.get y := fun y hy => by
    rw [hzone y]; simp [hy]
  refine ⟨⟨htable, fun q d hd hq => ?_, fun y => ?_⟩, zones, fun y hy hw hs hu => ?_⟩
  · by_cases k : q = r
    · subst k
      rw [hr] at hd
      injection hd with hd
      rw [← hd]
      exact fun h0 => hq ⟨rfl, h0⟩
    · rw [hother q k] at hd
      exact h.wanted q d hd id
  · have hv := CallTable.view_of_open hc y
    cases hy : ZoneSet.has m y with
    | true =>
      have hrec : x.zones.get y = (e.zones.get y).without r c.source := by
        rw [hzone y, hy, if_pos rfl]; rfl
      rw [hrec]
      refine (h.zone y).withdraw c.source hv (wants := ZoneSet.has t y) fun q => ?_
      rw [views]
      simp [hy, Call.seenFrom]
    | false =>
      rw [zones y hy]
      refine (h.zone y).retarget hv (wants := ZoneSet.has t y) (fun k => hm y ?_ hy) fun q => ?_
      · rw [ZoneSet.has_or]; simpa [Call.seenFrom] using k
      · rw [views]
        simp [hy, Call.seenFrom]
  · rw [effectiveFloor_congr p (congrArg ZoneRecord.restriction (zones y hy)), zones y hy]
    have hv := CallTable.view_of_open hc y
    refine (hs hu).of_fewer rfl (fun q s hq ht => ?_) fun q s _ hq => ?_
    · rw [views] at hq
      split at hq
      · rename_i k
        injection hq with hq
        subst hq
        exact ⟨c.seenFrom y, k ▸ hv, hw ht, rfl⟩
      · exact ⟨s, hq, ht, rfl⟩
    · rw [views] at hq
      split at hq
      · rename_i k
        injection hq with hq
        subst hq
        exact ⟨c.seenFrom y, k ▸ hv, rfl⟩
      · exact ⟨s, hq, rfl⟩

/-- Evaluations leave a zone that is unused in the plan (R61). -/
theorem Event.evaluateAll_unused (p : Plan) (zs : List Zone) (e : Event) (z : Zone) (hu : p.used z = false) :
    (e.evaluateAll p zs).zones.get z = e.zones.get z := by
  unfold Event.evaluateAll
  induction zs generalizing e with
  | nil => rfl
  | cons a rest ih =>
    rw [List.foldl_cons, ih]
    by_cases ha : a = z
    · subst ha; simp [Event.evaluate, hu]
    · exact (Event.evaluate_frame e p a).1 z (Ne.symm ha)

/-! ### The end of a call (R22) -/

/-- A call that wants no zone goes on wanting none. -/
theorem Event.Narrows.wants_none (h : e.Narrows f) {r : CallRef} {c : Call} (hc : e.calls.call? r = some c)
    (h0 : c.target = 0#16) (d : Call) (hd : f.calls.call? r = some d) : d.target = 0#16 := by
  obtain ⟨c', hc', narrowed⟩ := h.calls r d hd
  rw [hc] at hc'
  injection hc' with hc'
  subst hc'
  refine ZoneSet.ext_has fun z => ?_
  rw [ZoneSet.has_empty, Bool.eq_false_iff]
  intro k
  have := narrowed.target z k
  rw [h0, ZoneSet.has_empty] at this
  cases this

/-- The end of a call that wants no zone makes good an event that was good but for it. -/
theorem Event.Sound.finishes {r : CallRef} (h : e.Sound (· = r)) (settled : ∀ z, e.SettledAt p z)
    (unused : ∀ z, p.used z = false → (e.zones.get z).Vacant)
    (hr : ∀ c, e.calls.call? r = some c → c.target = 0#16) (cause : EndCause) : (e.finishCall r cause).Good p := by
  obtain ⟨sound, dropped, same⟩ := Event.Sound.finishCall r cause h hr
  exact ⟨sound, fun z => (settled z).of_dropped (by rw [same]) (dropped z), fun z hu => by rw [same]; exact unused z hu⟩

/-- The end of a call keeps an event sound, and leaves zones that are IDLE with an empty stack; a good event it leaves
good (R22). -/
theorem Event.Sound.endCall (h : e.Sound fun _ => False) (p : Plan) (r : CallRef) (cause : EndCause) :
    (e.endCall p r cause).Sound (fun _ => False) ∧
      (∀ z, (e.zones.get z).Vacant → ((e.endCall p r cause).zones.get z).Vacant) ∧
      (e.Good p → (e.endCall p r cause).Good p) := by
  unfold Event.endCall
  split
  · exact ⟨h, fun _ k => k, id⟩
  · rename_i c hc
    obtain ⟨x1, x2, x3⟩ := h.withdraws (p := p) hc 0#16 (c.granted ||| c.suspended) fun z k k' => by
      rw [k] at k'; cases k'
    have hnarrow := Event.narrows_evaluateAll p (ZoneSet.zones (c.granted ||| c.suspended))
      ((ZoneSet.zones (c.granted ||| c.suspended)).foldl (Event.withdraw r c.source)
        (e.changeCall r fun c => { c with target := 0#16 }))
    have hempty := (e.retarget_withdraws r c hc 0#16 (c.granted ||| c.suspended)).2.2.1
    dsimp only
    set x := (ZoneSet.zones (c.granted ||| c.suspended)).foldl (Event.withdraw r c.source)
      (e.changeCall r fun c => { c with target := 0#16 })
    have x1' : x.Sound (· = r) := ⟨x1.table, fun q d hd hq => x1.wanted q d hd fun k => hq k.1, x1.zone⟩
    obtain ⟨y1, y2⟩ := x1'.evaluateAll p (ZoneSet.zones (c.granted ||| c.suspended))
    have yframe := (x.evaluateAll_frame p (ZoneSet.zones (c.granted ||| c.suspended))).1
    obtain ⟨f1, f2, f3⟩ := Event.Sound.finishCall r cause y1 (hnarrow.wants_none hempty rfl)
    -- A vacant zone holds nobody, so it is not among the zones evaluated.
    have vacant : ∀ z, (e.zones.get z).Vacant →
        ((x.evaluateAll p (ZoneSet.zones (c.granted ||| c.suspended))).finishCall r cause).zones.get z =
          e.zones.get z := by
      intro z hz
      have hv := (h.zone z).unheld_of_vacant hz r _ (CallTable.view_of_open hc z)
      have hn : ZoneSet.has (c.granted ||| c.suspended) z = false := by
        rw [ZoneSet.has_or]; simpa [Call.seenFrom] using hv
      rw [f3, yframe z (by simp [hn]), x2 z hn]
    refine ⟨f1, fun z hz => by rw [vacant z hz]; exact hz, fun hg => ⟨f1, fun z => ?_, fun z hu => ?_⟩⟩
    · refine Event.SettledAt.of_dropped (y2 (fun z hz => ?_) z) (by rw [f3]) (f2 z)
      have hn : ZoneSet.has (c.granted ||| c.suspended) z = false := by simpa using hz
      exact x3 z hn (fun k => by simp at k) (hg.settled z)
    · rw [vacant z (hg.unused z hu)]; exact hg.unused z hu

/-- The end of a call leaves a good event good. -/
theorem Event.Good.endCall (h : e.Good p) (r : CallRef) (cause : EndCause) : (e.endCall p r cause).Good p :=
  (h.sound.endCall p r cause).2.2 h

/-- CLEAR_CALLS leaves a good event good (R27). -/
theorem Event.Good.clear (h : e.Good p) (selected : List CallRef) : (e.clear p selected).Good p :=
  foldl_keeps (P := Event.Good p) (fun _ r he => he.endCall r .cleared) selected h

/-! ### Retargeting (R26) -/

/-- A zone that holds the call and is not left stays in the target set (R26). -/
theorem Event.Sound.retarget_keeps (h : e.Sound ending) {r : CallRef} {c : Call} (hc : e.calls.call? r = some c)
    (add remove : ZoneSet) (z : Zone) (held : ZoneSet.has (c.granted ||| c.suspended) z = true)
    (stays : ZoneSet.has (c.target &&& remove &&& (c.granted ||| c.suspended)) z = false) :
    ZoneSet.has ((c.target &&& ~~~ remove) ||| add) z = true := by
  have wanted : ZoneSet.has c.target z = true := by
    refine (h.zone z).wants_of_held (CallTable.view_of_open hc z) ?_
    rw [ZoneSet.has_or] at held
    simpa [Call.seenFrom] using held
  rw [ZoneSet.has_and, ZoneSet.has_and, held, wanted, Bool.true_and, Bool.and_true] at stays
  rw [ZoneSet.has_or, ZoneSet.has_and, ZoneSet.has_not, wanted, stays]
  rfl

/-- A zone of the new target set that does not join was in the old one (R26). -/
theorem ZoneSet.has_of_not_joining {old add remove : ZoneSet} {z : Zone}
    (new : ZoneSet.has ((old &&& ~~~ remove) ||| add) z = true) (join : ZoneSet.has (add &&& ~~~ old) z = false) :
    ZoneSet.has old z = true := by
  rw [ZoneSet.has_or, ZoneSet.has_and] at new
  rw [ZoneSet.has_and, ZoneSet.has_not] at join
  cases k : ZoneSet.has old z with
  | true => rfl
  | false =>
    rw [k, Bool.not_false, Bool.and_true] at join
    rw [k, join] at new
    cases new

/-- A retarget leaves a good event good (R26). -/
theorem Event.Good.retarget (h : e.Good p) (r : CallRef) (add remove : ZoneSet) :
    (e.retarget p r add remove).Good p := by
  unfold Event.retarget
  split
  · exact h
  · rename_i c hc
    dsimp only
    set gone := c.target &&& remove &&& (c.granted ||| c.suspended) with hgone
    set joining := add &&& ~~~ c.target
    set target := (c.target &&& ~~~ remove) ||| add
    obtain ⟨x1, x2, x3⟩ := h.sound.withdraws (p := p) hc target gone (h.sound.retarget_keeps hc add remove)
    have narrows := Event.narrows_evaluateAll p (ZoneSet.zones gone ++ ZoneSet.zones joining)
      ((ZoneSet.zones gone).foldl (Event.withdraw r c.source) (e.changeCall r fun c => { c with target := target }))
    have changed := (e.retarget_withdraws r c hc target gone).2.2.1
    set x := (ZoneSet.zones gone).foldl (Event.withdraw r c.source) (e.changeCall r fun c => { c with target := target })
    obtain ⟨y1, y2⟩ := x1.evaluateAll p (ZoneSet.zones gone ++ ZoneSet.zones joining)
    set y := x.evaluateAll p (ZoneSet.zones gone ++ ZoneSet.zones joining) with hy
    have settled : ∀ z, y.SettledAt p z := by
      refine y2 fun z hz => ?_
      rw [List.mem_append, not_or, ZoneSet.mem_zones, ZoneSet.mem_zones, Bool.not_eq_true, Bool.not_eq_true] at hz
      exact x3 z hz.1 (fun k => ZoneSet.has_of_not_joining k hz.2) (h.settled z)
    have unused : ∀ z, p.used z = false → (y.zones.get z).Vacant := by
      intro z hu
      obtain ⟨ungranted, unsuspended⟩ :=
        (h.sound.zone z).unheld_of_vacant (h.unused z hu) r _ (CallTable.view_of_open hc z)
      simp only [Call.seenFrom] at ungranted unsuspended
      have hn : ZoneSet.has gone z = false := by
        rw [hgone, ZoneSet.has_and, ZoneSet.has_or, ungranted, unsuspended, Bool.or_self, Bool.and_false]
      rw [hy, Event.evaluateAll_unused p _ x z hu, x2 z hn]
      exact h.unused z hu
    have good : (if target = 0#16 then y.finishCall r .noZones else y).Good p := by
      split
      · rename_i h0
        have ending : y.Sound (· = r) := ⟨y1.table, fun q d hd hq => y1.wanted q d hd fun k => hq k.1, y1.zone⟩
        exact ending.finishes settled unused (narrows.wants_none changed h0) .noZones
      · rename_i h0
        exact ⟨⟨y1.table, fun q d hd _ => y1.wanted q d hd fun k => h0 k.2, y1.zone⟩, settled, unused⟩
    split
    · exact ⟨good.sound.of_log rfl rfl, good.settled, good.unused⟩
    · exact good

/-! ### Admission (R7) -/

/-- The call table with a record filled by a new call (R7). -/
def CallTable.fill (t : CallTable) (i : Fin 32) (c : Call) : CallTable :=
  { t with
    records := t.records.set i ⟨(t.records.get i).gen, some c⟩
    admission := t.admission ++ [⟨i, (t.records.get i).gen⟩]
    admitted := satInc t.admitted }

/-- A call as its admission opens it (R7). -/
def Call.opened (o : Origin) (cls : Fin 8) (d : ClassDef) (src : Source) (target : ZoneSet) : Call :=
  { origin := o, cls := cls, captured := d, source := src, target := target
    granted := 0#16, suspended := 0#16, speak := false, everGranted := false
    wait := if d.waitMs = 0 then none else some (framesOfMs d.waitMs)
    duration := none, hold := none }

/-- An admission that finds a FREE record fills it and evaluates the target zones (R7). -/
theorem Event.openRecord_of_free (p : Plan) (o : Origin) (cls : Fin 8) (d : ClassDef) (src : Source) (target : ZoneSet)
    {e : Event} {i : Fin 32} (h : e.calls.freeIndex? = some i) :
    e.openRecord p o cls d src target =
      Event.evaluateAll p (ZoneSet.zones target)
        { e with
          calls := e.calls.fill i (.opened o cls d src target)
          admitted := e.admitted ++ [⟨i, (e.calls.records.get i).gen⟩] } := by
  simp only [Event.openRecord, h]
  rfl

/-- The calls once a record is filled: its present reference names the new call, every other names what it named. -/
theorem CallTable.call?_fill (t : CallTable) (i : Fin 32) (c : Call) (q : CallRef) :
    (t.fill i c).call? q = if q = ⟨i, (t.records.get i).gen⟩ then some c else t.call? q := by
  unfold CallTable.call? CallTable.fill
  rw [Table.get_set]
  obtain ⟨qi, qg⟩ := q
  by_cases h : i = qi
  · subst h
    by_cases g : (t.records.get i).gen = qg
    · subst g; simp
    · simp [g, Ne.symm g]
  · have : ¬ qi = i := fun k => h k.symm
    simp [h, this]

/-- What a zone sees once a record is filled. -/
theorem CallTable.view_fill (t : CallTable) (i : Fin 32) (c : Call) (z : Zone) (q : CallRef) :
    (t.fill i c).view z q = if q = ⟨i, (t.records.get i).gen⟩ then some (c.seenFrom z) else t.view z q := by
  rw [CallTable.view, CallTable.call?_fill]
  split <;> rfl

/-- A reference to a FREE record names no call. -/
theorem CallTable.call?_of_free {t : CallTable} {r : CallRef} (h : (t.records.get r.index).call = none) :
    t.call? r = none := by
  unfold CallTable.call?
  split
  · exact h
  · rfl

/-- The lowest-numbered FREE record is FREE, and none below it is (R7). -/
theorem CallTable.freeIndex?_eq_some {t : CallTable} {i : Fin 32} :
    t.freeIndex? = some i ↔ (t.records.get i).call = none ∧ ∀ j, j < i → (t.records.get j).call ≠ none := by
  unfold CallTable.freeIndex?
  rw [List.find?_eq_some_iff_getElem]
  simp only [Option.isNone_iff_eq_none, List.length_finRange, List.getElem_finRange]
  constructor
  · rintro ⟨h, n, hn, e, k⟩
    subst e
    refine ⟨h, fun j hj => ?_⟩
    have := k j.val hj
    simpa [Option.ne_none_iff_isSome] using this
  · rintro ⟨h, k⟩
    refine ⟨h, i.val, i.isLt, by simp, fun j hj => ?_⟩
    simpa [Option.ne_none_iff_isSome] using k ⟨j, by omega⟩ (by simpa [Fin.lt_def] using hj)

/-- No open call has a source that the admission list does not find (R7). -/
theorem CallTable.Wf.source_free {t : CallTable} (h : t.Wf) {src : Source} (hs : t.ofSource? src = none) :
    ∀ r c, t.call? r = some c → c.source ≠ src := by
  intro r c hc
  have := List.find?_eq_none.1 hs r ((h.listed r).2 (by rw [hc]; rfl))
  simpa [hc] using this

/-- A FREE record filled by a call of a source that has no other keeps the call table's conditions (R4, R7). -/
theorem CallTable.Wf.fill {t : CallTable} (h : t.Wf) {i : Fin 32} (free : (t.records.get i).call = none) {c : Call}
    (source : ∀ r d, t.call? r = some d → d.source ≠ c.source) : (t.fill i c).Wf := by
  have unnamed : t.call? ⟨i, (t.records.get i).gen⟩ = none := CallTable.call?_of_free free
  have unlisted : (⟨i, (t.records.get i).gen⟩ : CallRef) ∉ t.admission := by rw [h.listed, unnamed]; simp
  have named : ∀ q d, (t.fill i c).call? q = some d →
      (q = ⟨i, (t.records.get i).gen⟩ ∧ d = c) ∨ t.call? q = some d := by
    intro q d hd
    rw [CallTable.call?_fill] at hd
    split at hd
    · exact .inl ⟨‹_›, (Option.some.inj hd).symm⟩
    · exact .inr hd
  refine ⟨?_, fun q => ?_, fun q q' d d' hq hq' hsrc => ?_, Nat.min_le_right _ _, h.refusedBound⟩
  · refine List.nodup_append.2 ⟨h.once, List.nodup_singleton _, ?_⟩
    rintro a ha b hb rfl
    exact unlisted (List.mem_singleton.1 hb ▸ ha)
  · rw [CallTable.call?_fill, CallTable.fill, List.mem_append, List.mem_singleton, h.listed]
    split
    · simp [*]
    · simp [*]
  · rcases named q d hq with ⟨rfl, rfl⟩ | old
    · rcases named q' d' hq' with ⟨rfl, -⟩ | old'
      · rfl
      · exact absurd hsrc.symm (source q' d' old')
    · rcases named q' d' hq' with ⟨rfl, rfl⟩ | old'
      · exact absurd hsrc (source q d old)
      · exact h.oneSource q q' d d' old old' hsrc

/-- A FREE record filled by a call that wants some zone and holds none keeps an event sound. -/
theorem Event.Sound.fill (h : e.Sound fun _ => False) {i : Fin 32} (free : (e.calls.records.get i).call = none) {c : Call}
    (source : ∀ r d, e.calls.call? r = some d → d.source ≠ c.source) (wants : c.target ≠ 0#16)
    (hg : c.granted = 0#16) (hs : c.suspended = 0#16) (hf : f.calls = e.calls.fill i c) (hz : f.zones = e.zones) :
    f.Sound fun _ => False := by
  refine ⟨hf ▸ h.table.fill free source, fun q d hd _ => ?_, fun y => ?_⟩
  · rw [hf, CallTable.call?_fill] at hd
    split at hd
    · injection hd with hd
      rw [← hd]
      exact wants
    · exact h.wanted q d hd id
  · rw [hf, hz]
    refine (h.zone y).admits ?_ ?_ ?_ (CallTable.view_fill e.calls i c y)
    · rw [CallTable.view, CallTable.call?_of_free free]
      rfl
    · rw [Call.seenFrom, hg]
      exact ZoneSet.has_empty y
    · rw [Call.seenFrom, hs]
      exact ZoneSet.has_empty y

/-- A zone that the new call does not want stands as it did. -/
theorem Event.SettledAt.fill (h : e.SettledAt p z) (sound : e.Sound ending) {i : Fin 32}
    (free : (e.calls.records.get i).call = none) {c : Call} (hw : ZoneSet.has c.target z = false)
    (hf : f.calls = e.calls.fill i c) (hz : f.zones = e.zones) : f.SettledAt p z := by
  intro hu
  have old : ∀ q s, f.calls.view z q = some s → q ≠ ⟨i, (e.calls.records.get i).gen⟩ → e.calls.view z q = some s := by
    intro q s hq hne
    rwa [hf, CallTable.view_fill, if_neg hne] at hq
  rw [hz]
  refine (h hu).of_fewer rfl (fun q s hq ht => ⟨s, old q s hq ?_, ht, rfl⟩) fun q s hl hq => ⟨s, old q s hq ?_, rfl⟩
  · rintro rfl
    rw [hf, CallTable.view_fill, if_pos rfl] at hq
    injection hq with hq
    rw [← hq, Call.seenFrom, hw] at ht
    cases ht
  · rintro rfl
    obtain ⟨s', hs', -⟩ := (sound.zone z).live _ hl
    rw [CallTable.view, CallTable.call?_of_free free] at hs'
    cases hs'

/-- An admission with some target zone, for a source that has no open call, leaves a good event good (R7). -/
theorem Event.Good.openRecord (h : e.Good p) (o : Origin) (cls : Fin 8) (d : ClassDef) (src : Source)
    {target : ZoneSet} (ht : target ≠ 0#16) (hs : e.calls.ofSource? src = none) :
    (e.openRecord p o cls d src target).Good p := by
  cases hi : e.calls.freeIndex? with
  | none => simpa [Event.openRecord, hi] using h
  | some i =>
    rw [Event.openRecord_of_free p o cls d src target hi]
    obtain ⟨free, -⟩ := CallTable.freeIndex?_eq_some.1 hi
    set x : Event := { e with
      calls := e.calls.fill i (.opened o cls d src target)
      admitted := e.admitted ++ [⟨i, (e.calls.records.get i).gen⟩] }
    have sound : x.Sound fun _ => False :=
      h.sound.fill free (c := .opened o cls d src target) (h.sound.table.source_free hs) ht rfl rfl rfl rfl
    obtain ⟨evaluated, settled⟩ := sound.evaluateAll p (ZoneSet.zones target)
    refine ⟨evaluated, settled fun z hz => ?_, fun z hu => ?_⟩
    · rw [ZoneSet.mem_zones, Bool.not_eq_true] at hz
      exact (h.settled z).fill h.sound free (c := .opened o cls d src target) hz rfl rfl
    · rw [Event.evaluateAll_unused p _ x z hu]
      exact h.unused z hu

/-! ### Restrictions and lead-ins (R54, R63) -/

/-- The records once some zones have taken a restriction: nothing else changes (R63). -/
theorem Event.foldl_restriction (zs : List Zone) (floor : Nat) (e : Event) :
    let x := zs.foldl (fun e z => e.changeZone z fun zr => { zr with restriction := floor }) e
    x = { e with zones := x.zones } ∧
      ∀ z, x.zones.get z = if z ∈ zs then { e.zones.get z with restriction := floor } else e.zones.get z := by
  induction zs generalizing e with
  | nil => exact ⟨rfl, fun z => by simp⟩
  | cons a rest ih =>
    obtain ⟨h1, h2⟩ := ih (e.changeZone a fun zr => { zr with restriction := floor })
    refine ⟨?_, fun z => ?_⟩
    · rw [List.foldl_cons, h1]; rfl
    · rw [List.foldl_cons, h2]
      simp only [Event.changeZone, Table.get_modify, List.mem_cons]
      by_cases k : a = z
      · subst k; simp
      · simp [k, Ne.symm k]

/-- ZONE_RESTRICT leaves a good event good (R63). -/
theorem Event.Good.restrict (h : e.Good p) (m : ZoneSet) (floor : Nat) : (e.restrict p m floor).Good p := by
  unfold Event.restrict
  obtain ⟨x1, x2⟩ := e.foldl_restriction (ZoneSet.zones m) floor
  dsimp only
  set x := (ZoneSet.zones m).foldl (fun e z => e.changeZone z fun zr => { zr with restriction := floor }) e
  have hcalls : x.calls = e.calls := by rw [x1]
  have record : ∀ z, (x.zones.get z).state = (e.zones.get z).state ∧ (x.zones.get z).stack = (e.zones.get z).stack := by
    intro z
    rw [x2]
    split <;> exact ⟨rfl, rfl⟩
  have sound : x.Sound fun _ => False := by
    refine ⟨hcalls ▸ h.sound.table, hcalls ▸ h.sound.wanted, fun z => ?_⟩
    rw [hcalls]
    exact (h.sound.zone z).of_record (by rw [(record z).1]) (record z).2
  obtain ⟨y1, y2⟩ := sound.evaluateAll p (ZoneSet.zones m)
  refine ⟨y1, y2 fun z hz => ?_, fun z hu => ?_⟩
  · refine (h.settled z).of_dropped ?_ ?_
    · rw [x2, if_neg hz]
    · rw [hcalls]; exact .refl _
  · rw [Event.evaluateAll_unused p _ _ z hu]
    exact ⟨(record z).1.trans (h.unused z hu).1, (record z).2.trans (h.unused z hu).2⟩

/-- A lead-in expiry leaves a good event good (R54). -/
theorem Event.Good.leadInExpires (h : e.Good p) (z : Zone) {r : CallRef}
    (hr : (e.zones.get z).state.live? = some r) : (e.leadInExpires z r).Good p := by
  unfold Event.leadInExpires
  have record : ∀ y, ((e.changeZone z fun zr => { zr with state := .onAir r }).zones.get y).state.live? =
        (e.zones.get y).state.live? ∧
      ((e.changeZone z fun zr => { zr with state := .onAir r }).zones.get y).stack = (e.zones.get y).stack ∧
      ((e.changeZone z fun zr => { zr with state := .onAir r }).zones.get y).restriction =
        (e.zones.get y).restriction := by
    intro y
    show ((e.zones.modify z _).get y).state.live? = _ ∧ ((e.zones.modify z _).get y).stack = _ ∧
      ((e.zones.modify z _).get y).restriction = _
    rw [Table.get_modify]
    split
    · rename_i k
      subst k
      exact ⟨hr.symm, rfl, rfl⟩
    · exact ⟨rfl, rfl, rfl⟩
  have good := h.of_unseen (f := e.changeZone z fun zr => { zr with state := .onAir r }) h.sound.table
    (fun r d hd => ⟨d, hd, rfl⟩) (fun _ => rfl) record
  obtain ⟨s1, s2, s3⟩ := good.sound.takeReport (.onAir r) trivial
  exact good.of_dropped s1 s3 s2

end Sys2Proof.Machine
end

section
/-! The whole part: what a plan switch does to the agreement of calls and zones, the plan store's own conditions, and every
step keeps both (R29, R50, R61, R62, R108). -/

namespace Sys2Proof.Machine

variable {p q : Plan} {e f : Event} {s t : State}

/-! ### A plan switch (R29, R61, R62) -/

/-- What the removals of a switch between two plans make of an event: the call table in order, calls narrowed to the zones
that stay used, and the records of the zones made unused vacated (R29, R61). -/
structure Event.Stripped (old new : Plan) (e x : Event) : Prop where
  table : x.calls.Wf
  narrows : e.Narrows x
  removed : Removed e.calls x (fun _ y => new.used y = false) fun r y =>
    (old.used y = true ∧ new.used y = false) ∧ r ∈ (e.zones.get y).holders
  records : ∀ y, x.zones.get y =
    if old.used y = true ∧ new.used y = false then (e.zones.get y).vacated e.calls else e.zones.get y

/-- The removals of R61, then those of R29, strip a sound event. -/
theorem Event.Sound.strips (h : e.Sound fun _ => False) (old new : Plan) :
    Event.Stripped old new e
      (((List.finRange 16).filter fun z => !new.used z).foldl Event.dropTargets
        (((List.finRange 16).filter fun z => old.used z && !new.used z).foldl Event.emptyZone e)) := by
  set made := (List.finRange 16).filter fun z => old.used z && !new.used z with hmade
  set unused := (List.finRange 16).filter fun z => !new.used z with hunused
  have mem_made : ∀ z, z ∈ made ↔ old.used z = true ∧ new.used z = false := fun z => by simp [hmade]
  have mem_unused : ∀ z, z ∈ unused ↔ new.used z = false := fun z => by simp [hunused]
  have live_open : ∀ z l, (e.zones.get z).state.live? = some l →
      ∃ c, e.calls.call? l = some c ∧ ZoneSet.has c.target z = true := by
    intro z l hl
    obtain ⟨s, hs, ht, -⟩ := (h.zone z).live l hl
    obtain ⟨c, hc, rfl⟩ := CallTable.view_eq_some.1 hs
    exact ⟨c, hc, ht⟩
  have start := (Removed.start (x := e) fun r c hc => h.wanted r c hc id).congr
    (gone' := fun q y => y ∈ ([] : List Zone) ∧ q ∈ (e.zones.get y).holders)
    (unheld' := fun q y => y ∈ ([] : List Zone) ∧ q ∈ (e.zones.get y).holders) (by simp) (by simp)
  obtain ⟨emptied, records⟩ := Event.emptyZone_foldl e.zones made ((List.nodup_finRange 16).filter _) live_open (by simp)
    start (fun y => by simp)
  have emptied_table : (made.foldl Event.emptyZone e).calls.Wf :=
    foldl_keeps (P := fun e : Event => e.calls.Wf) (fun _ z he => keptByEvents_table.emptyZone z he) _ h.table
  obtain ⟨removed, same⟩ := Event.dropTargets_foldl unused emptied fun r hr => (emptied_table.listed r).2 hr
  refine ⟨?_, ?_, removed.congr (fun r c y _ _ => ?_) (fun r c y _ _ => ?_), fun y => ?_⟩
  · exact foldl_keeps (P := fun e : Event => e.calls.Wf) (fun _ z he => keptByEvents_table.dropTargets z he) _ emptied_table
  · exact (Event.Narrows.foldl _ Event.narrows_emptyZone _ _).trans (Event.Narrows.foldl _ Event.narrows_dropTargets _ _)
  · simp only [List.not_mem_nil, false_or, mem_unused, mem_made]
    tauto
  · simp only [List.not_mem_nil, false_or, mem_made]
  · rw [same, records]
    simp only [List.not_mem_nil, false_or, mem_made]

namespace Event.Stripped

variable {old new : Plan} {x : Event} (k : Event.Stripped old new e x)
include k

/-- A call that wants no zone that stays used has ended. -/
theorem ended {r : CallRef} {c : Call} (hc : e.calls.call? r = some c)
    (hn : ¬ ∃ z, ZoneSet.has c.target z = true ∧ ¬ new.used z = false) : x.calls.call? r = none :=
  (k.removed.finished r c hc fun z hz => Classical.byContradiction fun hu => hn ⟨z, hz, hu⟩).1

/-- An open call was open before, wants a zone that stays used, and has lost the others. -/
theorem before {r : CallRef} {d : Call} (hd : x.calls.call? r = some d) :
    ∃ c, e.calls.call? r = some c ∧ (∃ z, ZoneSet.has c.target z = true ∧ ¬ new.used z = false) ∧
      ∀ z, (ZoneSet.has d.target z = true ↔ ZoneSet.has c.target z = true ∧ ¬ new.used z = false) ∧
        (ZoneSet.has d.granted z = true → ZoneSet.has c.granted z = true ∧
          ¬ ((old.used z = true ∧ new.used z = false) ∧ r ∈ (e.zones.get z).holders)) ∧
        (ZoneSet.has d.suspended z = true → ZoneSet.has c.suspended z = true ∧
          ¬ ((old.used z = true ∧ new.used z = false) ∧ r ∈ (e.zones.get z).holders)) := by
  obtain ⟨c, hc, -⟩ := k.narrows.calls r d hd
  by_cases hw : ∃ z, ZoneSet.has c.target z = true ∧ ¬ new.used z = false
  · obtain ⟨d', hd', -, sets⟩ := k.removed.kept r c hc hw
    rw [hd] at hd'
    injection hd' with hd'
    subst hd'
    exact ⟨c, hc, hw, fun z => ⟨(sets z).1, (sets z).2.1.1, (sets z).2.2.1⟩⟩
  · have := k.ended hc hw
    rw [hd] at this
    cases this

/-- An unused zone is vacant, if those unused before were. -/
theorem vacant (hold : ∀ z, old.used z = false → (e.zones.get z).Vacant) {y : Zone} (hy : new.used y = false) :
    (x.zones.get y).Vacant := by
  rw [k.records]
  split
  · exact ⟨rfl, rfl⟩
  · rename_i still
    exact hold y (Bool.eq_false_iff.2 fun ho => still ⟨ho, hy⟩)

/-- No call is held at an unused zone (R61). -/
theorem unheld (h : e.Sound fun _ => False) (hold : ∀ z, old.used z = false → (e.zones.get z).Vacant) {y : Zone}
    (hy : new.used y = false) (r : CallRef) (s : Seen) (hs : x.calls.view y r = some s) :
    s.granted = false ∧ s.suspended = false := by
  obtain ⟨d, hd, rfl⟩ := CallTable.view_eq_some.1 hs
  obtain ⟨c, hc, -, sets⟩ := k.before hd
  have hv := CallTable.view_of_open hc y
  -- Where the zone is made unused the call is gone with its record; elsewhere the zone was vacant before.
  have free : (ZoneSet.has c.granted y = true ∨ ZoneSet.has c.suspended y = true) →
      (old.used y = true ∧ new.used y = false) ∧ r ∈ (e.zones.get y).holders := by
    intro held
    have was : old.used y = true := by
      refine Classical.byContradiction fun ho => ?_
      obtain ⟨hg, hp⟩ := (h.zone y).unheld_of_vacant (hold y (Bool.eq_false_iff.2 ho)) r _ hv
      simp only [Call.seenFrom] at hg hp
      rw [hg, hp] at held
      simp at held
    refine ⟨⟨was, hy⟩, ?_⟩
    rw [ZoneRecord.holders, List.mem_append]
    rcases held with hg | hp
    · exact .inl (by rw [((h.zone y).granted r _ hv).1 hg]; simp)
    · exact .inr (((h.zone y).suspended r _ hv).1 hp)
  refine ⟨Bool.eq_false_iff.2 fun hg => ?_, Bool.eq_false_iff.2 fun hp => ?_⟩
  · obtain ⟨was, kept⟩ := (sets y).2.1 hg
    exact kept (free (.inl was))
  · obtain ⟨was, kept⟩ := (sets y).2.2 hp
    exact kept (free (.inr was))

/-- For a zone that stays used, calls have at most dropped out. -/
theorem dropped (h : e.Sound fun _ => False) {y : Zone} (hy : new.used y = true) :
    Dropped (e.calls.view y) (x.calls.view y) := by
  intro r
  cases hc : e.calls.call? r with
  | none =>
    left
    cases hd : x.calls.call? r with
    | none => simp [CallTable.view, hc, hd]
    | some d =>
      obtain ⟨c, hc', -⟩ := k.before hd
      rw [hc] at hc'
      cases hc'
  | some c =>
    have hv := CallTable.view_of_open hc y
    by_cases hw : ∃ z, ZoneSet.has c.target z = true ∧ ¬ new.used z = false
    · left
      obtain ⟨d, hd, he, sets⟩ := k.removed.kept r c hc hw
      obtain ⟨ht, hg, hp⟩ := sets y
      rw [hv, CallTable.view_of_open hd]
      have hcap : d.captured = c.captured := by rw [he]
      simp only [hy, Bool.true_eq_false, and_false, false_and, not_false_eq_true, and_true] at ht hg hp
      simp only [Call.seenFrom, hcap, Bool.eq_iff_iff.2 ht, Bool.eq_iff_iff.2 hg, Bool.eq_iff_iff.2 hp]
    · have unwanted : ¬ (c.seenFrom y).target = true := fun hz => hw ⟨y, hz, by rw [hy]; simp⟩
      refine .inr ⟨_, hv, ?_, ?_, .inl (by simp [CallTable.view, k.ended hc hw])⟩
      · exact Bool.eq_false_iff.2 fun g => unwanted ((h.zone y).wants_of_held hv (.inl g))
      · exact Bool.eq_false_iff.2 fun g => unwanted ((h.zone y).wants_of_held hv (.inr g))

/-- The removals keep every zone's agreement. -/
theorem sound (h : e.Sound fun _ => False) (hold : ∀ z, old.used z = false → (e.zones.get z).Vacant) :
    x.Sound fun _ => False := by
  refine ⟨k.table, fun r d hd _ h0 => ?_, fun y => ?_⟩
  · obtain ⟨c, -, ⟨z, hz, hu⟩, sets⟩ := k.before hd
    have := (sets z).1.2 ⟨hz, hu⟩
    rw [h0, ZoneSet.has_empty] at this
    cases this
  · cases hy : new.used y with
    | true =>
      rw [k.records, if_neg fun hu => by rw [hy] at hu; cases hu.2]
      exact (h.zone y).of_dropped (k.dropped h hy)
    | false => exact (k.vacant hold hy).agrees (k.unheld h hold hy)

end Event.Stripped

/-- The removals and evaluations of a plan switch, on a sound event whose zones that are unused in the old plan are IDLE with
an empty stack, leave a good event under the new plan (R29, R61, R62). -/
theorem Event.Sound.switchPlan (h : e.Sound fun _ => False) (old new : Plan)
    (hold : ∀ z, old.used z = false → (e.zones.get z).Vacant) : (e.switchPlan old new).Good new := by
  have stripped := h.strips old new
  obtain ⟨sound, settled⟩ := (stripped.sound h hold).evaluateAll new ((List.finRange 16).filter new.used)
  refine ⟨sound, settled fun z hz hu => ?_, fun z hu => ?_⟩
  · exact absurd (by simpa using hu) hz
  · unfold Event.switchPlan
    rw [Event.evaluateAll_unused new _ _ z hu]
    exact stripped.vacant hold hu

/-! ### Coherent states -/

/-- Only the call table and the zone records bear on an event being good. -/
theorem Event.Good.of_eq (h : e.Good p) (hc : f.calls = e.calls) (hz : f.zones = e.zones) : f.Good p := by
  refine ⟨h.sound.of_log hc hz, fun z => ?_, fun z => ?_⟩
  · unfold Event.SettledAt; rw [hc, hz]; exact h.settled z
  · rw [hz]; exact h.unused z

/-- A call of a coherent state wants the zones that hold it (R1). -/
theorem State.Coherent.wants (h : s.Coherent) {r : CallRef} {c : Call} (hc : s.calls.call? r = some c) {z : Zone}
    (held : ZoneSet.has c.granted z = true ∨ ZoneSet.has c.suspended z = true) : ZoneSet.has c.target z = true := by
  have hw := congrArg (fun m => ZoneSet.has m z) (h.agree.within r c hc)
  simp only [ZoneSet.has_and, ZoneSet.has_or, ZoneSet.has_not, ZoneSet.has_empty] at hw
  rcases held with k | k <;> simpa [k] using hw

/-- Every zone record of a coherent state agrees with what the zone sees. -/
theorem State.Coherent.matches (h : s.Coherent) (z : Zone) : Matches (s.calls.view z) (s.zones.get z) := by
  have a := h.agree
  refine ⟨fun r sr hr => ?_, fun r sr hr => ?_, fun r hl => ?_, fun r hr => ?_, a.stackSize z, a.stackOnce z,
    fun l sl r sr hl hvl hr hs => ?_⟩
  · obtain ⟨c, hc, rfl⟩ := CallTable.view_eq_some.1 hr
    exact a.granted r c z hc
  · obtain ⟨c, hc, rfl⟩ := CallTable.view_eq_some.1 hr
    exact a.suspended r c z hc
  · obtain ⟨c, hc⟩ := Option.isSome_iff_exists.1 (a.liveOpen z r hl)
    have hg := (a.granted r c z hc).2 hl
    refine ⟨_, CallTable.view_of_open hc z, h.wants hc (.inl hg), Bool.eq_false_iff.2 fun hp => ?_⟩
    have hd := congrArg (fun m => ZoneSet.has m z) (a.disjoint r c hc)
    simp only [ZoneSet.has_and, ZoneSet.has_empty, hg, Bool.true_and] at hd
    rw [show (c.seenFrom z).suspended = ZoneSet.has c.suspended z from rfl, hd] at hp
    cases hp
  · obtain ⟨en, hen, rfl⟩ := List.mem_map.1 hr
    obtain ⟨c, hc⟩ := Option.isSome_iff_exists.1 (a.stackOpen z en hen)
    exact ⟨_, CallTable.view_of_open hc z, h.wants hc (.inr ((a.suspended _ c z hc).2 hr))⟩
  · obtain ⟨cl, hcl, rfl⟩ := CallTable.view_eq_some.1 hvl
    obtain ⟨c, hc, rfl⟩ := CallTable.view_eq_some.1 hr
    obtain ⟨en, hen, rfl⟩ := List.mem_map.1 ((a.suspended r c z hc).1 hs)
    exact h.stackBelow z l en cl c hl hen hcl hc

/-- Every used zone of a coherent state stands as an evaluation leaves it (R50). -/
theorem State.Coherent.settled (h : s.Coherent) (z : Zone) (hu : s.plan.used z = true) :
    Settled (effectiveFloor s.plan s.zones z) (s.calls.view z) (s.zones.get z) := by
  refine ⟨fun hi r sr hr ht => ?_, fun l sl hl hvl => ?_, fun l sl r sr hl hvl hr ht => ?_⟩
  · obtain ⟨c, hc, rfl⟩ := CallTable.view_eq_some.1 hr
    exact h.idleBelow z r c hu hi hc ht
  · obtain ⟨c, hc, rfl⟩ := CallTable.view_eq_some.1 hvl
    exact h.liveEligible z l c hl hc
  · obtain ⟨cl, hcl, rfl⟩ := CallTable.view_eq_some.1 hvl
    obtain ⟨c, hc, rfl⟩ := CallTable.view_eq_some.1 hr
    exact h.liveHighest z l cl r c hl hcl hc ht

/-- An event on a coherent state starts good. -/
theorem State.Coherent.good (h : s.Coherent) : (Event.start s).Good s.plan :=
  ⟨⟨h.calls, fun r c hc _ => h.agree.wanted r c hc, h.matches⟩, h.settled, h.unusedEmpty⟩

/-- A reference that a zone sees names an open call. -/
theorem CallTable.isSome_of_view {t : CallTable} {z : Zone} {r : CallRef} {sr : Seen} (h : t.view z r = some sr) :
    (t.call? r).isSome = true := by
  obtain ⟨c, hc, -⟩ := CallTable.view_eq_some.1 h
  rw [hc]
  rfl

/-- Calls and zone records agree where every zone record matches what its zone sees (R1, R4, R33, R34). -/
theorem Event.Sound.agree (h : e.Sound fun _ => False) : Agree e.calls e.zones := by
  have zone := h.zone
  have see : ∀ {r c}, e.calls.call? r = some c → ∀ z, e.calls.view z r = some (c.seenFrom z) :=
    fun hc z => CallTable.view_of_open hc z
  refine ⟨fun r c z hc => (zone z).granted r _ (see hc z), fun r c z hc => (zone z).suspended r _ (see hc z),
    fun r c hc => ?_, fun r c hc => ?_, fun r c hc => h.wanted r c hc id, fun z r hl => ?_, fun z en hen => ?_,
    fun z => (zone z).size, fun z => (zone z).once⟩
  · refine ZoneSet.ext_has fun z => ?_
    rw [ZoneSet.has_and, ZoneSet.has_empty, Bool.and_eq_false_iff]
    cases hg : ZoneSet.has c.granted z with
    | false => exact .inl rfl
    | true =>
      obtain ⟨sr, hr, -, hp⟩ := (zone z).live r (((zone z).granted r _ (see hc z)).1 hg)
      rw [see hc z] at hr
      injection hr with hr
      rw [← hr] at hp
      exact .inr hp
  · refine ZoneSet.ext_has fun z => ?_
    rw [ZoneSet.has_and, ZoneSet.has_or, ZoneSet.has_not, ZoneSet.has_empty]
    cases ht : ZoneSet.has c.target z with
    | true => simp
    | false =>
      have hn := mt ((zone z).wants_of_held (see hc z)) (by simp [Call.seenFrom, ht])
      simpa [Call.seenFrom] using hn
  · obtain ⟨sr, hr, -⟩ := (zone z).live r hl
    exact CallTable.isSome_of_view hr
  · obtain ⟨sr, hr, -⟩ := (zone z).stacked en.call (List.mem_map_of_mem hen)
    exact CallTable.isSome_of_view hr

/-- A state with its plan store in order on which an event starts good is coherent. -/
theorem State.coherent_of_good (hplans : s.plans.Wf) (h : (Event.start s).Good s.plan) : s.Coherent := by
  have zone : ∀ z, Matches (s.calls.view z) (s.zones.get z) := h.sound.zone
  have settled : ∀ z, s.plan.used z = true →
      Settled (effectiveFloor s.plan s.zones z) (s.calls.view z) (s.zones.get z) := h.settled
  have unused : ∀ z, s.plan.used z = false → (s.zones.get z).Vacant := h.unused
  have see : ∀ {r c}, s.calls.call? r = some c → ∀ z, s.calls.view z r = some (c.seenFrom z) :=
    fun hc z => CallTable.view_of_open hc z
  have used_of_live : ∀ z l, (s.zones.get z).state.live? = some l → s.plan.used z = true := by
    intro z l hl
    refine Classical.byContradiction fun hu => ?_
    rw [(unused z (Bool.eq_false_iff.2 hu)).1] at hl
    cases hl
  refine ⟨hplans, h.sound.table, h.sound.agree, ?_, h.unused, ?_, ?_, ?_, ?_⟩
  · intro z l en cl ce hl hen hcl hce
    exact (zone z).below l _ en.call _ hl (see hcl z) (see hce z)
      (((zone z).suspended _ _ (see hce z)).2 (List.mem_map_of_mem hen))
  · intro z l cl hl hcl
    exact (settled z (used_of_live z l hl)).eligible l _ hl (see hcl z)
  · intro z l cl r c hl hcl hc ht
    exact (settled z (used_of_live z l hl)).highest l _ r _ hl (see hcl z) (see hc z) ht
  · intro z r c hu hi hc ht
    exact (settled z hu).idle hi r _ (see hc z) ht
  · intro z en ce hi hen hce
    cases hu : s.plan.used z with
    | true =>
      have hp := ((zone z).suspended _ _ (see hce z)).2 (List.mem_map_of_mem hen)
      exact (settled z hu).idle hi en.call _ (see hce z) ((zone z).wants_of_held (see hce z) (.inr hp))
    | false =>
      rw [(unused z hu).2] at hen
      cases hen

/-- A state is coherent exactly when its plan store has its conditions and an event on it starts good. -/
theorem State.coherent_iff (s : State) : s.Coherent ↔ s.plans.Wf ∧ (Event.start s).Good s.plan :=
  ⟨fun h => ⟨h.plans, h.good⟩, fun ⟨hplans, h⟩ => State.coherent_of_good hplans h⟩

/-- A state with the plan store, the calls and the zone records of a coherent one is coherent. -/
theorem State.Coherent.of_eq (h : s.Coherent) (hp : t.plans = s.plans) (hc : t.calls = s.calls)
    (hz : t.zones = s.zones) : t.Coherent := by
  obtain ⟨h1, h2⟩ := s.coherent_iff.1 h
  refine t.coherent_iff.2 ⟨by rw [hp]; exact h1, ?_⟩
  rw [show t.plan = s.plan by rw [State.plan, State.plan, hp]]
  exact h2.of_eq hc hz

/-- The completion of a good event is a coherent state (R14, R23). -/
theorem State.complete_coherent (hp : s.plans.Wf) (he : e.Good s.plan) (always : Bool) (others : List Notice) :
    (s.complete always others e).Coherent :=
  (State.coherent_iff _).2 ⟨hp, he.settle.of_eq rfl rfl⟩

/-- An event that leaves the event it starts from good leaves a coherent state coherent. -/
theorem State.Coherent.event (h : s.Coherent) {act : Plan → Event → Event}
    (ha : (Event.start s).Good s.plan → (act s.plan (Event.start s)).Good s.plan) : (s.event act).Coherent :=
  State.complete_coherent h.plans (ha (s.coherent_iff.1 h).2) _ _

/-- Changes of calls and records that no zone sees leave a state coherent. -/
theorem State.Coherent.of_unseen (h : s.Coherent) (hp : t.plans = s.plans) (ht : t.calls.Wf)
    (hc : ∀ r d, t.calls.call? r = some d → ∃ c, s.calls.call? r = some c ∧ d.target = c.target)
    (hv : ∀ y, t.calls.view y = s.calls.view y)
    (hz : ∀ y, (t.zones.get y).state.live? = (s.zones.get y).state.live? ∧
      (t.zones.get y).stack = (s.zones.get y).stack ∧ (t.zones.get y).restriction = (s.zones.get y).restriction) :
    t.Coherent := by
  obtain ⟨h1, h2⟩ := s.coherent_iff.1 h
  refine t.coherent_iff.2 ⟨by rw [hp]; exact h1, ?_⟩
  rw [show t.plan = s.plan by rw [State.plan, State.plan, hp]]
  exact h2.of_unseen ht hc hv hz

/-- A state without calls whose zones are all IDLE with empty stacks is coherent (R31, R32, R66, R67). -/
theorem State.coherent_of_no_calls (hp : t.plans.Wf) (hc : ∀ r, t.calls.call? r = none) (ha : t.calls.admission = [])
    (h1 : t.calls.admitted ≤ 65535) (h2 : t.calls.keyRefused ≤ 65535) (hz : ∀ z, (t.zones.get z).Vacant) :
    t.Coherent := by
  have hv : ∀ z r sr, t.calls.view z r ≠ some sr := fun z r sr k => by simp [CallTable.view, hc r] at k
  refine t.coherent_iff.2 ⟨hp, ⟨⟨by rw [show (Event.start t).calls.admission = [] from ha]; exact List.nodup_nil,
    fun r => ?_, fun r _ c _ k => ?_, h1, h2⟩, fun r c k => ?_, fun z => ?_⟩, fun z _ => ?_, fun z _ => hz z⟩
  · rw [show (Event.start t).calls.admission = [] from ha, show (Event.start t).calls.call? r = none from hc r]
    simp
  · rw [show (Event.start t).calls.call? r = none from hc r] at k; cases k
  · rw [show (Event.start t).calls.call? r = none from hc r] at k; cases k
  · exact (hz z).agrees fun r sr k => absurd k (hv z r sr)
  · exact .of_idle (ZoneState.live?_eq_none.2 (hz z).1) fun r sr k => absurd k (hv z r sr)

end Sys2Proof.Machine
end

section
/-! Every step keeps the agreement of calls, zones and plan store (O60): the plan store's own conditions, the requests, the
events that a boundary makes due, a plan switch taken whole, and what a step can do. -/

namespace Sys2Proof.Machine

variable {p q : PlanStore} {s t : State}

/-! ### The plan store (R108) -/

@[simp] theorem PlanStore.setBank_live (p : PlanStore) (n : BankNo) (b : Bank) : (p.setBank n b).live = p.live := by
  cases n <;> rfl

@[simp] theorem PlanStore.setBank_pending (p : PlanStore) (n : BankNo) (b : Bank) :
    (p.setBank n b).pending = p.pending := by cases n <;> rfl

@[simp] theorem PlanStore.setBank_copied (p : PlanStore) (n : BankNo) (b : Bank) :
    (p.setBank n b).copied = p.copied := by cases n <;> rfl

/-- A bank read after a bank is replaced. -/
theorem PlanStore.bank_setBank (p : PlanStore) (n m : BankNo) (b : Bank) :
    (p.setBank n b).bank m = if m = n then b else p.bank m := by
  cases n <;> cases m <;> rfl

/-- A bank is not the other one. -/
@[simp] theorem BankNo.ne_other (n : BankNo) : n ≠ n.other := by cases n <;> decide

/-- The other bank after it is replaced. -/
@[simp] theorem PlanStore.otherBank_setBank (p : PlanStore) (b : Bank) : (p.setBank p.live.other b).otherBank = b := by
  rw [PlanStore.otherBank, PlanStore.setBank_live, PlanStore.bank_setBank, if_pos rfl]

/-- The live bank after the other one is replaced. -/
@[simp] theorem PlanStore.liveBank_setBank (p : PlanStore) (b : Bank) :
    (p.setBank p.live.other b).bank p.live = p.bank p.live := by
  rw [PlanStore.bank_setBank, if_neg (BankNo.ne_other _)]

/-- What a change of the other bank, of the pending switch and of the copy must satisfy to keep the conditions of R108. -/
structure PlanStore.OtherWf (q : PlanStore) : Prop where
  copying : q.otherBank.state = .copying ↔ q.copied.isSome = true
  progress : ∀ k, q.copied = some k → k ≤ 83
  pendingSealed : q.pending.isSome = true → q.otherBank.state = .sealed
  emptyBlank : q.otherBank.state = .empty → q.otherBank.plan = blankPlan
  sealedPasses : q.otherBank.state = .sealed → sealFailure q.otherBank.plan = none

/-- The conditions of R108 as far as they concern the other bank. -/
theorem PlanStore.Wf.other (h : p.Wf) : p.OtherWf :=
  ⟨h.copying, h.progress, h.pendingSealed, h.emptyBlank _, h.sealedPasses _⟩

/-- A plan store whose live bank is kept has the conditions of R108 if they hold of the rest. -/
theorem PlanStore.Wf.of_other (h : p.Wf) (hl : q.live = p.live) (hb : q.bank p.live = p.bank p.live) (o : q.OtherWf) :
    q.Wf := by
  have each : ∀ n, q.bank n = p.bank p.live ∧ n = p.live ∨ q.bank n = q.otherBank := by
    intro n
    by_cases e : n = p.live
    · subst e; exact .inl ⟨hb, rfl⟩
    · right
      rw [PlanStore.otherBank, hl, ← eq_other_of_ne n p.live e]
  refine ⟨?_, o.copying, o.progress, o.pendingSealed, fun n hn => ?_, fun n hn => ?_⟩
  · rw [hl, hb]; exact h.liveSealed
  · rcases each n with ⟨e, -⟩ | e
    · rw [e, h.liveSealed] at hn; cases hn
    · rw [e] at hn ⊢; exact o.emptyBlank hn
  · rcases each n with ⟨e, -⟩ | e
    · rw [e]; exact h.sealedPasses _ h.liveSealed
    · rw [e] at hn ⊢; exact o.sealedPasses hn

/-- A change of the plan store that keeps the live bank and the conditions of R108 leaves a coherent state coherent. -/
theorem State.Coherent.of_plans (h : s.Coherent) (hl : t.plans.live = s.plans.live)
    (hb : t.plans.bank s.plans.live = s.plans.bank s.plans.live) (o : t.plans.OtherWf) (hc : t.calls = s.calls)
    (hz : t.zones = s.zones) : t.Coherent := by
  obtain ⟨h1, h2⟩ := s.coherent_iff.1 h
  refine t.coherent_iff.2 ⟨h1.of_other hl hb o, ?_⟩
  rw [show t.plan = s.plan by rw [State.plan, State.plan, PlanStore.livePlan, PlanStore.livePlan, hl, hb]]
  exact h2.of_eq hc hz

/-- An entry copied into a bank that is COPYING (R117). -/
theorem PlanStore.copyOne_eq (p : PlanStore) (k : Nat) :
    (p.copyOne k).live = p.live ∧ (p.copyOne k).bank p.live = p.bank p.live ∧
      (p.copyOne k).otherBank.state = p.otherBank.state ∧ (p.copyOne k).pending = p.pending := by
  unfold PlanStore.copyOne
  simp

/-- A copy step keeps the conditions of R108 (R117). -/
theorem PlanStore.Wf.copyStep (h : p.Wf) :
    p.copyStep.live = p.live ∧ p.copyStep.bank p.live = p.bank p.live ∧ p.copyStep.OtherWf := by
  unfold PlanStore.copyStep
  split
  · exact ⟨rfl, rfl, h.other⟩
  · rename_i k hk
    split
    · obtain ⟨h1, h2, h3, h4⟩ := p.copyOne_eq k
      have hs : p.otherBank.state = .copying := h.copying.2 (by rw [hk]; rfl)
      have ho : PlanStore.otherBank { p.copyOne k with copied := some (k + 1) } = (p.copyOne k).otherBank := rfl
      refine ⟨h1, h2, ⟨?_, fun j hj => ?_, fun hp => ?_, fun he => ?_, fun he => ?_⟩⟩
      · rw [ho, h3, hs]; simp
      · simp only [Option.some.injEq] at hj
        omega
      · rw [ho, h3]; exact h.pendingSealed (h4 ▸ hp)
      · rw [ho, h3, hs] at he; cases he
      · rw [ho, h3, hs] at he; cases he
    · exact ⟨rfl, rfl, h.other⟩

/-- The last copy step keeps the conditions of R108 (R117). -/
theorem PlanStore.Wf.copyEnd (h : p.Wf) (hk : p.copied = some 83) :
    p.copyEnd.live = p.live ∧ p.copyEnd.bank p.live = p.bank p.live ∧ p.copyEnd.OtherWf := by
  obtain ⟨h1, h2, -, h4⟩ := p.copyOne_eq 83
  have hs : p.otherBank.state = .copying := h.copying.2 (by rw [hk]; rfl)
  have unpending : p.pending.isSome = false := Bool.eq_false_iff.2 fun k => by
    rw [h.pendingSealed k] at hs; cases hs
  have e : p.copyEnd = { (p.copyOne 83).setBank (p.copyOne 83).live.other
      { (p.copyOne 83).otherBank with state := .opened } with copied := none } := rfl
  have ho : p.copyEnd.otherBank = { (p.copyOne 83).otherBank with state := .opened } := by
    rw [e]; exact PlanStore.otherBank_setBank _ _
  refine ⟨?_, ?_, ⟨?_, fun j hj => ?_, fun hp => ?_, fun he => ?_, fun he => ?_⟩⟩
  · rw [e]; simp [h1]
  · rw [e]
    show ((p.copyOne 83).setBank _ _).bank p.live = _
    rw [← h1, PlanStore.liveBank_setBank, h1, h2]
  · rw [ho, show p.copyEnd.copied = none from rfl]; simp
  · rw [show p.copyEnd.copied = none from rfl] at hj; cases hj
  · rw [show p.copyEnd.pending = p.pending by rw [e]; simp [h4], unpending] at hp; cases hp
  · rw [ho] at he; cases he
  · rw [ho] at he; cases he

/-- A node reset keeps the conditions of R108 (R125). -/
theorem PlanStore.Wf.nodeReset (h : p.Wf) : p.nodeReset.Wf := by
  unfold PlanStore.nodeReset
  split
  · rename_i hk
    have hs : p.otherBank.state ≠ .copying := fun k => by
      have := h.copying.1 k
      rw [hk] at this
      cases this
    exact h.of_other (q := { p with pending := none, copied := none }) rfl rfl
      ⟨by simp only [Option.isSome_none, Bool.false_eq_true, iff_false]; exact hs, by simp, by simp, h.emptyBlank _,
        h.sealedPasses _⟩
  · have ho : PlanStore.otherBank { p.blankOther .empty with pending := none, copied := none } =
        { state := .empty, plan := blankPlan } := PlanStore.otherBank_setBank _ _
    refine h.of_other ?_ ?_ ⟨?_, by simp, by simp, fun _ => ?_, fun k => ?_⟩
    · exact PlanStore.setBank_live _ _ _
    · exact PlanStore.liveBank_setBank _ _
    · rw [ho]; simp
    · rw [ho]
    · rw [ho] at k; cases k

/-- A request that puts the other bank in a state, with no switch pending and no copy running afterwards. -/
theorem PlanStore.Wf.setOther (h : p.Wf) (b : Bank) (hc : p.otherBank.state ≠ .copying)
    (hb : b.state ≠ .copying) (hp : p.pending.isSome = true → b.state = .sealed)
    (he : b.state = .empty → b.plan = blankPlan) (hs : b.state = .sealed → sealFailure b.plan = none) :
    (p.setBank p.live.other b).OtherWf := by
  have hk : p.copied.isSome = false := Bool.eq_false_iff.2 fun k => hc (h.copying.2 k)
  refine ⟨?_, fun k hk' => ?_, ?_, ?_, ?_⟩
  · rw [PlanStore.otherBank_setBank, PlanStore.setBank_copied, hk]; simpa using hb
  · rw [PlanStore.setBank_copied] at hk'; rw [hk'] at hk; cases hk
  · rw [PlanStore.setBank_pending, PlanStore.otherBank_setBank]; exact hp
  · rw [PlanStore.otherBank_setBank]; exact he
  · rw [PlanStore.otherBank_setBank]; exact hs

/-! ### Requests of the plan store (R110 to R118) -/

/-- A request that puts the other bank in a state leaves a coherent state coherent. -/
theorem State.Coherent.setOther (h : s.Coherent) (b : Bank) (o : (s.plans.setBank s.plans.live.other b).OtherWf) :
    (s.withPlans (s.plans.setBank s.plans.live.other b)).Coherent :=
  h.of_plans (PlanStore.setBank_live _ _ _) (PlanStore.liveBank_setBank _ _) o rfl rfl

/-- A sealed other bank is needed for a pending switch (R118). -/
theorem PlanStore.Wf.not_pending (h : p.Wf) {st : BankState} (hs : p.otherBank.state = st) (hn : st ≠ .sealed) :
    ¬ p.pending.isSome = true := fun k => hn (hs.symm.trans (h.pendingSealed k))

/-- PLAN_WRITE (R110). -/
theorem State.Coherent.writePlan (h : s.Coherent) (bank : BankNo) (entry : EntryName) (words : List Word) :
    (writePlan bank entry words s).1.Coherent := by
  unfold Machine.writePlan
  by_cases hb : bank = s.plans.live
  · rw [if_pos hb]; exact h
  · rw [if_neg hb]
    have ho := eq_other_of_ne _ _ hb
    have written : ∀ st, s.plans.otherBank.state = st → st ≠ .copying → st ≠ .sealed →
        (s.withPlans (s.plans.setBank bank
          { state := .opened, plan := (s.plans.bank bank).plan.writeEntry words entry })).Coherent := by
      intro st hs h1 h2
      subst ho
      exact h.setOther _ (h.plans.setOther _ (hs ▸ h1) (by simp) (fun k => absurd k (h.plans.not_pending hs h2))
        (by simp) (by simp))
    split
    · exact h
    · exact h
    · rename_i hs
      exact written _ (ho ▸ hs) (by decide) (by decide)
    · rename_i hs
      exact written _ (ho ▸ hs) (by decide) (by decide)

/-- PLAN_ERASE (R112). -/
theorem State.Coherent.erasePlan (h : s.Coherent) (bank : BankNo) : (erasePlan bank s).1.Coherent := by
  unfold Machine.erasePlan
  split
  · exact h
  · rename_i hb
    have ho := eq_other_of_ne _ _ hb
    split
    · exact h
    · rename_i hs
      split
      · exact h
      · rename_i hp
        subst ho
        exact h.setOther _ (h.plans.setOther _ hs (by simp) (fun k => absurd k hp) (fun _ => rfl) (by simp))

/-- PLAN_SEAL (R113). -/
theorem State.Coherent.sealPlan (h : s.Coherent) (bank : BankNo) : (sealPlan bank s).1.Coherent := by
  unfold Machine.sealPlan
  split
  · exact h
  · exact h
  · exact h
  · rename_i hs
    split
    · exact h
    · rename_i hf
      have hb : bank ≠ s.plans.live := by
        rintro rfl
        rw [h.plans.liveSealed] at hs; cases hs
      have ho := eq_other_of_ne _ _ hb
      subst ho
      exact h.setOther _ (h.plans.setOther _ (fun k => by
        rw [show s.plans.otherBank.state = .opened from hs] at k; cases k)
        (by simp) (fun _ => rfl) (by simp) (fun _ => hf))

/-- PLAN_UNSEAL (R115). -/
theorem State.Coherent.unsealPlan (h : s.Coherent) (bank : BankNo) : (unsealPlan bank s).1.Coherent := by
  unfold Machine.unsealPlan
  split
  · exact h
  · rename_i hb
    have ho := eq_other_of_ne _ _ hb
    split
    · exact h
    · rename_i hp
      split
      · rename_i hs
        subst ho
        exact h.setOther _ (h.plans.setOther _ (fun k => by
          rw [show s.plans.otherBank.state = .sealed from hs] at k; cases k)
          (by simp) (fun k => absurd k hp) (by simp) (by simp))
      · exact h

/-- PLAN_COPY (R116). -/
theorem State.Coherent.copyPlan (h : s.Coherent) : (copyPlan s).1.Coherent := by
  have begun : ∀ st, s.plans.otherBank.state = st → st ≠ .sealed → (s.withPlans s.plans.beginCopy).Coherent := by
    intro st hs hn
    have ho : s.plans.beginCopy.otherBank = { state := .copying, plan := blankPlan } := PlanStore.otherBank_setBank _ _
    refine h.of_plans (PlanStore.setBank_live _ _ _) (PlanStore.liveBank_setBank _ _)
      (⟨?_, fun k hk => ?_, fun k => ?_, fun k => ?_, fun k => ?_⟩ : s.plans.beginCopy.OtherWf) rfl rfl
    · rw [ho]; simp [PlanStore.beginCopy]
    · simp only [PlanStore.beginCopy, Option.some.injEq] at hk
      omega
    · rw [show s.plans.beginCopy.pending = s.plans.pending from PlanStore.setBank_pending _ _ _] at k
      exact absurd k (h.plans.not_pending hs hn)
    · rw [ho] at k; cases k
    · rw [ho] at k; cases k
  unfold Machine.copyPlan
  split
  · exact h
  · exact h
  · rename_i hs; exact begun _ hs (by decide)
  · rename_i hs; exact begun _ hs (by decide)

/-- PLAN_SWITCH (R118). -/
theorem State.Coherent.switchPlan (h : s.Coherent) (point : Option (BitVec 16)) :
    (Machine.switchPlan point s).1.Coherent := by
  unfold Machine.switchPlan
  split
  · exact h
  · split
    · exact h
    · split
      · exact h
      · rename_i hs
        split
        · exact h
        · have o := h.plans.other
          exact h.of_plans rfl rfl ⟨o.copying, o.progress, fun _ => Classical.not_not.1 hs, o.emptyBlank, o.sealedPasses⟩
            rfl rfl

/-! ### Requests of the call table and the arbiters -/

/-- CALL_OPEN (R8). -/
theorem State.Coherent.openCall (h : s.Coherent) (cls : Fin 8) (src : Source) (target : ZoneSet) (r : Request) :
    (openCall cls src target r s).1.Coherent := by
  unfold Machine.openCall
  split
  · exact h
  · split
    · exact h
    · split
      · exact h
      · rename_i ht
        split
        · exact h
        · rename_i hs
          split
          · exact h
          · refine State.Coherent.event (act := fun p e => e.openRecord p _ _ _ _ _) h
              fun hg => hg.openRecord _ _ _ _ (fun k => ht ?_) hs
            simp [k]

/-- CALL_RELEASE (R24). -/
theorem State.Coherent.releaseCall (h : s.Coherent) (c : CallRef) : (releaseCall c s).1.Coherent := by
  unfold Machine.releaseCall
  split
  · exact h
  · exact State.Coherent.event (act := fun p e => e.endCall p c .released) h fun hg => hg.endCall c .released

/-- CALL_RETARGET (R26). -/
theorem State.Coherent.retargetCall (h : s.Coherent) (c : CallRef) (add remove : ZoneSet) :
    (retargetCall c add remove s).1.Coherent := by
  unfold Machine.retargetCall
  split
  · exact h
  · split
    · exact h
    · split
      · exact h
      · exact State.Coherent.event (act := fun p e => e.retarget p c add remove) h fun hg => hg.retarget c add remove

/-- CLEAR_CALLS (R27). -/
theorem State.Coherent.clearCalls (h : s.Coherent) (n : Nat) (withKey : Bool) :
    (Machine.clearCalls n withKey s).1.Coherent :=
  State.complete_coherent h.plans ((s.coherent_iff.1 h).2.clear _) _ _

/-- ZONE_RESTRICT (R63). -/
theorem State.Coherent.restrictZones (h : s.Coherent) (m : ZoneSet) (floor : Nat) :
    (restrictZones m floor s).1.Coherent := by
  unfold Machine.restrictZones
  split
  · exact h
  · exact State.Coherent.event (act := fun p e => e.restrict p m floor) h fun hg => hg.restrict m floor

/-- COUNTERS_READ (R161). -/
theorem State.Coherent.clearCounters (h : s.Coherent) : s.clearCounters.Coherent :=
  h.of_unseen rfl ⟨h.calls.once, h.calls.listed, h.calls.oneSource, Nat.zero_le _, Nat.zero_le _⟩
    (fun _ d hd => ⟨d, hd, rfl⟩) (fun _ => rfl) fun _ => ⟨rfl, rfl, rfl⟩

/-- A node reset leaves no call (R32). -/
theorem CallTable.call?_nodeReset (t : CallTable) (r : CallRef) : t.nodeReset.call? r = none := by
  refine CallTable.call?_of_free ?_
  show ((t.records.update fun _ c => c.nodeReset).get r.index).call = none
  rw [Table.get_update]
  unfold CallRecord.nodeReset
  split
  · assumption
  · rfl

/-- A state with the calls and zones that a node reset leaves is coherent (R32, R67, R125). -/
theorem State.Coherent.of_nodeReset (h : s.Coherent) (hp : t.plans = s.plans.nodeReset)
    (hc : t.calls = s.calls.nodeReset) (hz : t.zones = Table.fill resetZone) : t.Coherent := by
  refine State.coherent_of_no_calls ?_ ?_ ?_ ?_ ?_ fun z => ?_
  · rw [hp]; exact h.plans.nodeReset
  · rw [hc]; exact CallTable.call?_nodeReset _
  · rw [hc]; rfl
  · rw [hc]; exact h.calls.admittedBound
  · rw [hc]; exact h.calls.refusedBound
  · rw [hz, Table.get_fill]; exact ⟨rfl, rfl⟩

/-- Every request owner leaves a coherent state coherent. -/
theorem keptByOwners_coherent : KeptByOwners State.Coherent :=
  { opened := fun _ _ _ _ _ h => h.openCall _ _ _ _
    released := fun _ _ h => h.releaseCall _
    retargeted := fun _ _ _ _ h => h.retargetCall _ _ _
    cleared := fun _ _ _ h => h.clearCalls _ _
    restricted := fun _ _ _ _ h => h.restrictZones _ _
    written := fun _ _ _ _ _ h => h.writePlan _ _ _
    erased := fun _ _ h => h.erasePlan _
    sealedBank := fun _ _ h => h.sealPlan _
    unsealed := fun _ _ h => h.unsealPlan _
    copied := fun _ h => h.copyPlan
    switched := fun _ _ h => h.switchPlan _
    acked := fun _ s h => by
      unfold ackNotices
      split
      · exact h
      · exact h.of_eq rfl rfl rfl
    configured := fun _ _ _ _ _ _ h => h.of_eq rfl rfl rfl
    read := fun c s h => by
      unfold readCounters
      cases c
      · exact h
      · exact h.clearCounters
    reset := fun _ h => h.of_nodeReset rfl rfl rfl }

/-! ### Events that a boundary makes due -/

/-- A change of a call that no zone sees (R10, R11, R18). -/
theorem State.Coherent.changeCall (h : s.Coherent) (r : CallRef) (f : Call → Call)
    (hf : ∀ c, (f c).source = c.source ∧ (f c).target = c.target ∧ ∀ z, (f c).seenFrom z = c.seenFrom z) :
    (s.changeCall r f).Coherent := by
  obtain ⟨h1, h2⟩ := s.coherent_iff.1 h
  obtain ⟨hs, hv⟩ := h2.sound.changeCall_unseen r f hf
  refine h.of_unseen rfl hs.table (fun q d hd => ?_) hv fun _ => ⟨rfl, rfl, rfl⟩
  rw [show (s.changeCall r f).calls.call? q = (s.calls.changeCall r f).call? q from rfl,
    CallTable.call?_changeCall] at hd
  split at hd
  · rename_i k
    obtain ⟨c, hc, rfl⟩ := Option.map_eq_some_iff.1 hd
    exact ⟨c, k ▸ hc, (hf c).2.1⟩
  · exact ⟨d, hd, rfl⟩

/-- The key target set of a trunk source with a key class is not empty in a plan that passes the seal check (R114). -/
theorem keyTargets_ne_empty {p : Plan} (h : sealFailure p = none) {k : Trunk} {cls : Fin 8}
    (hk : (p.trunks.get k).keyClass = some cls) : (p.trunks.get k).keyTargets ≠ 0#16 := by
  intro h0
  have h4 : itemFailure 4 0 (sealItem4 p) = none := by
    have := List.findSome?_eq_none_iff.1 h (itemFailure 4 0 (sealItem4 p)) (by simp)
    simpa using this
  have := itemFailure_none_iff.1 h4 k
  simp [sealItem4, hk, h0] at this

/-- QUIET_TO_KEYED_EDGE (R10). -/
theorem State.Coherent.takeKeyUp (h : s.Coherent) (k : Trunk) : (s.takeKeyUp k).Coherent := by
  unfold State.takeKeyUp
  split
  · exact h.changeCall _ _ fun c => ⟨rfl, rfl, fun _ => rfl⟩
  · split
    · exact h
    · rename_i cls hcls
      split
      · exact h
      · rename_i hs
        split
        · exact h
        · unfold State.admitKey
          split
          · exact h.of_unseen rfl
              ⟨h.calls.once, h.calls.listed, h.calls.oneSource, h.calls.admittedBound, Nat.min_le_right _ _⟩
              (fun _ d hd => ⟨d, hd, rfl⟩) (fun _ => rfl) fun _ => ⟨rfl, rfl, rfl⟩
          · exact h.event fun hg => hg.openRecord _ _ _ _
              (keyTargets_ne_empty (h.plans.sealedPasses _ h.plans.liveSealed) hcls) hs

/-- KEYED_TO_QUIET_EDGE (R11). -/
theorem State.Coherent.takeKeyDown (h : s.Coherent) (k : Trunk) : (s.takeKeyDown k).Coherent := by
  unfold State.takeKeyDown
  split
  · exact h
  · split
    · exact h
    · split
      · split
        · exact h.event fun hg => hg.endCall _ .unkeyed
        · exact h.changeCall _ _ fun c => ⟨rfl, rfl, fun _ => rfl⟩
      · exact h

/-- The end of the call of a source, where it has one. -/
theorem Event.endSource_eq (p : Plan) (src : Source) (cause : EndCause) (e : Event) :
    e.endSource p src cause = e ∨ ∃ r, e.endSource p src cause = e.endCall p r cause := by
  unfold Event.endSource
  split
  · exact .inl rfl
  · exact .inr ⟨_, rfl⟩

/-- SOURCE_LOSS (R21). -/
theorem State.Coherent.takeLoss (h : s.Coherent) (src : Source) : (s.takeLoss src).Coherent := by
  refine h.event fun hg => ?_
  rcases Event.endSource_eq s.plan src .sourceLost (Event.start s) with e | ⟨r, e⟩
  · rw [e]; exact hg
  · rw [e]; exact hg.endCall r .sourceLost

/-- WAIT_EXPIRY, HOLD_EXPIRY and DURATION_EXPIRY (R17, R18, R19). -/
theorem State.Coherent.takeDeadline (h : s.Coherent) (r : CallRef) (d : Call → Option Nat) (cause : EndCause) :
    (s.takeDeadline r d cause).Coherent := by
  unfold State.takeDeadline
  split
  · exact h
  · split
    · exact h.event fun hg => hg.endCall r cause
    · exact h

/-- LEAD_IN_EXPIRY (R54). -/
theorem State.Coherent.takeLeadInEnd (h : s.Coherent) (z : Zone) : (s.takeLeadInEnd z).Coherent := by
  unfold State.takeLeadInEnd
  split
  · exact h
  · exact h
  · rename_i r n hz
    split
    · exact h.event fun hg => hg.leadInExpires z (by
        rw [show (Event.start s).zones = s.zones from rfl, hz]; rfl)
    · exact h

/-- COPY_DONE (R117). -/
theorem State.Coherent.takeCopyEnd (h : s.Coherent) : s.takeCopyEnd.Coherent := by
  unfold State.takeCopyEnd
  split
  · rename_i hk
    obtain ⟨h1, h2, h3⟩ := h.plans.copyEnd hk
    exact h.of_plans h1 h2 h3 rfl rfl
  · exact h

/-- An entry to SEARCH (R176): a pending switch may go. -/
theorem State.Coherent.enterSearch (h : s.Coherent) : s.enterSearch.Coherent := by
  unfold State.enterSearch State.abandonPointed
  have o := h.plans.other
  split
  · exact h.of_plans rfl rfl ⟨o.copying, o.progress, (fun k => nomatch k), o.emptyBlank, o.sealedPasses⟩ rfl rfl
  · exact h.of_eq rfl rfl rfl
  · exact h.of_eq rfl rfl rfl

/-- A boundary's counts change nothing that a zone sees (R16, R54). -/
theorem CallTable.call?_tick (t : CallTable) (r : CallRef) : t.tick.call? r = (t.call? r).map Call.tick := by
  unfold CallTable.call? CallTable.tick
  simp only [Table.get_update]
  split <;> rfl

/-- What a boundary counts leaves the call table's conditions (R16). -/
theorem CallTable.Wf.tick {t : CallTable} (h : t.Wf) : t.tick.Wf := by
  refine ⟨h.once, fun r => ?_, fun r r' c c' hr hr' hs => ?_, h.admittedBound, h.refusedBound⟩
  · rw [CallTable.call?_tick, Option.isSome_map]; exact h.listed r
  · rw [CallTable.call?_tick] at hr hr'
    obtain ⟨d, hd, rfl⟩ := Option.map_eq_some_iff.1 hr
    obtain ⟨d', hd', rfl⟩ := Option.map_eq_some_iff.1 hr'
    exact h.oneSource r r' d d' hd hd' hs

/-- The opening of a boundary (R16, R54). -/
theorem State.Coherent.openBoundary (h : s.Coherent) (frame : Frame) (usable : Bool) (entered : List Task) :
    (s.openBoundary frame usable entered).Coherent := by
  refine h.of_unseen rfl h.calls.tick (fun r d hd => ?_) (fun z => ?_) fun z => ?_
  · rw [show (s.openBoundary frame usable entered).calls = s.calls.tick from rfl, CallTable.call?_tick] at hd
    obtain ⟨c, hc, rfl⟩ := Option.map_eq_some_iff.1 hd
    exact ⟨c, hc, rfl⟩
  · funext r
    show (s.calls.tick.call? r).map _ = _
    rw [CallTable.call?_tick, Option.map_map]
    rfl
  · show ((s.zones.update fun _ z => z.tick).get z).state.live? = _ ∧ _ = _ ∧ _ = _
    rw [show (s.openBoundary frame usable entered).zones = s.zones.update fun _ z => z.tick from rfl, Table.get_update]
    unfold ZoneRecord.tick
    split
    · rename_i k; rw [k]; exact ⟨rfl, rfl, rfl⟩
    · exact ⟨rfl, rfl, rfl⟩
    · exact ⟨rfl, rfl, rfl⟩

/-! ### A plan switch, taken whole (R29, R61, R62, R97, R121) -/

/-- Between the switch of the banks and its work on calls and zones: calls and zones agree, and the zones that were unused
in the old plan are IDLE with an empty stack, but the zones do not yet stand as the new plan has them. -/
structure State.MidSwitch (old : Plan) (s : State) : Prop where
  plans : s.plans.Wf
  sound : (Event.start s).Sound fun _ => False
  vacant : ∀ z, old.used z = false → (s.zones.get z).Vacant

/-- The switch of the banks keeps the conditions of R108: a pending switch has a sealed target (R121). -/
theorem PlanStore.Wf.switched (h : p.Wf) (hp : p.pending.isSome = true) :
    PlanStore.Wf { p with live := p.live.other, pending := none } := by
  have hs := h.pendingSealed hp
  have hk : p.copied.isSome = false := Bool.eq_false_iff.2 fun k => by
    rw [h.copying.2 k] at hs; cases hs
  have ho : PlanStore.otherBank { p with live := p.live.other, pending := none } = p.bank p.live := by
    show p.bank p.live.other.other = _
    cases p.live <;> rfl
  refine ⟨hs, ?_, h.progress, fun k => (nomatch k), h.emptyBlank, h.sealedPasses⟩
  rw [ho, h.liveSealed]
  simpa using hk

/-- The switch of the banks (R121). -/
theorem State.Coherent.switchBanks (h : s.Coherent) (hp : s.plans.pending.isSome = true) :
    s.switchBanks.MidSwitch s.plan :=
  ⟨h.plans.switched hp, (s.coherent_iff.1 h).2.sound.of_log rfl rfl, h.unusedEmpty⟩

/-- A loss of a generator taken before the switch's work on calls and zones (R97). -/
theorem State.MidSwitch.takeLoss {old : Plan} (h : s.MidSwitch old) (src : Source) :
    (s.takeLoss src).MidSwitch old := by
  have act : ((Event.start s).endSource s.plan src .sourceLost).Sound (fun _ => False) ∧
      ∀ z, old.used z = false → (((Event.start s).endSource s.plan src .sourceLost).zones.get z).Vacant := by
    rcases Event.endSource_eq s.plan src .sourceLost (Event.start s) with e | ⟨r, e⟩
    · rw [e]; exact ⟨h.sound, h.vacant⟩
    · rw [e]
      obtain ⟨h1, h2, -⟩ := h.sound.endCall s.plan r .sourceLost
      exact ⟨h1, fun z hz => h2 z (h.vacant z hz)⟩
  refine ⟨h.plans, act.1.settle.1.of_log rfl rfl, fun z hz => ?_⟩
  rw [show (s.takeLoss src).zones = ((Event.start s).endSource s.plan src .sourceLost).settle.zones from rfl,
    Event.settle_zones]
  exact act.2 z hz

/-- The switch in the call table and the arbiters (R29, R61, R62). -/
theorem State.MidSwitch.switchCalls {old : Plan} (h : s.MidSwitch old) : (s.switchCalls old).Coherent :=
  State.complete_coherent h.plans (h.sound.switchPlan old s.plan h.vacant) _ _

/-- A plan switch taken whole leaves a coherent state coherent (R121). -/
theorem State.Coherent.takeSwitch (h : s.Coherent) (lost : List Tone) : (s.takeSwitch lost).Coherent := by
  unfold State.takeSwitch
  split
  · exact h
  · rename_i hp
    refine State.MidSwitch.switchCalls ?_
    refine foldl_keeps (P := State.MidSwitch s.plan) (fun b g hb => ?_) lost (h.switchBanks (by rw [hp]; rfl))
    unfold State.ifDue
    split
    · exact State.MidSwitch.takeLoss (s := { b with due := b.due.erase (.loss (toneSource g)) })
        ⟨hb.plans, hb.sound.of_log rfl rfl, hb.vacant⟩ (toneSource g)
    · exact hb

/-! ### What a step can do, with a plan switch taken whole -/

/-- A property of states that every operation keeps, where a plan switch counts as one operation: between the switch of the
banks and its work on calls and zones the property need not hold. -/
structure KeptWhole (P : State → Prop) : Prop where
  due : ∀ s d, P s → P { s with due := d }
  resets : ∀ s straps, P s → P { State.afterReset straps with pending := s.pending }
  asserts : ∀ s, P s → P s.assertReset
  finds : ∀ s place w, P s → P { s with receiver := s.receiver.findSync place w }
  judges : ∀ s present n, P s → P { s with receiver := (s.receiver.judge present n).receiver }
  opens : ∀ s f u e, P s → P (s.openBoundary f u e)
  effects : ∀ t s, P s → P (State.effect t s)
  switches : ∀ s lost, P s → P (s.takeSwitch lost)
  begins : ∀ s, P s → P s.beginReply
  notices : ∀ s held, P s → P (s.beginNotice held)
  requests : ∀ s isKind kind, P s → P (s.takeRequest isKind (ownerOf kind))

namespace KeptWhole

variable {P : State → Prop} (k : KeptWhole P)
include k

/-- Taking a task. -/
theorem perform (t : Task) {s : State} (hs : P s) : P (s.perform t) := by
  unfold State.perform State.ifDue
  split
  · exact k.effects t _ (k.due _ _ hs)
  · exact hs

/-- Taking some tasks. -/
theorem performAll (ts : List Task) {s : State} (hs : P s) : P (s.performAll ts) :=
  foldl_keeps (fun _ t h => k.perform t h) ts hs

/-- The processor's own try. -/
theorem takeOldest {s : State} (hs : P s) : P s.takeOldest := by
  obtain ⟨kind, e⟩ := takeOldest_eq s
  rw [e]
  exact k.requests _ _ _ hs

/-- A move of a boundary's order. -/
theorem makeMove (m : Move) {s : State} (hs : P s) : P (s.makeMove m) := by
  cases m with
  | perform t => exact k.perform t hs
  | switchAfterLosses lost =>
    show P (s.ifDue .switchTake fun s => s.takeSwitch lost)
    unfold State.ifDue
    split
    · exact k.switches _ lost (k.due _ _ hs)
    · exact hs
  | request => exact k.takeOldest hs

/-- What happens at the latest before a boundary. -/
theorem settleBoundary {s : State} (hs : P s) : P s.settleBoundary := by
  have run : ∀ n s, P s → P (State.processRequests n s) := by
    intro n
    induction n with
    | zero => exact fun _ h => h
    | succ n ih => exact fun _ h => ih _ (k.takeOldest h)
  exact run _ _ (k.performAll _ (k.performAll _ hs))

/-- A boundary. -/
theorem boundary (f : Frame) (u : Bool) (e : List Task) (order : List Move) {s : State} (hs : P s) :
    P (s.boundary f u e order) :=
  k.performAll _ (foldl_keeps (fun _ m h => k.makeMove m h) order (k.opens s f u e hs))

/-- A free-run boundary. -/
theorem takeFreeRun (order : List Move) {s : State} (hs : P s) : P (s.takeFreeRun order) := by
  unfold State.takeFreeRun
  split
  · exact k.boundary _ _ _ _ (k.settleBoundary hs)
  · exact hs

/-- The judgement of a frame. -/
theorem takeFrame (bits : BitVec 2152) (order : List Move) {s : State} (hs : P s) : P (s.takeFrame bits order) := by
  unfold State.takeFrame
  dsimp only
  split
  · exact k.boundary _ _ _ _ (k.judges _ _ _ (k.settleBoundary hs))
  · exact k.performAll _ (k.due { s with receiver := _ } _ (k.judges _ _ _ hs))

/-- A command that takes a task. -/
theorem performing (t : Task) {s s' : State} (hs : P s) (h : s.running (State.perform t) = .next s') : P s' :=
  running_keeps (k.perform t) hs h

/-- A command that takes a request. -/
theorem requesting (isKind : BitVec 8 → Bool) (kind : BitVec 8) {s s' : State} (hs : P s)
    (h : (s.running fun s => s.takeRequest isKind (ownerOf kind)) = .next s') : P s' :=
  running_keeps (f := fun s => s.takeRequest isKind (ownerOf kind)) (k.requests s isKind kind) hs h

/-- What every operation keeps, every command keeps. -/
theorem exec (c : Instr) {s s' : State} (hs : P s) (h : exec c s = .next s') : P s' := by
  cases c with
  | hardwareReset straps => injection h with h; subst h; exact k.resets s straps hs
  | resetAsserted => injection h with h; subst h; exact k.asserts s hs
  | syncFound place w =>
    exact running_keeps (f := fun s => { s with receiver := s.receiver.findSync place w }) (k.finds s place w) hs h
  | frameJudged bits order => exact running_keeps (f := fun s => s.takeFrame bits order) (k.takeFrame bits order) hs h
  | freeRunBoundary order => exact running_keeps (f := fun s => s.takeFreeRun order) (k.takeFreeRun order) hs h
  | presenceConfirmed src =>
    exact running_keeps (f := fun s => (s.perform (.presence src true)).perform (.presence src false))
      (fun h => k.perform _ (k.perform _ h)) hs h
  | switchTaken lost =>
    exact running_keeps (f := fun s => s.makeMove (.switchAfterLosses lost)) (k.makeMove _) hs h
  | replyBegin => exact running_keeps (k.begins s) hs h
  | noticeMessage => exact running_keeps (f := fun s => s.beginNotice true) (k.notices s true) hs h
  | quietToKeyedEdge src => exact k.performing _ hs h
  | keyedToQuietEdge src => exact k.performing _ hs h
  | sourceLoss src => exact k.performing _ hs h
  | waitExpiry r => exact k.performing _ hs h
  | holdExpiry r => exact k.performing _ hs h
  | durationExpiry r => exact k.performing _ hs h
  | leadInExpiry z => exact k.performing _ hs h
  | retryExpiry => exact k.performing _ hs h
  | copyDone => exact k.performing _ hs h
  | fadeCompletion z l => exact k.performing _ hs h
  | chimeStepEnd z => exact k.performing _ hs h
  | toneStepEnd g => exact k.performing _ hs h
  | callOpen => exact k.requesting _ 1#8 hs h
  | callRelease => exact k.requesting _ 2#8 hs h
  | callRetarget => exact k.requesting _ 3#8 hs h
  | clearCalls => exact k.requesting _ 4#8 hs h
  | callRead => exact k.requesting _ 5#8 hs h
  | zoneRestrict => exact k.requesting _ 16#8 hs h
  | zoneProbe => exact k.requesting _ 17#8 hs h
  | zoneRead => exact k.requesting _ 18#8 hs h
  | sourceRead => exact k.requesting _ 24#8 hs h
  | planWrite => exact k.requesting _ 32#8 hs h
  | planRead => exact k.requesting _ 33#8 hs h
  | planErase => exact k.requesting _ 34#8 hs h
  | planSeal => exact k.requesting _ 35#8 hs h
  | planUnseal => exact k.requesting _ 36#8 hs h
  | planCopy => exact k.requesting _ 37#8 hs h
  | planSwitch => exact k.requesting _ 38#8 hs h
  | planStatus => exact k.requesting _ 39#8 hs h
  | noticeAck => exact k.requesting _ 48#8 hs h
  | noticeConfig => exact k.requesting _ 49#8 hs h
  | echo => exact k.requesting _ 64#8 hs h
  | countersRead => exact k.requesting _ 65#8 hs h
  | nodeReset => exact k.requesting _ 66#8 hs h
  | unknownKindRequest => exact k.requesting _ 0#8 hs h

/-- What every operation keeps and the queue does not bear on, every step keeps. -/
theorem step (hq : ∀ s q, P s → P { s with pending := q }) {s s' : State} (hs : P s) (h : step s = .next s') : P s' := by
  unfold Machine.step at h
  split at h
  · injection h with h; subst h; exact hs
  · exact k.exec _ (hq _ _ hs) h

end KeptWhole

/-! ### The statement -/

/-- The reset plan store has the conditions of R108 (R124). -/
theorem resetPlanStore_wf : resetPlanStore.Wf := by
  have passes : sealFailure factoryPlan = none := by decide +kernel
  refine ⟨rfl, by decide, fun k h => (nomatch h), fun h => (nomatch h), fun n h => ?_, fun n h => ?_⟩
  · cases n with
    | b0 => cases h
    | b1 => rfl
  · cases n with
    | b0 => exact passes
    | b1 => cases h

/-- The state a hardware reset leaves is coherent (R31, R66, R124). -/
theorem State.afterReset_coherent (straps : BitVec 6) : (State.afterReset straps).Coherent := by
  refine State.coherent_of_no_calls resetPlanStore_wf (fun r => CallTable.call?_of_free ?_) rfl
    (Nat.zero_le _) (Nat.zero_le _) fun z => ?_
  · show ((Table.fill ⟨0, none⟩ : Table 32 CallRecord).get r.index).call = none
    rw [Table.get_fill]
  · show ((Table.fill resetZone : Table 16 ZoneRecord).get z).Vacant
    rw [Table.get_fill]
    exact ⟨rfl, rfl⟩

/-- The work of every task leaves a coherent state coherent. -/
theorem State.Coherent.effect (h : s.Coherent) (x : Task) : (State.effect x s).Coherent := by
  cases x with
  | linkLocked => exact h.of_eq rfl rfl rfl
  | linkSearch => exact h.enterSearch
  | copyStep =>
    obtain ⟨h1, h2, h3⟩ := h.plans.copyStep
    exact h.of_plans h1 h2 h3 rfl rfl
  | observe => exact h.of_eq rfl rfl rfl
  | ramps => exact h.of_eq rfl rfl rfl
  | control => exact h.of_eq (State.controlStage_plans s) (State.controlStage_calls s) (State.controlStage_zones s)
  | build =>
    have ramped : (s.ifDue .ramps State.rampStage).Coherent := by
      unfold State.ifDue
      split
      · exact h.of_eq rfl rfl rfl
      · exact h
    have controlled : ((s.ifDue .ramps State.rampStage).ifDue .control State.controlStage).Coherent := by
      rw [State.ifDue]
      split
      · exact ramped.of_eq (State.controlStage_plans _) (State.controlStage_calls _) (State.controlStage_zones _)
      · exact ramped
    exact controlled.of_eq rfl rfl rfl
  | presence src keyed => exact h.of_eq rfl rfl rfl
  | keyUp src => exact h.takeKeyUp src
  | keyDown src => exact h.takeKeyDown src
  | loss src => exact h.takeLoss src
  | waitEnd r => exact h.takeDeadline r _ _
  | holdEnd r => exact h.takeDeadline r _ _
  | durationEnd r => exact h.takeDeadline r _ _
  | leadInEnd z => exact h.takeLeadInEnd z
  | retryEnd => exact h.of_eq (State.takeRetryEnd_plans s) (State.takeRetryEnd_calls s) (State.takeRetryEnd_zones s)
  | copyEnd => exact h.takeCopyEnd
  | fadeEnd z l => exact h.of_eq rfl rfl rfl
  | chimeEnd z => exact h.of_eq rfl rfl rfl
  | toneEnd g => exact h.of_eq rfl rfl rfl
  | switchTake => exact h.takeSwitch []

/-- Every operation, a plan switch taken whole, leaves a coherent state coherent. -/
theorem keptWhole_coherent : KeptWhole State.Coherent :=
  { due := fun _ _ h => h.of_eq rfl rfl rfl
    resets := fun _ straps _ => (State.afterReset_coherent straps).of_eq rfl rfl rfl
    asserts := fun _ h => h.of_nodeReset rfl rfl rfl
    finds := fun _ _ _ h => h.of_eq rfl rfl rfl
    judges := fun _ _ _ h => h.of_eq rfl rfl rfl
    opens := fun _ f u e h => h.openBoundary f u e
    effects := fun t _ h => h.effect t
    switches := fun _ lost h => h.takeSwitch lost
    begins := fun s h => h.of_eq (State.beginReply_plans s) (State.beginReply_calls s) (State.beginReply_zones s)
    notices := fun s held h =>
      h.of_eq (State.beginNotice_plans s held) (State.beginNotice_calls s held) (State.beginNotice_zones s held)
    requests := requests_of_owners keptByOwners_coherent (fun _ _ _ _ h => h.of_eq rfl rfl rfl)
      (fun _ _ _ _ _ _ _ h => h.of_eq rfl rfl rfl) fun _ _ _ h => h.of_eq rfl rfl rfl }

/-- Settles O60: every operation keeps call table, zone records and plan store in agreement and every used zone as an
evaluation leaves it; an event is followed zone by zone, through what the zone sees of the calls, and a plan switch counts
as one operation, since between its banks and its zones only the agreement holds. -/
theorem stepKeepsCallsAndZones : Obligations.StepKeepsCallsAndZones := by
  intro s t hs h
  exact keptWhole_coherent.step (fun _ _ h => h.of_eq rfl rfl rfl) hs h

end Sys2Proof.Machine
end

section
/-! Grants, admissions and ends: what each leaves of the call table (R7, R12, R22), and the state after a hardware reset
(R31). -/

namespace Sys2Proof.Machine

/-- Settles O48: a grant is a change of the winner's record by the first-grant actions. -/
theorem firstGrantActions : Obligations.FirstGrantActions := by
  intro e r c hc
  refine ⟨c.firstGrant, ?_, fun h => ?_, fun h => ?_⟩
  · exact (Event.call?_changeCall e r r Call.firstGrant).trans (by rw [if_pos rfl, hc]; rfl)
  · simp [Call.firstGrant, h, framesOfMs]
  · simp [Call.firstGrant, h]

/-- Settles O49: the event that an admission evaluates is the old one with one record filled. -/
theorem admissionFillsRecord : Obligations.AdmissionFillsRecord := by
  intro p o cls d src target e i hfree hlow
  refine ⟨_, Event.openRecord_of_free p o cls d src target (CallTable.freeIndex?_eq_some.2 ⟨hfree, hlow⟩),
    fun j hj => ?_, ?_, rfl, rfl, rfl⟩
  · exact Table.get_set_other _ _ (Ne.symm hj)
  · exact Table.get_set_same _ _ _

/-! ### The end of a call (R22) -/

/-- A zone set without a set that holds it is empty. -/
theorem ZoneSet.without_of_subset {g m : ZoneSet} (h : ∀ z, ZoneSet.has g z = true → ZoneSet.has m z = true) :
    g &&& ~~~ m = 0#16 := by
  refine ZoneSet.ext_has fun z => ?_
  rw [ZoneSet.has_and, ZoneSet.has_not, ZoneSet.has_empty]
  cases hg : ZoneSet.has g z with
  | false => rfl
  | true => rw [h z hg]; rfl

/-- The end of an open call: the withdrawals lead to an event in which the call holds and wants nothing, the evaluations of
the zones it held leave it so, and then its record is freed (R22). -/
theorem Event.endCall_of_open (p : Plan) {r : CallRef} (cause : EndCause) {e : Event} {c : Call}
    (hc : e.calls.call? r = some c) :
    let held := c.granted ||| c.suspended
    ∃ x : Event,
      x = { e with calls := x.calls, zones := x.zones } ∧ x.calls.admission = e.calls.admission ∧
      x.calls.call? r = some { c with target := 0#16, granted := 0#16, suspended := 0#16 } ∧
      (∀ q, q ≠ r → x.calls.call? q = e.calls.call? q) ∧
      (∀ z, x.zones.get z = if ZoneSet.has held z = true then (e.zones.get z).without r c.source else e.zones.get z) ∧
      let y := x.evaluateAll p (ZoneSet.zones held)
      y.calls.call? r = some { c with target := 0#16, granted := 0#16, suspended := 0#16 } ∧
        e.endCall p r cause = { y with calls := y.calls.free r, ended := y.ended ++ [(r, cause)] } := by
  intro held
  obtain ⟨frame, listed, ended, others, zones⟩ := Event.retarget_withdraws e r c hc 0#16 held
  have hg : c.granted &&& ~~~ held = 0#16 :=
    ZoneSet.without_of_subset fun z hz => by rw [ZoneSet.has_or, hz, Bool.true_or]
  have hs : c.suspended &&& ~~~ held = 0#16 :=
    ZoneSet.without_of_subset fun z hz => by rw [ZoneSet.has_or, hz, Bool.or_true]
  rw [hg, hs] at ended
  have still := (Event.evaluateAll_frame p (ZoneSet.zones held) _).2.2 r _ ended rfl fun z hz => by
    rw [zones z, if_pos ((ZoneSet.mem_zones _ _).1 hz)]
    exact ZoneRecord.without_gone (e.zones.get z) r c.source
  refine ⟨_, frame, listed, ended, others, zones, still, ?_⟩
  simp only [Event.endCall, hc, Event.finishCall]
  rw [still]

/-- The end of an open call leaves its record FREE at the next generation (R22). -/
theorem Event.endCall_record (p : Plan) {r : CallRef} (cause : EndCause) {e : Event} {c : Call}
    (hc : e.calls.call? r = some c) : (e.endCall p r cause).calls.records.get r.index = ⟨r.gen + 1, none⟩ := by
  obtain ⟨x, -, -, -, -, -, still, done⟩ := Event.endCall_of_open p cause hc
  rw [done]
  exact (CallTable.free_of_open still).1

/-- Settles O50: what the withdrawals, the evaluations and the freeing of the record do, put together. -/
theorem endFreesRecord : Obligations.EndFreesRecord := by
  intro p r cause e c hc held t
  obtain ⟨x, frame, listed, gone, others, zones, still, done⟩ := Event.endCall_of_open p cause hc
  refine ⟨Event.endCall_record p cause hc, fun once => ?_, ?_, Event.endCall_restriction p r cause e, fun z hz => ?_,
    x, frame, listed, gone, others, zones, done⟩
  · have nodup := keptByEvents_listedOnce.evaluateAll p (ZoneSet.zones held) (e := x) (by rw [listed]; exact once)
    show r ∉ (e.endCall p r cause).calls.admission
    rw [done, (CallTable.free_of_open still).2]
    exact nodup.not_mem_erase
  · show (r, cause) ∈ (e.endCall p r cause).ended
    rw [done]
    simp
  · show (e.endCall p r cause).zones.get z = e.zones.get z
    rw [done]
    have outside : z ∉ ZoneSet.zones held := by rw [ZoneSet.mem_zones, hz]; exact Bool.false_ne_true
    refine ((Event.evaluateAll_frame p _ x).1 z outside).trans ?_
    rw [zones z, if_neg (by rw [hz]; exact Bool.false_ne_true)]

/-! ### Resets (R31) -/

/-- Settles O3: every record of the reset table is FREE at generation 0, so the first admission goes to record 0. -/
theorem hardwareResetFreesCalls : Obligations.HardwareResetFreesCalls := by
  refine ⟨fun straps s => ⟨_, rfl, fun i => Table.get_fill _ i, rfl, rfl, rfl⟩, ?_⟩
  intro p o cls d src target e free
  have first : e.calls.freeIndex? = some 0 :=
    CallTable.freeIndex?_eq_some.2 ⟨by rw [free], fun j hj => absurd hj (Fin.not_lt_zero j)⟩
  rw [Event.openRecord_of_free p o cls d src target first]
  refine (keptByEvents_admitted (e.admitted ++ [⟨0, 0⟩])).evaluateAll p _ ?_
  show e.admitted ++ [⟨0, (e.calls.records.get 0).gen⟩] = _
  rw [free]

/-- Every defined class of the factory plan is in range (R107). -/
theorem factoryPlan_classes_inRange (i : Fin 8) (d : ClassDef) (h : factoryPlan.classes.get i = some d) : d.InRange := by
  have defined : ∀ i, factoryPlan.classes.get i ∈ [none, some factoryClass0, some factoryClass6, some factoryClass7] := by
    decide
  have known := defined i
  rw [h] at known
  simp only [List.mem_cons, reduceCtorEq, false_or, Option.some.injEq, List.not_mem_nil, or_false] at known
  unfold ClassDef.InRange
  rcases known with rfl | rfl | rfl <;> decide

/-- Every defined pattern of the factory plan is in range (R107). -/
theorem factoryPlan_patterns_inRange (i : Fin 8) (q : Pattern) (h : factoryPlan.patterns.get i = some q) : q.InRange := by
  have defined : ∀ i, factoryPlan.patterns.get i ∈
      [none, some factoryPattern0, some factoryPattern1, some factoryPattern2] := by
    decide
  have known := defined i
  rw [h] at known
  simp only [List.mem_cons, reduceCtorEq, false_or, Option.some.injEq, List.not_mem_nil, or_false] at known
  unfold Pattern.InRange PatternStep.InRange
  rcases known with rfl | rfl | rfl <;> decide

/-- Both plans that a reset loads have every field in its range (R107, R124). -/
theorem resetPlanStore_inRange : resetPlanStore.InRange := by
  intro n
  cases n with
  | b0 =>
    refine ⟨factoryPlan_classes_inRange, fun z => ?_, factoryPlan_patterns_inRange⟩
    show ((Table.tabulate factoryZone).get z).InRange
    rw [Table.get_tabulate]
    simp [ZoneEntry.InRange, factoryZone]
  | b1 =>
    refine ⟨fun i d h => ?_, fun z => ?_, fun i q h => ?_⟩
    · exact absurd ((Table.get_fill none i).symm.trans h) (by simp)
    · show ((Table.fill blankZone).get z).InRange
      rw [Table.get_fill]
      simp [ZoneEntry.InRange, blankZone]
    · exact absurd ((Table.get_fill none i).symm.trans h) (by simp)

/-- Settles O55: the reset state block by block; calls and zones are those of `State.afterReset_coherent`. -/
theorem invariantsHoldAtReset : Obligations.InvariantsHoldAtReset := by
  refine ⟨State.afterReset_coherent _, resetPlanStore_inRange, fun z => ?mixers, ?notices, ?messages, ?receiver,
    fun k => ?trunks⟩
  case mixers =>
    show ((Table.fill resetMixer : Table 16 Mixer).get z).Wf
    rw [Table.get_fill]
    exact ⟨⟨by decide, by decide, by decide⟩, ⟨by decide, by decide, by decide⟩, by decide⟩
  case notices => exact ⟨by decide, by decide, by decide, by decide, by decide, fun h => nomatch h⟩
  case messages =>
    exact ⟨by decide, by decide, by decide, by decide, by decide, by decide, by decide, by decide,
      fun k e h => by cases k <;> cases h⟩
  case receiver => exact ⟨by decide, fun k h => (nomatch h), fun m h => (nomatch h), by decide, by decide, by decide⟩
  case trunks =>
    show ((Table.fill resetTrunk : Table 48 TrunkRecord).get k).Wf
    rw [Table.get_fill]
    exact ⟨by decide, by decide, by decide, by decide, by decide, by decide, by decide⟩

end Sys2Proof.Machine
end

section
/-! The key edges, the losses and the expiries that a boundary makes due (R10, R11, R17 to R19, R21). -/

namespace Sys2Proof.Machine

/-- Changing an open call outside any zone work rewrites its record. -/
theorem State.changeCall_of_open {s : State} {r : CallRef} {c : Call} (hc : s.calls.call? r = some c) (f : Call → Call) :
    s.changeCall r f =
      { s with calls := { s.calls with records := s.calls.records.set r.index ⟨r.gen, some (f c)⟩ } } := by
  simp [State.changeCall, CallTable.changeCall, hc]

/-- What the first case of R10 finds when the source has a call: the call itself, if it is a KEY call in its hold. -/
theorem CallTable.heldCall?_of_call {t : CallTable} {src : Source} {r : CallRef} {c : Call}
    (hr : t.ofSource? src = some r) (hc : t.call? r = some c) :
    t.heldCall? src = if c.origin = .key ∧ c.hold.isSome = true then some r else none := by
  simp [CallTable.heldCall?, hr, hc]

/-- A source without a call has no held call. -/
theorem CallTable.heldCall?_of_none {t : CallTable} {src : Source} (hr : t.ofSource? src = none) :
    t.heldCall? src = none := by
  simp [CallTable.heldCall?, hr]

/-! ### QUIET to KEYED (R10) -/

/-- R10, first case: a held KEY call loses its hold deadline. -/
theorem State.takeKeyUp_of_held {s : State} {k : Trunk} {r : CallRef} {c : Call}
    (hr : s.calls.ofSource? (trunkSource k) = some r) (hc : s.calls.call? r = some c) (ho : c.origin = .key)
    (hh : c.hold.isSome = true) :
    s.takeKeyUp k =
      { s with calls := { s.calls with records := s.calls.records.set r.index ⟨r.gen, some { c with hold := none }⟩ } } := by
  unfold State.takeKeyUp
  rw [CallTable.heldCall?_of_call hr hc, if_pos ⟨ho, hh⟩]
  exact State.changeCall_of_open hc _

/-- R10: any other call of the source absorbs the edge. -/
theorem State.takeKeyUp_of_call {s : State} {k : Trunk} {r : CallRef} {c : Call}
    (hr : s.calls.ofSource? (trunkSource k) = some r) (hc : s.calls.call? r = some c)
    (h : c.origin ≠ .key ∨ c.hold = none) : s.takeKeyUp k = s := by
  have idle : ¬ (c.origin = .key ∧ c.hold.isSome = true) := by
    rintro ⟨ho, hh⟩
    rcases h with h | h
    · exact h ho
    · rw [h] at hh; cases hh
  unfold State.takeKeyUp
  rw [CallTable.heldCall?_of_call hr hc, if_neg idle, hr]
  dsimp only
  split <;> rfl

/-- R10: a source without a key class admits nothing. -/
theorem State.takeKeyUp_of_no_class {s : State} {k : Trunk} (hr : s.calls.ofSource? (trunkSource k) = none)
    (hk : (s.plan.trunks.get k).keyClass = none) : s.takeKeyUp k = s := by
  unfold State.takeKeyUp
  rw [CallTable.heldCall?_of_none hr]
  simp only [hk]

/-- R10, the last case: a source with a key class asks for an admission. -/
theorem State.takeKeyUp_of_class {s : State} {k : Trunk} {cls : Fin 8} {d : ClassDef}
    (hr : s.calls.ofSource? (trunkSource k) = none) (hk : (s.plan.trunks.get k).keyClass = some cls)
    (hd : s.plan.classes.get cls = some d) : s.takeKeyUp k = s.admitKey k cls d := by
  unfold State.takeKeyUp
  rw [CallTable.heldCall?_of_none hr]
  simp only [hk, hr, hd]

/-- Settles O19, case by case of R10. -/
theorem keyUpFollowsCases : Obligations.KeyUpFollowsCases := by
  intro k s hs hd u src
  have run : exec (.quietToKeyedEdge k) s = .next (u.takeKeyUp k) := running_perform hs hd
  rw [run]
  refine ⟨fun r c hr hc ho hh => ?held, fun r c hr hc h => ?absorbed,
    fun hr => ⟨fun hk => ?noClass, fun cls d hk hcls => ?_⟩⟩
  case held => rw [State.takeKeyUp_of_held (s := u) hr hc ho hh]; rfl
  case absorbed => rw [State.takeKeyUp_of_call (s := u) hr hc h]
  case noClass => rw [State.takeKeyUp_of_no_class (s := u) hr hk]
  rw [State.takeKeyUp_of_class (s := u) hr hk hcls]
  unfold State.admitKey
  constructor
  · intro full
    rw [show u.calls.freeIndex? = none from full]
    rfl
  · intro i free
    rw [show u.calls.freeIndex? = some i from free]

/-! ### KEYED to QUIET (R11) -/

/-- What R11 does with an open call of the source. -/
theorem State.takeKeyDown_of_call {s : State} {k : Trunk} {r : CallRef} {c : Call}
    (hr : s.calls.ofSource? (trunkSource k) = some r) (hc : s.calls.call? r = some c) :
    s.takeKeyDown k =
      if c.origin = .key then
        if c.captured.holdMs = 0 then s.event fun p e => e.endCall p r .unkeyed
        else { s with calls :=
          { s.calls with
            records := s.calls.records.set r.index ⟨r.gen, some { c with hold := some (c.captured.holdMs * 48) }⟩ } }
      else s := by
  simp only [State.takeKeyDown, hr, hc, State.changeCall_of_open hc, framesOfMs]

/-- Settles O20. -/
theorem keyDownFollowsCases : Obligations.KeyDownFollowsCases := by
  intro k s hs hd u
  have run : exec (.keyedToQuietEdge k) s = .next (u.takeKeyDown k) := running_perform hs hd
  rw [run]
  refine ⟨fun hr => ?_, fun r c hr hc => ?_⟩
  · have hr' : u.calls.ofSource? (trunkSource k) = none := hr
    simp only [State.takeKeyDown, hr']
  · rw [State.takeKeyDown_of_call (s := u) hr hc]
    refine ⟨fun ho => ?other, fun ho hold => ?ends, fun ho hold => ?holds⟩
    case other => rw [if_neg ho]
    case ends => rw [if_pos ho, if_pos hold]
    case holds => rw [if_pos ho, if_neg hold]; rfl

/-! ### Losses and expiries (R17 to R19, R21) -/

/-- A deadline at its last frame ends its call. -/
theorem State.takeDeadline_of_last {s : State} {r : CallRef} {c : Call} (hc : s.calls.call? r = some c)
    {deadline : Call → Option Nat} (hl : deadline c = some 1) (cause : EndCause) :
    s.takeDeadline r deadline cause = s.event fun p e => e.endCall p r cause := by
  simp [State.takeDeadline, hc, atLastFrame, hl]

/-- The loss of a source with an open call ends the call. -/
theorem State.takeLoss_of_call {s : State} {src : Source} {r : CallRef} (hr : s.calls.ofSource? src = some r) :
    s.takeLoss src = s.event fun p e => e.endCall p r .sourceLost := by
  have hr' : (Event.start s).calls.ofSource? src = some r := hr
  simp only [State.takeLoss, State.event, Event.endSource, hr']

/-- The loss of a source without a call changes nothing. -/
theorem State.takeLoss_of_none {s : State} {src : Source} (hr : s.calls.ofSource? src = none) : s.takeLoss src = s := by
  have hr' : (Event.start s).calls.ofSource? src = none := hr
  refine Eq.trans ?_ (event_id s)
  simp only [State.takeLoss, State.event, Event.endSource, hr']

/-- Settles O21. -/
theorem lossAndExpiriesEndCalls : Obligations.LossAndExpiriesEndCalls := by
  intro s hs
  refine ⟨fun src hd => ⟨fun r hr => ?_, fun hr => ?_⟩,
    fun r c hc => ⟨fun hd hw => ?_, fun hd hw => ?_, fun hd hw => ?_⟩⟩
  · exact (running_perform hs hd).trans (congrArg _ (State.takeLoss_of_call (s := s.undue (.loss src)) hr))
  · exact (running_perform hs hd).trans (congrArg _ (State.takeLoss_of_none (s := s.undue (.loss src)) hr))
  · exact (running_perform hs hd).trans (congrArg _ (State.takeDeadline_of_last (s := s.undue (.waitEnd r)) hc hw _))
  · exact (running_perform hs hd).trans (congrArg _ (State.takeDeadline_of_last (s := s.undue (.holdEnd r)) hc hw _))
  · exact (running_perform hs hd).trans (congrArg _ (State.takeDeadline_of_last (s := s.undue (.durationEnd r)) hc hw _))

end Sys2Proof.Machine
end

section
/-! The requests that change calls: CALL_OPEN, CALL_RELEASE, CALL_RETARGET and CLEAR_CALLS (R7 to R9, R24 to R27). -/

namespace Sys2Proof.Machine

/-- An offered request that passes the common checks reaches its owner, whose answer is sent (R151, R153). -/
theorem running_checked {s : State} {kind : BitVec 8} {r : Request} {rest : List Request} (h : s.Offers kind r rest)
    {len : Nat} {fields : List Word → List Bool} (act : List Word → Owner) (hl : r.len = len)
    (hf : ∀ b ∈ fields r.payload, b = true) :
    s.running (fun s => s.takeRequest (fun k => decide (k = kind)) (checked len fields act)) =
      .next ((act r.payload r (s.taken rest)).1.answered r (act r.payload r (s.taken rest)).2) := by
  rw [running_takeRequest h (decide_eq_true rfl), checked_of_good hl ((firstBad_eq_none _).2 hf)]

/-- An index that a word holds passes the check of its field. -/
theorem inRange_of_fin {n : Nat} {x : Fin n} {w : Word} (h : w.toNat = x.val) : inRange 0 (n - 1) w = true := by
  rw [inRange_eq, h]
  exact ⟨Nat.zero_le _, Nat.le_sub_one_of_lt x.isLt⟩

variable {s : State}

/-! ### CALL_OPEN (R7 to R9) -/

/-- R8, first check: the class is defined. -/
theorem openCall_of_bad_class {cls : Fin 8} {src : Source} {target : ZoneSet} {r : Request}
    (hd : s.plan.classes.get cls = none) : openCall cls src target r s = (s, ⟨.badClass, []⟩) := by
  simp [openCall, hd, Answer.refuse]

/-- R8, second check: the source is mapped and present. -/
theorem openCall_of_bad_source {cls : Fin 8} {d : ClassDef} {src : Source} {target : ZoneSet} {r : Request}
    (hd : s.plan.classes.get cls = some d) (hs : s.plan.mapped src = false ∨ s.sources.isAbsent src = true) :
    openCall cls src target r s = (s, ⟨.badSource, []⟩) := by
  have bad : (!s.plan.mapped src || s.sources.isAbsent src) = true := by
    rcases hs with hs | hs <;> simp [hs]
  simp [openCall, hd, bad, Answer.refuse]

/-- R8, third check: the target set holds a zone, and used zones alone. -/
theorem openCall_of_bad_target {cls : Fin 8} {d : ClassDef} {src : Source} {target : ZoneSet} {r : Request}
    (hd : s.plan.classes.get cls = some d) (hm : s.plan.mapped src = true) (ha : s.sources.isAbsent src = false)
    (ht : target = 0#16 ∨ s.plan.hasUnused target = true) :
    openCall cls src target r s = (s, ⟨.badTarget, []⟩) := by
  have bad : (decide (target = 0#16) || s.plan.hasUnused target) = true := by
    rcases ht with ht | ht <;> simp [ht]
  simp only [openCall, hd, hm, ha, bad, Answer.refuse, Bool.not_true, Bool.or_self, Bool.false_eq_true, if_false, if_true]

/-- R8: with the first three checks passed, the source's own call and the FREE records decide. -/
theorem openCall_of_good_target {cls : Fin 8} {d : ClassDef} {src : Source} {target : ZoneSet} {r : Request}
    (hd : s.plan.classes.get cls = some d) (hm : s.plan.mapped src = true) (ha : s.sources.isAbsent src = false)
    (ht : target ≠ 0#16) (hu : s.plan.hasUnused target = false) :
    openCall cls src target r s =
      match s.calls.ofSource? src, s.calls.freeIndex? with
      | some _, _ => (s, ⟨.sourceBusy, []⟩)
      | none, none => (s, ⟨.full, []⟩)
      | none, some i =>
        let t := s.event fun p e => e.openRecord p (.controller r.source r.tag) cls d src target
        (t, ⟨.ok, openResults t.calls ⟨i, (s.calls.records.get i).gen⟩⟩) := by
  simp only [openCall, hd, hm, ha, hu, ht, Answer.refuse, Answer.okWith, Bool.not_true, Bool.or_self, Bool.false_eq_true,
    if_false, decide_false]
  cases s.calls.ofSource? src with
  | some _ => rfl
  | none => cases s.calls.freeIndex? <;> rfl

/-- The results of CALL_OPEN while the new call is open (R9). -/
theorem openResults_of_open {t : CallTable} {r : CallRef} {c : Call} (h : t.call? r = some c) :
    openResults t r = [refWord r, c.state.word, c.granted] := by
  simp [openResults, CallTable.status?, h]

/-- Settles O31: the command runs `openCall`, whose checks are taken one by one. -/
theorem callOpenFollowsChecks : Obligations.CallOpenFollowsChecks := by
  intro s r rest cls src target h hl h0 h1 h2 u
  have fields : ∀ b ∈ [inRange 0 7 (wordAt r.payload 0), inRange 0 51 (wordAt r.payload 1), true], b = true := by
    simp [inRange_of_fin h0, inRange_of_fin h1]
  have run : exec .callOpen s =
      .next ((openCall cls src target r u).1.answered r (openCall cls src target r u).2) := by
    rw [← wordFin_eq h0, ← wordFin_eq h1, ← h2]
    exact running_checked h _ hl fields
  have answers : ∀ {t a}, openCall cls src target r u = (t, a) → exec .callOpen s = .next (t.answered r a) :=
    fun e => by rw [run, e]
  refine ⟨fun hd => answers (openCall_of_bad_class hd), fun d hd =>
    ⟨fun hs => answers (openCall_of_bad_source hd hs), fun hm ha => ⟨fun ht => ?_, fun ht hu => ?_⟩⟩⟩
  · exact answers (openCall_of_bad_target hd hm ha (ht.imp_right hasUnused_iff.2))
  · have late := openCall_of_good_target (s := u) (r := r) hd hm ha ht (hasUnused_false_iff.2 hu)
    refine ⟨fun busy => ?_, fun quiet full => ?_, fun i quiet free => ?_⟩
    · obtain ⟨q, hq⟩ := Option.isSome_iff_exists.1 busy
      rw [show u.calls.ofSource? src = some q from hq] at late
      exact answers late
    · rw [show u.calls.ofSource? src = none from quiet, show u.calls.freeIndex? = none from full] at late
      exact answers late
    · rw [show u.calls.ofSource? src = none from quiet, show u.calls.freeIndex? = some i from free] at late
      exact ⟨_, answers late, fun c hc => openResults_of_open hc⟩

/-! ### CALL_RELEASE (R24) -/

/-- Settles O32: the end frees the record, and the end of the event leaves a FREE record as it is. -/
theorem releaseEndsCall : Obligations.ReleaseEndsCall := by
  intro s r rest c h hl h0
  have run : exec .callRelease s =
      .next ((releaseCall c (s.taken rest)).1.answered r (releaseCall c (s.taken rest)).2) := by
    rw [← wordRef_eq h0]
    exact running_checked h _ hl (by simp [refFields, isRef_of_eq h0])
  rw [run]
  refine ⟨fun stale => ?_, fun isOpen => ?_⟩
  · simp only [releaseCall, show (s.taken rest).calls.call? c = none from stale, Answer.refuse]
  · obtain ⟨d, hd⟩ := Option.ne_none_iff_exists'.1 isOpen
    refine ⟨?_, ?_⟩
    · simp only [releaseCall, show (s.taken rest).calls.call? c = some d from hd, Answer.okWith]
    · exact (keptByEvents_freeRecord c.index (c.gen + 1)).settle
        (Event.endCall_record (s.taken rest).plan .released (e := Event.start (s.taken rest)) hd)

/-! ### CALL_RETARGET (R25, R26) -/

/-- R25: the checks of CALL_RETARGET once its two sets are disjoint. -/
theorem retargetCall_of_disjoint {c : CallRef} {add remove : ZoneSet} (hd : add &&& remove = 0#16) :
    retargetCall c add remove s =
      match s.calls.call? c with
      | none => (s, ⟨.stale, []⟩)
      | some _ =>
        if s.plan.hasUnused add then (s, ⟨.badTarget, []⟩)
        else
          let t := s.event fun p e => e.retarget p c add remove
          (t, ⟨.ok, retargetResults t.calls c⟩) := by
  rw [retargetCall, if_neg (not_not.2 hd)]
  cases s.calls.call? c <;> rfl

/-- The command side of O33. -/
theorem exec_callRetarget (s : State) (r : Request) (rest : List Request) (c : CallRef) (add remove : ZoneSet)
    (h : s.Offers 3#8 r rest) (hl : r.len = 3) (h0 : (wordAt r.payload 0).toNat = c.index.val * 16 + c.gen.val)
    (h1 : wordAt r.payload 1 = add) (h2 : wordAt r.payload 2 = remove) :
    exec .callRetarget s =
      .next ((retargetCall c add remove (s.taken rest)).1.answered r (retargetCall c add remove (s.taken rest)).2) := by
  rw [← wordRef_eq h0, ← h1, ← h2]
  exact running_checked h _ hl (by simp [isRef_of_eq h0])

/-- The zones on which a call merely waits, as a set (R1). -/
theorem Call.waitsOn_eq (c : Call) : c.waitsOn = ZoneSet.has (c.target &&& ~~~ (c.granted ||| c.suspended)) := by
  funext z
  simp only [Call.waitsOn, ZoneSet.has_and, ZoneSet.has_not, ZoneSet.has_or, Bool.not_or, Bool.and_assoc]

/-- The pruning of R14 in one step: the call keeps the zones it holds, and ends when it holds none. -/
theorem Event.prune_of_open {r : CallRef} {e : Event} {c : Call} (hc : e.calls.call? r = some c) :
    let waiting := c.target &&& ~~~ (c.granted ||| c.suspended)
    let target := c.target &&& (c.granted ||| c.suspended)
    let told := e.lost ++ (ZoneSet.zones waiting).map fun z => (r, z, LossReason.late)
    (target ≠ 0#16 → e.prune r = { e.changeCall r (fun c => { c with target := target }) with lost := told }) ∧
    (target = 0#16 → c.target ≠ 0#16 →
      e.prune r = { e with calls := e.calls.free r, lost := told, ended := e.ended ++ [(r, .noZones)] }) := by
  intro waiting target told
  have pruned : e.prune r = (ZoneSet.zones waiting).foldl (fun e z => e.loseZone r z .late) e := by
    simp only [Event.prune, hc, Call.waitsOn_eq]
    rfl
  have wanted : ∀ z ∈ ZoneSet.zones waiting, ZoneSet.has c.target z = true := by
    intro z hz
    rw [ZoneSet.mem_zones, ZoneSet.has_and, Bool.and_eq_true] at hz
    exact hz.1
  have kept : ∀ z, ZoneSet.has target z = (ZoneSet.has c.target z && decide (z ∉ ZoneSet.zones waiting)) := by
    intro z
    simp only [target, waiting, ZoneSet.mem_zones, ZoneSet.has_and, ZoneSet.has_not]
    cases ZoneSet.has c.target z <;> cases ZoneSet.has (c.granted ||| c.suspended) z <;> rfl
  obtain ⟨stays, ends⟩ := Event.foldl_loseZone_late r _ (ZoneSet.zones_nodup waiting) e c hc wanted target kept
  rw [pruned]
  refine ⟨stays, fun none some => ends none fun empty => some ?_⟩
  refine ZoneSet.ext_has fun z => ?_
  have := kept z
  rw [none, empty] at this
  simpa using this.symm

/-- Settles O33: the checks, the event as withdrawals, evaluations and an end, and the pruning. -/
theorem retargetFollowsChecks : Obligations.RetargetFollowsChecks := by
  refine ⟨fun s r rest c add remove h hl h0 h1 h2 => ?_, fun p r add remove e c hc => ?_,
    fun r e c hc => Event.prune_of_open hc⟩
  · rw [exec_callRetarget s r rest c add remove h hl h0 h1 h2]
    refine ⟨fun overlap => ?_, fun disjoint => ?_⟩
    · rw [retargetCall, if_pos overlap]
      rfl
    · rw [retargetCall_of_disjoint disjoint]
      refine ⟨fun stale => ?_, fun isOpen => ?_⟩
      · rw [show (s.taken rest).calls.call? c = none from stale]
      · obtain ⟨d, hd⟩ := Option.ne_none_iff_exists'.1 isOpen
        rw [show (s.taken rest).calls.call? c = some d from hd]
        refine ⟨fun unused => ?_, fun used => ?_⟩
        · have bad : (s.taken rest).plan.hasUnused add = true := hasUnused_iff.2 unused
          simp only [bad, if_true]
        · have good : (s.taken rest).plan.hasUnused add = false := hasUnused_false_iff.2 used
          simp only [good, Bool.false_eq_true, if_false]
          refine ⟨_, rfl, fun gone => ?_, fun d hd => ?_⟩
          · simp only [retargetResults, gone, endedWord]
          · simp only [retargetResults, hd]
  · obtain ⟨frame, listed, changed, others, zones⟩ := Event.retarget_withdraws e r c hc ((c.target &&& ~~~ remove) ||| add)
      (c.target &&& remove &&& (c.granted ||| c.suspended))
    refine ⟨_, frame, listed, changed, others, zones, ?_⟩
    simp only [Event.retarget, hc, Bool.and_eq_true, decide_eq_true_eq]

/-! ### CLEAR_CALLS (R27) -/

/-- The calls that CLEAR_CALLS selects (R27). -/
theorem CallTable.mem_clearSelection {t : CallTable} {p : Nat} {withKey : Bool} {c : CallRef} :
    c ∈ t.clearSelection p withKey ↔
      c ∈ t.admission ∧ ∃ d, t.call? c = some d ∧ d.captured.priority ≤ p ∧ (withKey = true ∨ d.origin ≠ .key) := by
  unfold CallTable.clearSelection
  rw [List.mem_filter]
  cases t.call? c with
  | none => simp
  | some d => simp

/-- Settles O34: the selection is a part of the admission list, in its order. -/
theorem clearCallsEndsSelection : Obligations.ClearCallsEndsSelection := by
  intro s r rest p withKey h hl h0 hp1 hp15 h1
  obtain ⟨flag, isFlag⟩ := wordFlag_flagWord withKey
  refine ⟨_, s.calls.clearSelection p withKey, rfl, ⟨List.filter_sublist, fun c => CallTable.mem_clearSelection⟩, ?_⟩
  have run : exec .clearCalls s =
      .next ((clearCalls p withKey (s.taken rest)).1.answered r (clearCalls p withKey (s.taken rest)).2) := by
    have fields : ∀ b ∈ [inRange 1 15 (wordAt r.payload 0), Machine.isFlag (wordAt r.payload 1)], b = true := by
      simp [inRange_eq.2 ⟨h0 ▸ hp1, h0 ▸ hp15⟩, h1, isFlag]
    rw [← flag, ← h1, ← h0]
    exact running_checked h _ hl fields
  rw [run]
  rfl

end Sys2Proof.Machine
end

section
/-! The read commands: each answers from the state as it stands (R28, R65, R95, R111, R123). -/

namespace Sys2Proof.Machine

/-- A trunk source's number names it. -/
@[simp] theorem splitSource_trunkSource (k : Trunk) : splitSource (trunkSource k) = .inl k := by
  unfold splitSource
  exact dif_pos k.isLt

/-- A tone generator's number names it. -/
@[simp] theorem splitSource_toneSource (g : Tone) : splitSource (toneSource g) = .inr g := by
  unfold splitSource
  rw [dif_neg (by simp [toneSource])]
  congr 1
  exact Fin.ext (Nat.add_sub_cancel_left 48 g.val)

/-- A stack entry's word: bit 15 says that it resumes ON_AIR (R188). -/
theorem stackWord_eq (en : StackEntry) :
    stackWord en = if en.resume = .onAir then refWord en.call ||| 32768#16 else refWord en.call := by
  unfold stackWord
  cases en.resume <;> rfl

variable {s : State} {r : Request} {rest : List Request}

/-- CALL_READ of any reference (R28). -/
theorem exec_callRead {c : CallRef} (h : s.Offers 5#8 r rest) (hl : r.len = 1)
    (h0 : (wordAt r.payload 0).toNat = c.index.val * 16 + c.gen.val) :
    exec .callRead s = .next ((s.taken rest).answered r (readCall c (s.taken rest)).2) := by
  rw [← wordRef_eq h0]
  refine (running_checked h _ hl (by simp [refFields, isRef_of_eq h0])).trans ?_
  rw [readCall_state]

/-- ZONE_READ of any zone (R65). -/
theorem exec_zoneRead {z : Zone} (h : s.Offers 18#8 r rest) (hl : r.len = 1) (h0 : (wordAt r.payload 0).toNat = z.val) :
    exec .zoneRead s =
      .next ((s.taken rest).answered r ⟨.ok, zoneReadResults s.plan s.zones (s.mixers.get z) z⟩) := by
  rw [← wordFin_eq h0]
  exact running_checked h _ hl (by simp [inRange_of_fin h0])

/-- SOURCE_READ of any source (R95). -/
theorem exec_sourceRead {src : Source} (h : s.Offers 24#8 r rest) (hl : r.len = 1)
    (h0 : (wordAt r.payload 0).toNat = src.val) :
    exec .sourceRead s = .next ((s.taken rest).answered r ⟨.ok, sourceReadResults s.plan s.calls s.sources src⟩) := by
  rw [← wordFin_eq h0]
  exact running_checked h _ hl (by simp [inRange_of_fin h0])

/-- PLAN_READ of any entry (R111). -/
theorem exec_planRead {b : BankNo} (h : s.Offers 33#8 r rest) (hl : r.len = 3) (h0 : wordAt r.payload 0 = b.word)
    (h1 : (wordAt r.payload 1).toNat ≤ 3) (h2 : (wordAt r.payload 2).toNat < tableSize (wordAt r.payload 1)) :
    exec .planRead s =
      .next ((s.taken rest).answered r
        (readPlan b (entryName (wordAt r.payload 1) (wordAt r.payload 2)) (s.taken rest)).2) := by
  obtain ⟨bank, isBank⟩ := wordBank_word b
  rw [← h0] at bank isBank
  rw [← bank]
  refine (running_checked h _ hl ?_).trans ?_
  · simp [tableChecks, isBank, inRange_eq, h1, h2]
  · rw [readPlan_state]

/-- The results of ZONE_READ with the words of the stack written out (R188). -/
theorem zoneReadResults_eq (p : Plan) (zones : Table 16 ZoneRecord) (m : Mixer) (z : Zone) (stack : Nat → Word)
    (hs : ∀ i, stack i = stackWordAt (zones.get z).stack i) :
    zoneReadResults p zones m z =
      [flagWord (p.zones.get z).slot.isSome, (zones.get z).state.phase.word, optRefWord (zones.get z).state.live?,
        remainingWord (zones.get z).state.remaining?, BitVec.ofNat 16 (zones.get z).stack.length, stack 0, stack 1, stack 2,
        stack 3, BitVec.ofNat 16 (p.zones.get z).floor, BitVec.ofNat 16 (zones.get z).restriction,
        BitVec.ofNat 16 (max (p.zones.get z).floor (zones.get z).restriction), (p.zones.get z).order.word,
        opt8Word (zones.get z).lastServed, m.foreground.current.word, BitVec.ofNat 16 m.foreground.att,
        m.background.current.word, BitVec.ofNat 16 m.background.att] := by
  rw [hs, hs, hs, hs]
  rfl

/-- The position of a generator that plays or not (R93). -/
theorem ToneGen.pos?_eq (g : ToneGen) : g.pos? = g.playing.bind TonePlaying.pos := by
  unfold ToneGen.pos?
  cases g.playing <;> rfl

/-- The flags of a generator are its playing flag: it is never KEYED (Table 10-9). -/
theorem flagsWord_not_keyed (present : Bool) : flagsWord present false = flagWord present := by
  cases present <;> rfl

/-- Settles O35, one read command after another. -/
theorem readsChangeNothing : Obligations.ReadsChangeNothing := by
  intro s r rest u
  refine ⟨fun c d h hl h0 hc => ?_, fun c h hl h0 hc => ?_, fun z h hl h0 => ?_, fun k h hl h0 => ?_,
    fun g h hl h0 => ?_, fun b e h hl h0 h1 h2 he => ?_, fun h hl => ?_⟩
  · rw [exec_callRead h hl h0, readCall, show (s.taken rest).calls.call? c = some d from hc]
    rfl
  · rw [exec_callRead h hl h0, readCall, show (s.taken rest).calls.call? c = none from hc]
    rfl
  · intro zone entry m stack
    rw [exec_zoneRead h hl h0]
    refine congrArg (fun ws => Host.Outcome.next (u.answered r ⟨.ok, ws⟩))
      (zoneReadResults_eq s.plan s.zones m z stack fun i => ?_)
    unfold stackWordAt
    dsimp only [stack, zone]
    cases (s.zones.get z).stack[i]? with
    | none => rfl
    | some en => exact (stackWord_eq en).symm
  · rw [exec_sourceRead (src := trunkSource k) h hl h0, sourceReadResults, splitSource_trunkSource]
    rfl
  · rw [exec_sourceRead (src := toneSource g) h hl h0, sourceReadResults, splitSource_toneSource]
    simp only [toneReadResults, ToneGen.pos?_eq, flagsWord_not_keyed]
    rfl
  · rw [exec_planRead h hl h0 h1 h2, he]
    unfold readPlan
    refine ⟨fun busy => ?_, fun idle => ?_⟩
    · rw [if_pos (show ((s.taken rest).plans.bank b).state = .copying from busy)]
      rfl
    · rw [if_neg (show ((s.taken rest).plans.bank b).state ≠ .copying from idle)]
      rfl
  · refine (running_checked h _ hl (by simp [noFields])).trans ?_
    simp only [readStatus, statusResults, decide_eq_true_eq]
    rfl

end Sys2Proof.Machine
end

section
/-! The zone arbiters after a hardware reset and their two requests: ZONE_RESTRICT and ZONE_PROBE (R63, R64, R66). -/

namespace Sys2Proof

/-- The set of the zones that satisfy a test holds exactly these. -/
@[simp] theorem ZoneSet.has_ofTest (p : Fin 16 → Bool) (z : Fin 16) : ZoneSet.has (ZoneSet.ofTest p) z = p z := by
  have fold : ∀ (l : List (Fin 16)) (m : ZoneSet),
      ZoneSet.has (l.foldl (fun m y => if p y then ZoneSet.add m y else m) m) z =
        (ZoneSet.has m z || (decide (z ∈ l) && p z)) := by
    intro l
    induction l with
    | nil => intro m; simp
    | cons y rest ih =>
      intro m
      rw [List.foldl_cons, ih]
      by_cases hzy : z = y
      · subst hzy
        cases hp : p z <;> simp [ZoneSet.has_add]
      · cases p y <;> simp [ZoneSet.has_add, hzy]
  rw [ZoneSet.ofTest, fold]
  simp

end Sys2Proof

namespace Sys2Proof.Machine

/-! ### A hardware reset (R66) -/

/-- The factory plan gives zone z the output slot 48 + z (R107). -/
theorem factoryZone_slot (z : Zone) : (factoryZone z).slot.map Fin.val = some (48 + z.val) := by
  have small : 48 + z.val < 64 := by omega
  simp [factoryZone, Fin.ofNat, Nat.mod_eq_of_lt small]

/-- A record of the reset value is IDLE, with everything absent or 0 (R66). -/
theorem idle_of_eq_resetZone {zone : ZoneRecord} (h : zone = resetZone) :
    zone.state.phase = .idle ∧ zone.state.live? = none ∧ zone.state.remaining? = none ∧ zone.stack = [] ∧
      zone.restriction = 0 ∧ zone.lastServed = none := by
  subst h
  exact ⟨rfl, rfl, rfl, rfl, rfl, rfl⟩

/-- Settles O4: a reset fills the zone records with one idle record, and loads the factory plan. -/
theorem hardwareResetIdlesZones : Obligations.HardwareResetIdlesZones := by
  intro straps s
  refine ⟨_, rfl, fun z => ⟨idle_of_eq_resetZone (Table.get_fill _ z), ?_⟩⟩
  show effectiveFloor factoryPlan (Table.fill resetZone) z = 0 ∧ (factoryPlan.zones.get z).floor = 0 ∧
    (factoryPlan.zones.get z).order = .fifo ∧ factoryPlan.used z = true ∧
    (factoryPlan.zones.get z).slot.map Fin.val = some (48 + z.val)
  have entry : factoryPlan.zones.get z = factoryZone z := Table.get_tabulate _ _
  rw [effectiveFloor, Plan.used, entry, Table.get_fill]
  exact ⟨rfl, rfl, rfl, rfl, factoryZone_slot z⟩

/-! ### ZONE_RESTRICT (R63) -/

/-- The reply of ZONE_RESTRICT names the zones of its set whose live call differs (R63). -/
theorem has_changedSet (m : ZoneSet) (before after : Table 16 ZoneRecord) (z : Zone) :
    ZoneSet.has (changedSet m before after) z = true ↔
      ZoneSet.has m z = true ∧ (after.get z).state.live? ≠ (before.get z).state.live? := by
  rw [changedSet, ZoneSet.has_ofTest, Bool.and_eq_true, decide_eq_true_eq, ne_comm]

/-- ZONE_RESTRICT as two passes: the restrictions, then the evaluations (R63, log 8). -/
theorem Event.restrict_passes (p : Plan) (m : ZoneSet) (floor : Nat) (e : Event) :
    ∃ x : Event,
      x = { e with zones := x.zones } ∧
      (∀ z, x.zones.get z =
        if ZoneSet.has m z then { e.zones.get z with restriction := floor } else e.zones.get z) ∧
      e.restrict p m floor = (ZoneSet.zones m).foldl (fun e z => Event.evaluate p e z) x := by
  obtain ⟨frame, records⟩ := e.foldl_restriction (ZoneSet.zones m) floor
  refine ⟨_, frame, fun z => ?_, rfl⟩
  simpa only [ZoneSet.mem_zones] using records z

/-- Evaluations change no restriction, so the restrictions of ZONE_RESTRICT are those its first pass sets (R35, R63). -/
theorem Event.restrict_restriction (p : Plan) (m : ZoneSet) (floor : Nat) (e : Event) (z : Zone) :
    ((e.restrict p m floor).zones.get z).restriction =
      if ZoneSet.has m z then floor else (e.zones.get z).restriction := by
  obtain ⟨x, -, records, passes⟩ := e.restrict_passes p m floor
  have kept : ((e.restrict p m floor).zones.get z).restriction = (x.zones.get z).restriction := by
    rw [passes]
    exact (Event.evaluateAll_frame p (ZoneSet.zones m) x).2.1 z
  rw [kept, records]
  split <;> rfl

/-- No zone is restricted by an empty set (R63). -/
theorem Event.restrict_empty (p : Plan) (floor : Nat) (e : Event) : e.restrict p 0#16 floor = e := by
  have none : ZoneSet.zones 0#16 = [] := List.filter_eq_nil_iff.2 fun z _ => by simp
  rw [Event.restrict, none]
  rfl

/-- Settles O36: the two passes, their restrictions, and the set that the reply names. -/
theorem zoneRestrictSetsFloors : Obligations.ZoneRestrictSetsFloors := by
  refine ⟨Event.restrict_passes, fun s r rest m floor h hl h0 h1 hf => ?_⟩
  have run : exec .zoneRestrict s =
      .next ((restrictZones m floor (s.taken rest)).1.answered r (restrictZones m floor (s.taken rest)).2) := by
    rw [← h0, ← h1]
    exact running_checked h _ hl (by simp [inRange_eq, h1, hf])
  rw [run]
  refine ⟨fun unused => ?_, fun used => ?_⟩
  · have bad : (s.taken rest).plan.hasUnused m = true := hasUnused_iff.2 unused
    simp only [restrictZones, bad, if_true, Answer.refuse]
  · have good : (s.taken rest).plan.hasUnused m = false := hasUnused_false_iff.2 used
    simp only [restrictZones, good, Bool.false_eq_true, if_false, Answer.okWith]
    refine ⟨_, _, rfl, rfl, fun z => ?_, has_changedSet m _ _, ?_⟩
    · show ((Event.settle _).zones.get z).restriction = _
      rw [Event.settle_zones]
      exact Event.restrict_restriction _ m floor (Event.start (s.taken rest)) z
    · rintro rfl
      simp only [Event.restrict_empty]
      exact event_id _

/-! ### ZONE_PROBE (R64) -/

/-- What ZONE_PROBE answers over a zone without a live call (R64). -/
theorem probeResults_of_idle {p : Plan} {calls : CallTable} {zones : Table 16 ZoneRecord} {z : Zone} {priority : Nat}
    (hi : (zones.get z).state = .idle) :
    probeResults p calls zones z priority =
      [BitVec.ofNat 16 (effectiveFloor p zones z), 65535#16, 0#16,
        if priority < effectiveFloor p zones z then 0#16 else 1#16, 65535#16, 0#16, 65535#16] := by
  simp only [probeResults, hi, liveFields, ZoneState.live?_idle]
  split <;> rfl

/-- What ZONE_PROBE answers over a live call: BELOW_FLOOR, GRANT with the fate of the live call, or WAIT (R64). -/
theorem probeResults_of_live {p : Plan} {calls : CallTable} {zones : Table 16 ZoneRecord} {z : Zone} {l : CallRef} {c : Call}
    (priority : Nat) (hl : (zones.get z).state.live? = some l) (hc : calls.call? l = some c) :
    let fate := probeFate (zones.get z).stack c.captured.preempt
    probeResults p calls zones z priority =
      [BitVec.ofNat 16 (effectiveFloor p zones z), refWord l, BitVec.ofNat 16 c.captured.priority] ++
        if priority < effectiveFloor p zones z then [0#16, 65535#16, 0#16, 65535#16]
        else if c.captured.priority < priority then [1#16, refWord l, fate.1, optRefWord fate.2]
        else [2#16, 65535#16, 0#16, 65535#16] := by
  simp only [probeResults, hl, liveFields, hc]
  split
  · rfl
  · split <;> rfl

/-- Settles O37: the probe answers from the state as it stands, case by case of R64. -/
theorem zoneProbeAnswersOutcome : Obligations.ZoneProbeAnswersOutcome := by
  intro s r rest z p h hl h0 h1 hp1 hp15 u floor stack
  have run : exec .zoneProbe s = .next (u.answered r (probeZone z p u).2) := by
    rw [← wordFin_eq h0, ← h1]
    refine (running_checked h _ hl ?_).trans ?_
    · simp [inRange_of_fin h0, inRange_eq, h1, hp1, hp15]
    · rw [probeZone_state]
  refine ⟨fun unused => ?_, fun used => ?_⟩
  · rw [run, probeZone, if_neg (by rw [show u.plan.used z = false from unused]; exact Bool.false_ne_true)]
    rfl
  · have answers : exec .zoneProbe s = .next (u.answered r ⟨.ok, probeResults s.plan s.calls s.zones z p⟩) := by
      rw [run, probeZone, if_pos (show u.plan.used z = true from used)]
      rfl
    refine ⟨fun idle => ?_, fun l c hlive hc => ?_⟩
    · rw [answers, probeResults_of_idle idle]
      rfl
    · intro answer
      have outcome : ∀ {o d f x : Word},
          ((if p < floor then [0#16, 65535#16, 0#16, 65535#16]
            else if c.captured.priority < p then
              [1#16, refWord l, (probeFate stack c.captured.preempt).1,
                optRefWord (probeFate stack c.captured.preempt).2]
            else [2#16, 65535#16, 0#16, 65535#16]) = [o, d, f, x]) → answer o d f x := by
        intro o d f x e
        show exec .zoneProbe s = _
        rw [answers, probeResults_of_live p hlive hc]
        exact congrArg (fun ws => Host.Outcome.next (u.answered r ⟨.ok, _ ++ ws⟩)) e
      refine ⟨fun below => outcome (if_pos below), fun eligible low => ?wait, fun eligible high => ?grant⟩
      case wait => exact outcome (by rw [if_neg (Nat.not_lt.2 eligible), if_neg (Nat.not_lt.2 low)])
      case grant =>
        have granted : ∀ {f x : Word}, (probeFate stack c.captured.preempt).1 = f →
            optRefWord (probeFate stack c.captured.preempt).2 = x → answer 1#16 (refWord l) f x := fun ef ex =>
          outcome (by rw [if_neg (Nat.not_lt.2 eligible), if_pos high, ef, ex])
        refine ⟨fun drop => ?_, fun resume room => ?_, fun bottom resume full last => ?_⟩
        · exact granted (by rw [drop]; rfl) (by rw [drop]; rfl)
        · have fate : probeFate stack .resume = (1#16, none) := if_pos room
          exact granted (by rw [resume, fate]) (by rw [resume, fate]; rfl)
        · have fate : probeFate stack .resume = (2#16, some bottom.call) := by
            refine (if_neg (Nat.not_lt.2 full)).trans ?_
            rw [last]
            rfl
          exact granted (by rw [resume, fate]) (by rw [resume, fate]; rfl)

end Sys2Proof.Machine
end

section
/-! The ranking of a zone's contenders: the winner and the four keys of Table 2-2 (R36 to R39). -/

namespace Sys2Proof.Machine

variable {e : Event} {p : Plan} {z : Zone} {a b r : CallRef} {c ca cb : Call}

/-! ### Places under keys 2 to 4 -/

/-- The position of a call on a zone's stack, counted from the top; the stack's length for a call that is not on it. -/
def ZoneRecord.depth (zone : ZoneRecord) (r : CallRef) : Nat := zone.stack.findIdx fun en => decide (en.call = r)

/-- A call is on a stack exactly when its depth is inside it. -/
theorem ZoneRecord.depth_lt {zone : ZoneRecord} : zone.depth r < zone.stack.length ↔ ∃ en ∈ zone.stack, en.call = r := by
  rw [ZoneRecord.depth, List.findIdx_lt_length]
  simp only [decide_eq_true_eq]

/-- Key 3: a stacked call comes after the live call, in the order of the stack (Table 2-2). -/
theorem Event.place_of_stacked (hl : (e.zones.get z).state.live? ≠ some r)
    (hs : ∃ en ∈ (e.zones.get z).stack, en.call = r) :
    e.place p z r = 1 + (e.zones.get z).depth r := by
  have inside := ZoneRecord.depth_lt.2 hs
  unfold Event.place
  exact (if_neg hl).trans (if_pos inside)

/-- Key 4: what ranks the calls that wait on a zone, the admission list or the rotation distance (Table 2-2). -/
def Event.waitingKey (e : Event) (p : Plan) (z : Zone) (r : CallRef) : Nat :=
  match (p.zones.get z).order with
  | .fifo => e.calls.admission.idxOf r
  | .rotate =>
    match e.calls.call? r with
    | none => 0
    | some c => rotationDistance (e.zones.get z).lastServed c.source

/-- FIFO: the place in the admission list. -/
theorem Event.waitingKey_of_fifo (ho : (p.zones.get z).order = .fifo) :
    e.waitingKey p z r = e.calls.admission.idxOf r := by
  simp only [Event.waitingKey, ho]

/-- ROTATE: the rotation distance of the call's source (R39). -/
theorem Event.waitingKey_of_rotate (ho : (p.zones.get z).order = .rotate) (hc : e.calls.call? r = some c) :
    e.waitingKey p z r = rotationDistance (e.zones.get z).lastServed c.source := by
  simp only [Event.waitingKey, ho, hc]

/-- Keys 3 and 4: a waiting call comes after every stacked one (Table 2-2). -/
theorem Event.place_of_waiting (hl : (e.zones.get z).state.live? ≠ some r)
    (hs : ¬ ∃ en ∈ (e.zones.get z).stack, en.call = r) :
    e.place p z r = 1 + (e.zones.get z).stack.length + e.waitingKey p z r := by
  have outside : ¬ (e.zones.get z).depth r < (e.zones.get z).stack.length := fun k => hs (ZoneRecord.depth_lt.1 k)
  unfold Event.place
  exact (if_neg hl).trans (if_neg outside)

/-! ### Ranking (R38) -/

/-- The captured priority of an open call. -/
theorem Event.priority_of_open (hc : e.calls.call? r = some c) : e.priority r = c.captured.priority := by
  simp [Event.priority, hc]

/-- Key 1: the higher priority ranks first, and never the other way. -/
theorem Event.ranksBefore_of_priority (h : e.priority b < e.priority a) :
    e.ranksBefore p z a b = true ∧ e.ranksBefore p z b a = false := by
  rw [Bool.eq_false_iff, ne_eq, e.ranksBefore_iff, e.ranksBefore_iff]
  omega

/-- At equal priority the smaller place ranks first, and never the other way. -/
theorem Event.ranksBefore_of_place (h : e.priority a = e.priority b) (hp : e.place p z a < e.place p z b) :
    e.ranksBefore p z a b = true ∧ e.ranksBefore p z b a = false := by
  rw [Bool.eq_false_iff, ne_eq, e.ranksBefore_iff, e.ranksBefore_iff]
  omega

/-- The winner is eligible, and every eligible contender has at most its priority and does not rank before it; an eligible
live call of its priority is the winner itself (R36 to R38). -/
theorem Event.top_ranked {w : CallRef} (h : e.top p z = some w) :
    w ∈ e.contenders z ∧ effectiveFloor p e.zones z ≤ e.priority w ∧
      ∀ r, r ∈ e.contenders z → effectiveFloor p e.zones z ≤ e.priority r →
        e.priority r ≤ e.priority w ∧ e.ranksBefore p z r w = false ∧
          ((e.zones.get z).state.live? = some r → e.priority r = e.priority w → r = w) := by
  have mem : ∀ r, r ∈ e.eligible p z ↔ r ∈ e.contenders z ∧ effectiveFloor p e.zones z ≤ e.priority r := fun r => by
    simp only [Event.eligible, List.mem_filter, decide_eq_true_eq]
  obtain ⟨contends, eligible⟩ := (mem w).1 (firstRanked_mem h)
  refine ⟨contends, eligible, fun r hr hf => ?_⟩
  have first := Event.top_first h r ((mem r).2 ⟨hr, hf⟩)
  refine ⟨by omega, ?_, fun live equal => ?_⟩
  · rwa [Bool.eq_false_iff, ne_eq, e.ranksBefore_iff]
  · -- The live call has place 0, so a winner that it does not rank before has place 0 too.
    have zero : e.place p z r = 0 := Event.place_eq_zero.2 live
    have same : (e.zones.get z).state.live? = some w := Event.place_eq_zero.1 (show e.place p z w = 0 by omega)
    rw [live] at same
    exact Option.some.inj same

/-- The rotation distance as an integer: the source number less the last served less one, modulo 52 (R39). -/
theorem rotationDistance_some (last src : Source) :
    (rotationDistance (some last) src : Int) = ((src.val : Int) - last.val - 1) % 52 := by
  have h1 := last.isLt
  have h2 := src.isLt
  simp only [rotationDistance]
  omega

/-- Settles O51: key 1 is the priority, keys 2 to 4 are the places. -/
theorem rankingFollowsKeys : Obligations.RankingFollowsKeys := by
  refine ⟨fun e p z w h => Event.top_ranked h, fun e z r => Event.mem_contenders, ?_,
    fun src last => ⟨rfl, rotationDistance_some last src⟩⟩
  intro e p z a b ca cb ha hb zone depth stacked first
  have pa := Event.priority_of_open ha
  have pb := Event.priority_of_open hb
  refine ⟨fun higher => Event.ranksBefore_of_priority (by rwa [pa, pb]), fun equal hab => ?_⟩
  have byPlace : e.place p z a < e.place p z b → first := Event.ranksBefore_of_place (by rw [pa, pb, equal])
  refine ⟨fun live => byPlace ?live, fun la lb => ⟨fun sa sb => byPlace ?stackedFirst,
    fun sa sb deeper => byPlace ?nearerTop, fun sa sb => ⟨fun fifo earlier => byPlace ?fifo, fun rotate nearer => byPlace ?rotate⟩⟩⟩
  case live =>
    have other : e.place p z b ≠ 0 := fun k => hab (Option.some.inj (live.symm.trans (Event.place_eq_zero.1 k)))
    rw [Event.place_eq_zero.2 live]
    omega
  case stackedFirst =>
    have inside : (e.zones.get z).depth a < (e.zones.get z).stack.length := ZoneRecord.depth_lt.2 sa
    rw [Event.place_of_stacked la sa, Event.place_of_waiting lb sb]
    omega
  case nearerTop =>
    rw [Event.place_of_stacked la sa, Event.place_of_stacked lb sb]
    exact Nat.add_lt_add_left deeper 1
  case fifo =>
    rw [Event.place_of_waiting la sa, Event.place_of_waiting lb sb, Event.waitingKey_of_fifo fifo,
      Event.waitingKey_of_fifo fifo]
    exact Nat.add_lt_add_left earlier _
  case rotate =>
    rw [Event.place_of_waiting la sa, Event.place_of_waiting lb sb, Event.waitingKey_of_rotate rotate ha,
      Event.waitingKey_of_rotate rotate hb]
    exact Nat.add_lt_add_left nearer _

end Sys2Proof.Machine
end

section
/-! One evaluation, case by case of Table 2-3: what a grant and a displacement make of the zone record and report (R42 to
R47, R55, R58), and what of a call an evaluation can change (R57). -/

namespace Sys2Proof.Machine

variable {e f g : Event} {p : Plan} {z : Zone} {w l r : CallRef} {c d : Call} {why : LossReason}

/-! ### The reports and the resume phase of a state (R34, R58) -/

/-- A grant reports ON_AIR exactly when the zone is on air at once (R58). -/
theorem grantReports_eq (w : CallRef) (st : ZoneState) :
    grantReports w st = if st.phase = .onAir then [.grant w, .onAir w] else [.grant w] := by
  cases st <;> rfl

/-- A live call that leaves the phase ON_AIR resumes there, and in LEAD_IN otherwise (R34). -/
theorem ZoneState.resumePhase_eq (st : ZoneState) : st.resumePhase = if st.phase = .onAir then .onAir else .leadIn := by
  cases st <;> rfl

/-- A push on a stack with room (R46). -/
theorem pushEntry_of_room {stack : List StackEntry} (en : StackEntry) (h : stack.length < 4) :
    pushEntry stack en = (en :: stack, none) := if_pos h

/-- A push on a full stack (R46). -/
theorem pushEntry_of_full {stack : List StackEntry} {x : StackEntry} (en : StackEntry) (h : 4 ≤ stack.length)
    (hx : stack.getLast? = some x) : pushEntry stack en = (en :: stack.dropLast, some x) :=
  (if_neg (Nat.not_lt.2 h)).trans (by rw [hx])

/-- The calls on a stack after a push: the new one, and the old ones but for the one given up (R34, R46). -/
theorem mem_pushEntry {stack : List StackEntry} {en : StackEntry} (size : stack.length ≤ Config.stackLimit)
    (once : (stack.map StackEntry.call).Nodup) (r : CallRef) :
    r ∈ (pushEntry stack en).1.map StackEntry.call ↔
      r = en.call ∨ (r ∈ stack.map StackEntry.call ∧ (pushEntry stack en).2.map StackEntry.call ≠ some r) := by
  rcases pushEntry_cases stack en size with ⟨push, -⟩ | ⟨rest, x, rfl, push⟩
  · simp [push]
  · have gone : x.call ∉ rest.map StackEntry.call := by
      rw [List.map_append, List.nodup_append] at once
      exact fun k => once.2.2 _ k x.call (by simp) rfl
    rw [push, List.map_append, List.mem_append, List.map_singleton, List.mem_singleton, List.map_cons, List.mem_cons]
    by_cases hx : r = x.call
    · subst hx; simp [gone]
    · simp [hx, Ne.symm hx]

/-! ### What an evaluation leaves alone -/

/-- The second event has the first one's losses, ends, admissions and calls to prune. -/
structure Event.LogKept (e f : Event) : Prop where
  lost : f.lost = e.lost
  ended : f.ended = e.ended
  admitted : f.admitted = e.admitted
  skippers : f.skippers = e.skippers

/-- The same event. -/
theorem Event.LogKept.refl (e : Event) : e.LogKept e := ⟨rfl, rfl, rfl, rfl⟩

/-- Keeping the log composes. -/
theorem Event.LogKept.trans (h : e.LogKept f) (k : f.LogKept g) : e.LogKept g :=
  ⟨k.lost.trans h.lost, k.ended.trans h.ended, k.admitted.trans h.admitted, k.skippers.trans h.skippers⟩

/-- A grant logs no loss, end, admission or pruning (R44). -/
theorem Event.logKept_grantZone (e : Event) (z : Zone) (w : CallRef) : e.LogKept (e.grantZone z w).1 := by
  unfold Event.grantZone
  split <;> exact ⟨rfl, rfl, rfl, rfl⟩

/-- A displacement logs nothing (R45). -/
theorem Event.logKept_displace (e : Event) (z : Zone) (l : CallRef) (why : LossReason) :
    e.LogKept (e.displace z l why).1 ∧ (e.displace z l why).1.leadIns = e.leadIns := by
  unfold Event.displace
  split
  · exact ⟨⟨rfl, rfl, rfl, rfl⟩, rfl⟩
  · split
    · exact ⟨⟨rfl, rfl, rfl, rfl⟩, rfl⟩
    · dsimp only
      split <;> exact ⟨⟨rfl, rfl, rfl, rfl⟩, rfl⟩

/-- A grant enters the zone in the log of entries into LEAD_IN exactly when it leaves the zone there (R75). -/
theorem Event.grantZone_leadIns (hc : e.calls.call? w = some c) :
    (e.grantZone z w).1.leadIns =
      if ((e.grantZone z w).1.zones.get z).state.phase = .leadIn then e.leadIns ++ [z] else e.leadIns := by
  unfold Event.grantZone
  simp only [hc, Event.changeCall, Event.changeZone, Table.get_modify, if_true]

/-- A grant logs at most one entry into LEAD_IN, its zone's own. -/
theorem Event.grantZone_leadIns_cases (e : Event) (z : Zone) (w : CallRef) :
    (e.grantZone z w).1.leadIns = e.leadIns ∨ (e.grantZone z w).1.leadIns = e.leadIns ++ [z] := by
  cases hc : e.calls.call? w with
  | none => left; simp [Event.grantZone, hc]
  | some c =>
    rw [Event.grantZone_leadIns hc]
    split
    · exact .inr rfl
    · exact .inl rfl

/-! ### The sets of a call (R57) -/

/-- A call as the evaluation of one zone can leave it: its granted and suspended sets alone differ, at that zone alone. -/
structure Call.SetsAt (z : Zone) (c d : Call) : Prop where
  sets : d = { c with granted := d.granted, suspended := d.suspended }
  elsewhere : ∀ y, y ≠ z →
    ZoneSet.has d.granted y = ZoneSet.has c.granted y ∧ ZoneSet.has d.suspended y = ZoneSet.has c.suspended y

/-- Every open call stays open and keeps everything but its sets at one zone. -/
def Event.SetsOnlyAt (z : Zone) (e f : Event) : Prop :=
  ∀ r c, e.calls.call? r = some c → ∃ d, f.calls.call? r = some d ∧ c.SetsAt z d

/-- No change. -/
theorem Call.SetsAt.refl (z : Zone) (c : Call) : c.SetsAt z c := ⟨rfl, fun _ _ => ⟨rfl, rfl⟩⟩

/-- Changes of the sets at one zone compose. -/
theorem Call.SetsAt.trans {a b c : Call} (h : a.SetsAt z b) (k : b.SetsAt z c) : a.SetsAt z c := by
  refine ⟨by rw [k.sets, h.sets], fun y hy => ?_⟩
  obtain ⟨granted, suspended⟩ := h.elsewhere y hy
  obtain ⟨granted', suspended'⟩ := k.elsewhere y hy
  exact ⟨granted'.trans granted, suspended'.trans suspended⟩

/-- No call changes. -/
theorem Event.SetsOnlyAt.of_calls_eq (h : f.calls = e.calls) : e.SetsOnlyAt z f :=
  fun _ c hc => ⟨c, h ▸ hc, .refl z c⟩

/-- Changes of calls' sets at one zone compose. -/
theorem Event.SetsOnlyAt.trans (h : e.SetsOnlyAt z f) (k : f.SetsOnlyAt z g) : e.SetsOnlyAt z g := by
  intro r c hc
  obtain ⟨d, hd, hcd⟩ := h r c hc
  obtain ⟨b, hb, hdb⟩ := k r d hd
  exact ⟨b, hb, hcd.trans hdb⟩

/-- A change of one call's sets at a zone. -/
theorem Event.SetsOnlyAt.changeCall (e : Event) (q : CallRef) {change : Call → Call}
    (h : ∀ c : Call, c.SetsAt z (change c)) :
    e.SetsOnlyAt z (e.changeCall q change) := by
  intro r c hc
  rw [Event.call?_changeCall]
  split
  · rename_i same
    subst same
    exact ⟨change c, by rw [hc]; rfl, h c⟩
  · exact ⟨c, hc, .refl z c⟩

/-- Removing a zone from the suspended set. -/
theorem Call.setsAt_unsuspend (z : Zone) (c : Call) : c.SetsAt z { c with suspended := ZoneSet.remove c.suspended z } :=
  ⟨rfl, fun y hy => by simp [ZoneSet.has_remove, hy]⟩

/-- A grant changes the winner's sets at its zone, and no other call (R57). -/
theorem Event.setsOnlyAt_grantZone (e : Event) (z : Zone) (w : CallRef) : e.SetsOnlyAt z (e.grantZone z w).1 := by
  cases hc : e.calls.call? w with
  | none => exact .of_calls_eq (by simp [Event.grantZone, hc])
  | some c =>
    have moved : ∀ c : Call, c.SetsAt z
        { c with granted := ZoneSet.add c.granted z, suspended := ZoneSet.remove c.suspended z } :=
      fun c => ⟨rfl, fun y hy => by simp [ZoneSet.has_add, ZoneSet.has_remove, hy]⟩
    have same : (e.grantZone z w).1.calls = (e.changeCall w fun c =>
        { c with granted := ZoneSet.add c.granted z, suspended := ZoneSet.remove c.suspended z }).calls := by
      simp only [Event.grantZone, hc]
      rfl
    exact (Event.SetsOnlyAt.changeCall e w moved).trans (.of_calls_eq same)

/-- A displacement changes the sets of the call that leaves and of the one given up at its zone, and no other call (R57). -/
theorem Event.setsOnlyAt_displace (e : Event) (z : Zone) (l : CallRef) (why : LossReason) :
    e.SetsOnlyAt z (e.displace z l why).1 := by
  unfold Event.displace
  split
  · exact .of_calls_eq rfl
  · split
    · exact Event.SetsOnlyAt.changeCall (e.changeZone z _) l fun c => ⟨rfl, fun y hy => by simp [ZoneSet.has_remove, hy]⟩
    · have pushed := fun change => Event.SetsOnlyAt.changeCall (z := z) (e.changeZone z change) l
        (change := fun c => { c with granted := ZoneSet.remove c.granted z, suspended := ZoneSet.add c.suspended z })
        fun c => ⟨rfl, fun y hy => by simp [ZoneSet.has_add, ZoneSet.has_remove, hy]⟩
      dsimp only
      split
      · exact pushed _
      · exact (pushed _).trans (.changeCall _ _ (Call.setsAt_unsuspend z))

/-! ### The cases of a decision (R42, Table 2-3) -/

/-- V1: nothing wins an idle zone. -/
theorem Event.decideZone_vacant (ht : e.top p z = none) (hl : (e.zones.get z).state.live? = none) :
    e.decideZone p z = (e, []) := by
  simp [Event.decideZone, ht, hl]

/-- V2: the live call is not eligible any more, and nothing wins. -/
theorem Event.decideZone_leaves (ht : e.top p z = none) (hl : (e.zones.get z).state.live? = some l) :
    e.decideZone p z = e.displace z l .floor := by
  simp [Event.decideZone, ht, hl]

/-- V3: the live call wins. -/
theorem Event.decideZone_stays (ht : e.top p z = some w) (hl : (e.zones.get z).state.live? = some w) :
    e.decideZone p z = (e, []) := by
  simp [Event.decideZone, ht, hl]

/-- V4: a call wins an idle zone. -/
theorem Event.decideZone_grants (ht : e.top p z = some w) (hl : (e.zones.get z).state.live? = none) :
    e.decideZone p z = e.grantZone z w := by
  simp [Event.decideZone, ht, hl]

/-- Why a live call leaves for a winner: it is outranked, or below the effective floor itself (R45). -/
def Event.leaveReason (e : Event) (p : Plan) (z : Zone) (l : CallRef) : LossReason :=
  if effectiveFloor p e.zones z ≤ e.priority l then .preempted else .floor

/-- V5: another call wins; the live call leaves and the winner is granted. -/
theorem Event.decideZone_replaces (ht : e.top p z = some w) (hl : (e.zones.get z).state.live? = some l) (hwl : w ≠ l) :
    e.decideZone p z =
      let left := e.displace z l (e.leaveReason p z l)
      ((left.1.grantZone z w).1, left.2 ++ (left.1.grantZone z w).2) := by
  simp [Event.decideZone, ht, hl, hwl, Event.leaveReason]

/-- A decision logs an entry of its zone into LEAD_IN at most (R42, R75). -/
theorem Event.logKept_decideZone (e : Event) (p : Plan) (z : Zone) :
    e.LogKept (e.decideZone p z).1 ∧
      ((e.decideZone p z).1.leadIns = e.leadIns ∨ (e.decideZone p z).1.leadIns = e.leadIns ++ [z]) := by
  cases ht : e.top p z with
  | none =>
    cases hl : (e.zones.get z).state.live? with
    | none => rw [Event.decideZone_vacant ht hl]; exact ⟨.refl e, .inl rfl⟩
    | some l =>
      rw [Event.decideZone_leaves ht hl]
      obtain ⟨kept, log⟩ := e.logKept_displace z l .floor
      exact ⟨kept, .inl log⟩
  | some w =>
    cases hl : (e.zones.get z).state.live? with
    | none =>
      rw [Event.decideZone_grants ht hl]
      exact ⟨e.logKept_grantZone z w, e.grantZone_leadIns_cases z w⟩
    | some l =>
      by_cases hwl : w = l
      · subst hwl
        rw [Event.decideZone_stays ht hl]
        exact ⟨.refl e, .inl rfl⟩
      · rw [Event.decideZone_replaces ht hl hwl]
        obtain ⟨kept, log⟩ := e.logKept_displace z l (e.leaveReason p z l)
        rw [← log]
        exact ⟨kept.trans (Event.logKept_grantZone _ z w), Event.grantZone_leadIns_cases _ z w⟩

/-- A decision that grants logs an entry into LEAD_IN exactly when it leaves the zone there (R75). -/
theorem Event.decideZone_leadIns (ht : e.top p z = some w) (hl : (e.zones.get z).state.live? ≠ some w)
    (hc : e.calls.call? w = some c) :
    (e.decideZone p z).1.leadIns =
      if ((e.decideZone p z).1.zones.get z).state.phase = .leadIn then e.leadIns ++ [z] else e.leadIns := by
  cases live : (e.zones.get z).state.live? with
  | none =>
    rw [Event.decideZone_grants ht live]
    exact Event.grantZone_leadIns hc
  | some l =>
    rw [Event.decideZone_replaces ht live fun same => hl (same ▸ live)]
    obtain ⟨d, hd, -⟩ := e.setsOnlyAt_displace z l (e.leaveReason p z l) w c hc
    exact (Event.grantZone_leadIns hd).trans (by rw [(e.logKept_displace z l _).2])

/-! ### The zone record and the reports of each case -/

/-- A fresh grant, on records of which the zone's own is known (R44, R58). -/
theorem Event.grantZone_fresh {zones : Table 16 ZoneRecord} {zone : ZoneRecord} (hz : f.zones = zones.set z zone)
    (hc : f.calls.call? w = some c) (hs : ∀ en ∈ zone.stack, en.call ≠ w) :
    (f.grantZone z w).1.zones = zones.set z { zone with state := freshState w c.captured } ∧
      (f.grantZone z w).2 = grantReports w (freshState w c.captured) := by
  have unstacked : (zone.stack.find? fun en => decide (en.call = w)) = none :=
    List.find?_eq_none.2 fun en hen => by simpa using hs en hen
  have kept : (zone.stack.filter fun en => decide (en.call ≠ w)) = zone.stack :=
    List.filter_eq_self.2 fun en hen => by simpa using hs en hen
  simp only [Event.grantZone, hc, Event.changeCall, Event.changeZone, Table.modify, hz, Table.get_set_same, Table.set_set,
    unstacked, kept]
  exact ⟨trivial, trivial⟩

/-- A resumption: the winner takes its stack entry's phase and leaves the stack (R44, R55). -/
theorem Event.grantZone_resumes {en : StackEntry} (hc : e.calls.call? w = some c) (hen : en ∈ (e.zones.get z).stack)
    (hw : en.call = w) (only : ∀ x ∈ (e.zones.get z).stack, x.call = w → x = en) :
    (e.grantZone z w).1.zones = e.zones.set z { e.zones.get z with
      state := resumedState w c.captured en.resume
      stack := (e.zones.get z).stack.filter fun x => decide (x.call ≠ w) } := by
  have found : ((e.zones.get z).stack.find? fun x => decide (x.call = w)) = some en := by
    have some : ((e.zones.get z).stack.find? fun x => decide (x.call = w)).isSome = true :=
      List.find?_isSome.2 ⟨en, hen, decide_eq_true hw⟩
    obtain ⟨x, hx⟩ := Option.isSome_iff_exists.1 some
    rw [hx, only x (List.mem_of_find?_eq_some hx) (by simpa using List.find?_some hx)]
  simp only [Event.grantZone, hc, found]
  rfl

/-- A live call leaves under DROP: the zone is IDLE and the call is lost (R47). -/
theorem Event.displace_drops (hc : e.calls.call? l = some c) (hp : c.captured.preempt = .drop) :
    (e.displace z l why).1.zones = e.zones.set z { e.zones.get z with state := .idle } ∧
      (e.displace z l why).2 = [.loss l z why] := by
  unfold Event.displace
  simp only [hc, hp, and_true]
  rfl

/-- A live call leaves under RESUME: the zone is IDLE, the call is pushed, and the call that a full stack gives up is lost
(R46). -/
theorem Event.displace_suspends (hc : e.calls.call? l = some c) (hp : c.captured.preempt = .resume)
    {stack : List StackEntry} {evicted : Option StackEntry}
    (push : pushEntry (e.zones.get z).stack ⟨l, (e.zones.get z).state.resumePhase⟩ = (stack, evicted)) :
    (e.displace z l why).1.zones = e.zones.set z { e.zones.get z with state := .idle, stack := stack } ∧
      (e.displace z l why).2 = evicted.toList.map fun x => .loss x.call z .depth := by
  simp only [Event.displace, hc, hp, push]
  cases evicted <;> exact ⟨rfl, rfl⟩

/-- V5 with a winner that is not stacked: the record that the displacement leaves, with a fresh grant on it. -/
theorem Event.decideZone_replaces_fresh {zone : ZoneRecord} (ht : e.top p z = some w)
    (hl : (e.zones.get z).state.live? = some l) (hwl : w ≠ l) (hc : e.calls.call? w = some c)
    (left : (e.displace z l (e.leaveReason p z l)).1.zones = e.zones.set z zone) (hs : ∀ en ∈ zone.stack, en.call ≠ w) :
    (e.decideZone p z).1.zones = e.zones.set z { zone with state := freshState w c.captured } ∧
      (e.decideZone p z).2 =
        (e.displace z l (e.leaveReason p z l)).2 ++ grantReports w (freshState w c.captured) := by
  obtain ⟨d, hd, sets⟩ := e.setsOnlyAt_displace z l (e.leaveReason p z l) w c hc
  have captured : d.captured = c.captured := by rw [sets.sets]
  obtain ⟨zones, reports⟩ := Event.grantZone_fresh left hd hs
  rw [captured] at zones reports
  rw [Event.decideZone_replaces ht hl hwl]
  exact ⟨zones, congrArg _ reports⟩

/-! ### The agreement of a zone with its calls (R57) -/

/-- The calls that are granted or suspended at a zone are those that its record names. -/
structure Event.HoldsAt (e : Event) (z : Zone) : Prop where
  granted : ∀ r c, e.calls.call? r = some c →
    (ZoneSet.has c.granted z = true ↔ (e.zones.get z).state.live? = some r)
  suspended : ∀ r c, e.calls.call? r = some c →
    (ZoneSet.has c.suspended z = true ↔ r ∈ (e.zones.get z).stack.map StackEntry.call)

/-- A grant on an idle zone keeps its agreement (R44, R57). -/
theorem Event.HoldsAt.grantZone (h : e.HoldsAt z) (hi : (e.zones.get z).state.live? = none)
    (hc : e.calls.call? w = some c) : (e.grantZone z w).1.HoldsAt z := by
  obtain ⟨⟨st, live, zones⟩, calls, -⟩ := e.grantZone_spec z w c hc
  have record := congrArg (fun t => t.get z) zones
  rw [Table.get_set_same] at record
  refine ⟨fun r d hd => ?_, fun r d hd => ?_⟩ <;> rw [record] <;> rw [calls] at hd <;> split at hd
  · rename_i same
    obtain rfl := Option.some.inj hd
    simp [ZoneSet.has_add, live, same]
  · rename_i other
    simp [h.granted r d hd, hi, live, Ne.symm other]
  · rename_i same
    obtain rfl := Option.some.inj hd
    simp [ZoneSet.has_remove, same]
  · rename_i other
    rw [h.suspended r d hd]
    simp only [List.mem_map, List.mem_filter, decide_eq_true_eq]
    exact ⟨fun ⟨en, mem, is⟩ => ⟨en, ⟨mem, is ▸ other⟩, is⟩, fun ⟨en, ⟨mem, _⟩, is⟩ => ⟨en, mem, is⟩⟩

/-- The leaving of a live call keeps its zone's agreement (R46, R47, R57). -/
theorem Event.HoldsAt.displace (h : e.HoldsAt z) (hl : (e.zones.get z).state.live? = some l)
    (hc : e.calls.call? l = some c) (off : ∀ en ∈ (e.zones.get z).stack, en.call ≠ l)
    (size : (e.zones.get z).stack.length ≤ Config.stackLimit) (once : ((e.zones.get z).stack.map StackEntry.call).Nodup)
    (why : LossReason) : (e.displace z l why).1.HoldsAt z := by
  have record := congrArg (fun t => t.get z) (e.displace_spec z l why c hc off).1
  rw [Table.get_set_same] at record
  -- The calls on the stack afterwards: the one that left, under RESUME, and the old ones but for the one given up.
  have stack : ∀ r, r ∈ ((e.displace z l why).1.zones.get z).stack.map StackEntry.call ↔
      (c.captured.preempt = .resume ∧ r = l) ∨
        (r ∈ (e.zones.get z).stack.map StackEntry.call ∧ e.evictedCall z l c ≠ some r) := by
    intro r
    rw [record, Event.evictedCall]
    by_cases hp : c.captured.preempt = .resume
    · simp only [hp, if_true, true_and]
      exact mem_pushEntry size once r
    · simp [hp]
  refine ⟨fun r d hd => ?_, fun r d hd => ?_⟩
  · have ungranted : ZoneSet.has d.granted z = false := by
      rw [Event.call?_displace hc off] at hd
      have free : ∀ b, r ≠ l → e.calls.call? r = some b → ZoneSet.has b.granted z = false := fun b other hb =>
        Bool.eq_false_iff.2 fun k => other (Option.some.inj (((h.granted r b hb).1 k).symm.trans hl))
      split at hd
      · obtain rfl := Option.some.inj hd
        simp [ZoneSet.has_remove]
      · rename_i other
        split at hd
        · obtain ⟨b, hb, rfl⟩ := Option.map_eq_some_iff.1 hd
          exact free b other hb
        · exact free d other hd
    rw [record, ungranted]
    simp
  · rw [stack]
    rw [Event.call?_displace hc off] at hd
    split at hd
    · rename_i same
      subst same
      obtain rfl := Option.some.inj hd
      have unstacked : r ∉ (e.zones.get z).stack.map StackEntry.call := fun k => by
        obtain ⟨en, hen, is⟩ := List.mem_map.1 k
        exact off en hen is
      by_cases hp : c.captured.preempt = .resume
      · simp [hp, ZoneSet.has_add]
      · simp [hp, h.suspended r c hc, unstacked]
    · rename_i other
      split at hd
      · rename_i evicted
        obtain ⟨b, hb, rfl⟩ := Option.map_eq_some_iff.1 hd
        simp [ZoneSet.has_remove, other, evicted]
      · rename_i stays
        rw [h.suspended r d hd]
        simp [other, stays]

/-- Where call table and zones agree, the live call of a zone is not on its stack. -/
theorem Agree.live_not_stacked {t : CallTable} {zones : Table 16 ZoneRecord} (a : Agree t zones)
    (hl : (zones.get z).state.live? = some l) (hc : t.call? l = some c) : ∀ en ∈ (zones.get z).stack, en.call ≠ l := by
  intro en hen is
  have granted := (a.granted l c z hc).2 hl
  have suspended := (a.suspended l c z hc).2 (List.mem_map.2 ⟨en, hen, is⟩)
  have both := congrArg (fun m => ZoneSet.has m z) (a.disjoint l c hc)
  simp [ZoneSet.has_and, granted, suspended] at both

/-- Where call table and zones agree, a decision keeps the agreement of its zone (R42, R57). -/
theorem Agree.decideZone (a : Agree e.calls e.zones) (p : Plan) (z : Zone) : (e.decideZone p z).1.HoldsAt z := by
  have now : e.HoldsAt z := ⟨fun r c hc => a.granted r c z hc, fun r c hc => a.suspended r c z hc⟩
  have left : ∀ {l}, (e.zones.get z).state.live? = some l → ∀ why, (e.displace z l why).1.HoldsAt z := by
    intro l hl why
    obtain ⟨c, hc⟩ := Option.isSome_iff_exists.1 (a.liveOpen z l hl)
    exact now.displace hl hc (a.live_not_stacked hl hc) (a.stackSize z) (a.stackOnce z) why
  cases ht : e.top p z with
  | none =>
    cases hl : (e.zones.get z).state.live? with
    | none => rw [Event.decideZone_vacant ht hl]; exact now
    | some l => rw [Event.decideZone_leaves ht hl]; exact left hl _
  | some w =>
    obtain ⟨-, c, hc, -⟩ := Event.mem_contenders.1 (Event.top_contends ht)
    cases hl : (e.zones.get z).state.live? with
    | none => rw [Event.decideZone_grants ht hl]; exact now.grantZone hl hc
    | some l =>
      by_cases hwl : w = l
      · subst hwl
        rw [Event.decideZone_stays ht hl]
        exact now
      · rw [Event.decideZone_replaces ht hl hwl]
        obtain ⟨d, hd, -⟩ := e.setsOnlyAt_displace z l (e.leaveReason p z l) w c hc
        have idle := (e.displace_frame z l (e.leaveReason p z l)).2.2.1
        exact (left hl _).grantZone (by rw [idle]; rfl) hd

/-- A decision changes of an open call its granted and suspended sets alone, at its zone alone (R57). -/
theorem Event.setsOnlyAt_decideZone (e : Event) (p : Plan) (z : Zone) : e.SetsOnlyAt z (e.decideZone p z).1 := by
  unfold Event.decideZone
  split
  · exact .of_calls_eq rfl
  · exact e.setsOnlyAt_displace z _ _
  · exact e.setsOnlyAt_grantZone z _
  · split
    · exact .of_calls_eq rfl
    · exact (e.setsOnlyAt_displace z _ _).trans (Event.setsOnlyAt_grantZone _ z _)

/-! ### The statement -/

/-- The loss reason of a displacement, by the captured priority of the call that leaves (R45). -/
theorem Event.leaveReason_of_open (hc : e.calls.call? l = some c) :
    e.leaveReason p z l = if effectiveFloor p e.zones z ≤ c.captured.priority then .preempted else .floor := by
  rw [Event.leaveReason, Event.priority_of_open hc]

/-- A call that is on a stack neither before a push nor in the pushed entry is not on it afterwards. -/
theorem ne_of_mem_push {stack stack' : List StackEntry} {en : StackEntry} (sub : stack' ⊆ stack)
    (hs : ∀ x ∈ stack, x.call ≠ w) (hen : en.call ≠ w) : ∀ x ∈ en :: stack', x.call ≠ w := by
  intro x hx
  rcases List.mem_cons.1 hx with rfl | hx
  · exact hen
  · exact hs x (sub hx)

/-- Settles O52, case by case of Table 2-3. -/
theorem evaluationFollowsCases : Obligations.EvaluationFollowsCases := by
  refine ⟨fun e p z => rfl, fun e p z => ?_, ?_⟩
  · obtain ⟨kept, log⟩ := e.logKept_decideZone p z
    exact ⟨kept.lost, kept.ended, kept.admitted, kept.skippers, log, fun w c => Event.decideZone_leadIns⟩
  intro e p z zone
  refine ⟨Event.decideZone_vacant, fun w => Event.decideZone_stays, ?fresh, ?resumed, ?replaced, ?agrees, ?leaves⟩
  case fresh =>
    intro w c ht hl hc hs fresh
    rw [Event.decideZone_grants ht hl, ← grantReports_eq w fresh]
    exact Event.grantZone_fresh (Table.set_get _ _).symm hc hs
  case resumed =>
    intro w c en ht hl hc hen hw only resumed
    have phase : resumedState w c.captured en.resume = resumed := by
      dsimp only [resumed]
      cases en.resume <;> rfl
    rw [Event.decideZone_grants ht hl, ← phase]
    exact Event.grantZone_resumes hc hen hw only
  case replaced =>
    intro w l c d ht hwl hl hc hd hs fresh granted
    have decided := fun {zone} => Event.decideZone_replaces_fresh (zone := zone) ht hl hwl hc
    have reports : granted = grantReports w fresh := (grantReports_eq w fresh).symm
    rw [reports, ← ZoneState.resumePhase_eq]
    refine ⟨fun drop => ?_, fun resume room => ?_, fun x resume full last => ?_⟩
    · obtain ⟨zones, lost⟩ := Event.displace_drops (z := z) (why := e.leaveReason p z l) hd drop
      obtain ⟨zones', reports'⟩ := decided zones hs
      rw [lost, Event.leaveReason_of_open hd] at reports'
      exact ⟨zones', reports'⟩
    · obtain ⟨zones, lost⟩ := Event.displace_suspends (why := e.leaveReason p z l) hd resume (pushEntry_of_room _ room)
      obtain ⟨zones', reports'⟩ := decided zones (ne_of_mem_push (List.Subset.refl _) hs (Ne.symm hwl))
      rw [lost] at reports'
      exact ⟨zones', reports'⟩
    · obtain ⟨zones, lost⟩ := Event.displace_suspends (why := e.leaveReason p z l) hd resume (pushEntry_of_full _ full last)
      obtain ⟨zones', reports'⟩ := decided zones (ne_of_mem_push (List.dropLast_subset _) hs (Ne.symm hwl))
      rw [lost] at reports'
      exact ⟨zones', reports'⟩
  case agrees =>
    intro a r c hc
    obtain ⟨d, hd, sets⟩ := e.setsOnlyAt_decideZone p z r c hc
    have holds := a.decideZone p z
    refine ⟨d, hd, sets.sets, fun y hy => ?_, holds.granted r d hd, holds.suspended r d hd⟩
    obtain ⟨granted, suspended⟩ := sets.elsewhere y hy
    exact ⟨granted, suspended, (e.decideZone_frame p z).1 y hy⟩
  case leaves =>
    intro l c ht hl hc
    rw [Event.decideZone_leaves ht hl, ← ZoneState.resumePhase_eq]
    exact ⟨fun drop => Event.displace_drops hc drop,
      fun resume room => Event.displace_suspends hc resume (pushEntry_of_room _ room),
      fun x resume full last => Event.displace_suspends hc resume (pushEntry_of_full _ full last)⟩

end Sys2Proof.Machine
end

section
/-! What an event of calls and zones reports and how it completes: the ON_AIR and the loss reports, the calls' groups of
notices, the lanes and the chime players (R13 to R15, R23, R54, R69, R71, R75, R129, R132). -/

namespace Sys2Proof.Machine

variable {e : Event} {s : State} {z : Zone} {r : CallRef} {c : Call}

/-! ### The ON_AIR report (R13, R14) -/

/-- An ON_AIR report of a call that has spoken changes nothing (R13). -/
theorem Event.takeReport_onAir_of_spoken (hc : e.calls.call? r = some c) (hs : c.speak = true) :
    e.takeReport (.onAir r) = e := by
  simp [Event.takeReport, Event.speakMoment, hc, hs]

/-- The first ON_AIR report of a call sets its speak flag and remembers a SKIP call (R13, R14). -/
theorem Event.takeReport_onAir_of_silent (hc : e.calls.call? r = some c) (hs : c.speak = false) :
    e.takeReport (.onAir r) =
      { e.changeCall r fun c => { c with speak := true } with
        skippers := if c.captured.late = .skip then e.skippers ++ [r] else e.skippers } := by
  simp [Event.takeReport, Event.speakMoment, hc, hs]

/-- The call has spoken, if it is open. -/
def Event.Spoken (r : CallRef) (e : Event) : Prop := ∀ c, e.calls.call? r = some c → c.speak = true

/-- After an ON_AIR report the call has spoken (R13). -/
theorem Event.spoken_takeReport (e : Event) (r : CallRef) : (e.takeReport (.onAir r)).Spoken r := by
  intro d hd
  cases hc : e.calls.call? r with
  | none =>
    have same : e.takeReport (.onAir r) = e := by simp [Event.takeReport, Event.speakMoment, hc]
    rw [same, hc] at hd
    cases hd
  | some c =>
    cases hs : c.speak with
    | true =>
      rw [Event.takeReport_onAir_of_spoken hc hs, hc] at hd
      exact Option.some.inj hd ▸ hs
    | false =>
      rw [Event.takeReport_onAir_of_silent hc hs] at hd
      have changed := (Event.call?_changeCall e r r fun c => { c with speak := true }).symm.trans hd
      rw [if_pos rfl, hc] at changed
      exact Option.some.inj changed ▸ rfl

/-- A property that every loss for lateness keeps is kept by the end of an event (R14). -/
theorem Event.settle_keeps {P : Event → Prop} (h : ∀ e r z, P e → P (e.loseZone r z .late)) (he : P e) : P e.settle := by
  refine foldl_keeps (fun e r he => ?_) _ he
  unfold Event.prune
  split
  · exact he
  · exact foldl_keeps (fun e z he => h e r z he) _ he

/-- The loss of a zone leaves every speak flag. -/
theorem Event.Spoken.loseZone {q : CallRef} (h : e.Spoken r) (z : Zone) (why : LossReason) :
    (e.loseZone q z why).Spoken r := by
  intro d hd
  cases hq : e.calls.call? q with
  | none =>
    have same : e.loseZone q z why = e := by simp [Event.loseZone, hq]
    exact h d (same ▸ hd)
  | some c =>
    rw [(Event.loseZone_spec e q z why c hq).1] at hd
    split at hd
    · rename_i same
      subst same
      split at hd
      · cases hd
      · exact Option.some.inj hd ▸ h c hq
    · exact h d hd

/-! ### LEAD_IN_EXPIRY (R54) -/

/-- A lead-in at its last frame expires as one event. -/
theorem State.takeLeadInEnd_of_last (hz : (s.zones.get z).state = .leadIn r 1) :
    s.takeLeadInEnd z = s.event fun _ e => e.leadInExpires z r := by
  simp only [State.takeLeadInEnd, hz, if_true]

/-- Settles O22: the report and the pruning after it leave the zone records, and the pruning leaves the speak flag. -/
theorem leadInExpiryGoesOnAir : Obligations.LeadInExpiryGoesOnAir := by
  intro z s r hs hd hz
  have run : exec (.leadInExpiry z) s = .next ((s.undue (.leadInEnd z)).event fun _ e => e.leadInExpires z r) :=
    (running_perform hs hd).trans (congrArg _ (State.takeLeadInEnd_of_last (s := s.undue (.leadInEnd z)) hz))
  refine ⟨_, run, ?zones, ?speaks, fun c hc spoken => ?spoken, rfl, rfl, rfl, rfl, rfl, rfl, rfl⟩
  case zones =>
    refine (Event.settle_zones _).trans ?_
    exact (Event.takeReport_frame _ (.onAir r)).1
  case speaks =>
    exact Event.settle_keeps (P := Event.Spoken r) (fun e q y he => he.loseZone y .late) (Event.spoken_takeReport _ r)
  case spoken =>
    have quiet : (Event.start (s.undue (.leadInEnd z))).leadInExpires z r =
        (Event.start (s.undue (.leadInEnd z))).changeZone z fun zr => { zr with state := .onAir r } :=
      Event.takeReport_onAir_of_spoken (r := r) (c := c) hc spoken
    show (Event.settle ((Event.start (s.undue (.leadInEnd z))).leadInExpires z r)).calls = s.calls
    rw [quiet]
    rfl

/-! ### The loss report (R15) -/

/-- Nothing is left of a set without a zone exactly when the set holds no other. -/
theorem ZoneSet.remove_eq_empty {m : ZoneSet} {z : Zone} :
    ZoneSet.remove m z = 0#16 ↔ ∀ y, ZoneSet.has m y = true → y = z := by
  constructor
  · intro empty y hy
    have gone := ZoneSet.has_remove m z y
    rw [empty, ZoneSet.has_empty, hy] at gone
    simpa using gone.symm
  · intro only
    refine ZoneSet.ext_has fun y => ?_
    rw [ZoneSet.has_remove, ZoneSet.has_empty]
    cases hy : ZoneSet.has m y with
    | false => rfl
    | true => simp [only y hy]

/-- A call that loses the last zone of its target set is freed (R15, R22). -/
theorem Event.loseZone_of_last (why : LossReason) (hc : e.calls.call? r = some c)
    (last : ZoneSet.remove c.target z = 0#16) : (e.loseZone r z why).calls = e.calls.free r := by
  have still : (e.changeCall r fun c => { c with target := ZoneSet.remove c.target z }).calls.call? r =
      some { c with target := ZoneSet.remove c.target z } := by
    rw [Event.call?_changeCall, if_pos rfl, hc]
    rfl
  simp only [Event.loseZone, hc, last, if_true, Event.finishCall]
  simp only [last] at still
  simp only [still]
  exact CallTable.changeCall_free e.calls r c _ hc

/-- A reported loss of an open call (R15). -/
theorem Event.takeReport_loss (hc : e.calls.call? r = some c) (z : Zone) (why : LossReason) :
    let f := e.takeReport (.loss r z why)
    f.lost = e.lost ++ [(r, z, why)] ∧ f.zones = e.zones ∧ (∀ q, q ≠ r → f.calls.call? q = e.calls.call? q) ∧
      ((∀ y, ZoneSet.has c.target y = true → y = z) →
        f.calls = e.calls.free r ∧ f.ended = e.ended ++ [(r, .noZones)]) ∧
      ((∃ y, ZoneSet.has c.target y = true ∧ y ≠ z) →
        f.ended = e.ended ∧ ∃ target, f.calls.call? r = some { c with target := target } ∧
          ∀ y, ZoneSet.has target y = true ↔ ZoneSet.has c.target y = true ∧ y ≠ z) := by
  obtain ⟨calls, lost, ended, zones⟩ := e.loseZone_spec r z why c hc
  refine ⟨lost, zones, fun q hq => (calls q).trans (if_neg hq), fun only => ?_, fun ⟨y, hy, other⟩ => ?_⟩
  · have last := ZoneSet.remove_eq_empty.2 only
    exact ⟨Event.loseZone_of_last why hc last, ended.trans (by rw [if_pos last])⟩
  · have left : ZoneSet.remove c.target z ≠ 0#16 := fun empty => other (ZoneSet.remove_eq_empty.1 empty y hy)
    refine ⟨ended.trans (by rw [if_neg left, List.append_nil]), ZoneSet.remove c.target z, ?_, fun y => ?_⟩
    · exact (calls r).trans (by rw [if_pos rfl, if_neg left])
    · simp [ZoneSet.has_remove]

/-! ### The notices of a call (R23) -/

/-- The ZONE_LOST notices of a call, by zone (R23). -/
def Event.lossNotices (e : Event) (r : CallRef) : List Notice :=
  (List.finRange 16).flatMap fun z =>
    (e.lost.filter fun x => decide (x.1 = r ∧ x.2.1 = z)).map fun x => Notice.zoneLost r z x.2.2

/-- The CALL_ENDED notices of a call (R23). -/
def Event.endNotices (e : Event) (r : CallRef) : List Notice :=
  (e.ended.filter fun x => decide (x.1 = r)).map fun x => Notice.callEnded r x.2

/-- Picking and mapping in one pass or in two. -/
theorem filterMap_ite {α β : Type} (p : α → Prop) [DecidablePred p] (f : α → β) (l : List α) :
    (l.filterMap fun x => if p x then some (f x) else none) = (l.filter fun x => decide (p x)).map f := by
  induction l with
  | nil => rfl
  | cons x rest ih => by_cases hx : p x <;> simp [hx, ih]

/-- The losses and the ends of a call as its group takes them (R23). -/
theorem callNotices_parts (e : Event) (r : CallRef) :
    ((List.finRange 16).flatMap fun z =>
        e.lost.filterMap fun l => if l.1 = r && l.2.1 = z then some (Notice.zoneLost r z l.2.2) else none) =
      e.lossNotices r ∧
    (e.ended.filterMap fun x => if x.1 = r then some (Notice.callEnded r x.2) else none) = e.endNotices r := by
  refine ⟨congrArg (fun f => (List.finRange 16).flatMap f) (funext fun z => ?_), filterMap_ite _ _ _⟩
  simp only [Bool.and_eq_true, decide_eq_true_eq]
  exact filterMap_ite _ _ _

/-- The group of a call that is open at the end of the event: its CALL_STATUS stands between losses and end, when it was
admitted or its state or granted set changed (R23). -/
theorem callNotices_of_open (before : CallTable) (hc : e.calls.call? r = some c) :
    callNotices before e r =
      e.lossNotices r ++
      (if r ∈ e.admitted ∨ before.status? r ≠ some (c.state, c.granted) then [.callStatus r c.state c.granted] else []) ++
      e.endNotices r := by
  have status : e.calls.status? r = some (c.state, c.granted) := by rw [CallTable.status?, hc]; rfl
  obtain ⟨losses, ends⟩ := callNotices_parts e r
  simp only [callNotices, status, losses, ends, List.contains_eq_mem, Bool.or_eq_true, decide_eq_true_eq]

/-- The group of a call that is not open at the end of the event has no CALL_STATUS (R23). -/
theorem callNotices_of_ended (before : CallTable) (hc : e.calls.call? r = none) :
    callNotices before e r = e.lossNotices r ++ [] ++ e.endNotices r := by
  have status : e.calls.status? r = none := by rw [CallTable.status?, hc]; rfl
  obtain ⟨losses, ends⟩ := callNotices_parts e r
  simp only [callNotices, status, losses, ends]

/-! ### The mixers (R69, R71, R75) -/

/-- A zone changed in an event exactly when its phase or its live call differs (R69). -/
theorem zoneChanged_iff {before after : ZoneState} :
    zoneChanged before after = true ↔ before.phase ≠ after.phase ∨ before.live? ≠ after.live? := by
  simp only [zoneChanged, Bool.not_eq_true', Bool.and_eq_false_iff, decide_eq_false_iff_not, ne_eq]

section Mixers

variable (p : Plan) (calls : CallTable) (entry : ZoneEntry) (before after : ZoneState) (entered : Bool) (m : Mixer)

/-- The completion of an event starts chime players and otherwise works on lanes alone: these take their desired pairs when
the zone changed (R69). -/
theorem Mixer.afterEvent_lanes :
    (m.afterEvent p calls entry before after entered false).foreground =
        (if zoneChanged before after then m.foreground.apply (desiredForeground entry calls after) else m.foreground) ∧
      (m.afterEvent p calls entry before after entered false).background =
        if zoneChanged before after then m.background.apply (desiredBackground entry calls after) else m.background := by
  have lanes : ∀ b : Bool,
      (if b then m.apply entry calls after else m).foreground =
          (if b then m.foreground.apply (desiredForeground entry calls after) else m.foreground) ∧
        (if b then m.apply entry calls after else m).background =
          if b then m.background.apply (desiredBackground entry calls after) else m.background := by
    intro b
    cases b <;> exact ⟨rfl, rfl⟩
  unfold Mixer.afterEvent
  simp only [Bool.false_or]
  split
  · split <;> exact lanes _
  · exact lanes _

/-- No attenuation moves at the completion of an event (R71, R72). -/
theorem Mixer.afterEvent_att (l : LaneId) :
    ((m.afterEvent p calls entry before after entered false).lane l).att = (m.lane l).att := by
  obtain ⟨foreground, background⟩ := m.afterEvent_lanes p calls entry before after entered
  cases l with
  | foreground =>
    simp only [Mixer.lane, foreground]
    split
    · exact Lane.apply_att _ _
    · rfl
  | background =>
    simp only [Mixer.lane, background]
    split
    · exact Lane.apply_att _ _
    · rfl

/-- The lane updates leave the chime player (R69). -/
theorem Mixer.player_apply_ite (b : Bool) : (if b then m.apply entry calls after else m).player = m.player := by
  cases b <;> rfl

/-- A player stands as it is unless the event entered LEAD_IN and left the zone there (R75). -/
theorem Mixer.afterEvent_player_of_not_entered (h : entered = false ∨ after.phase ≠ .leadIn) :
    (m.afterEvent p calls entry before after entered false).player = m.player := by
  have stays : ¬ (entered && decide (after.phase = .leadIn)) = true := by
    rcases h with h | h <;> simp [h]
  unfold Mixer.afterEvent
  simp only [if_neg stays]
  exact m.player_apply_ite calls entry after _

/-- A player starts with the live call's captured pattern when the event entered LEAD_IN and left the zone there (R75). -/
theorem Mixer.afterEvent_player_of_entered {r : CallRef} {n : Nat} {c : Call} (hc : calls.call? r = some c) :
    (m.afterEvent p calls entry before (.leadIn r n) true false).player = ChimePlayer.start p c.captured.chime := by
  have fields : liveFields calls (.leadIn r n) = some (c.source, c.captured) := by
    simp only [liveFields, ZoneState.live?, hc]
  have here : (true && decide ((ZoneState.leadIn r n).phase = .leadIn)) = true := rfl
  unfold Mixer.afterEvent
  simp only [if_pos here, fields]

end Mixers

/-- A chime player that starts with a defined pattern stands at its first step (R75). -/
theorem ChimePlayer.start_of_pattern {p : Plan} {chime : Option (Fin 8)} {i : Fin 8} {pat : Pattern} (hi : chime = some i)
    (hp : p.patterns.get i = some pat) :
    ChimePlayer.start p chime =
      { pattern := some pat.toneSteps, pos := pat.toneSteps.head?.map fun st => ⟨1, st.frames⟩, phase := 0 } := by
  subst hi
  simp only [ChimePlayer.start, hp, startPos]

/-- Without a defined pattern the player is silent (R75). -/
theorem ChimePlayer.start_of_no_pattern {p : Plan} {chime : Option (Fin 8)}
    (h : ∀ i, chime = some i → p.patterns.get i = none) :
    ChimePlayer.start p chime = { pattern := none, pos := none, phase := 0 } := by
  cases chime with
  | none => rfl
  | some i => simp only [ChimePlayer.start, h i rfl]

/-- A mixer after an event (R69, R75). -/
theorem State.event_mixer (s : State) (f : Plan → Event → Event) (z : Zone) :
    (s.event f).mixers.get z =
      (s.mixers.get z).afterEvent s.plan (s.event f).calls (s.plan.zones.get z) (s.zones.get z).state
        ((s.event f).zones.get z).state (decide (z ∈ (f s.plan (Event.start s)).settle.leadIns)) false := by
  rw [← List.contains_eq_mem]
  exact Table.get_update _ _ _

/-! ### The statement -/

/-- Settles O28: the frame of an event, its notices by group, its mixers by zone, and its reports. -/
theorem callEventsLeaveOtherBlocks : Obligations.CallEventsLeaveOtherBlocks := by
  refine ⟨fun s f => ?frame, fun s f => ?completion, fun e r c hc => ?reports⟩
  case frame =>
    refine ⟨⟨rfl, rfl, rfl, rfl, rfl, rfl, rfl, rfl, rfl, rfl⟩, fun z l => ?_, submitAll_keeps _ s.notices⟩
    rw [State.event_mixer]
    exact Mixer.afterEvent_att _ _ _ _ _ _ _ l
  case completion =>
    intro t e group
    have groups : callNotices s.calls e = group := by
      funext r
      dsimp only [group]
      cases hc : e.calls.call? r with
      | none => exact callNotices_of_ended s.calls hc
      | some c => exact callNotices_of_open s.calls hc
    have notices : t.notices = s.notices.submitAll (eventNotices s.calls e) :=
      congrArg s.notices.submitAll (List.append_nil _)
    rw [eventNotices, groups] at notices
    refine ⟨rfl, rfl, notices, ?_⟩
    intro z before after
    have mixer : t.mixers.get z = (s.mixers.get z).afterEvent s.plan t.calls (s.plan.zones.get z) before after
        (decide (z ∈ e.leadIns)) false := s.event_mixer f z
    obtain ⟨foreground, background⟩ := (s.mixers.get z).afterEvent_lanes s.plan t.calls (s.plan.zones.get z) before after
      (decide (z ∈ e.leadIns))
    rw [← mixer] at foreground background
    refine ⟨fun phase live => ?same, fun changed => ?changed, fun stays => ?stays, fun r n c entered leadIn hc => ?starts⟩
    case same =>
      have same : ¬ zoneChanged before after = true := fun k =>
        (zoneChanged_iff.1 k).elim (fun h => h phase) fun h => h live
      exact ⟨foreground.trans (if_neg same), background.trans (if_neg same)⟩
    case changed =>
      have applied := zoneChanged_iff.2 changed
      exact ⟨foreground.trans (if_pos applied), background.trans (if_pos applied)⟩
    case stays =>
      rw [mixer]
      exact Mixer.afterEvent_player_of_not_entered _ _ _ _ _ _ _ (stays.imp_left (decide_eq_false ·))
    case starts =>
      rw [leadIn, decide_eq_true entered] at mixer
      have player : (t.mixers.get z).player = ChimePlayer.start s.plan c.captured.chime := by
        rw [mixer]
        exact Mixer.afterEvent_player_of_entered _ _ _ _ _ hc
      rw [player]
      exact ⟨fun i pat hi hp => ChimePlayer.start_of_pattern hi hp, ChimePlayer.start_of_no_pattern⟩
  case reports =>
    refine ⟨Event.takeReport_loss hc, Event.takeReport_onAir_of_spoken hc, fun silent => ?_⟩
    rw [Event.takeReport_onAir_of_silent hc silent]
    refine ⟨?_, fun q hq => ?_, rfl⟩
    · exact (Event.call?_changeCall e r r _).trans (by rw [if_pos rfl, hc]; rfl)
    · exact (Event.call?_changeCall e r q _).trans (if_neg hq)

end Sys2Proof.Machine
end

section
/-! The lanes of a zone mixer: the desired pairs, the lane update and the ramp step (R69 to R72). -/

namespace Sys2Proof.Machine

/-! ### The ramp step (R72) -/

/-- The way a lane's attenuation has to go to its target, up or down. -/
def Lane.toGo (l : Lane) : Nat := (l.target - l.att) + (l.att - l.target)

/-- A lane has no way to go exactly when it stands at its target. -/
theorem Lane.toGo_eq_zero {l : Lane} : l.toGo = 0 ↔ l.att = l.target := by
  unfold Lane.toGo
  omega

/-- Below its target a lane moves up by the rate, to the target at most (R72). -/
theorem Lane.ramp_of_below {l : Lane} (h : l.att < l.target) (rate : Nat) :
    l.ramp rate = { l with att := min (l.att + rate) l.target } := if_pos h

/-- Above its target a lane moves down by the rate, to the target at least (R72). -/
theorem Lane.ramp_of_above {l : Lane} (h : l.target < l.att) (rate : Nat) :
    l.ramp rate = { l with att := max (l.att - rate) l.target } :=
  (if_neg h.not_gt).trans (if_pos h)

/-- At its target a lane stands still (R72). -/
theorem Lane.ramp_of_reached {l : Lane} (h : l.att = l.target) (rate : Nat) : l.ramp rate = l :=
  (if_neg h.not_lt).trans (if_neg h.not_gt)

/-- A ramp step takes the rate off the way to go, moves the attenuation, and changes nothing else (R72). -/
theorem Lane.ramp_toGo (l : Lane) (rate : Nat) :
    (l.ramp rate).toGo = l.toGo - rate ∧ l.ramp rate = { l with att := (l.ramp rate).att } := by
  rcases lt_trichotomy l.att l.target with below | reached | above
  · rw [Lane.ramp_of_below below]
    refine ⟨?_, rfl⟩
    simp only [Lane.toGo]
    omega
  · rw [Lane.ramp_of_reached reached]
    refine ⟨?_, rfl⟩
    rw [Lane.toGo_eq_zero.2 reached, Nat.zero_sub]
  · rw [Lane.ramp_of_above above]
    refine ⟨?_, rfl⟩
    simp only [Lane.toGo]
    omega

/-- As many ramp steps as cover the way to go end exactly at the target (R72). -/
theorem Lane.iterate_ramp {rate : Nat} (n : Nat) (l : Lane) (h : l.toGo ≤ n * rate) :
    (fun l : Lane => l.ramp rate)^[n] l = { l with att := l.target } := by
  induction n generalizing l with
  | zero =>
    have reached : l.att = l.target := Lane.toGo_eq_zero.1 (by omega)
    exact congrArg (fun att => { l with att := att }) reached
  | succ n ih =>
    obtain ⟨shorter, moved⟩ := l.ramp_toGo rate
    have covered : (l.ramp rate).toGo ≤ n * rate := by
      rw [Nat.succ_mul] at h
      omega
    rw [Function.iterate_succ_apply, ih _ covered, moved]

/-- Settles O16, by the side of the target on which the lane stands. -/
theorem rampStepMovesLane : Obligations.RampStepMovesLane := fun l rate =>
  ⟨fun h => l.ramp_of_below h rate, fun h => l.ramp_of_above h rate, fun h => l.ramp_of_reached h rate,
    fun n _ h => l.iterate_ramp n h⟩

/-! ### The lane update (R71) -/

/-- A steady lane under a desired pair: cases D1, D2 and D3 of Table 3-2. -/
theorem Lane.apply_of_steady {l : Lane} (h : l.pending = none) (d : Desired) :
    l.apply d =
      if d.source = l.current then { l with target := d.level }
      else if l.att = 127 then { l with current := d.source, target := d.level }
      else { l with pending := some d.source, target := 127 } := by
  simp only [Lane.apply, h, Config.mute]

/-- A fading lane under a desired pair: cases F1 and F2 of Table 3-2. -/
theorem Lane.apply_of_fading {l : Lane} (h : l.pending ≠ none) (d : Desired) :
    l.apply d =
      if d.source = l.current then { l with pending := none, target := d.level }
      else { l with pending := some d.source } := by
  obtain ⟨src, fading⟩ := Option.ne_none_iff_exists'.1 h
  simp only [Lane.apply, fading]

/-! ### The desired pairs (R69, R70) -/

/-- The fields of an open live call. -/
theorem liveFields_of_call {calls : CallTable} {st : ZoneState} {r : CallRef} {c : Call} (hl : st.live? = some r)
    (hc : calls.call? r = some c) : liveFields calls st = some (c.source, c.captured) := by
  simp only [liveFields, hl, hc]

/-- An open live call sets the background's level by its duck mode (R70). -/
theorem desiredBackground_level_of_call (entry : ZoneEntry) {calls : CallTable} {st : ZoneState} {r : CallRef} {c : Call}
    (hl : st.live? = some r) (hc : calls.call? r = some c) :
    (desiredBackground entry calls st).level = duckLevel entry c.captured.duck := by
  simp only [desiredBackground, liveFields_of_call hl hc]

/-- An open call on the air gives the foreground its source (R69). -/
theorem desiredForeground_of_onAir (entry : ZoneEntry) {calls : CallTable} {r : CallRef} {c : Call}
    (hc : calls.call? r = some c) :
    desiredForeground entry calls (.onAir r) = ⟨.source c.source, entry.foregroundAtt⟩ := by
  simp only [desiredForeground, liveFields_of_call (st := .onAir r) rfl hc]

/-- Settles O18, by the cases of Table 3-2 and then those of Table 3-1. -/
theorem laneUpdateFollowsTable : Obligations.LaneUpdateFollowsTable := by
  refine ⟨fun l d => ⟨fun steady same => ?d1, fun steady new silent => ?d2, fun steady new sounding => ?d3,
      fun fading same => ?f1, fun fading new => ?f2⟩,
    fun entry calls st => ⟨rfl, fun r n => rfl, fun r c hc => desiredForeground_of_onAir entry hc,
      fun silent => ?noProgramme, fun src carried => ?programme, fun idle => ?idle, fun r c hl hc => ?live⟩⟩
  case d1 => rw [Lane.apply_of_steady steady, if_pos same]
  case d2 => rw [Lane.apply_of_steady steady, if_neg new, if_pos silent]
  case d3 => rw [Lane.apply_of_steady steady, if_neg new, if_neg sounding]
  case f1 => rw [Lane.apply_of_fading fading, if_pos same]
  case f2 => rw [Lane.apply_of_fading fading, if_neg new]
  case noProgramme => simp only [desiredBackground, silent]
  case programme => simp only [desiredBackground, carried]
  case idle => rw [idle]; rfl
  case live =>
    rw [desiredBackground_level_of_call entry hl hc]
    exact ⟨fun keep => keep ▸ rfl, fun duck => duck ▸ rfl, fun mute => mute ▸ rfl⟩

end Sys2Proof.Machine
end

section
/-! Gains and contributions (R79); the sine rule stands in Laws/Sine.lean (R77). -/

namespace Sys2Proof.Machine

/-- The entry of the gain table for an attenuation between unity and MUTE is the integer nearest 65,536 times 10 to the
power -a/40, with both sides doubled, raised to the power 40 and multiplied by 10 to the power a (R79). -/
theorem gain_nearest : ∀ a < 127, 1 ≤ a →
    (2 * gain a - 1) ^ 40 * 10 ^ a < 131072 ^ 40 ∧ 131072 ^ 40 < (2 * gain a + 1) ^ 40 * 10 ^ a := by
  decide

/-- Between unity and MUTE a contribution is the scaled product, rounded toward minus infinity (R79). -/
theorem contribution_of_between (x : Int) {a : Nat} (h0 : a ≠ 0) (h127 : a ≠ 127) :
    contribution x a = x * (gain a : Int) / 65536 :=
  (if_neg h0).trans (if_neg h127)

/-- Settles O17: the sine rule by `sineSample_nearest`, the gains from their table, the contribution as a floor. -/
theorem gainIsNearest : Obligations.GainIsNearest := by
  refine ⟨sineSample_nearest, fun a low high => gain_nearest a (by omega) low, fun x => ⟨rfl, rfl, fun a low high => ?_⟩⟩
  rw [contribution_of_between x (by omega) (by omega)]
  exact ⟨Int.ediv_mul_le _ (by decide), Int.lt_ediv_add_one_mul_self _ (by decide)⟩

end Sys2Proof.Machine
end

section
/-! What FADE_COMPLETION, CHIME_STEP_END and TONE_STEP_END do (R72, R76, R93). -/

namespace Sys2Proof.Machine

/-! ### The end of a fade (R72) -/

/-- A lane at the end of its fade takes its pending source and the level given (R72). -/
theorem Lane.completeFade_of_reached {l : Lane} {src : LaneSource} (hp : l.pending = some src) (ha : l.att = 127)
    (level : Nat) : l.completeFade level = { l with current := src, pending := none, target := level } := by
  simp only [Lane.completeFade, hp]
  exact if_pos ha

/-- A change of a lane counts by what it makes of that lane. -/
theorem Mixer.changeLane_congr (m : Mixer) (l : LaneId) {f g : Lane → Lane} (h : f (m.lane l) = g (m.lane l)) :
    m.changeLane l f = m.changeLane l g := by
  cases l with
  | foreground => exact congrArg (fun lane => { m with foreground := lane }) h
  | background => exact congrArg (fun lane => { m with background := lane }) h

/-- The end of a fade, on the whole state (R72). -/
theorem State.takeFadeEnd_of_reached {s : State} {z : Zone} {l : LaneId} {src : LaneSource}
    (hp : ((s.mixers.get z).lane l).pending = some src) (ha : ((s.mixers.get z).lane l).att = 127) :
    s.takeFadeEnd z l =
      { s with mixers := s.mixers.set z ((s.mixers.get z).changeLane l fun lane =>
          { lane with current := src, pending := none,
                      target := (desired (s.plan.zones.get z) s.calls (s.zones.get z).state l).level }) } := by
  refine congrArg (fun m => { s with mixers := s.mixers.set z m }) (Mixer.changeLane_congr _ l ?_)
  exact Lane.completeFade_of_reached hp ha _

/-! ### The end of a step (R76, R93) -/

/-- Before the last step the next one follows (R76, R93). -/
theorem nextPos_of_step {steps : List ToneStep} {n : Nat} {st : ToneStep} (h : steps[n]? = some st) (repeats : Bool)
    (remaining : Nat) : nextPos steps repeats ⟨n, remaining⟩ = some ⟨n + 1, st.frames⟩ := by
  simp only [nextPos, h]

/-- After the last step a pattern that repeats starts over and any other is over (R76, R93). -/
theorem nextPos_of_last {steps : List ToneStep} {n : Nat} (h : steps[n]? = none) (repeats : Bool) (remaining : Nat) :
    nextPos steps repeats ⟨n, remaining⟩ = if repeats then startPos steps else none := by
  simp only [nextPos, h]

/-- A pattern played once goes on to the step that follows, if there is one (R76). -/
theorem nextPos_once (steps : List ToneStep) (n remaining : Nat) :
    nextPos steps false ⟨n, remaining⟩ = (steps[n]?).map fun st => ⟨n + 1, st.frames⟩ := by
  cases h : steps[n]? with
  | none => exact nextPos_of_last h false remaining
  | some st => exact nextPos_of_step h false remaining

/-- The end of a chime player's step, at its last frame (R76). -/
theorem State.takeChimeEnd_of_last {s : State} {z : Zone} {steps : List ToneStep} {n : Nat}
    (hp : (s.mixers.get z).player.pattern = some steps) (hn : (s.mixers.get z).player.pos = some ⟨n, 1⟩) :
    s.takeChimeEnd z =
      { s with mixers := s.mixers.set z { s.mixers.get z with
          player := { (s.mixers.get z).player with pos := nextPos steps false ⟨n, 1⟩ } } } := by
  have ends : (s.mixers.get z).player.stepEnds = true := by simp [ChimePlayer.stepEnds, hn]
  simp only [State.takeChimeEnd, Table.modify, if_pos ends, ChimePlayer.endStep, hp, hn]

/-- The end of a generator's step, at its last frame (R93). -/
theorem State.takeToneEnd_of_last {s : State} {g : Tone} {pl : TonePlaying} {n : Nat}
    (hp : (s.sources.tones.get g).playing = some pl) (hn : pl.pos = some ⟨n, 1⟩) :
    s.takeToneEnd g =
      { s with sources := { s.sources with
          tones := s.sources.tones.set g { s.sources.tones.get g with
            playing := some { pl with pos := nextPos pl.steps pl.repeats ⟨n, 1⟩ } } } } := by
  have ends : (s.sources.tones.get g).stepEnds = true := by simp [ToneGen.stepEnds, hp, hn]
  simp only [State.takeToneEnd, Table.modify, if_pos ends, ToneGen.endStep, hp, hn]

/-- Settles O25, one command after another. -/
theorem fadeAndStepEnds : Obligations.FadeAndStepEnds := by
  intro s hs
  refine ⟨fun z l src hd hp ha => ?fade, fun z steps n hd hp hn => ?chime, ?tone⟩
  case fade =>
    exact (running_perform hs hd).trans (congrArg _ (State.takeFadeEnd_of_reached (s := s.undue (.fadeEnd z l)) hp ha))
  case chime =>
    rw [← nextPos_once steps n 1]
    exact (running_perform hs hd).trans (congrArg _ (State.takeChimeEnd_of_last (s := s.undue (.chimeEnd z)) hp hn))
  case tone =>
    intro g pl n hd hp hn after
    have next : nextPos pl.steps pl.repeats ⟨n, 1⟩ = after := by
      dsimp only [after]
      cases step : pl.steps[n]? with
      | none => rw [nextPos_of_last step, startPos, List.head?_eq_getElem?]
      | some st => exact nextPos_of_step step _ _
    rw [← next]
    exact (running_perform hs hd).trans (congrArg _ (State.takeToneEnd_of_last (s := s.undue (.toneEnd g)) hp hn))

end Sys2Proof.Machine
end

section
/-! The observations of a trunk source (R88 to R90, Table 4-2), and PRESENCE_CONFIRMED (R89, R96). -/

namespace Sys2Proof.Machine

/-! ### One observation, by the state of the source and the PRESENT flag (Table 4-2) -/

section Observation

variable {t : TrunkRecord} (s : Trunk) (k : Bool)

/-- An ABSENT source observed present: cases A1 and A2. -/
theorem TrunkRecord.observe_present_of_absent (h : t.state = .absent) :
    t.observe s true k =
      if t.presence + 1 < 48 then
        ({ t with flagPresent := true, flagKeyed := k, presence := t.presence + 1 }, [])
      else (t, [.presence s k]) := by
  simp only [TrunkRecord.observe, h]
  rfl

/-- An ABSENT source not observed present: case A3. -/
theorem TrunkRecord.observe_lost_of_absent (h : t.state = .absent) :
    t.observe s false k = ({ t with flagPresent := false, flagKeyed := k, presence := 0 }, []) := by
  simp only [TrunkRecord.observe, h]
  rfl

/-- A QUIET source observed present: cases Q1 and Q2, and case Q3. -/
theorem TrunkRecord.observe_present_of_quiet (h : t.state = .quiet) :
    t.observe s true k =
      if k then
        if t.key + 1 < 96 then
          ({ t with flagPresent := true, flagKeyed := k, key := t.key + 1, absence := 0 }, [])
        else
          ({ t.clearRuns with flagPresent := true, flagKeyed := k, state := .keyed }, [.keyUp s])
      else ({ t with flagPresent := true, flagKeyed := k, key := 0, absence := 0 }, []) := by
  simp only [TrunkRecord.observe, h]
  rfl

/-- A QUIET source not observed present: cases Q4 and Q5. -/
theorem TrunkRecord.observe_lost_of_quiet (h : t.state = .quiet) :
    t.observe s false k =
      if t.absence + 1 < 2400 then
        ({ t with flagPresent := false, flagKeyed := k, key := 0, absence := t.absence + 1 }, [])
      else
        ({ t.clearRuns with flagPresent := false, flagKeyed := k, state := .absent }, [.loss (trunkSource s)]) := by
  simp only [TrunkRecord.observe, h]
  rfl

/-- A KEYED source observed present: case K1, and cases K2 and K3. -/
theorem TrunkRecord.observe_present_of_keyed (h : t.state = .keyed) :
    t.observe s true k =
      if k then ({ t with flagPresent := true, flagKeyed := k, release := 0, absence := 0 }, [])
      else if t.release + 1 < 96 then
        ({ t with flagPresent := true, flagKeyed := k, release := t.release + 1, absence := 0 }, [])
      else
        ({ t.clearRuns with flagPresent := true, flagKeyed := k, state := .quiet }, [.keyDown s]) := by
  simp only [TrunkRecord.observe, h]
  rfl

/-- A KEYED source not observed present: cases K4 and K5. -/
theorem TrunkRecord.observe_lost_of_keyed (h : t.state = .keyed) :
    t.observe s false k =
      if t.release + 1 < 96 then
        ({ t with flagPresent := false, flagKeyed := k, release := t.release + 1, absence := t.absence + 1 }, [])
      else
        ({ t with flagPresent := false, flagKeyed := k, state := .quiet, key := 0, release := 0,
                  absence := t.absence + 1 }, [.keyDown s]) := by
  simp only [TrunkRecord.observe, h]
  rfl

end Observation

/-! ### PRESENCE_CONFIRMED (R89, R96) -/

/-- What PRESENCE_CONFIRMED makes of an ABSENT source: case A2, or the observation under the new mapping when the presence
run no longer stands at its last value (R96). -/
theorem TrunkRecord.takePresence_of_absent {t : TrunkRecord} (h : t.state = .absent) (s : Trunk)
    (keyed seen seenKeyed : Bool) :
    t.takePresence s keyed seen seenKeyed =
      if 48 ≤ t.presence + 1 then
        { state := .quiet, presence := 0, key := 0, release := 0, absence := 0, flagPresent := true, flagKeyed := keyed }
      else
        { t with presence := if seen then t.presence + 1 else 0, flagPresent := seen, flagKeyed := seenKeyed } := by
  by_cases full : 48 ≤ t.presence + 1
  · have confirmed : t.takePresence s keyed seen seenKeyed = t.confirmPresence keyed := by
      simp only [TrunkRecord.takePresence, h]
      exact if_neg (Nat.not_lt.2 full)
    rw [if_pos full, confirmed]
    simp only [TrunkRecord.confirmPresence, h, TrunkRecord.clearRuns]
  · have below : t.presence + 1 < 48 := Nat.not_le.1 full
    have observed : t.takePresence s keyed seen seenKeyed = (t.observe s seen seenKeyed).1 := by
      simp only [TrunkRecord.takePresence, h]
      exact if_pos below
    rw [if_neg full, observed]
    cases seen with
    | true => rw [TrunkRecord.observe_present_of_absent s seenKeyed h, if_pos below]; rfl
    | false => rw [TrunkRecord.observe_lost_of_absent s seenKeyed h]; rfl

/-- PRESENCE_CONFIRMED takes the observation that is due, whichever KEYED flag it had. -/
theorem exec_presenceConfirmed_of_due {s : State} {k : Trunk} {keyed : Bool} (hs : s.inReset = false)
    (due : Task.presence k keyed ∈ s.due) (single : Task.presence k (!keyed) ∉ s.due) :
    exec (.presenceConfirmed k) s = .next ((s.undue (.presence k keyed)).takePresence k keyed) := by
  have run : exec (.presenceConfirmed k) s =
      .next ((s.perform (.presence k true)).perform (.presence k false)) := by
    show execPresenceConfirmed k s = _
    simp [execPresenceConfirmed, running_eq_next, hs]
  rw [run]
  cases keyed with
  | true =>
    have done : Task.presence k false ∉ (State.effect (.presence k true) (s.undue (.presence k true))).due :=
      fun left => single (List.mem_of_mem_erase left)
    rw [State.perform_due due]
    exact congrArg _ (State.perform_undue done)
  | false =>
    have skipped : s.perform (.presence k true) = s := State.perform_undue single
    rw [skipped, State.perform_due due]
    rfl

/-- Settles O15: PRESENCE_CONFIRMED, and then the cases of Table 4-2 by the state of the source. -/
theorem observationFollowsTable : Obligations.ObservationFollowsTable := by
  refine ⟨fun k keyed s hs due single absent => ?confirmed,
    fun t s k => ⟨fun absent => ?absent, fun quiet => ?quiet, fun keyed => ?keyed⟩⟩
  case confirmed =>
    have record := TrunkRecord.takePresence_of_absent absent k keyed (observedPresent s.plan s.now k)
      (observedKeyed s.plan s.now k)
    refine (exec_presenceConfirmed_of_due hs due single).trans ?_
    rw [← record]
    rfl
  case absent =>
    have present := TrunkRecord.observe_present_of_absent s k absent
    exact ⟨fun below => present.trans (if_pos below), fun full => present.trans (if_neg (Nat.not_lt.2 full)),
      TrunkRecord.observe_lost_of_absent s false absent⟩
  case quiet =>
    have present := TrunkRecord.observe_present_of_quiet s k quiet
    have lost := TrunkRecord.observe_lost_of_quiet s false quiet
    exact ⟨fun below key => (present.trans (if_pos key)).trans (if_pos below),
      fun full key => (present.trans (if_pos key)).trans (if_neg (Nat.not_lt.2 full)),
      fun unkeyed => present.trans (if_neg (by simp [unkeyed])),
      fun below => lost.trans (if_pos below), fun full => lost.trans (if_neg (Nat.not_lt.2 full))⟩
  case keyed =>
    have present := TrunkRecord.observe_present_of_keyed s k keyed
    have unkeyed (off : k = false) := present.trans (if_neg (by simp [off]))
    have lost := TrunkRecord.observe_lost_of_keyed s false keyed
    exact ⟨fun key => present.trans (if_pos key), fun off below => (unkeyed off).trans (if_pos below),
      fun off full => (unkeyed off).trans (if_neg (Nat.not_lt.2 full)),
      fun below => lost.trans (if_pos below), fun full => lost.trans (if_neg (Nat.not_lt.2 full))⟩

end Sys2Proof.Machine
end

section
/-! What of the message block a PLAN_WRITE rests on: every queued payload has its stated length (R144, R148, R150). -/

namespace Sys2Proof.Machine

/-- What of the message block a PLAN_WRITE rests on: a message in assembly is shorter than its stated length makes it, and
every queued payload has its stated length (R144, R148). -/
structure MessageBlock.Sized (m : MessageBlock) : Prop where
  assembler : 3 ≤ m.assembler.length → m.assembler.length < 4 + lengthOf (wordAt m.assembler 2)
  payloads : ∀ r ∈ m.requests, r.payload.length = r.len

section Messages

variable {m : MessageBlock}

/-- The message block's own conditions say it. -/
theorem MessageBlock.Wf.sized (h : m.Wf) : m.Sized := ⟨fun k => (h.expected k).2, fun r hr => (h.payloads r hr).1⟩

/-- Queues and counters other than the assembler and the request queue do not matter. -/
theorem MessageBlock.Sized.of_eq {n : MessageBlock} (h : m.Sized) (ha : n.assembler = m.assembler)
    (hr : n.requests = m.requests) : n.Sized :=
  ⟨ha ▸ h.assembler, hr ▸ h.payloads⟩

/-- An assembler of at most two words has no stated length yet. -/
theorem MessageBlock.Sized.of_short {n : MessageBlock} (h : m.Sized) (ha : n.assembler.length ≤ 2)
    (hr : n.requests = m.requests) : n.Sized :=
  ⟨fun k => by omega, hr ▸ h.payloads⟩

/-- A FIRST word begins a message afresh (R146). -/
theorem MessageBlock.Sized.beginMessage (h : m.Sized) (a : BitVec 6) (w : ControlWord) : (m.beginMessage a w).Sized := by
  unfold MessageBlock.beginMessage
  split
  · exact h.of_short (by simp) rfl
  · split
    · exact h.of_short (by simp) rfl
    · split <;> exact h.of_short (by simp) rfl

/-- A complete message of its stated length gives a payload of that length (R149, R150). -/
theorem MessageBlock.Sized.checkMessage (h : m.Sized) {ws : List Word} (hn : ws.length = 4 + lengthOf (wordAt ws 2)) :
    (m.checkMessage ws).Sized := by
  unfold MessageBlock.checkMessage
  dsimp only
  split
  · exact h.of_eq rfl rfl
  · split
    · exact h.of_eq rfl rfl
    · split
      · exact h.of_eq rfl rfl
      · unfold MessageBlock.appendRequest
        split
        · refine ⟨h.assembler, fun r hr => ?_⟩
          rcases List.mem_append.1 hr with hr | hr
          · exact h.payloads r hr
          · rw [List.mem_singleton.1 hr]
            simp only [List.length_drop, List.length_dropLast]
            omega
        · exact h.of_eq rfl rfl

/-- The third word of a message in assembly stays where it is. -/
theorem wordAt_append_of_lt {ws : List Word} {i : Nat} (h : i < ws.length) (w : Word) :
    wordAt (ws ++ [w]) i = wordAt ws i := by
  simp only [wordAt, List.getD_eq_getElem?_getD, List.getElem?_append_left h]

/-- A MORE or LAST word is assembled: the message is given up, checked at its stated length, or grows below it (R148). -/
theorem MessageBlock.Sized.assemble (h : m.Sized) (w : ControlWord) (rest : InputState) : (m.assemble w rest).Sized := by
  have grown : (m.assembler ++ [w.data]).length = m.assembler.length + 1 := by simp
  have stated : 3 ≤ m.assembler.length → m.assembler.length < 4 + lengthOf (wordAt (m.assembler ++ [w.data]) 2) :=
    fun k => by rw [wordAt_append_of_lt (by omega)]; exact h.assembler k
  have givenUp : ∀ i, MessageBlock.Sized { m.discardAssembly with input := i } := fun _ =>
    h.of_short (Nat.zero_le _) rfl
  unfold MessageBlock.assemble
  dsimp only
  split
  · exact givenUp _
  · split
    · exact givenUp _
    · split
      · exact ⟨fun _ => by dsimp only; omega, h.payloads⟩
      · split
        · split
          · exact givenUp _
          · exact (h.of_short (n := { m with input := .between, assembler := [] }) (Nat.zero_le _) rfl).checkMessage (by omega)
        · split
          · exact ⟨fun _ => by assumption, h.payloads⟩
          · exact givenUp _

/-- An input word is taken (R145): a message begins, grows, is given up, or passes by. -/
theorem MessageBlock.Sized.intake (h : m.Sized) (a : BitVec 6) (w : ControlWord) : (m.intake a w).Sized := by
  have dropped : m.discardAssembly.Sized := h.of_short (Nat.zero_le _) rfl
  unfold MessageBlock.intake
  split
  -- A FIRST word, after a message that is given up or at its own place.
  case h_2 | h_20 | h_24 => exact h.beginMessage a w
  case h_8 => exact (h.of_eq (n := m.abandon) rfl rfl).beginMessage a w
  case h_12 => exact dropped.beginMessage a w
  case h_16 => exact (dropped.of_eq (n := m.discardAssembly.abandon) rfl rfl).beginMessage a w
  -- A MORE or LAST word of a consumed message, and of a broadcast.
  case h_9 | h_10 => exact h.assemble w _
  case h_13 => exact (h.of_eq (n := { m with transit := m.transit ++ [w] }) rfl rfl).assemble w _
  case h_14 => exact ((h.of_eq (n := { m with transit := m.transit ++ [w] }) rfl rfl).assemble w _).of_eq rfl rfl
  -- An IDLE word within one of these.
  case h_11 | h_15 => exact dropped.of_eq rfl rfl
  all_goals exact h.of_eq rfl rfl

/-- Placing an output word leaves the incoming side (R156). -/
theorem MessageBlock.Sized.emit (h : m.Sized) : m.emit.1.Sized := by
  unfold MessageBlock.emit
  split
  · exact h.of_eq rfl rfl
  · split <;> exact h.of_eq rfl rfl

/-- The positions of a boundary (R156). -/
theorem MessageBlock.Sized.positions (a : BitVec 6) (ws : List ControlWord) {m : MessageBlock} (h : m.Sized) :
    (MessageBlock.positions a ws m).1.Sized := by
  induction ws generalizing m with
  | nil => exact h
  | cons w rest ih => exact ih (h.intake a w).emit

end Messages

end Sys2Proof.Machine
end

section
/-! Plans with every field in its range, and lanes within their attenuations: what each operation keeps (R68, R70 to R72, R102
to R106, R110). -/

namespace Sys2Proof.Machine

/-! ### Plans in range (R102 to R106, R110) -/

/-- Every word of an entry that passes its checks is in its range (R102 to R105). -/
theorem entryWordInRange_of_checks {e : EntryName} {ws : List Word} (hl : ws.length = 11)
    (hf : firstBad (applyChecks (entryChecks e) ws) = none) (i : Nat) (hi : i < 11) :
    entryWordInRange e i (wordAt ws i).toNat := by
  obtain ⟨f, hc, range⟩ := entryCheck_word e i hi
  have word : ws[i]? = some (wordAt ws i) := by
    rw [wordAt, List.getD_eq_getElem?_getD, List.getElem?_eq_getElem (by omega), Option.getD_some]
  refine (range _).1 ((firstBad_eq_none _).1 hf _ (List.mem_map.2 ⟨(f, wordAt ws i), ?_, rfl⟩))
  exact List.mem_of_getElem? (List.getElem?_zip_eq_some.2 ⟨hc, word⟩)

/-- A class entry as it is written (R102). -/
theorem wordsClass_inRange {ws : List Word} {i : Fin 8} (range : ∀ k < 11, entryWordInRange (.cls i) k (wordAt ws k).toNat)
    {d : ClassDef} (hd : wordsClass ws = some d) : d.InRange := by
  unfold wordsClass at hd
  split at hd
  · injection hd with hd
    subst hd
    have priority : 1 ≤ (wordAt ws 1).toNat ∧ (wordAt ws 1).toNat ≤ 15 := range 1 (by decide)
    have chime : (wordAt ws 5).toNat ≤ 10000 := range 5 (by decide)
    have wait : (wordAt ws 7).toNat ≤ 65535 := range 7 (by decide)
    have duration : (wordAt ws 8).toNat ≤ 65535 := range 8 (by decide)
    have hold : (wordAt ws 9).toNat ≤ 65535 := range 9 (by decide)
    exact ⟨priority.1, priority.2, chime, wait, duration, hold⟩
  · cases hd

/-- A zone entry as it is written (R103). -/
theorem wordsZone_inRange {ws : List Word} {z : Zone} (range : ∀ k < 11, entryWordInRange (.zone z) k (wordAt ws k).toNat) :
    (wordsZone ws).InRange := by
  have ramp : 1 ≤ (wordAt ws 7).toNat ∧ (wordAt ws 7).toNat ≤ 8 := range 7 (by decide)
  exact ⟨range 2 (by decide), range 3 (by decide), range 4 (by decide), range 5 (by decide), ramp.1, ramp.2⟩

/-- A pattern entry as it is written (R105). -/
theorem wordsPattern_inRange {ws : List Word} {i : Fin 8}
    (range : ∀ k < 11, entryWordInRange (.pattern i) k (wordAt ws k).toNat) {q : Pattern}
    (hq : wordsPattern ws = some q) : q.InRange := by
  unfold wordsPattern at hq
  split at hq
  · injection hq with hq
    subst hq
    have count : 1 ≤ (wordAt ws 1).toNat ∧ (wordAt ws 1).toNat ≤ 4 := range 1 (by decide)
    have four : (wordsSteps ws).length = 4 := rfl
    refine ⟨?_, ?_, fun st hst => ?_⟩
    · rw [List.length_take]; omega
    · rw [List.length_take]; omega
    · have known := List.mem_of_mem_take hst
      simp only [wordsSteps, List.mem_cons, List.not_mem_nil, or_false] at known
      rcases known with rfl | rfl | rfl | rfl
      · exact ⟨range 3 (by decide), range 4 (by decide)⟩
      · exact ⟨range 5 (by decide), range 6 (by decide)⟩
      · exact ⟨range 7 (by decide), range 8 (by decide)⟩
      · exact ⟨range 9 (by decide), range 10 (by decide)⟩
  · cases hq

section Plans

variable {p q : Plan}

/-- A class entry in range, or none, leaves a plan in range. -/
theorem Plan.InRange.setClass (h : p.InRange) (i : Fin 8) {e : Option ClassDef} (he : ∀ d, e = some d → d.InRange) :
    Plan.InRange { p with classes := p.classes.set i e } := by
  refine ⟨fun j d hd => ?_, h.2.1, h.2.2⟩
  rw [Table.get_set] at hd
  split at hd
  · exact he d hd
  · exact h.1 j d hd

/-- A zone entry in range leaves a plan in range. -/
theorem Plan.InRange.setZone (h : p.InRange) (z : Zone) {e : ZoneEntry} (he : e.InRange) :
    Plan.InRange { p with zones := p.zones.set z e } := by
  refine ⟨h.1, fun y => ?_, h.2.2⟩
  rw [Table.get_set]
  split
  · exact he
  · exact h.2.1 y

/-- A pattern entry in range, or none, leaves a plan in range. -/
theorem Plan.InRange.setPattern (h : p.InRange) (i : Fin 8) {e : Option Pattern} (he : ∀ q, e = some q → q.InRange) :
    Plan.InRange { p with patterns := p.patterns.set i e } := by
  refine ⟨h.1, h.2.1, fun j q hq => ?_⟩
  rw [Table.get_set] at hq
  split at hq
  · exact he q hq
  · exact h.2.2 j q hq

/-- An entry whose eleven words pass their checks leaves a plan in range (R110). -/
theorem Plan.InRange.writeEntry (h : p.InRange) {e : EntryName} {ws : List Word} (hl : ws.length = 11)
    (hf : firstBad (applyChecks (entryChecks e) ws) = none) : (p.writeEntry ws e).InRange := by
  have range := entryWordInRange_of_checks hl hf
  cases e with
  | cls i => exact h.setClass i fun _ hd => wordsClass_inRange range hd
  | zone z => exact h.setZone z (wordsZone_inRange range)
  | trunk k => exact h
  | tone g => exact h
  | pattern i => exact h.setPattern i fun _ hq => wordsPattern_inRange range hq

/-- An entry copied from a plan in range leaves a plan in range (R117). -/
theorem Plan.InRange.copyEntry (h : p.InRange) (hq : q.InRange) (k : Nat) : (p.copyEntry q k).InRange := by
  unfold Plan.copyEntry
  split
  · exact h.setClass _ (hq.1 _)
  · split
    · exact h.setZone _ (hq.2.1 _)
    · split
      · exact h
      · split
        · exact h
        · split
          · exact h.setPattern _ (hq.2.2 _)
          · exact h

end Plans

/-- The blank plan is in range: the reset loads it in bank 1 (R106, R124). -/
theorem blankPlan_inRange : blankPlan.InRange := resetPlanStore_inRange .b1

/-- A bank whose plan is in range leaves a plan store in range. -/
theorem PlanStore.InRange.setBank {p : PlanStore} (h : p.InRange) (n : BankNo) {b : Bank} (hb : b.plan.InRange) :
    (p.setBank n b).InRange := by
  intro m
  rw [PlanStore.bank_setBank]
  split
  · exact hb
  · exact h m

/-- A plan store with the same banks has the same ranges. -/
theorem PlanStore.InRange.of_bank {p q : PlanStore} (h : p.InRange) (hb : q.bank = p.bank) : q.InRange := fun n =>
  hb ▸ h n

/-- A copied entry leaves a plan store in range (R117). -/
theorem PlanStore.InRange.copyOne {p : PlanStore} (h : p.InRange) (k : Nat) : (p.copyOne k).InRange :=
  h.setBank _ ((h _).copyEntry (h _) k)

/-! ### Lanes (R68, R70 to R72) -/

section Lanes

variable {l : Lane}

/-- A lane takes a desired pair whose level is an attenuation (R71). -/
theorem Lane.Wf.apply (h : l.Wf) {d : Desired} (hd : d.level ≤ 127) : (l.apply d).Wf := by
  by_cases steady : l.pending = none
  · rw [Lane.apply_of_steady steady]
    split
    · exact ⟨h.attBound, hd, by simp [steady]⟩
    · split
      · exact ⟨h.attBound, hd, by simp [steady]⟩
      · exact ⟨h.attBound, Nat.le_refl _, fun _ => rfl⟩
  · rw [Lane.apply_of_fading steady]
    split
    · exact ⟨h.attBound, hd, by simp⟩
    · exact ⟨h.attBound, h.targetBound, fun _ => h.fading (Option.isSome_iff_ne_none.2 steady)⟩

/-- A ramp step moves towards the target (R72). -/
theorem Lane.Wf.ramp (h : l.Wf) (rate : Nat) : (l.ramp rate).Wf := by
  obtain ⟨att, target, fading⟩ := h
  rcases lt_trichotomy l.att l.target with below | reached | above
  · rw [Lane.ramp_of_below below]
    exact ⟨by dsimp only; omega, target, fading⟩
  · rw [Lane.ramp_of_reached reached]
    exact ⟨att, target, fading⟩
  · rw [Lane.ramp_of_above above]
    exact ⟨by dsimp only; omega, target, fading⟩

/-- A fade completes at a level that is an attenuation (R72). -/
theorem Lane.Wf.completeFade (h : l.Wf) {level : Nat} (hd : level ≤ 127) : (l.completeFade level).Wf := by
  unfold Lane.completeFade
  split
  · exact h
  · split
    · exact ⟨h.attBound, hd, by simp⟩
    · exact h

/-- The background lane never takes up CHIME (R68). -/
def Lane.Unchimed (l : Lane) : Prop := l.current ≠ .chime ∧ l.pending ≠ some .chime

/-- A desired source other than CHIME leaves the background without CHIME. -/
theorem Lane.Unchimed.apply (h : l.Unchimed) {d : Desired} (hd : d.source ≠ .chime) : (l.apply d).Unchimed := by
  obtain ⟨current, pending⟩ := h
  by_cases steady : l.pending = none
  · rw [Lane.apply_of_steady steady]
    split
    · exact ⟨current, pending⟩
    · split
      · exact ⟨hd, pending⟩
      · exact ⟨current, by simpa using hd⟩
  · rw [Lane.apply_of_fading steady]
    split
    · exact ⟨current, by simp⟩
    · exact ⟨current, by simpa using hd⟩

/-- The end of a fade installs what was pending. -/
theorem Lane.Unchimed.completeFade (h : l.Unchimed) (level : Nat) : (l.completeFade level).Unchimed := by
  unfold Lane.completeFade
  split
  · exact h
  · rename_i src pending
    split
    · exact ⟨fun k => h.2 (pending.trans (congrArg some k)), by simp⟩
    · exact h

end Lanes

section Desires

variable {entry : ZoneEntry} (he : entry.InRange) (calls : CallTable) (st : ZoneState)
include he

/-- The foreground's desired level is an attenuation (R69). -/
theorem ZoneEntry.InRange.foreground : (desiredForeground entry calls st).level ≤ 127 := by
  obtain ⟨-, -, level, -⟩ := he
  unfold desiredForeground
  split
  · exact Nat.le_refl _
  · exact level
  · split
    · exact Nat.le_refl _
    · exact level

/-- The background's desired level is an attenuation (R70). -/
theorem ZoneEntry.InRange.background : (desiredBackground entry calls st).level ≤ 127 := by
  obtain ⟨programme, duck, -⟩ := he
  unfold desiredBackground
  dsimp only
  split
  · exact programme
  · unfold duckLevel
    split
    · exact programme
    · exact Nat.max_le.2 ⟨programme, duck⟩
    · exact Nat.le_refl _

/-- The desired level of either lane is an attenuation. -/
theorem ZoneEntry.InRange.desired (l : LaneId) : (Machine.desired entry calls st l).level ≤ 127 := by
  cases l with
  | foreground => exact he.foreground calls st
  | background => exact he.background calls st

end Desires

/-- The background never desires CHIME (R69). -/
theorem desiredBackground_ne_chime (entry : ZoneEntry) (calls : CallTable) (st : ZoneState) :
    (desiredBackground entry calls st).source ≠ .chime := by
  unfold desiredBackground
  dsimp only
  split <;> simp

section Mixers

variable {m : Mixer}

/-- The chime player does not matter. -/
theorem Mixer.Wf.withPlayer (h : m.Wf) (c : ChimePlayer) : Mixer.Wf { m with player := c } := ⟨h.fore, h.back, h.noChime⟩

/-- Both lanes take their desired pairs (R69). -/
theorem Mixer.Wf.apply (h : m.Wf) {entry : ZoneEntry} (he : entry.InRange) (calls : CallTable) (st : ZoneState) :
    (m.apply entry calls st).Wf :=
  ⟨h.fore.apply (he.foreground calls st), h.back.apply (he.background calls st),
    Lane.Unchimed.apply h.noChime (desiredBackground_ne_chime entry calls st)⟩

/-- Both lanes take a ramp step (R72). -/
theorem Mixer.Wf.ramp (h : m.Wf) (rate : Nat) : (m.ramp rate).Wf := by
  refine ⟨h.fore.ramp rate, h.back.ramp rate, ?_⟩
  obtain ⟨-, moved⟩ := m.background.ramp_toGo rate
  show (m.background.ramp rate).Unchimed
  rw [moved]
  exact h.noChime

/-- A lane's fade ends (R72). -/
theorem Mixer.Wf.endFade (h : m.Wf) (l : LaneId) {level : Nat} (hd : level ≤ 127) :
    (m.changeLane l fun lane => lane.completeFade level).Wf := by
  cases l with
  | foreground => exact ⟨h.fore.completeFade hd, h.back, h.noChime⟩
  | background => exact ⟨h.fore, h.back.completeFade hd, Lane.Unchimed.completeFade h.noChime level⟩

/-- A mixer at the completion of an event (R69, R75). -/
theorem Mixer.Wf.afterEvent (h : m.Wf) (p : Plan) (calls : CallTable) {entry : ZoneEntry} (he : entry.InRange)
    (before after : ZoneState) (entered always : Bool) : (m.afterEvent p calls entry before after entered always).Wf := by
  have lanes : (if (always || zoneChanged before after) = true then m.apply entry calls after else m).Wf := by
    split
    · exact h.apply he calls after
    · exact h
  unfold Mixer.afterEvent
  dsimp only
  split
  · split
    · exact lanes
    · exact lanes.withPlayer _
  · exact lanes

end Mixers

end Sys2Proof.Machine
end

section
/-! Every step keeps the plan store's conditions, the ranges of its plans and the lanes (O56): the owners' acts, the events
that a boundary makes due, and what a step can do. -/

namespace Sys2Proof.Machine

variable {s t : State}

/-! ### What an owner can do (R151, R153) -/

/-- What the owner of a request makes of the state: one act of its block, or nothing. A PLAN_WRITE acts with words that pass
the checks of the entry it writes. -/
inductive OwnerAct (r : Request) (s : State) : State → Prop
  | nothing : OwnerAct r s s
  | opens (cls : Fin 8) (src : Source) (target : ZoneSet) : OwnerAct r s (openCall cls src target r s).1
  | releases (c : CallRef) : OwnerAct r s (releaseCall c s).1
  | retargets (c : CallRef) (add remove : ZoneSet) : OwnerAct r s (retargetCall c add remove s).1
  | clears (n : Nat) (withKey : Bool) : OwnerAct r s (clearCalls n withKey s).1
  | restricts (m : ZoneSet) (floor : Nat) : OwnerAct r s (restrictZones m floor s).1
  | writes (b : BankNo) (e : EntryName) (len : r.len = 14)
      (good : firstBad (applyChecks (entryChecks e) (r.payload.drop 3)) = none) :
      OwnerAct r s (writePlan b e (r.payload.drop 3) s).1
  | erases (b : BankNo) : OwnerAct r s (erasePlan b s).1
  | seals (b : BankNo) : OwnerAct r s (sealPlan b s).1
  | unseals (b : BankNo) : OwnerAct r s (unsealPlan b s).1
  | copies : OwnerAct r s (copyPlan s).1
  | switches (point : Option (BitVec 16)) : OwnerAct r s (switchPlan point s).1
  | acks (seq : BitVec 8) : OwnerAct r s (ackNotices seq s).1
  | configures (c : Controller) (enable : Bool) (ms : Nat) : OwnerAct r s (configNotices c enable ms s).1
  | counts (clear : Bool) : OwnerAct r s (readCounters clear s).1
  | resets : OwnerAct r s s.nodeReset

/-- The common checks answer, or hand on a payload that passes them. -/
theorem OwnerAct.checked {len : Nat} {fields : List Word → List Bool} {act : List Word → Owner} {r : Request} {s : State}
    (h : r.len = len → firstBad (fields r.payload) = none → OwnerAct r s (act r.payload r s).1) :
    OwnerAct r s (checked len fields act r s).1 := by
  rcases checked_cases len fields act r s with ⟨a, e⟩ | ⟨hl, hf, e⟩
  · rw [e]; exact .nothing
  · rw [e]; exact h hl hf

/-- The owner of every kind does one act (Table 7-3). -/
theorem ownerOf_act (kind : BitVec 8) (r : Request) (s : State) : OwnerAct r s (ownerOf kind r s).1 := by
  suffices key : ∀ own : Owner, own = ownerOf kind → OwnerAct r s (own r s).1 from key _ rfl
  intro own ho
  unfold ownerOf at ho
  split at ho <;> subst ho
  case h_1 => exact .checked fun _ _ => .opens _ _ _
  case h_2 => exact .checked fun _ _ => .releases _
  case h_3 => exact .checked fun _ _ => .retargets _ _ _
  case h_4 => exact .checked fun _ _ => .clears _ _
  case h_5 => exact .checked fun _ _ => by rw [readCall_state]; exact .nothing
  case h_6 => exact .checked fun _ _ => .restricts _ _
  case h_7 => exact .checked fun _ _ => by rw [probeZone_state]; exact .nothing
  case h_8 | h_9 | h_17 => exact .checked fun _ _ => .nothing
  case h_10 =>
    refine .checked fun len good => .writes _ _ len ((firstBad_eq_none _).2 fun b hb => ?_)
    exact (firstBad_eq_none _).1 good b (List.mem_append_right _ hb)
  case h_11 => exact .checked fun _ _ => by rw [readPlan_state]; exact .nothing
  case h_12 => exact .checked fun _ _ => .erases _
  case h_13 => exact .checked fun _ _ => .seals _
  case h_14 => exact .checked fun _ _ => .unseals _
  case h_15 => exact .checked fun _ _ => .copies
  case h_16 => exact .checked fun _ _ => .switches _
  case h_18 => exact .checked fun _ _ => .acks _
  case h_19 => exact .checked fun _ _ => .configures _ _ _
  case h_20 => exact .nothing
  case h_21 => exact .checked fun _ _ => .counts _
  case h_22 => exact .checked (act := fun _ _ s => (s.nodeReset, Answer.okWith [])) fun _ _ => .resets
  case h_23 => exact .nothing

/-! ### The conditions of a step -/

/-- What a step keeps of the plan store and the lanes, with what of the message block it rests on. -/
structure State.InOrder (s : State) : Prop where
  sized : s.msg.Sized
  plans : s.plans.Wf
  ranges : s.plans.InRange
  lanes : ∀ z, (s.mixers.get z).Wf

/-- Changes outside the three blocks do not matter. -/
theorem State.InOrder.of_eq (h : s.InOrder) (hm : t.msg = s.msg) (hp : t.plans = s.plans) (hx : t.mixers = s.mixers) :
    t.InOrder :=
  ⟨hm ▸ h.sized, hp ▸ h.plans, hp ▸ h.ranges, hx ▸ h.lanes⟩

/-- A change of the message block alone. -/
theorem State.InOrder.withMsg (h : s.InOrder) (hm : t.msg.Sized) (hp : t.plans = s.plans) (hx : t.mixers = s.mixers) :
    t.InOrder :=
  ⟨hm, hp ▸ h.plans, hp ▸ h.ranges, hx ▸ h.lanes⟩

/-- A change of the plan store alone. -/
theorem State.InOrder.withStore (h : s.InOrder) (hm : t.msg = s.msg) (hp : t.plans.Wf) (hr : t.plans.InRange)
    (hx : t.mixers = s.mixers) : t.InOrder :=
  ⟨hm ▸ h.sized, hp, hr, hx ▸ h.lanes⟩

/-- A change of the mixers alone. -/
theorem State.InOrder.withLanes (h : s.InOrder) (hm : t.msg = s.msg) (hp : t.plans = s.plans)
    (hx : ∀ z, (t.mixers.get z).Wf) : t.InOrder :=
  ⟨hm ▸ h.sized, hp ▸ h.plans, hp ▸ h.ranges, hx⟩

/-- The live plan's zone entries are in range. -/
theorem State.InOrder.zone (h : s.InOrder) (z : Zone) : (s.plan.zones.get z).InRange := (h.ranges s.plans.live).2.1 z

/-- An event of calls and zones works on lanes alone (R69, R75). -/
theorem State.InOrder.complete (h : s.InOrder) (always : Bool) (others : List Notice) (e : Event) :
    (s.complete always others e).InOrder := by
  refine h.withLanes rfl rfl fun z => ?_
  rw [State.complete, Table.get_update]
  exact (h.lanes z).afterEvent _ _ (h.zone z) _ _ _ _

/-- An event under the live plan. -/
theorem State.InOrder.event (h : s.InOrder) (f : Plan → Event → Event) : (s.event f).InOrder := h.complete _ _ _

/-! ### Requests of the plan store (R110 to R118) -/

/-- A request puts the other bank in a state that is not COPYING. -/
theorem State.InOrder.setBank (h : s.InOrder) {bank : BankNo} (other : bank ≠ s.plans.live) {b : Bank}
    (idle : (s.plans.bank bank).state ≠ .copying) (hb : b.state ≠ .copying)
    (hp : s.plans.pending.isSome = true → b.state = .sealed) (he : b.state = .empty → b.plan = blankPlan)
    (hs : b.state = .sealed → sealFailure b.plan = none) (hr : b.plan.InRange) :
    (s.withPlans (s.plans.setBank bank b)).InOrder := by
  obtain rfl := eq_other_of_ne _ _ other
  exact h.withStore rfl
    (h.plans.of_other (PlanStore.setBank_live _ _ _) (PlanStore.liveBank_setBank _ _) (h.plans.setOther b idle hb hp he hs))
    (h.ranges.setBank _ hr) rfl

/-- PLAN_WRITE (R110). -/
theorem State.InOrder.writePlan (h : s.InOrder) (bank : BankNo) {e : EntryName} {ws : List Word} (hl : ws.length = 11)
    (good : firstBad (applyChecks (entryChecks e) ws) = none) : (writePlan bank e ws s).1.InOrder := by
  unfold Machine.writePlan
  split
  · exact h
  · rename_i other
    have written : ∀ st, (s.plans.bank bank).state = st → st ≠ .copying → st ≠ .sealed →
        (s.withPlans (s.plans.setBank bank
          { state := .opened, plan := (s.plans.bank bank).plan.writeEntry ws e })).InOrder := by
      rintro _ rfl idle unsealed
      refine h.setBank other idle (by simp) (fun pending => absurd ?_ unsealed) (by simp) (by simp)
        ((h.ranges bank).writeEntry hl good)
      obtain rfl := eq_other_of_ne _ _ other
      exact h.plans.pendingSealed pending
    split
    · exact h
    · exact h
    · rename_i empty; exact written _ empty (by simp) (by simp)
    · rename_i opened; exact written _ opened (by simp) (by simp)

/-- PLAN_ERASE (R112). -/
theorem State.InOrder.erasePlan (h : s.InOrder) (bank : BankNo) : (erasePlan bank s).1.InOrder := by
  unfold Machine.erasePlan
  split
  · exact h
  · rename_i other
    split
    · exact h
    · rename_i idle
      split
      · exact h
      · rename_i unpending
        exact h.setBank other idle (by simp) (fun k => absurd k unpending) (fun _ => rfl) (by simp) blankPlan_inRange

/-- PLAN_SEAL (R113). -/
theorem State.InOrder.sealPlan (h : s.InOrder) (bank : BankNo) : (sealPlan bank s).1.InOrder := by
  unfold Machine.sealPlan
  split
  · exact h
  · exact h
  · exact h
  · rename_i opened
    split
    · exact h
    · rename_i passes
      have other : bank ≠ s.plans.live := fun k => by
        rw [k, h.plans.liveSealed] at opened; cases opened
      exact h.setBank other (by simp [opened]) (by simp) (fun _ => rfl) (by simp) (fun _ => passes) (h.ranges bank)

/-- PLAN_UNSEAL (R115). -/
theorem State.InOrder.unsealPlan (h : s.InOrder) (bank : BankNo) : (unsealPlan bank s).1.InOrder := by
  unfold Machine.unsealPlan
  split
  · exact h
  · rename_i other
    split
    · exact h
    · rename_i unpending
      split
      · rename_i shut
        exact h.setBank other (by simp [shut]) (by simp) (fun k => absurd k unpending) (by simp) (by simp) (h.ranges bank)
      · exact h

/-- The beginning of a copy keeps the conditions of R108 when the other bank is not SEALED (R116). -/
theorem PlanStore.Wf.beginCopy {p : PlanStore} (h : p.Wf) (unsealed : p.otherBank.state ≠ .sealed) : p.beginCopy.Wf := by
  have begun : p.beginCopy.otherBank = { state := .copying, plan := blankPlan } := PlanStore.otherBank_setBank _ _
  refine h.of_other (PlanStore.setBank_live _ _ _) (PlanStore.liveBank_setBank _ _) ⟨?_, fun k hk => ?_, fun k => ?_, ?_, ?_⟩
  · rw [begun]; simp [PlanStore.beginCopy]
  · cases hk; exact Nat.zero_le _
  · exact absurd (h.pendingSealed ((congrArg _ (PlanStore.setBank_pending _ _ _)).symm.trans k)) unsealed
  · rw [begun]; simp
  · rw [begun]; simp

/-- PLAN_COPY (R116). -/
theorem State.InOrder.copyPlan (h : s.InOrder) : (copyPlan s).1.InOrder := by
  have begun : s.plans.otherBank.state ≠ .sealed → (s.withPlans s.plans.beginCopy).InOrder := fun unsealed =>
    h.withStore rfl (h.plans.beginCopy unsealed) ((h.ranges.setBank _ blankPlan_inRange).of_bank rfl) rfl
  unfold Machine.copyPlan
  split
  · exact h
  · exact h
  · rename_i empty; exact begun (by simp [empty])
  · rename_i opened; exact begun (by simp [opened])

/-- PLAN_SWITCH (R118). -/
theorem State.InOrder.switchPlan (h : s.InOrder) (point : Option (BitVec 16)) : (switchPlan point s).1.InOrder := by
  unfold Machine.switchPlan
  split
  · exact h
  · split
    · exact h
    · split
      · exact h
      · rename_i shut
        split
        · exact h
        · obtain ⟨copying, progress, -, emptyBlank, sealedPasses⟩ := h.plans.other
          exact h.withStore rfl
            (h.plans.of_other rfl rfl ⟨copying, progress, fun _ => not_not.1 shut, emptyBlank, sealedPasses⟩)
            (h.ranges.of_bank rfl) rfl

/-! ### Resets and the owners' acts -/

/-- A node reset leaves a plan store in range: an abandoned copy is blank (R125). -/
theorem PlanStore.InRange.nodeReset {p : PlanStore} (h : p.InRange) : p.nodeReset.InRange := by
  unfold PlanStore.nodeReset
  split
  · exact h.of_bank rfl
  · exact (h.setBank _ blankPlan_inRange).of_bank rfl

/-- A node reset (R85, R125). -/
theorem State.InOrder.nodeReset (h : s.InOrder) : s.nodeReset.InOrder := by
  refine ⟨h.sized.of_eq rfl rfl, h.plans.nodeReset, h.ranges.nodeReset, fun z => ?_⟩
  rw [State.nodeReset, Table.get_update]
  exact (h.lanes z).apply (h.zone z) _ _

/-- The act of an owner on a request whose payload has its stated length. -/
theorem OwnerAct.inOrder {r : Request} (act : OwnerAct r s t) (hr : r.payload.length = r.len) (h : s.InOrder) :
    t.InOrder := by
  cases act with
  | nothing => exact h
  | opens cls src target =>
    unfold openCall
    split
    · exact h
    · split
      · exact h
      · split
        · exact h
        · split
          · exact h
          · split
            · exact h
            · exact h.complete false [] _
  | releases c =>
    unfold releaseCall
    split
    · exact h
    · exact h.complete false [] _
  | retargets c add remove =>
    unfold retargetCall
    split
    · exact h
    · split
      · exact h
      · split
        · exact h
        · exact h.complete false [] _
  | clears n withKey => exact h.complete _ _ _
  | restricts m floor =>
    unfold restrictZones
    split
    · exact h
    · exact h.complete false [] _
  | writes b e len good => exact h.writePlan b (by rw [List.length_drop, hr, len]) good
  | erases b => exact h.erasePlan b
  | seals b => exact h.sealPlan b
  | unseals b => exact h.unsealPlan b
  | copies => exact h.copyPlan
  | switches point => exact h.switchPlan point
  | acks seq =>
    unfold ackNotices
    split
    · exact h
    · exact h.of_eq rfl rfl rfl
  | configures c enable ms => exact h.of_eq rfl rfl rfl
  | counts clear =>
    cases clear
    · exact h
    · exact h.withMsg (h.sized.of_eq rfl rfl) rfl rfl
  | resets => exact h.nodeReset

/-- An answer leaves what a PLAN_WRITE rests on (R152, R154). -/
theorem MessageBlock.Sized.finish {m : MessageBlock} (h : m.Sized) (r : Request) (a : Answer) : (m.finish r a).Sized := by
  unfold MessageBlock.finish
  split
  · exact h
  · exact h.of_eq rfl rfl

/-- The processor takes a request (R151). -/
theorem State.InOrder.takeRequest (h : s.InOrder) (isKind : BitVec 8 → Bool) (kind : BitVec 8) :
    (s.takeRequest isKind (ownerOf kind)).InOrder := by
  rcases takeRequest_cases s isKind (ownerOf kind) with e | ⟨r, rest, front, -, -, ⟨a, -, e⟩ | ⟨-, e⟩⟩
  · rw [e]; exact h
  all_goals
    have taken : (s.msg.take rest).Sized :=
      ⟨h.sized.assembler, fun q hq => h.sized.payloads q (front ▸ List.mem_cons_of_mem r hq)⟩
    rw [e]
  · exact h.withMsg (taken.of_eq rfl rfl) rfl rfl
  · have done := (ownerOf_act kind r (s.taken rest)).inOrder
      (h.sized.payloads r (front ▸ List.mem_cons_self)) (h.withMsg (t := s.taken rest) taken rfl rfl)
    exact done.withMsg (done.sized.finish r _) rfl rfl

/-! ### Events that a boundary makes due -/

/-- A key-up edge (R10). -/
theorem State.InOrder.takeKeyUp (h : s.InOrder) (k : Trunk) : (s.takeKeyUp k).InOrder := by
  unfold State.takeKeyUp
  split
  · exact h.of_eq rfl rfl rfl
  · split
    · exact h
    · split
      · exact h
      · split
        · exact h
        · unfold State.admitKey
          split
          · exact h.of_eq rfl rfl rfl
          · exact h.event _

/-- A key-down edge (R11). -/
theorem State.InOrder.takeKeyDown (h : s.InOrder) (k : Trunk) : (s.takeKeyDown k).InOrder := by
  unfold State.takeKeyDown
  split
  · exact h
  · split
    · exact h
    · split
      · split
        · exact h.event _
        · exact h.of_eq rfl rfl rfl
      · exact h

/-- A deadline (R16). -/
theorem State.InOrder.takeDeadline (h : s.InOrder) (r : CallRef) (deadline : Call → Option Nat) (cause : EndCause) :
    (s.takeDeadline r deadline cause).InOrder := by
  unfold State.takeDeadline
  split
  · exact h
  · split
    · exact h.event _
    · exact h

/-- A lead-in (R54). -/
theorem State.InOrder.takeLeadInEnd (h : s.InOrder) (z : Zone) : (s.takeLeadInEnd z).InOrder := by
  unfold State.takeLeadInEnd
  split
  · exact h
  · exact h
  · split
    · exact h.event _
    · exact h

/-- One of the first 83 copy steps leaves a plan store in range (R117). -/
theorem PlanStore.InRange.copyStep {p : PlanStore} (h : p.InRange) : p.copyStep.InRange := by
  unfold PlanStore.copyStep
  split
  · exact h
  · split
    · exact (h.copyOne _).of_bank rfl
    · exact h

/-- The 84th copy step (R117). -/
theorem State.InOrder.takeCopyEnd (h : s.InOrder) : s.takeCopyEnd.InOrder := by
  unfold State.takeCopyEnd
  split
  · rename_i last
    obtain ⟨live, bank, other⟩ := h.plans.copyEnd last
    have copied := h.ranges.copyOne 83
    exact h.withStore rfl (h.plans.of_other live bank other)
      ((copied.setBank (s.plans.copyOne 83).live.other (b := { (s.plans.copyOne 83).otherBank with state := .opened })
        (copied _)).of_bank rfl) rfl
  · exact h

/-- A fade ends (R72). -/
theorem State.InOrder.takeFadeEnd (h : s.InOrder) (z : Zone) (l : LaneId) : (s.takeFadeEnd z l).InOrder := by
  refine h.withLanes rfl rfl fun y => ?_
  rw [State.takeFadeEnd, Table.get_modify]
  split
  · exact (h.lanes _).endFade l ((h.zone _).desired _ _ l)
  · exact h.lanes y

/-- A chime player's step ends (R76). -/
theorem State.InOrder.takeChimeEnd (h : s.InOrder) (z : Zone) : (s.takeChimeEnd z).InOrder := by
  refine h.withLanes rfl rfl fun y => ?_
  rw [State.takeChimeEnd, Table.get_modify]
  split
  · split
    · exact (h.lanes _).withPlayer _
    · exact h.lanes _
  · exact h.lanes y

/-- The oldest reply begins (R157). -/
theorem State.InOrder.beginReply (h : s.InOrder) : s.beginReply.InOrder := by
  unfold State.beginReply
  split
  · exact h
  · split
    · exact h
    · exact h.withMsg (h.sized.of_eq rfl rfl) rfl rfl

/-- A notice message begins (R134). -/
theorem State.InOrder.beginNotice (h : s.InOrder) (held : Bool) : (s.beginNotice held).InOrder := by
  unfold State.beginNotice
  split
  · exact h
  · exact h.withMsg (h.sized.of_eq rfl rfl) rfl rfl

/-- The control stage: the arbiter, then the four positions (R156, R157). -/
theorem State.InOrder.controlStage (h : s.InOrder) : s.controlStage.InOrder := by
  have arbitrated : s.arbitrate.InOrder := h.beginReply.beginNotice false
  unfold State.controlStage
  split
  · exact h.of_eq rfl rfl rfl
  · exact arbitrated.withMsg (arbitrated.sized.positions _ _) rfl rfl

/-- An entry to SEARCH (R176). -/
theorem State.InOrder.enterSearch (h : s.InOrder) : s.enterSearch.InOrder := by
  have emptied : MessageBlock.Sized { s.msg with transit := [] } := h.sized.of_eq rfl rfl
  unfold State.enterSearch State.abandonPointed
  split
  · obtain ⟨copying, progress, -, emptyBlank, sealedPasses⟩ := h.plans.other
    exact ⟨emptied, h.plans.of_other rfl rfl ⟨copying, progress, (fun k => nomatch k), emptyBlank, sealedPasses⟩,
      h.ranges.of_bank rfl, h.lanes⟩
  · exact h.withMsg emptied rfl rfl
  · exact h.withMsg emptied rfl rfl

/-- A reset loads a plan store in order and silent lanes (R84, R124). -/
theorem State.afterReset_inOrder (straps : BitVec 6) : (State.afterReset straps).InOrder := by
  obtain ⟨-, ranges, lanes, -, msg, -⟩ := invariantsHoldAtReset
  exact ⟨msg.sized, resetPlanStore_wf, ranges, lanes⟩

/-- RESET_ASSERTED abandons a copy and a pending switch, and every message (R190). -/
theorem State.InOrder.assertReset (h : s.InOrder) : s.assertReset.InOrder :=
  ⟨⟨fun k => (nomatch k), fun _ k => (nomatch k)⟩, h.plans.nodeReset, h.ranges.nodeReset, h.lanes⟩

/-- Every operation keeps the conditions of a step. -/
theorem kept_inOrder : Kept State.InOrder where
  due _ _ h := h.of_eq rfl rfl rfl
  resets _ straps _ := (State.afterReset_inOrder straps).of_eq rfl rfl rfl
  asserts _ h := h.assertReset
  finds _ _ _ h := h.of_eq rfl rfl rfl
  judges _ _ _ h := h.of_eq rfl rfl rfl
  opens _ _ _ _ h := h.of_eq rfl rfl rfl
  locks _ h := h.of_eq rfl rfl rfl
  searches _ h := h.enterSearch
  observes _ h := h.of_eq rfl rfl rfl
  ramps s h := h.withLanes rfl rfl fun z => by
    rw [State.rampStage, Table.get_update]
    exact (h.lanes z).ramp _
  controls _ h := h.controlStage
  sends s h := h.withLanes rfl rfl fun z => by
    rw [State.sendFrame, Table.get_update]
    exact (h.lanes z).withPlayer _
  presences _ _ _ h := h.of_eq rfl rfl rfl
  keyUps _ k h := h.takeKeyUp k
  keyDowns _ k h := h.takeKeyDown k
  losses _ _ h := h.event _
  waits _ r h := h.takeDeadline r _ _
  holds _ r h := h.takeDeadline r _ _
  durations _ r h := h.takeDeadline r _ _
  leadIns _ z h := h.takeLeadInEnd z
  retries s h := h.of_eq s.takeRetryEnd_msg s.takeRetryEnd_plans s.takeRetryEnd_mixers
  copySteps _ h := by
    obtain ⟨live, bank, other⟩ := h.plans.copyStep
    exact h.withStore rfl (h.plans.of_other live bank other) h.ranges.copyStep rfl
  copies _ h := h.takeCopyEnd
  fades _ z l h := h.takeFadeEnd z l
  chimes _ z h := h.takeChimeEnd z
  tones _ _ h := h.of_eq rfl rfl rfl
  banks _ p hp h := h.withStore rfl (h.plans.switched (hp ▸ rfl)) (h.ranges.of_bank rfl) rfl
  switchZones _ _ h := h.complete _ _ _
  begins _ h := h.beginReply
  notices _ held h := h.beginNotice held
  requests _ isKind kind h := h.takeRequest isKind kind

/-- Settles O56: every operation keeps the plan store's conditions, its ranges and the lanes. A PLAN_WRITE keeps the ranges
because a queued payload has its stated length, which the receive assembler sees to and every operation keeps too. -/
theorem stepKeepsPlansAndLanes : Obligations.StepKeepsPlansAndLanes := by
  intro s t msg plans ranges lanes h
  obtain ⟨-, plans', ranges', lanes'⟩ :=
    kept_inOrder.step (fun _ _ h => h.of_eq rfl rfl rfl) ⟨msg.sized, plans, ranges, lanes⟩ h
  exact ⟨plans', ranges', lanes'⟩

end Sys2Proof.Machine
end

section
/-! The plan store after a hardware reset (R84, R99, R124), and copying (R101, R117). -/

namespace Sys2Proof

/-- A table agrees with another up to an index. -/
def Table.AgreesBelow {n : Nat} {α : Type} (t u : Table n α) (k : Nat) : Prop := ∀ i : Fin n, i.val < k → u.get i = t.get i

section Agreement

variable {n : Nat} {α : Type} {t u : Table n α} {k : Nat}

/-- The agreement goes no further down than it stands, or than the table's end. -/
theorem Table.AgreesBelow.upTo {k' : Nat} (h : t.AgreesBelow u k) (hk : k' ≤ k ∨ n ≤ k) : t.AgreesBelow u k' :=
  fun i hi => h i (by have := i.isLt; omega)

/-- The next entry is copied. -/
theorem Table.AgreesBelow.copied (h : t.AgreesBelow u k) (hk : k < n) {k' : Nat} (next : k' = k + 1) :
    t.AgreesBelow (u.set ⟨k, hk⟩ (t.get ⟨k, hk⟩)) k' := by
  intro i hi
  rw [Table.get_set]
  split
  · rename_i e; rw [e]
  · rename_i e
    exact h i (by have : i.val ≠ k := fun q => e (Fin.ext q.symm); omega)

/-- Tables that agree to the end are equal. -/
theorem Table.AgreesBelow.eq (h : t.AgreesBelow u k) (hk : n ≤ k) : u = t :=
  Table.ext_get fun i => h i (by have := i.isLt; omega)

end Agreement

end Sys2Proof

namespace Sys2Proof.Machine

/-! ### A hardware reset -/

/-- The trunk sources of the factory default plan take the input slots of their own numbers (R107). -/
theorem factoryTrunk_slot (k : Trunk) : (factoryTrunk k).slot.map Fin.val = some k.val := by
  have := k.isLt
  simp only [factoryTrunk, Option.map_some, Fin.ofNat, Option.some.injEq]
  omega

/-- Settles O5, block by block of the state that `State.afterReset` loads. -/
theorem hardwareResetLoadsDefaultPlan : Obligations.HardwareResetLoadsDefaultPlan := by
  intro straps s
  refine ⟨_, rfl, ⟨rfl, rfl, rfl, rfl, rfl⟩, fun k => ⟨?slots, Table.get_fill _ k⟩, ?tones, fun z => Table.get_fill _ z⟩
  case slots =>
    refine Eq.trans ?_ (factoryTrunk_slot k)
    exact congrArg (fun e : TrunkEntry => e.slot.map Fin.val) (Table.get_tabulate _ k)
  case tones => exact ⟨rfl, rfl, rfl, rfl⟩

/-! ### Copying (R101, R117) -/

section Copying

variable (p q : Plan)

/-- The entries of the class table are the first 8 (R101). -/
theorem Plan.copyEntry_class (i : Fin 8) :
    q.copyEntry p i.val = { q with classes := q.classes.set i (p.classes.get i) } := dif_pos i.isLt

/-- The entries of the zone table are the next 16 (R101). -/
theorem Plan.copyEntry_zone (z : Zone) : q.copyEntry p (8 + z.val) = { q with zones := q.zones.set z (p.zones.get z) } := by
  have here : 8 + z.val - 8 = z.val := by omega
  simp only [Plan.copyEntry, here, show ¬ 8 + z.val < 8 by omega, z.isLt, dite_true, dite_false]

/-- The entries of the source table begin with the 48 trunk sources (R101). -/
theorem Plan.copyEntry_trunk (k : Trunk) :
    q.copyEntry p (24 + k.val) = { q with trunks := q.trunks.set k (p.trunks.get k) } := by
  have here : 24 + k.val - 24 = k.val := by omega
  simp only [Plan.copyEntry, here, show ¬ 24 + k.val < 8 by omega, show ¬ 24 + k.val - 8 < 16 by omega, k.isLt, dite_true,
    dite_false]

/-- The entries of the source table end with the 4 tone generators (R101). -/
theorem Plan.copyEntry_tone (g : Tone) :
    q.copyEntry p (72 + g.val) = { q with tones := q.tones.set g (p.tones.get g) } := by
  have here : 72 + g.val - 72 = g.val := by omega
  simp only [Plan.copyEntry, here, show ¬ 72 + g.val < 8 by omega, show ¬ 72 + g.val - 8 < 16 by omega,
    show ¬ 72 + g.val - 24 < 48 by omega, g.isLt, dite_true, dite_false]

/-- The entries of the pattern table are the last 8 (R101). -/
theorem Plan.copyEntry_pattern (i : Fin 8) :
    q.copyEntry p (76 + i.val) = { q with patterns := q.patterns.set i (p.patterns.get i) } := by
  have here : 76 + i.val - 76 = i.val := by omega
  simp only [Plan.copyEntry, here, show ¬ 76 + i.val < 8 by omega, show ¬ 76 + i.val - 8 < 16 by omega,
    show ¬ 76 + i.val - 24 < 48 by omega, show ¬ 76 + i.val - 72 < 4 by omega, i.isLt, dite_true, dite_false]

/-- A plan that agrees with another on its first `k` entries in table order. -/
structure Plan.AgreesBelow (k : Nat) : Prop where
  classes : p.classes.AgreesBelow q.classes k
  zones : p.zones.AgreesBelow q.zones (k - 8)
  trunks : p.trunks.AgreesBelow q.trunks (k - 24)
  tones : p.tones.AgreesBelow q.tones (k - 72)
  patterns : p.patterns.AgreesBelow q.patterns (k - 76)

variable {p q}

/-- The copy of the k-th entry makes the plans agree on one entry more (R117). -/
theorem Plan.AgreesBelow.copyEntry {k : Nat} (h : p.AgreesBelow q k) : p.AgreesBelow (q.copyEntry p k) (k + 1) := by
  obtain ⟨classes, zones, trunks, tones, patterns⟩ := h
  unfold Plan.copyEntry
  split
  · exact ⟨classes.copied _ rfl, zones.upTo (by omega), trunks.upTo (by omega), tones.upTo (by omega), patterns.upTo (by omega)⟩
  · split
    · exact ⟨classes.upTo (by omega), zones.copied _ (by omega), trunks.upTo (by omega), tones.upTo (by omega),
        patterns.upTo (by omega)⟩
    · split
      · exact ⟨classes.upTo (by omega), zones.upTo (by omega), trunks.copied _ (by omega), tones.upTo (by omega),
          patterns.upTo (by omega)⟩
      · split
        · exact ⟨classes.upTo (by omega), zones.upTo (by omega), trunks.upTo (by omega), tones.copied _ (by omega),
            patterns.upTo (by omega)⟩
        · split
          · exact ⟨classes.upTo (by omega), zones.upTo (by omega), trunks.upTo (by omega), tones.upTo (by omega),
              patterns.copied _ (by omega)⟩
          · exact ⟨classes.upTo (by omega), zones.upTo (by omega), trunks.upTo (by omega), tones.upTo (by omega),
              patterns.upTo (by omega)⟩

/-- The first `k` copy steps make the plans agree on the first `k` entries. -/
theorem Plan.foldl_copyEntry (p q : Plan) (k : Nat) : p.AgreesBelow ((List.range k).foldl (fun d k => d.copyEntry p k) q) k := by
  induction k with
  | zero => exact ⟨fun _ h => by omega, fun _ h => by omega, fun _ h => by omega, fun _ h => by omega, fun _ h => by omega⟩
  | succ k ih =>
    rw [List.range_succ, List.foldl_append]
    exact ih.copyEntry

/-- The 84 copy steps make an exact copy (R101, R117). -/
theorem Plan.copy_exact (p q : Plan) : (List.range 84).foldl (fun d k => d.copyEntry p k) q = p := by
  have h := p.foldl_copyEntry q 84
  generalize (List.range 84).foldl _ q = d at h
  have classes := h.classes.eq (by decide)
  have zones := h.zones.eq (by decide)
  have trunks := h.trunks.eq (by decide)
  have tones := h.tones.eq (by decide)
  have patterns := h.patterns.eq (by decide)
  cases d; cases p
  dsimp only at classes zones trunks tones patterns
  rw [classes, zones, trunks, tones, patterns]

end Copying

/-- The last copy step puts the 84th entry and the state OPEN in the other bank (R117). -/
theorem PlanStore.copyEnd_eq (p : PlanStore) :
    p.copyEnd = { p.setBank p.live.other ⟨.opened, p.otherBank.plan.copyEntry p.livePlan 83⟩ with copied := none } := by
  obtain ⟨_, _, live, _, _⟩ := p
  cases live <;> rfl

/-- Settles O24: the last step, the first 83, and the copy they make together. -/
theorem copyDoneOpensBank : Obligations.CopyDoneOpensBank := by
  refine ⟨fun s hs due last => ?last, fun s k due at_k short => ?step, Plan.copy_exact, fun p q =>
    ⟨Plan.copyEntry_class p q, Plan.copyEntry_zone p q, Plan.copyEntry_trunk p q, Plan.copyEntry_tone p q,
      Plan.copyEntry_pattern p q⟩⟩
  case last =>
    refine ⟨_, (running_perform hs due).trans (congrArg _ (if_pos last)), rfl, ?_⟩
    show s.plans.copyEnd.copied = _ ∧ s.plans.copyEnd.live = _ ∧ s.plans.copyEnd.pending = _ ∧
      s.plans.copyEnd.bank _ = _ ∧ s.plans.copyEnd.otherBank.state = _ ∧ s.plans.copyEnd.otherBank.plan = _
    have other : s.plans.copyEnd.otherBank = ⟨.opened, s.plans.otherBank.plan.copyEntry s.plans.livePlan 83⟩ := by
      rw [PlanStore.copyEnd_eq]
      exact PlanStore.otherBank_setBank _ _
    rw [other, PlanStore.copyEnd_eq]
    exact ⟨rfl, PlanStore.setBank_live _ _ _, PlanStore.setBank_pending _ _ _, PlanStore.liveBank_setBank _ _, rfl,
      Plan.copyEntry_pattern _ _ 7⟩
  case step =>
    refine ⟨_, ?_, rfl⟩
    rw [State.perform_due due]
    simp only [State.effect, PlanStore.copyStep, at_k, short, if_true]
    rfl

end Sys2Proof.Machine
end

section
/-! The requests of the plan store: PLAN_WRITE, PLAN_ERASE, PLAN_SEAL, PLAN_UNSEAL, PLAN_COPY and PLAN_SWITCH (R110 to R118). -/

namespace Sys2Proof.Machine

variable {s : State} {r : Request} {rest : List Request} {b : BankNo}

/-! ### Reaching the owner -/

/-- PLAN_WRITE reaches the plan store when its bank, table, index and words pass their checks (R110). -/
theorem exec_planWrite {e : EntryName} (h : s.Offers 32#8 r rest) (hl : r.len = 14) (h0 : wordAt r.payload 0 = b.word)
    (h1 : (wordAt r.payload 1).toNat ≤ 3) (h2 : (wordAt r.payload 2).toNat < tableSize (wordAt r.payload 1))
    (he : entryName (wordAt r.payload 1) (wordAt r.payload 2) = e)
    (good : (applyChecks (entryChecks e) (r.payload.drop 3)).all id = true) :
    exec .planWrite s =
      .next ((writePlan b e (r.payload.drop 3) (s.taken rest)).1.answered r
        (writePlan b e (r.payload.drop 3) (s.taken rest)).2) := by
  obtain ⟨bank, isBank⟩ := wordBank_word b
  rw [← h0] at bank isBank
  subst he
  rw [← bank]
  refine running_checked h _ hl fun c hc => ?_
  rcases List.mem_append.1 hc with hc | hc
  · simp only [tableChecks, isBank, h2, List.mem_cons, List.not_mem_nil, or_false, decide_true] at hc
    rcases hc with rfl | rfl | rfl
    · rfl
    · exact inRange_eq.2 ⟨Nat.zero_le _, h1⟩
    · rfl
  · exact List.all_eq_true.1 good c hc

/-- A request whose only field is a bank reaches its act. -/
theorem running_bank {kind : BitVec 8} (h : s.Offers kind r rest) (hl : r.len = 1) (h0 : wordAt r.payload 0 = b.word)
    (act : BankNo → State → State × Answer) :
    s.running (fun s => s.takeRequest (fun k => decide (k = kind))
        (checked 1 bankFields fun ws _ s => act (wordBank (wordAt ws 0)) s)) =
      .next ((act b (s.taken rest)).1.answered r (act b (s.taken rest)).2) := by
  obtain ⟨bank, isBank⟩ := wordBank_word b
  rw [← h0] at bank isBank
  refine (running_checked h _ hl (by simp [bankFields, isBank])).trans ?_
  rw [bank]

/-- PLAN_COPY reaches the plan store (R116). -/
theorem exec_planCopy (h : s.Offers 37#8 r rest) (hl : r.len = 0) :
    exec .planCopy s = .next ((copyPlan (s.taken rest)).1.answered r (copyPlan (s.taken rest)).2) :=
  running_checked h _ hl (by simp [noFields])

/-- PLAN_SWITCH reaches the plan store, with its point when the flag is set (R118). -/
theorem exec_planSwitch {pointed : Bool} (h : s.Offers 38#8 r rest) (hl : r.len = 2)
    (h0 : wordAt r.payload 0 = flagWord pointed) {point : Option (BitVec 16)}
    (hp : point = if pointed then some (wordAt r.payload 1) else none) :
    exec .planSwitch s = .next ((switchPlan point (s.taken rest)).1.answered r (switchPlan point (s.taken rest)).2) := by
  obtain ⟨flag, isFlag⟩ := wordFlag_flagWord pointed
  rw [← h0] at flag isFlag
  refine (running_checked h _ hl (by simp [isFlag])).trans ?_
  simp only [switchPoint, flag, hp]

/-! ### PLAN_WRITE and PLAN_ERASE (R110, R112) -/

section Acts

variable {e : EntryName} {ws : List Word}

/-- R110, first check: the live bank is not written. -/
theorem writePlan_of_live (live : b = s.plans.live) : writePlan b e ws s = (s, ⟨.bankLive, []⟩) := if_pos live

/-- R110: in a bank that is not live the entry is written when the bank is EMPTY or OPEN. -/
theorem writePlan_of_other (other : b ≠ s.plans.live) :
    writePlan b e ws s =
      match (s.plans.bank b).state with
      | .copying => (s, ⟨.bankBusy, []⟩)
      | .sealed => (s, ⟨.bankSealed, []⟩)
      | .empty | .opened =>
        (s.withPlans (s.plans.setBank b ⟨.opened, (s.plans.bank b).plan.writeEntry ws e⟩), ⟨.ok, [1#16]⟩) := by
  refine (if_neg other).trans ?_
  cases (s.plans.bank b).state <;> rfl

/-- R112, first check: the live bank is not erased. -/
theorem erasePlan_of_live (live : b = s.plans.live) : erasePlan b s = (s, ⟨.bankLive, []⟩) := if_pos live

/-- R112, second check: a bank that is COPYING is not erased. -/
theorem erasePlan_of_copying (other : b ≠ s.plans.live) (busy : (s.plans.bank b).state = .copying) :
    erasePlan b s = (s, ⟨.bankBusy, []⟩) := (if_neg other).trans (if_pos busy)

/-- R112: with the first two checks passed, a pending switch decides. -/
theorem erasePlan_of_idle (other : b ≠ s.plans.live) (idle : (s.plans.bank b).state ≠ .copying) :
    erasePlan b s =
      if s.plans.pending.isSome then (s, ⟨.switchPending, []⟩)
      else (s.withPlans (s.plans.setBank b ⟨.empty, blankPlan⟩), ⟨.ok, []⟩) := (if_neg other).trans (if_neg idle)

/-! ### PLAN_SEAL and PLAN_UNSEAL (R113, R115) -/

/-- R113: the state of the bank decides, and of an OPEN one the seal check. -/
theorem sealPlan_eq (b : BankNo) (s : State) :
    sealPlan b s =
      match (s.plans.bank b).state with
      | .copying => (s, ⟨.bankBusy, []⟩)
      | .empty => (s, ⟨.bankEmpty, []⟩)
      | .sealed => (s, ⟨.ok, []⟩)
      | .opened =>
        match sealFailure (s.plans.bank b).plan with
        | some f => (s, ⟨.checkFailed, [BitVec.ofNat 16 f.1, BitVec.ofNat 16 f.2]⟩)
        | none => (s.withPlans (s.plans.setBank b ⟨.sealed, (s.plans.bank b).plan⟩), ⟨.ok, []⟩) := by
  unfold sealPlan
  cases (s.plans.bank b).state
  case opened => cases sealFailure (s.plans.bank b).plan <;> rfl
  all_goals rfl

/-- R115, first check: the live bank is not unsealed. -/
theorem unsealPlan_of_live (live : b = s.plans.live) : unsealPlan b s = (s, ⟨.bankLive, []⟩) := if_pos live

/-- R115, second check: the target of a pending switch is not unsealed. -/
theorem unsealPlan_of_pending (other : b ≠ s.plans.live) (pending : s.plans.pending.isSome = true) :
    unsealPlan b s = (s, ⟨.switchPending, []⟩) := (if_neg other).trans (if_pos pending)

/-- R115: with the checks passed, a SEALED bank becomes OPEN and any other stays. -/
theorem unsealPlan_of_free (other : b ≠ s.plans.live) (free : ¬ s.plans.pending.isSome = true) :
    unsealPlan b s =
      if (s.plans.bank b).state = .sealed then
        (s.withPlans (s.plans.setBank b ⟨.opened, (s.plans.bank b).plan⟩), ⟨.ok, []⟩)
      else (s, ⟨.ok, []⟩) := (if_neg other).trans (if_neg free)

/-! ### PLAN_COPY and PLAN_SWITCH (R116, R118) -/

/-- R116: the state of the other bank decides. -/
theorem copyPlan_eq (s : State) :
    copyPlan s =
      match s.plans.otherBank.state with
      | .copying => (s, ⟨.bankBusy, []⟩)
      | .sealed => (s, ⟨.bankSealed, []⟩)
      | .empty | .opened => (s.withPlans s.plans.beginCopy, ⟨.ok, []⟩) := by
  unfold copyPlan
  cases s.plans.otherBank.state <;> rfl

variable {point : Option (BitVec 16)}

/-- R118, first check: no switch is pending. -/
theorem switchPlan_of_pending (pending : s.plans.pending.isSome = true) :
    switchPlan point s = (s, ⟨.switchPending, []⟩) := if_pos pending

/-- R118: the state of the other bank decides, and with a SEALED one the switch point (checks 2 to 5). -/
theorem switchPlan_of_free (free : ¬ s.plans.pending.isSome = true) :
    switchPlan point s =
      match s.plans.otherBank.state with
      | .copying => (s, ⟨.bankBusy, []⟩)
      | .empty | .opened => (s, ⟨.notSealed, []⟩)
      | .sealed =>
        match pointRefusal s.receiver point with
        | some st => (s, ⟨st, []⟩)
        | none => (s.withPlans { s.plans with pending := some ⟨point⟩ }, ⟨.ok, []⟩) := by
  refine (if_neg free).trans ?_
  cases s.plans.otherBank.state
  case sealed => cases pointRefusal s.receiver point <;> rfl
  all_goals rfl

/-- R118, checks 4 and 5, with a SEALED bank: a point that is refused. -/
theorem switchPlan_of_refusal {st : Status} (free : ¬ s.plans.pending.isSome = true)
    (shut : s.plans.otherBank.state = .sealed) (refused : pointRefusal s.receiver point = some st) :
    switchPlan point s = (s, ⟨st, []⟩) := by
  rw [switchPlan_of_free free, shut]
  simp only [refused]

/-- R118: with every check passed the switch is pending. -/
theorem switchPlan_accepts (free : ¬ s.plans.pending.isSome = true) (shut : s.plans.otherBank.state = .sealed)
    (good : pointRefusal s.receiver point = none) :
    switchPlan point s = (s.withPlans { s.plans with pending := some ⟨point⟩ }, ⟨.ok, []⟩) := by
  rw [switchPlan_of_free free, shut]
  simp only [good]

/-- R118, check 4: a point needs a LOCKED receiver. -/
theorem pointRefusal_of_unlocked {v : Receiver} {w : BitVec 16} (h : v.link ≠ .locked) :
    pointRefusal v (some w) = some .noTimebase := if_pos h

/-- R118, check 5: a point lies ahead of the current frame number. -/
theorem pointRefusal_of_locked {v : Receiver} {w n : BitVec 16} (h : v.link = .locked) (hn : v.frameNumber = some n) :
    pointRefusal v (some w) =
      if 1 ≤ (w - n).toNat ∧ (w - n).toNat ≤ 32767 then none else some .late := by
  simp only [pointRefusal, h, hn, isAhead, ne_eq, not_true_eq_false, if_false, Bool.and_eq_true, decide_eq_true_eq]

end Acts

/-! ### The statements -/

/-- Settles O38: the live bank first, then the state of the other one. -/
theorem planWriteStoresEntry : Obligations.PlanWriteStoresEntry := by
  intro s r rest b e h hl h0 h1 h2 he good u
  rw [exec_planWrite h hl h0 h1 h2 he good]
  refine ⟨fun live => ?live, fun other => ?other⟩
  case live => rw [writePlan_of_live (s := s.taken rest) live]
  case other =>
    rw [writePlan_of_other (s := s.taken rest) other]
    have bank : (s.taken rest).plans.bank b = s.plans.bank b := rfl
    rw [bank]
    refine ⟨fun busy => ?_, fun shut => ?_, fun room => ?_⟩
    · rw [busy]
    · rw [shut]
    · rcases room with empty | opened
      · rw [empty]; rfl
      · rw [opened]; rfl

/-- Settles O40: the checks of PLAN_ERASE in order, and the refusal of a copy onto a SEALED bank. -/
theorem planEraseFollowsChecks : Obligations.PlanEraseFollowsChecks := by
  refine ⟨fun s r rest b h hl h0 => ?erase, fun s r rest h hl shut => ?copy⟩
  case erase =>
    intro u
    rw [show exec .planErase s = _ from running_bank h hl h0 erasePlan]
    refine ⟨fun live => ?_, fun other busy => ?_, fun other idle pending => ?_, fun other idle free => ?_⟩
    · rw [erasePlan_of_live (s := s.taken rest) live]
    · rw [erasePlan_of_copying (s := s.taken rest) other busy]
    · rw [erasePlan_of_idle (s := s.taken rest) other idle,
        if_pos (show (s.taken rest).plans.pending.isSome = true from Option.isSome_iff_ne_none.2 pending)]
    · rw [erasePlan_of_idle (s := s.taken rest) other idle,
        if_neg (show ¬ (s.taken rest).plans.pending.isSome = true from fun k => Option.isSome_iff_ne_none.1 k free)]
      rfl
  case copy =>
    rw [exec_planCopy h hl, copyPlan_eq, show (s.taken rest).plans.otherBank.state = _ from shut]

/-- Settles O42: PLAN_COPY by the state of the other bank; PLAN_SWITCH by the pending switch, the other bank and the point. -/
theorem copyAndSwitchFollowChecks : Obligations.CopyAndSwitchFollowChecks := by
  intro s r rest u other
  refine ⟨fun h hl => ?copy, fun pointed h hl h0 => ?switch⟩
  case copy =>
    rw [exec_planCopy h hl, copyPlan_eq, show (s.taken rest).plans.otherBank = other from rfl]
    refine ⟨fun busy => ?_, fun shut => ?_, fun room => ?_⟩
    · rw [busy]
    · rw [shut]
    · rcases room with empty | opened
      · rw [empty]; rfl
      · rw [opened]; rfl
  case switch =>
    intro point accepted
    have reached := exec_planSwitch h hl h0 rfl
    refine ⟨fun pending => ?pending, fun free => ?free⟩
    case pending => rw [reached, switchPlan_of_pending (s := s.taken rest) (Option.isSome_iff_ne_none.2 pending)]
    case free =>
      have unpending : ¬ (s.taken rest).plans.pending.isSome = true := fun k => Option.isSome_iff_ne_none.1 k free
      refine ⟨fun busy => ?_, fun room => ?_, fun shut => ?sealed⟩
      · rw [reached, switchPlan_of_free unpending, show (s.taken rest).plans.otherBank.state = _ from busy]
      · rw [reached, switchPlan_of_free unpending, show (s.taken rest).plans.otherBank = other from rfl]
        rcases room with empty | opened
        · rw [empty]
        · rw [opened]
      case sealed =>
        have accepts (good : pointRefusal s.receiver (if pointed then some point else none) = none) : accepted := by
          rw [switchPlan_accepts unpending shut good] at reached
          exact reached
        have refuses {st : Status} (refused : pointRefusal s.receiver (if pointed then some point else none) = some st) :
            exec .planSwitch s = .next (u.answered r ⟨st, []⟩) := by
          rw [reached, switchPlan_of_refusal unpending shut refused]
        refine ⟨fun plain => accepts ?_, fun pointed unlocked => refuses ?_, fun current pointed locked number =>
          ⟨fun late => refuses ?_, fun low high => accepts ?_⟩⟩
        · rw [plain]; rfl
        · rw [pointed]; exact pointRefusal_of_unlocked unlocked
        · rw [pointed]; exact (pointRefusal_of_locked locked number).trans (if_neg (by omega))
        · rw [pointed]; exact (pointRefusal_of_locked locked number).trans (if_pos ⟨low, high⟩)

end Sys2Proof.Machine
end

section
/-! The seal check and the two requests about it (R113 to R115). -/

namespace Sys2Proof.Machine

/-! ### What a plan that passes the seal check guarantees (R114) -/

/-- The check that no lower-numbered entry holds the same slot, at every entry, says that no two entries hold one. -/
theorem no_lower_holder_iff {n : Nat} {α : Type} [DecidableEq α] (slot : Fin n → Option α) :
    (∀ z, ((slot z).isSome && (List.finRange n).any fun y => decide (y < z) && decide (slot y = slot z)) = false) ↔
      ∀ y z k, slot y = some k → slot z = some k → y = z := by
  constructor
  · intro h y z k hy hz
    have apart : ∀ a b, slot a = some k → slot b = some k → ¬ a < b := by
      intro a b ha hb lower
      have clash := h b
      rw [hb, Option.isSome_some, Bool.true_and, List.any_eq_false] at clash
      exact clash a (List.mem_finRange a) (by simp [lower, ha])
    exact le_antisymm (not_lt.1 (apart z y hz hy)) (not_lt.1 (apart y z hy hz))
  · intro h z
    cases hz : slot z with
    | none => rfl
    | some k =>
      simp only [Option.isSome_some, Bool.true_and, List.any_eq_false, Bool.and_eq_true, decide_eq_true_eq, not_and]
      intro y _ lower hy
      exact absurd (h y z k hy hz) (ne_of_lt lower)

section Seal

variable {p : Plan}

/-- A plan passes the seal check when every item passes at every index (R113). -/
theorem sealFailure_eq_none_iff :
    sealFailure p = none ↔
      (∀ z, sealItem1 p z = false) ∧ (∀ k, sealItem2 p k = false) ∧ (∀ k, sealItem3 p k = false) ∧
        (∀ k, sealItem4 p k = false) ∧ (∀ z, sealItem5 p z = false) ∧ (∀ i, sealItem6 p i = false) ∧
        ∀ g, sealItem7 p g = false := by
  simp [sealFailure, itemFailure_none_iff]

/-- Item 3: a key class is defined (R114). -/
theorem sealItem3_eq_false_iff {k : Trunk} :
    sealItem3 p k = false ↔ ∀ cls, (p.trunks.get k).keyClass = some cls → (p.classes.get cls).isSome = true := by
  unfold sealItem3
  cases (p.trunks.get k).keyClass <;> simp

/-- Item 4: a source with a key class has key targets, all of them used (R114). -/
theorem sealItem4_eq_false_iff {k : Trunk} :
    sealItem4 p k = false ↔ ∀ cls, (p.trunks.get k).keyClass = some cls →
      (p.trunks.get k).keyTargets ≠ 0#16 ∧ ∀ z, ZoneSet.has (p.trunks.get k).keyTargets z = true → p.used z = true := by
  unfold sealItem4
  cases (p.trunks.get k).keyClass with
  | none => simp
  | some cls => simp [hasUnused_false_iff]

/-- Item 5: a programme source is mapped (R114). -/
theorem sealItem5_eq_false_iff {z : Zone} :
    sealItem5 p z = false ↔ ∀ src, (p.zones.get z).programme = some src → p.mapped src = true := by
  unfold sealItem5
  cases (p.zones.get z).programme <;> simp

/-- Item 6: the chime pattern of a defined class is defined (R114). -/
theorem sealItem6_eq_false_iff {i : Fin 8} :
    sealItem6 p i = false ↔
      ∀ d n, p.classes.get i = some d → d.chime = some n → (p.patterns.get n).isSome = true := by
  unfold sealItem6
  cases hp : p.classes.get i with
  | none => simp
  | some d =>
    cases hd : d.chime with
    | none =>
      simp only [hd, true_iff]
      intro d' n same named
      rw [← Option.some.inj same, hd] at named
      exact absurd named (by simp)
    | some n =>
      simp only [hd, Option.isNone_eq_false_iff]
      refine ⟨fun defined d' m same named => ?_, fun h => h d n rfl hd⟩
      rw [← Option.some.inj same, hd] at named
      exact Option.some.inj named ▸ defined

/-- Item 7: the pattern of a tone generator is defined (R114). -/
theorem sealItem7_eq_false_iff {g : Tone} :
    sealItem7 p g = false ↔ ∀ n, p.tones.get g = some n → (p.patterns.get n).isSome = true := by
  unfold sealItem7
  cases p.tones.get g <;> simp

end Seal

/-- Settles O41: PLAN_SEAL by the bank's state and the seal check, PLAN_UNSEAL by its checks, and the seal check item by
item. -/
theorem sealAndUnsealFollowChecks : Obligations.SealAndUnsealFollowChecks := by
  refine ⟨fun s r rest b hl h0 => ?requests, fun p => ?guarantees⟩
  case requests =>
    intro u bank
    refine ⟨fun h => ?seals, fun h => ?unseals⟩
    case seals =>
      have reached : exec .planSeal s = _ := running_bank h hl h0 sealPlan
      rw [sealPlan_eq, show (s.taken rest).plans.bank b = bank from rfl] at reached
      refine ⟨fun busy => ?_, fun empty => ?_, fun shut => ?_, fun opened passes => ?_, fun item index opened fails => ?_⟩
      · rw [reached, busy]
      · rw [reached, empty]
      · rw [reached, shut]
      · rw [reached, opened]
        simp only [passes]
        rfl
      · rw [reached, opened]
        simp only [fails]
        rfl
    case unseals =>
      have reached : exec .planUnseal s = _ := running_bank h hl h0 unsealPlan
      have unpending (free : s.plans.pending = none) : ¬ (s.taken rest).plans.pending.isSome = true :=
        fun k => Option.isSome_iff_ne_none.1 k free
      refine ⟨fun live => ?_, fun other pending => ?_, fun other free unsealed => ?_, fun other free shut => ?_⟩
      · rw [reached, unsealPlan_of_live (s := s.taken rest) live]
      · rw [reached, unsealPlan_of_pending (s := s.taken rest) other (Option.isSome_iff_ne_none.2 pending)]
      · rw [reached, unsealPlan_of_free (s := s.taken rest) other (unpending free),
          if_neg (show ((s.taken rest).plans.bank b).state ≠ .sealed from unsealed)]
      · rw [reached, unsealPlan_of_free (s := s.taken rest) other (unpending free),
          if_pos (show ((s.taken rest).plans.bank b).state = .sealed from shut)]
        rfl
  case guarantees =>
    have outputs := no_lower_holder_iff fun z => (p.zones.get z).slot
    have inputs := no_lower_holder_iff fun k => (p.trunks.get k).slot
    rw [sealFailure_eq_none_iff]
    simp only [sealItem3_eq_false_iff, sealItem4_eq_false_iff, sealItem5_eq_false_iff, sealItem6_eq_false_iff,
      sealItem7_eq_false_iff]
    constructor
    · rintro ⟨i1, i2, i3, i4, i5, i6, i7⟩
      exact ⟨outputs.1 i1, inputs.1 i2, fun k cls hk => ⟨i3 k cls hk, i4 k cls hk⟩, i5, i6, i7⟩
    · rintro ⟨i1, i2, i34, i5, i6, i7⟩
      exact ⟨outputs.2 i1, inputs.2 i2, fun k cls hk => (i34 k cls hk).1, fun k cls hk => (i34 k cls hk).2, i5, i6, i7⟩

end Sys2Proof.Machine
end

section
/-! A plan entry reads back as it was written (R105, R106, R110, R111). -/

namespace Sys2Proof.Machine

/-! ### Single fields (Tables 10-5 and 10-6) -/

/-- A preempt policy reads back as it was written. -/
theorem preemptWord_of_word {w : Word} (h : inRange 0 1 w = true) :
    (if w = 0#16 then Preempt.resume else .drop).word = w := by
  rcases word_cases2 h with rfl | rfl <;> rfl

/-- A late policy reads back as it was written. -/
theorem lateWord_of_word {w : Word} (h : inRange 0 1 w = true) : (if w = 0#16 then Late.join else .skip).word = w := by
  rcases word_cases2 h with rfl | rfl <;> rfl

/-- An order mode reads back as it was written. -/
theorem orderWord_of_word {w : Word} (h : inRange 0 1 w = true) :
    (if w = 0#16 then OrderMode.fifo else .rotate).word = w := by
  rcases word_cases2 h with rfl | rfl <;> rfl

/-- A duck mode reads back as it was written. -/
theorem duckWord_of_word {w : Word} (h : inRange 0 2 w = true) :
    (if w = 0#16 then Duck.duck else if w = 1#16 then .mute else .keep).word = w := by
  rcases word_cases3 h with rfl | rfl | rfl <;> rfl

/-- A flag reads back as it was written. -/
theorem flagWord_wordFlag {w : Word} (h : isFlag w = true) : flagWord (wordFlag w) = w := by
  rcases word_cases2 h with rfl | rfl <;> rfl

/-- A word that must be 0 is 0. -/
theorem eq_zero_of_isZero {w : Word} (h : isZero w = true) : w = 0#16 := of_decide_eq_true h

/-! ### Whole entries (Table 10-10) -/

/-- All words pass when the first does and the others do (R153). -/
theorem applyChecks_all_cons (check : Word → Bool) (checks : List (Word → Bool)) (w : Word) (ws : List Word) :
    (applyChecks (check :: checks) (w :: ws)).all id = (check w && (applyChecks checks ws).all id) := rfl

/-- No check, nothing to pass. -/
theorem applyChecks_all_nil : (applyChecks [] []).all id = true := rfl

section Entries

variable {a b c d e f g i j k l : Word}

/-- A class entry with its defined flag set (R102). -/
theorem classWords_wordsClass (good : (applyChecks classChecks [a, b, c, d, e, f, g, i, j, k, l]).all id = true)
    (defined : a = 1#16) :
    classWords (wordsClass [a, b, c, d, e, f, g, i, j, k, l]) = [a, b, c, d, e, f, g, i, j, k, l] := by
  simp only [classChecks, applyChecks_all_cons, applyChecks_all_nil, Bool.and_eq_true, and_true] at good
  obtain ⟨-, -, preempt, late, chime, -, duck, -, -, -, last⟩ := good
  subst defined
  show [1#16, numWord b.toNat, (if c = 0#16 then Preempt.resume else .drop).word, (if d = 0#16 then Late.join else .skip).word,
    opt8Word (wordOptFin 8 e), numWord f.toNat, (if g = 0#16 then Duck.duck else if g = 1#16 then .mute else .keep).word,
    numWord i.toNat, numWord j.toNat, numWord k.toNat, 0#16] = _
  rw [preemptWord_of_word preempt, lateWord_of_word late, duckWord_of_word duck, opt8Word_wordOptFin (by decide) chime,
    eq_zero_of_isZero last]
  simp only [numWord_toNat]

/-- A zone entry (R110). -/
theorem zoneWords_wordsZone (good : (applyChecks zoneChecks [a, b, c, d, e, f, g, i, j, k, l]).all id = true) :
    zoneWords (wordsZone [a, b, c, d, e, f, g, i, j, k, l]) = [a, b, c, d, e, f, g, i, j, k, l] := by
  simp only [zoneChecks, applyChecks_all_cons, applyChecks_all_nil, Bool.and_eq_true, and_true] at good
  obtain ⟨slot, programme, -, -, -, -, order, -, ninth, tenth, last⟩ := good
  show [opt8Word (wordOptFin 64 a), opt8Word (wordOptFin 52 b), numWord c.toNat, numWord d.toNat, numWord e.toNat,
    numWord f.toNat, (if g = 0#16 then OrderMode.fifo else .rotate).word, numWord i.toNat, 0#16, 0#16, 0#16] = _
  rw [opt8Word_wordOptFin (by decide) slot, opt8Word_wordOptFin (by decide) programme, orderWord_of_word order,
    eq_zero_of_isZero ninth, eq_zero_of_isZero tenth, eq_zero_of_isZero last]
  simp only [numWord_toNat]

/-- A trunk entry (R110). -/
theorem trunkWords_wordsTrunk (good : (applyChecks trunkChecks [a, b, c, d, e, f, g, i, j, k, l]).all id = true) :
    trunkWords (wordsTrunk [a, b, c, d, e, f, g, i, j, k, l]) = [a, b, c, d, e, f, g, i, j, k, l] := by
  simp only [trunkChecks, applyChecks_all_cons, applyChecks_all_nil, Bool.and_eq_true, and_true, isZero, decide_eq_true_eq] at good
  obtain ⟨slot, keyClass, -, rfl, rfl, rfl, rfl, rfl, rfl, rfl, rfl⟩ := good
  show [opt8Word (wordOptFin 64 a), opt8Word (wordOptFin 8 b), c, _, _, _, _, _, _, _, _] = _
  rw [opt8Word_wordOptFin (by decide) slot, opt8Word_wordOptFin (by decide) keyClass]

/-- A tone entry (R110). -/
theorem toneWords_wordOptFin (good : (applyChecks toneChecks [a, b, c, d, e, f, g, i, j, k, l]).all id = true) :
    toneWords (wordOptFin 8 a) = [a, b, c, d, e, f, g, i, j, k, l] := by
  simp only [toneChecks, applyChecks_all_cons, applyChecks_all_nil, Bool.and_eq_true, and_true, isZero, decide_eq_true_eq] at good
  obtain ⟨pattern, rfl, rfl, rfl, rfl, rfl, rfl, rfl, rfl, rfl, rfl⟩ := good
  show [opt8Word (wordOptFin 8 a), _, _, _, _, _, _, _, _, _, _] = _
  rw [opt8Word_wordOptFin (by decide) pattern]

/-- A pattern entry with its defined flag set: the count says how many of its steps are kept, and blank steps follow them
(R105). -/
theorem patternWords_wordsPattern (good : (applyChecks patternChecks [a, b, c, d, e, f, g, i, j, k, l]).all id = true)
    (defined : a = 1#16) :
    patternWords (wordsPattern [a, b, c, d, e, f, g, i, j, k, l]) =
      [a, b, c, d, e, f, g, i, j, k, l].take (3 + 2 * b.toNat) ++ (List.replicate (4 - b.toNat) [0#16, 1#16]).flatten := by
  simp only [patternChecks, applyChecks_all_cons, applyChecks_all_nil, Bool.and_eq_true, and_true] at good
  obtain ⟨-, count, repeats, -⟩ := good
  obtain ⟨atLeast, atMost⟩ := inRange_eq.1 count
  subst defined
  have written : numWord b.toNat = b := numWord_toNat b
  show patternWords (some
    { steps := [⟨d.toNat, e.toNat⟩, ⟨f.toNat, g.toNat⟩, ⟨i.toNat, j.toNat⟩, ⟨k.toNat, l.toNat⟩].take b.toNat
      repeats := wordFlag c }) = _
  have set : flagWord true = 1#16 := rfl
  clear count
  generalize b.toNat = n at atLeast atMost written ⊢
  subst written
  have four : n = 1 ∨ n = 2 ∨ n = 3 ∨ n = 4 := by omega
  rcases four with rfl | rfl | rfl | rfl <;>
    simp [patternWords, padEntry, blankStep, numWord, set, flagWord_wordFlag repeats]

end Entries

/-- Settles O39, by the kind of the entry. -/
theorem entryReadsBackAsWritten : Obligations.EntryReadsBackAsWritten := by
  intro p en ws hlen good
  obtain ⟨a, b, c, d, e, f, g, i, j, k, l, rfl⟩ := eleven_words hlen
  refine ⟨?same, ?noClass, ?noPattern, ?pattern⟩
  case same =>
    rintro (⟨z, rfl⟩ | ⟨t, rfl⟩ | ⟨t, rfl⟩ | ⟨⟨x, rfl⟩, defined⟩)
    · exact (congrArg zoneWords (Table.get_set_same ..)).trans (zoneWords_wordsZone good)
    · exact (congrArg trunkWords (Table.get_set_same ..)).trans (trunkWords_wordsTrunk good)
    · exact (congrArg toneWords (Table.get_set_same ..)).trans (toneWords_wordOptFin good)
    · exact (congrArg classWords (Table.get_set_same ..)).trans (classWords_wordsClass good defined)
  case noClass =>
    rintro ⟨x, rfl⟩ (undefined : a = 0#16)
    subst undefined
    exact congrArg classWords (Table.get_set_same ..)
  case noPattern =>
    rintro ⟨x, rfl⟩ (undefined : a = 0#16)
    subst undefined
    exact congrArg patternWords (Table.get_set_same ..)
  case pattern =>
    rintro ⟨x, rfl⟩ defined
    exact (congrArg patternWords (Table.get_set_same ..)).trans (patternWords_wordsPattern good defined)

end Sys2Proof.Machine
end

section
/-! A plan switch (R29, R61, R62, R96, R97, R121). -/

namespace Sys2Proof.Machine

/-! ### Tone generators at a switch (R97) -/

/-- Different generators are different sources. -/
theorem toneSource_injective : Function.Injective toneSource := by
  intro g g' same
  have val : 48 + g.val = 48 + g'.val := congrArg Fin.val same
  exact Fin.ext (Nat.add_left_cancel val)

section Generators

variable {g : ToneGen} {p : Plan} {n : Fin 8} {pat : Pattern}

/-- A generator whose entry the new plan leaves unprogrammed is ABSENT with its phase held. -/
theorem ToneGen.follow_none : g.follow p none = { playing := none, phase := g.phase } := by
  have apart : g.holds p none = false := by
    unfold ToneGen.holds
    cases g.playing <;> rfl
  rw [ToneGen.follow, apart]
  rfl

/-- A generator holds what its entry gives when it plays the same pattern number, steps and repeat flag. -/
theorem ToneGen.holds_iff (defined : p.patterns.get n = some pat) :
    g.holds p (some n) = true ↔
      ∃ t, g.playing = some t ∧ t.number = n ∧ t.steps = pat.toneSteps ∧ t.repeats = pat.repeats := by
  unfold ToneGen.holds
  cases g.playing with
  | none => simp
  | some t => simp [defined, and_assoc]

/-- A generator that does not hold what its entry gives starts the entry's pattern. -/
theorem ToneGen.follow_of_differs (defined : p.patterns.get n = some pat)
    (differs : ∀ t, g.playing = some t → t.number ≠ n ∨ t.steps ≠ pat.toneSteps ∨ t.repeats ≠ pat.repeats) :
    g.follow p (some n) =
      { playing := some { number := n, steps := pat.toneSteps, repeats := pat.repeats, pos := startPos pat.toneSteps }
        phase := 0 } := by
  have apart : ¬ g.holds p (some n) = true := by
    rw [ToneGen.holds_iff defined]
    rintro ⟨t, playing, number, steps, repeats⟩
    rcases differs t playing with h | h | h <;> exact h (by assumption)
  rw [ToneGen.follow, if_neg apart, ToneGen.start]
  simp only [defined]

end Generators

/-! ### The removals of a switch on their own -/

/-- The removals of a switch from one plan to another: the zones made unused are emptied, then the unused zones leave the
target sets (R29, R61). -/
def Event.strip (old new : Plan) (e : Event) : Event :=
  ((List.finRange 16).filter fun z => !new.used z).foldl Event.dropTargets
    (((List.finRange 16).filter fun z => old.used z && !new.used z).foldl Event.emptyZone e)

section Strip

variable (old new : Plan) (e : Event)

/-- A switch strips, then evaluates the used zones (R62). -/
theorem Event.switchPlan_eq :
    e.switchPlan old new = (e.strip old new).evaluateAll new ((List.finRange 16).filter new.used) := rfl

/-- A switch leaves every restriction. -/
theorem Event.switchPlan_restriction (z : Zone) :
    ((e.switchPlan old new).zones.get z).restriction = (e.zones.get z).restriction := by
  rw [Event.switchPlan_eq, (Event.evaluateAll_frame new _ _).2.1, Event.strip, Event.foldl_dropTargets_zones]
  exact (Event.foldl_emptyZone_frame _ e z).1

variable {old new e}

/-- A zone made unused is IDLE with an empty stack (R61). -/
theorem Event.switchPlan_vacant {z : Zone} (was : old.used z = true) (unused : new.used z = false) :
    ((e.switchPlan old new).zones.get z).Vacant := by
  rw [Event.switchPlan_eq, Event.evaluateAll_unused new _ _ z unused, Event.strip, Event.foldl_dropTargets_zones]
  exact (Event.foldl_emptyZone_frame _ e z).2.1 (by simp [was, unused])

/-- After a switch the target sets hold used zones only (R29). -/
theorem Event.switchPlan_used (listed : ∀ r, (e.calls.call? r).isSome = true → r ∈ e.calls.admission) {r : CallRef}
    {d : Call} (hd : (e.switchPlan old new).calls.call? r = some d) {z : Zone} (hz : ZoneSet.has d.target z = true) :
    new.used z = true := by
  obtain ⟨c, hc, narrowed⟩ := ((e.strip old new).narrows_evaluateAll new ((List.finRange 16).filter new.used)).calls r d hd
  refine Classical.byContradiction fun unused => ?_
  have emptied := Event.Narrows.foldl _ Event.narrows_emptyZone
    ((List.finRange 16).filter fun z => old.used z && !new.used z) e
  have gone := Event.foldl_dropTargets_gone _ _ (emptied.listed listed) r c hc z (by simpa using unused)
  rw [narrowed.target z hz] at gone
  cases gone

end Strip

/-! ### The losses of generators taken first (R97) -/

/-- The losses that a switch takes before its work on calls and zones (R97). -/
def State.takeLosses (s : State) (lost : List Tone) : State :=
  lost.foldl (fun s g => s.ifDue (.loss (toneSource g)) fun s => s.takeLoss (toneSource g)) s

/-- What taking some losses of generators does to a state, as far as a switch needs it. -/
structure State.LossesTaken (lost : List Tone) (s t : State) : Prop where
  plans : t.plans = s.plans
  sources : t.sources = s.sources
  out : t.out = s.out
  msg : t.msg = s.msg
  receiver : t.receiver = s.receiver
  address : t.address = s.address
  waiting : ∀ g, g ∉ lost → Task.loss (toneSource g) ∈ s.due → Task.loss (toneSource g) ∈ t.due
  restriction : ∀ z, (t.zones.get z).restriction = (s.zones.get z).restriction
  notices : ∃ ns, (∀ n ∈ ns, n.code = 3 ∨ n.code = 4 ∨ n.code = 5) ∧ t.notices = s.notices.submitAll ns
  narrows : (Event.start s).Narrows (Event.start t)

/-- Submitting two lists, one after the other. -/
theorem NoticeBlock.submitAll_append (b : NoticeBlock) (ns ms : List Notice) :
    b.submitAll (ns ++ ms) = (b.submitAll ns).submitAll ms := List.foldl_append

/-- No loss taken. -/
theorem State.LossesTaken.refl (lost : List Tone) (s : State) : State.LossesTaken lost s s :=
  ⟨rfl, rfl, rfl, rfl, rfl, rfl, fun _ _ h => h, fun _ => rfl, ⟨[], by simp, rfl⟩, .refl _⟩

/-- Losses taken one after another. -/
theorem State.LossesTaken.trans {lost : List Tone} {s t u : State} (h : State.LossesTaken lost s t)
    (k : State.LossesTaken lost t u) : State.LossesTaken lost s u := by
  obtain ⟨ns, codes, submitted⟩ := h.notices
  obtain ⟨ms, codes', submitted'⟩ := k.notices
  exact ⟨k.plans.trans h.plans, k.sources.trans h.sources, k.out.trans h.out, k.msg.trans h.msg,
    k.receiver.trans h.receiver, k.address.trans h.address, fun g hg due => k.waiting g hg (h.waiting g hg due),
    fun z => (k.restriction z).trans (h.restriction z),
    ⟨ns ++ ms, fun n hn => (List.mem_append.1 hn).elim (codes n) (codes' n),
      by rw [submitted', submitted, NoticeBlock.submitAll_append]⟩,
    h.narrows.trans k.narrows⟩

/-- The loss of one source, taken when it is due. -/
theorem State.LossesTaken.takeLoss {lost : List Tone} {g : Tone} (hg : g ∈ lost) (s : State) :
    State.LossesTaken lost s (s.ifDue (.loss (toneSource g)) fun s => s.takeLoss (toneSource g)) := by
  unfold State.ifDue
  split
  case isFalse => exact .refl lost s
  case isTrue =>
    set u : State := { s with due := s.due.erase (.loss (toneSource g)) }
    set e := (Event.start u).endSource u.plan (toneSource g) .sourceLost with he
    have ends : (Event.start s).Narrows e ∧ ∀ z, (e.zones.get z).restriction = (s.zones.get z).restriction := by
      rcases Event.endSource_eq u.plan (toneSource g) .sourceLost (Event.start u) with same | ⟨r, same⟩
      · rw [he, same]
        exact ⟨.refl _, fun _ => rfl⟩
      · rw [he, same]
        exact ⟨Event.narrows_endCall .., fun z => Event.endCall_restriction ..⟩
    refine ⟨rfl, rfl, rfl, rfl, rfl, rfl, fun g' hg' due => ?_, fun z => ?_, ⟨eventNotices u.calls e.settle ++ [], ?_, rfl⟩,
      (ends.1.trans e.narrows_settle).of_calls rfl⟩
    · have apart : g' ≠ g := fun same => hg' (same ▸ hg)
      exact (List.mem_erase_of_ne fun same => apart (toneSource_injective (Task.loss.inj same))).2 due
    · exact (congrArg (fun zones => (Table.get zones z).restriction) e.settle_zones).trans (ends.2 z)
    · rw [List.append_nil]
      exact eventNotices_codes _ _

/-- Some losses, each taken when it is due. -/
theorem State.takeLosses_spec (s : State) (lost : List Tone) : State.LossesTaken lost s (s.takeLosses lost) := by
  suffices all : ∀ (gs : List Tone) (t : State), (∀ g ∈ gs, g ∈ lost) → State.LossesTaken lost t (t.takeLosses gs) from
    all lost s fun _ h => h
  intro gs
  induction gs with
  | nil => exact fun t _ => .refl lost t
  | cons g rest ih =>
    intro t within
    exact (State.LossesTaken.takeLoss (within g (by simp)) t).trans (ih _ fun g' h => within g' (by simp [h]))

/-- Losses taken between the switch of the banks and its work on calls and zones. -/
theorem State.MidSwitch.takeLosses {old : Plan} {s : State} (h : s.MidSwitch old) (lost : List Tone) :
    (s.takeLosses lost).MidSwitch old := by
  refine foldl_keeps (P := State.MidSwitch old) (fun b g hb => ?_) lost h
  unfold State.ifDue
  split
  · exact State.MidSwitch.takeLoss (s := { b with due := b.due.erase (.loss (toneSource g)) })
      ⟨hb.plans, hb.sound.of_log rfl rfl, hb.vacant⟩ (toneSource g)
  · exact hb

end Sys2Proof.Machine
end

section
/-! SWITCH_TAKEN (R121): its parts put together. -/

namespace Sys2Proof.Machine

variable {s : State}

/-- A switch that is due and pending switches the banks, takes the losses listed, and works on calls and zones (R121). -/
theorem exec_switchTaken {lost : List Tone} {p : PendingSwitch} (running : s.inReset = false)
    (due : Task.switchTake ∈ s.due) (pending : s.plans.pending = some p) :
    exec (.switchTaken lost) s =
      .next ((((s.undue .switchTake).switchBanks).takeLosses lost).switchCalls s.plan) := by
  have work : (s.undue .switchTake).takeSwitch lost =
      ((((s.undue .switchTake).switchBanks).takeLosses lost).switchCalls s.plan) := by
    unfold State.takeSwitch
    rw [show (s.undue .switchTake).plans.pending = some p from pending]
    rfl
  show s.running (fun s => s.ifDue .switchTake fun s => s.takeSwitch lost) = _
  rw [← work]
  simp [State.running, running, State.ifDue, due, State.undue]

/-- A switch of the banks makes the new plan live (R121). -/
theorem State.switchBanks_plan : s.switchBanks.plan = s.plans.otherBank.plan := rfl

/-- A generator that plays and has no pattern in the new plan is lost: its loss falls due (R97). -/
theorem State.loss_due_switchBanks {g : Tone} (unprogrammed : s.plans.otherBank.plan.tones.get g = none)
    (plays : (s.sources.tones.get g).playing ≠ none) : Task.loss (toneSource g) ∈ s.switchBanks.due := by
  refine List.mem_append_right _ (List.mem_map_of_mem ?_)
  have after : ((s.sources.switchPlan s.plans.otherBank.plan).tones.get g).playing = none := by
    show ((s.sources.tones.update _).get g).playing = none
    rw [Table.get_update, unprogrammed, ToneGen.follow_none]
  simp only [lostTones, List.mem_filter, List.mem_finRange, true_and, Bool.and_eq_true]
  exact ⟨Option.isSome_iff_ne_none.2 plays, Option.isNone_iff_eq_none.2 after⟩

/-- The notices of a switch: those of its event, then PLAN_SWITCHED (R121). -/
theorem State.switchCalls_notices (old : Plan) :
    (s.switchCalls old).notices =
      (s.notices.submitAll (eventNotices s.calls ((Event.start s).switchPlan old s.plan).settle)).submit
        (.planSwitched s.plans.live) := by
  show s.notices.submitAll (_ ++ [_]) = _
  rw [NoticeBlock.submitAll_append]
  rfl

/-- The zone records after a switch. -/
theorem State.switchCalls_zones (old : Plan) :
    (s.switchCalls old).zones = ((Event.start s).switchPlan old s.plan).zones := Event.settle_zones _

/-- The completion of a switch applies the desired pairs to both lanes of every mixer (R69). -/
theorem Mixer.afterEvent_always (p : Plan) (calls : CallTable) (entry : ZoneEntry) (before after : ZoneState)
    (entered : Bool) (m : Mixer) :
    (m.afterEvent p calls entry before after entered true).foreground =
        m.foreground.apply (desiredForeground entry calls after) ∧
      (m.afterEvent p calls entry before after entered true).background =
        m.background.apply (desiredBackground entry calls after) := by
  unfold Mixer.afterEvent
  simp only [Bool.true_or, if_true]
  split
  · split <;> exact ⟨rfl, rfl⟩
  · exact ⟨rfl, rfl⟩

/-- The lanes after a switch (R83). -/
theorem State.switchCalls_lanes (old : Plan) (z : Zone) :
    let t := s.switchCalls old
    (t.mixers.get z).foreground =
        (s.mixers.get z).foreground.apply (desiredForeground (s.plan.zones.get z) t.calls (t.zones.get z).state) ∧
      (t.mixers.get z).background =
        (s.mixers.get z).background.apply (desiredBackground (s.plan.zones.get z) t.calls (t.zones.get z).state) := by
  intro t
  show ((s.mixers.update _).get z).foreground = _ ∧ ((s.mixers.update _).get z).background = _
  rw [Table.get_update]
  exact Mixer.afterEvent_always ..

/-! ### What a switch strips from a coherent state (R29, R61) -/

section Coherent

variable (h : s.Coherent) (new : Plan)
include h

/-- The removals on a coherent state. -/
theorem State.Coherent.strips : Event.Stripped s.plan new (Event.start s) ((Event.start s).strip s.plan new) :=
  Event.Sound.strips h.good.sound s.plan new

/-- Every zone made unused is vacated, its live call's source becoming the last it served; no other record changes. -/
theorem State.Coherent.strip_zones (z : Zone) :
    ((Event.start s).strip s.plan new).zones.get z =
      if s.plan.used z = true ∧ new.used z = false then
        { s.zones.get z with
          state := .idle, stack := []
          lastServed := match (s.zones.get z).state.live? with
            | none => (s.zones.get z).lastServed
            | some l => (s.calls.call? l).map Call.source }
      else s.zones.get z := by
  rw [(h.strips new).records]
  refine if_congr Iff.rfl ?_ rfl
  show (s.zones.get z).vacated s.calls = _
  unfold ZoneRecord.vacated
  cases live : (s.zones.get z).state.live? with
  | none => rfl
  | some l =>
    obtain ⟨c, hc⟩ := Option.isSome_iff_exists.1 (h.agree.liveOpen z l live)
    simp only [hc, Option.map_some]

/-- Every zone that holds a call is used, and the call is live or stacked on it. -/
theorem State.Coherent.holder_of_held {r : CallRef} {c : Call} (hc : s.calls.call? r = some c) {z : Zone}
    (held : ZoneSet.has c.granted z = true ∨ ZoneSet.has c.suspended z = true) :
    s.plan.used z = true ∧ r ∈ (s.zones.get z).holders := by
  have holder : r ∈ (s.zones.get z).holders := by
    rw [ZoneRecord.holders, List.mem_append]
    refine held.imp (fun granted => ?_) (h.agree.suspended r c z hc).1
    simp [(h.agree.granted r c z hc).1 granted]
  refine ⟨Classical.byContradiction fun unused => ?_, holder⟩
  obtain ⟨idle, empty⟩ := h.unusedEmpty z (by simpa using unused)
  simp [ZoneRecord.holders, idle, empty, ZoneState.live?] at holder

/-- A call keeps of its sets what stays used; it has lost the other zones of its target set, and if none is left it has
ended NO_ZONES. -/
theorem State.Coherent.strip_call {r : CallRef} {c : Call} (hc : s.calls.call? r = some c) :
    let e := (Event.start s).strip s.plan new
    (∀ z, ZoneSet.has c.target z = true → new.used z = false → (r, z, LossReason.plan) ∈ e.lost) ∧
      ((∀ z, ZoneSet.has c.target z = true → new.used z = false) →
        e.calls.call? r = none ∧ (r, EndCause.noZones) ∈ e.ended) ∧
      ((∃ z, ZoneSet.has c.target z = true ∧ new.used z = true) → ∃ d, e.calls.call? r = some d ∧
        d = { c with target := d.target, granted := d.granted, suspended := d.suspended } ∧
        ∀ z, ZoneSet.has d.target z = (ZoneSet.has c.target z && new.used z) ∧
          ZoneSet.has d.granted z = (ZoneSet.has c.granted z && new.used z) ∧
          ZoneSet.has d.suspended z = (ZoneSet.has c.suspended z && new.used z)) := by
  intro e
  obtain ⟨told, finished, kept⟩ := (h.strips new).removed
  refine ⟨told r c hc, finished r c hc, fun ⟨y, wants, stays⟩ => ?_⟩
  obtain ⟨d, hd, same, sets⟩ := kept r c hc ⟨y, wants, by simp [stays]⟩
  refine ⟨d, hd, same, fun z => ⟨?_, ?_, ?_⟩⟩
  · rw [Bool.eq_iff_iff, (sets z).1]
    simp
  · rw [Bool.eq_iff_iff, (sets z).2.1, Bool.and_eq_true]
    refine and_congr_right fun granted => ?_
    obtain ⟨used, holder⟩ := h.holder_of_held hc (.inl granted)
    simp [used, show r ∈ ((Event.start s).zones.get z).holders from holder]
  · rw [Bool.eq_iff_iff, (sets z).2.2, Bool.and_eq_true]
    refine and_congr_right fun suspended => ?_
    obtain ⟨used, holder⟩ := h.holder_of_held hc (.inr suspended)
    simp [used, show r ∈ ((Event.start s).zones.get z).holders from holder]

end Coherent

/-! ### The whole switch -/

/-- Settles O26, by the three parts of a switch: the banks with the sources and the transmitter, the losses taken first, and
the work on calls, zones and mixers. -/
theorem switchTakenChangesBank : Obligations.SwitchTakenChangesBank := by
  intro lost p s running due pending new
  set b := (s.undue .switchTake).switchBanks
  set u := b.takeLosses lost
  have losses : State.LossesTaken lost b u := b.takeLosses_spec lost
  have plan : u.plan = new := congrArg PlanStore.livePlan losses.plans
  have zones := State.switchCalls_zones (s := u) s.plan
  rw [plan] at zones
  refine ⟨u.switchCalls s.plan, exec_switchTaken running due pending, losses.plans, plan, fun k => ?trunk, fun g => ?tone,
    losses.out, fun z => ?restriction, fun z was unused => ?vacant, ?notices, fun coherent r d hd => ?calls,
    fun coherent none_lost => ?whole, losses.msg, losses.receiver, losses.address⟩
  case trunk =>
    show u.sources.trunks.get k = _
    rw [losses.sources]
    exact Table.get_update ..
  case tone =>
    have follows : (u.switchCalls s.plan).sources.tones.get g = (s.sources.tones.get g).follow new (new.tones.get g) := by
      show u.sources.tones.get g = _
      rw [losses.sources]
      exact Table.get_update ..
    refine ⟨fun unprogrammed => ⟨?_, fun plays kept => ?_⟩, fun n pat programmed defined => ⟨?_, ?_⟩⟩
    · rw [follows, unprogrammed, ToneGen.follow_none]
    · exact losses.waiting g kept (State.loss_due_switchBanks (s := s.undue .switchTake) unprogrammed plays)
    · intro t playing number steps repeats
      rw [follows, programmed, ToneGen.follow, if_pos]
      exact (ToneGen.holds_iff defined).2 ⟨t, playing, number, steps, repeats⟩
    · intro differs
      rw [follows, programmed]
      exact ToneGen.follow_of_differs defined differs
  case restriction =>
    rw [zones, Event.switchPlan_restriction]
    exact losses.restriction z
  case vacant =>
    rw [zones]
    exact Event.switchPlan_vacant was unused
  case notices =>
    obtain ⟨ns, codes, submitted⟩ := losses.notices
    refine ⟨ns ++ eventNotices u.calls ((Event.start u).switchPlan s.plan u.plan).settle, fun n hn => ?_, ?_⟩
    · exact (List.mem_append.1 hn).elim (codes n) (eventNotices_codes _ _ n)
    · rw [State.switchCalls_notices, submitted, losses.plans, NoticeBlock.submitAll_append]
      rfl
  case calls =>
    have mid : u.MidSwitch s.plan :=
      State.MidSwitch.takeLosses (State.Coherent.switchBanks (s := s.undue .switchTake) (coherent.of_eq rfl rfl rfl)
        (Option.isSome_iff_exists.2 ⟨p, pending⟩)) lost
    obtain ⟨x, hx, settled⟩ := (((Event.start u).switchPlan s.plan u.plan).narrows_settle).calls r d hd
    obtain ⟨c, hc, narrowed⟩ :=
      ((losses.narrows.trans ((Event.start u).narrows_switchPlan s.plan u.plan)).trans (Event.narrows_settle _)).calls r d hd
    refine ⟨c, hc, narrowed.origin, narrowed.cls, narrowed.captured, narrowed.source, narrowed.hold,
      fun z hz => ⟨narrowed.target z hz, ?_⟩⟩
    rw [← plan]
    exact Event.switchPlan_used (fun q hq => (mid.sound.table.listed q).2 hq) hx (settled.target z hz)
  case whole =>
    subst none_lost
    exact ⟨(Event.start s).strip s.plan new, coherent.strip_zones new, fun r c hc => coherent.strip_call new hc, rfl, rfl,
      State.switchCalls_notices s.plan, State.switchCalls_lanes s.plan⟩

end Sys2Proof.Machine
end

section
/-! Every step keeps the notice queue's conditions (O57): what each operation of the notice block does to the numbers, the
marks and the timer, and that everything else a step does reaches the block by submissions alone (R128, R133, R135, R140). -/

namespace Sys2Proof.Machine

/-! ### Sequence numbers and marks (R128) -/

/-- The entries are numbered consecutively modulo 256, up to the next sequence number (R128). -/
def NumberedTo (next : BitVec 8) (q : List NoticeEntry) : Prop :=
  ∀ i (h : i < q.length), q[i].seq + BitVec.ofNat 8 (q.length - i) = next

/-- SENT entries come first (R128). -/
def SentFirst (q : List NoticeEntry) : Prop := q.Pairwise fun x y => y.sent = true → x.sent = true

section Numbers

variable {next : BitVec 8} {p q : List NoticeEntry}

/-- The empty queue is numbered. -/
theorem NumberedTo.nil (next : BitVec 8) : NumberedTo next [] := fun _ h => absurd h (Nat.not_lt_zero _)

/-- The condition reads the sequence numbers alone. -/
theorem NumberedTo.of_seqs (h : NumberedTo next q) (same : p.map NoticeEntry.seq = q.map NoticeEntry.seq) :
    NumberedTo next p := by
  intro i hi
  have len : p.length = q.length := by simpa using congrArg List.length same
  have seq : (p[i]).seq = (q[i]'(len ▸ hi)).seq := by
    have at_i := congrArg (fun l => l[i]?) same
    simpa [hi, len ▸ hi] using at_i
  simpa only [seq, len] using h i (len ▸ hi)

/-- Removing the oldest entries leaves the rest numbered (R136). -/
theorem NumberedTo.drop (h : NumberedTo next q) (n : Nat) : NumberedTo next (q.drop n) := by
  intro i hi
  rw [List.length_drop] at hi
  rw [List.getElem_drop, List.length_drop, Nat.sub_sub]
  exact h (n + i) (by omega)

/-- An entry appended with the next sequence number continues the numbering (R128). -/
theorem NumberedTo.append (h : NumberedTo next q) (n : Notice) (sent : Bool) :
    NumberedTo (next + 1#8) (q ++ [⟨next, n, sent⟩]) := by
  intro i hi
  rw [List.length_append, List.length_singleton] at hi ⊢
  rcases Nat.lt_succ_iff_lt_or_eq.1 hi with old | rfl
  · rw [List.getElem_append_left old, Nat.sub_add_comm (Nat.le_of_lt old), BitVec.ofNat_add, ← BitVec.add_assoc, h i old]
  · simp

/-- A new UNSENT entry goes last. -/
theorem SentFirst.append (h : SentFirst q) (seq : BitVec 8) (n : Notice) : SentFirst (q ++ [⟨seq, n, false⟩]) :=
  List.pairwise_append.2 ⟨h, List.pairwise_singleton _ _, fun _ _ y hy sent => by
    rw [List.mem_singleton.1 hy] at sent; cases sent⟩

/-- With no entry SENT, the condition asks nothing. -/
theorem SentFirst.of_unsent (h : ∀ e ∈ q, e.sent = false) : SentFirst q :=
  List.pairwise_of_forall_mem_list fun _ _ y hy sent => by rw [h y hy] at sent; cases sent

/-- Marking the oldest UNSENT entries SENT keeps SENT entries first (R134). -/
theorem SentFirst.markSent (h : SentFirst q) (n : Nat) : SentFirst (markSent n q) := by
  fun_induction Machine.markSent n q with
  | case1 => exact h
  | case2 => exact h
  | case3 n e rest sent ih => exact List.Pairwise.cons (fun _ _ _ => sent) (ih (List.Pairwise.of_cons h))
  | case4 n e rest unsent ih => exact List.Pairwise.cons (fun _ _ _ => rfl) (ih (List.Pairwise.of_cons h))

end Numbers

/-! ### Queue operations -/

section Queues

variable (q : List NoticeEntry)

/-- Returning entries to UNSENT leaves their numbers (R138). -/
theorem unsendAll_seqs : (unsendAll q).map NoticeEntry.seq = q.map NoticeEntry.seq := by
  simp [unsendAll]

/-- Returned entries are UNSENT (R138). -/
theorem unsendAll_unsent : ∀ e ∈ unsendAll q, e.sent = false := by
  simp [unsendAll]

/-- A notice message leaves the numbers (R134). -/
theorem markSent_seqs (n : Nat) : (markSent n q).map NoticeEntry.seq = q.map NoticeEntry.seq := by
  fun_induction markSent n q with
  | case1 | case2 => rfl
  | case3 n e rest sent ih => rw [List.map_cons, List.map_cons, ih]
  | case4 n e rest unsent ih => rw [List.map_cons, List.map_cons, ih]

/-- A notice message over some entries leaves one SENT (R134). -/
theorem markSent_anySent {n : Nat} (some_entry : q ≠ []) : (markSent (n + 1) q).any NoticeEntry.sent = true := by
  cases q with
  | nil => exact absurd rfl some_entry
  | cons e rest =>
    unfold markSent
    split
    · rename_i sent; simp [sent]
    · simp

/-- A coalescing notice leaves every number and every mark (R130, R131). -/
theorem replaceYoungest_marks (r : CallRef) (n : Notice) :
    (replaceYoungest r n q).map (fun e => (e.seq, e.sent)) = q.map fun e => (e.seq, e.sent) := by
  induction q with
  | nil => rfl
  | cons e rest ih =>
    unfold replaceYoungest
    split
    · rw [List.map_cons, List.map_cons, ih]
    · split <;> rfl

end Queues

/-! ### The notice block's operations -/

namespace NoticeBlock

variable {b c : NoticeBlock}

/-- A block with nothing in it. -/
theorem wf_of_empty (queue : b.queue = []) (lost : b.lost = 0) (timer : b.timer = none) : b.Wf where
  size := by rw [queue]; exact Nat.zero_le _
  numbered := queue ▸ NumberedTo.nil b.next
  sentFirst := queue ▸ List.Pairwise.nil
  lostBound := by omega
  timerRuns := by rw [timer, anySent, queue]; rfl
  disabledEmpty := fun _ => ⟨queue, lost⟩

/-- The conditions read the queue, the next number, the lost count, whether the timer runs, and the enable flag. -/
theorem Wf.of_queue (h : b.Wf) (queue : c.queue = b.queue) (next : c.next = b.next)
    (timer : c.timer.isSome = b.timer.isSome) (lost : c.lost ≤ 255)
    (disabled : c.enabled = false → b.queue = [] ∧ c.lost = 0) : c.Wf where
  size := queue ▸ h.size
  numbered := by rw [next]; exact queue ▸ h.numbered
  sentFirst := queue ▸ h.sentFirst
  lostBound := lost
  timerRuns := by rw [timer, anySent, queue]; exact h.timerRuns
  disabledEmpty := fun off => queue ▸ disabled off

/-- Of the queue, the conditions read the numbers and the marks. -/
theorem Wf.withMarks (h : b.Wf) (on : b.enabled = true) {q : List NoticeEntry}
    (same : q.map (fun e => (e.seq, e.sent)) = b.queue.map fun e => (e.seq, e.sent)) : Wf { b with queue := q } := by
  have seqs : q.map NoticeEntry.seq = b.queue.map NoticeEntry.seq := by
    simpa [Function.comp_def] using congrArg (List.map Prod.fst) same
  have sents : q.map NoticeEntry.sent = b.queue.map NoticeEntry.sent := by
    simpa [Function.comp_def] using congrArg (List.map Prod.snd) same
  refine ⟨?_, NumberedTo.of_seqs h.numbered seqs, ?_, h.lostBound, ?_, fun off => nomatch on.symm.trans off⟩
  · have len : q.length = b.queue.length := by simpa using congrArg List.length same
    exact len ▸ h.size
  · have first : (b.queue.map NoticeEntry.sent).Pairwise fun x y => y = true → x = true := List.pairwise_map.2 h.sentFirst
    exact List.pairwise_map.1 (sents ▸ first)
  · have any : ∀ l : List NoticeEntry, l.any NoticeEntry.sent = (l.map NoticeEntry.sent).any id := by simp
    show b.timer.isSome = q.any NoticeEntry.sent
    rw [h.timerRuns, anySent, any, any, sents]

/-- Every entry returned to UNSENT and the timer stopped (R138, R140). -/
theorem Wf.unsend (h : b.Wf) (queue : c.queue = unsendAll b.queue) (timer : c.timer = none) (next : c.next = b.next)
    (lost : c.lost = b.lost) (enabled : c.enabled = b.enabled) : c.Wf where
  size := by rw [queue, unsendAll, List.length_map]; exact h.size
  numbered := by
    rw [next]
    exact queue ▸ NumberedTo.of_seqs h.numbered (unsendAll_seqs _)
  sentFirst := queue ▸ SentFirst.of_unsent (unsendAll_unsent _)
  lostBound := lost ▸ h.lostBound
  timerRuns := by
    have none_sent : c.anySent = false := by
      rw [anySent, queue, List.any_eq_false]
      exact fun e he => by rw [unsendAll_unsent _ e he]; exact Bool.false_ne_true
    rw [timer, none_sent]
    rfl
  disabledEmpty := fun off => by
    obtain ⟨empty, unlost⟩ := h.disabledEmpty (enabled ▸ off)
    exact ⟨by rw [queue, empty]; rfl, lost.trans unlost⟩

/-- An enabled block with room takes a new entry (R128). -/
theorem Wf.append (h : b.Wf) (on : b.enabled = true) (room : b.queue.length < Config.noticeQueueLimit) (n : Notice) :
    (b.append n).Wf where
  size := by
    show (b.queue ++ [_]).length ≤ _
    rw [List.length_append, List.length_singleton]
    exact room
  numbered := NumberedTo.append h.numbered n false
  sentFirst := SentFirst.append h.sentFirst _ _
  lostBound := h.lostBound
  timerRuns := by
    show b.timer.isSome = (b.queue ++ [_]).any _
    rw [h.timerRuns, anySent, List.any_append]
    simp
  disabledEmpty := fun off => nomatch on.symm.trans off

/-- A submission (R129): the three cases of an enabled block. -/
theorem Wf.submit (h : b.Wf) (n : Notice) : (b.submit n).Wf := by
  unfold NoticeBlock.submit
  split
  · exact h
  · rename_i enabled
    have on : b.enabled = true := by simpa using enabled
    split
    · unfold coalesce
      split
      · exact h
      · exact h.withMarks on (replaceYoungest_marks _ _ _)
    · split
      · rename_i room; exact h.append on room n
      · exact h.of_queue rfl rfl rfl (Nat.min_le_right _ _) fun off => nomatch on.symm.trans off

/-- Submissions one after another (R132). -/
theorem Wf.submitAll (h : b.Wf) (ns : List Notice) : (b.submitAll ns).Wf := foldl_keeps (fun _ n h => h.submit n) ns h

/-- A boundary's count of the retry timer (R135). -/
theorem Wf.tick (h : b.Wf) : Wf { b with timer := b.timer.map RetryTimer.tick } :=
  h.of_queue rfl rfl Option.isSome_map h.lostBound h.disabledEmpty

/-- A notice message over at least one UNSENT entry: the timer runs from now on (R134). -/
theorem Wf.form (h : b.Wf) (on : b.enabled = true) (unsent : b.anyUnsent = true) (held : Bool) : (b.form held).Wf where
  size := by
    have len : (markSent Config.noticesPerMessage b.queue).length = b.queue.length := by
      simpa using congrArg List.length (markSent_seqs b.queue Config.noticesPerMessage)
    exact len ▸ h.size
  numbered := NumberedTo.of_seqs h.numbered (markSent_seqs _ _)
  sentFirst := SentFirst.markSent h.sentFirst _
  lostBound := h.lostBound
  timerRuns := by
    have some_entry : b.queue ≠ [] := fun empty => by simp [anyUnsent, empty] at unsent
    have sent : (b.form held).anySent = true := markSent_anySent b.queue some_entry
    rw [sent]
    show (if b.anySent then b.timer else some (b.freshTimer held)).isSome = true
    split
    · rename_i already; exact h.timerRuns.trans already
    · rfl
  disabledEmpty := fun off => nomatch on.symm.trans off

/-- The retry expiry (R138). -/
theorem Wf.expire (h : b.Wf) : b.expire.Wf := h.unsend rfl rfl rfl rfl rfl

/-- The oldest entries leave and the timer restarts or stops (R136). -/
theorem Wf.removeOldest (h : b.Wf) (n : Nat) :
    Wf { b with
      queue := b.queue.drop n
      timer := if (b.queue.drop n).any NoticeEntry.sent then some (b.freshTimer false) else none } where
  size := by
    show (b.queue.drop n).length ≤ _
    rw [List.length_drop]
    exact (Nat.sub_le _ _).trans h.size
  numbered := NumberedTo.drop h.numbered n
  sentFirst := h.sentFirst.drop
  lostBound := h.lostBound
  timerRuns := by
    show (if (b.queue.drop n).any NoticeEntry.sent then some (b.freshTimer false) else none).isSome =
      (b.queue.drop n).any NoticeEntry.sent
    split
    · rename_i sent; exact sent.symm
    · rename_i unsent; exact (Bool.eq_false_iff.2 unsent).symm
  disabledEmpty := fun off => by
    obtain ⟨empty, unlost⟩ := h.disabledEmpty off
    exact ⟨by show b.queue.drop n = []; rw [empty, List.drop_nil], unlost⟩

/-- An acknowledgement that removes an entry leaves room for OVERFLOW (R136, R137). -/
theorem Wf.ack (h : b.Wf) {n : Nat} (removes : 0 < n) : (b.ack n).Wf := by
  have removed := h.removeOldest n
  unfold NoticeBlock.ack
  dsimp only
  split
  · rename_i lost
    have on : b.enabled = true := by
      by_contra off
      obtain ⟨-, unlost⟩ := h.disabledEmpty (Bool.eq_false_iff.2 off)
      exact absurd unlost (Nat.pos_iff_ne_zero.1 lost)
    have room : (b.queue.drop n).length < Config.noticeQueueLimit := by
      have size := h.size
      rw [List.length_drop]
      unfold Config.noticeQueueLimit at size ⊢
      omega
    exact (removed.append on room _).of_queue rfl rfl rfl (Nat.zero_le _) fun off => nomatch on.symm.trans off
  · exact removed

/-- An acknowledged number removes at least its own entry (R136). -/
theorem ackCount_pos {seq : BitVec 8} {n : Nat} (h : b.ackCount? seq = some n) : 0 < n := by
  unfold ackCount? at h
  dsimp only at h
  split at h
  · cases h; exact Nat.succ_pos _
  · cases h

/-- NOTICE_CONFIG, by the cases of R140. -/
theorem Wf.configure (h : b.Wf) (k : Controller) (enable : Bool) (ms : Nat) : (b.configure k enable ms).Wf := by
  unfold NoticeBlock.configure
  dsimp only
  split
  · rename_i was_on
    split
    · rename_i stays_on
      split
      · exact h.of_queue rfl rfl rfl h.lostBound fun off => nomatch stays_on.symm.trans off
      · exact h.unsend rfl rfl rfl rfl (stays_on.trans was_on.symm)
    · exact wf_of_empty rfl rfl rfl
  · rename_i was_off
    obtain ⟨empty, unlost⟩ := h.disabledEmpty (Bool.eq_false_iff.2 was_off)
    exact h.of_queue rfl rfl rfl h.lostBound fun _ => ⟨empty, unlost⟩

/-- A node reset leaves NODE_RESET alone in an enabled block (R143). -/
theorem nodeReset_wf (b : NoticeBlock) : b.nodeReset.Wf := by
  unfold NoticeBlock.nodeReset
  dsimp only
  split
  · rename_i on
    exact (wf_of_empty (b := { b with queue := [], lost := 0, timer := none, next := 0#8 }) rfl rfl rfl).append on
      (Nat.zero_lt_succ _) _
  · exact wf_of_empty rfl rfl rfl

end NoticeBlock

/-! ### Operations that reach the notice block by submissions alone -/

/-- The notice block of `t` is that of `s` after some submissions: what an event of calls and zones, a key edge and an entry
to SEARCH make of it (R129, R132). -/
def State.Submits (s t : State) : Prop := ∃ ns, t.notices = s.notices.submitAll ns

section Submissions

variable {s t u : State}

/-- Nothing submitted. -/
theorem State.Submits.of_eq (h : t.notices = s.notices) : s.Submits t := ⟨[], h⟩

/-- One notice submitted, beside changes of other blocks (R129). -/
theorem State.submits_notify (h : t.notices = s.notices) (n : Notice) : s.Submits (t.notify n) :=
  ⟨[n], congrArg (fun b => NoticeBlock.submit b n) h⟩

/-- The completion of an event submits its notices (R23, R132). -/
theorem State.submits_complete (s : State) (always : Bool) (others : List Notice) (e : Event) :
    s.Submits (s.complete always others e) := ⟨_, rfl⟩

/-- An event under the live plan. -/
theorem State.submits_event (s : State) (f : Plan → Event → Event) : s.Submits (s.event f) := s.submits_complete _ _ _

/-- Submissions after submissions. -/
theorem State.Submits.trans (h : s.Submits t) (k : t.Submits u) : s.Submits u := by
  obtain ⟨ns, hn⟩ := h
  obtain ⟨ms, hm⟩ := k
  exact ⟨ns ++ ms, by rw [hm, hn, NoticeBlock.submitAll_append]⟩

/-- Submissions keep the notice block's conditions. -/
theorem State.Submits.wf (k : s.Submits t) (h : s.notices.Wf) : t.notices.Wf := by
  obtain ⟨ns, hn⟩ := k
  exact hn ▸ h.submitAll ns

/-- A key-up edge (R10). -/
theorem State.submits_takeKeyUp (s : State) (k : Trunk) : s.Submits (s.takeKeyUp k) := by
  unfold State.takeKeyUp
  split
  · exact .of_eq rfl
  · split
    · exact .of_eq rfl
    · split
      · exact .of_eq rfl
      · split
        · exact .of_eq rfl
        · unfold State.admitKey
          split
          · exact State.submits_notify rfl _
          · exact s.submits_event _

/-- A key-down edge (R11). -/
theorem State.submits_takeKeyDown (s : State) (k : Trunk) : s.Submits (s.takeKeyDown k) := by
  unfold State.takeKeyDown
  split
  · exact .of_eq rfl
  · split
    · exact .of_eq rfl
    · split
      · split
        · exact s.submits_event _
        · exact .of_eq rfl
      · exact .of_eq rfl

/-- A deadline (R16). -/
theorem State.submits_takeDeadline (s : State) (r : CallRef) (deadline : Call → Option Nat) (cause : EndCause) :
    s.Submits (s.takeDeadline r deadline cause) := by
  unfold State.takeDeadline
  split
  · exact .of_eq rfl
  · split
    · exact s.submits_event _
    · exact .of_eq rfl

/-- A lead-in (R54). -/
theorem State.submits_takeLeadInEnd (s : State) (z : Zone) : s.Submits (s.takeLeadInEnd z) := by
  unfold State.takeLeadInEnd
  split
  · exact .of_eq rfl
  · exact .of_eq rfl
  · split
    · exact s.submits_event _
    · exact .of_eq rfl

/-- The end of a copy submits COPY_DONE (R117). -/
theorem State.submits_takeCopyEnd (s : State) : s.Submits s.takeCopyEnd := by
  unfold State.takeCopyEnd
  split
  · exact State.submits_notify rfl _
  · exact .of_eq rfl

/-- A switch with a point is abandoned with a notice (R120, R176). -/
theorem State.submits_abandonPointed (s : State) : s.Submits s.abandonPointed := by
  unfold State.abandonPointed
  split
  · exact State.submits_notify rfl _
  · exact .of_eq rfl
  · exact .of_eq rfl

/-- An entry to SEARCH submits LINK, and SWITCH_ABANDONED when it abandons a switch (R176). -/
theorem State.submits_enterSearch (s : State) : s.Submits s.enterSearch :=
  (State.submits_notify rfl _).trans (State.submits_abandonPointed _)

/-! ### The owners' acts -/

/-- CALL_OPEN (R8). -/
theorem State.submits_openCall (cls : Fin 8) (src : Source) (target : ZoneSet) (r : Request) (s : State) :
    s.Submits (openCall cls src target r s).1 := by
  unfold openCall
  split
  · exact .of_eq rfl
  · split
    · exact .of_eq rfl
    · split
      · exact .of_eq rfl
      · split
        · exact .of_eq rfl
        · split
          · exact .of_eq rfl
          · exact s.submits_event _

/-- CALL_RELEASE (R24). -/
theorem State.submits_releaseCall (c : CallRef) (s : State) : s.Submits (releaseCall c s).1 := by
  unfold releaseCall
  split
  · exact .of_eq rfl
  · exact s.submits_event _

/-- CALL_RETARGET (R25, R26). -/
theorem State.submits_retargetCall (c : CallRef) (add remove : ZoneSet) (s : State) :
    s.Submits (retargetCall c add remove s).1 := by
  unfold retargetCall
  split
  · exact .of_eq rfl
  · split
    · exact .of_eq rfl
    · split
      · exact .of_eq rfl
      · exact s.submits_event _

/-- ZONE_RESTRICT (R63). -/
theorem State.submits_restrictZones (m : ZoneSet) (floor : Nat) (s : State) : s.Submits (restrictZones m floor s).1 := by
  unfold restrictZones
  split
  · exact .of_eq rfl
  · exact s.submits_event _

/-- PLAN_WRITE (R110). -/
theorem writePlan_notices (bank : BankNo) (e : EntryName) (ws : List Word) (s : State) :
    (writePlan bank e ws s).1.notices = s.notices := by
  unfold writePlan
  split
  · rfl
  · split <;> rfl

/-- PLAN_ERASE (R112). -/
theorem erasePlan_notices (bank : BankNo) (s : State) : (erasePlan bank s).1.notices = s.notices := by
  unfold erasePlan
  split
  · rfl
  · split
    · rfl
    · split <;> rfl

/-- PLAN_SEAL (R113). -/
theorem sealPlan_notices (bank : BankNo) (s : State) : (sealPlan bank s).1.notices = s.notices := by
  unfold sealPlan
  split
  · rfl
  · rfl
  · rfl
  · split <;> rfl

/-- PLAN_UNSEAL (R115). -/
theorem unsealPlan_notices (bank : BankNo) (s : State) : (unsealPlan bank s).1.notices = s.notices := by
  unfold unsealPlan
  split
  · rfl
  · split
    · rfl
    · split <;> rfl

/-- PLAN_COPY (R116). -/
theorem copyPlan_notices (s : State) : (copyPlan s).1.notices = s.notices := by
  unfold copyPlan
  split <;> rfl

/-- PLAN_SWITCH (R118). -/
theorem switchPlan_notices (point : Option (BitVec 16)) (s : State) : (switchPlan point s).1.notices = s.notices := by
  unfold switchPlan
  split
  · rfl
  · split
    · rfl
    · split
      · rfl
      · split <;> rfl

/-- NOTICE_ACK (R136, R137). -/
theorem NoticeBlock.Wf.ackNotices (h : s.notices.Wf) (seq : BitVec 8) : (ackNotices seq s).1.notices.Wf := by
  unfold Machine.ackNotices
  split
  · exact h
  · rename_i named; exact h.ack (NoticeBlock.ackCount_pos named)

/-- COUNTERS_READ clears the two counters at most (R161). -/
theorem NoticeBlock.Wf.readCounters (h : s.notices.Wf) (clear : Bool) : (readCounters clear s).1.notices.Wf := by
  cases clear with
  | false => exact h
  | true => exact h.of_queue rfl rfl rfl h.lostBound h.disabledEmpty

/-- Every request owner keeps the notice block's conditions. -/
theorem keptByOwners_notices : KeptByOwners fun s => s.notices.Wf where
  opened cls src m r s h := (s.submits_openCall cls src m r).wf h
  released c s h := (s.submits_releaseCall c).wf h
  retargeted c add remove s h := (s.submits_retargetCall c add remove).wf h
  cleared _ _ s h := (s.submits_complete false [] _).wf h
  restricted m f s _ h := (s.submits_restrictZones m f).wf h
  written b e ws s _ h := (writePlan_notices b e ws s).symm ▸ h
  erased b s h := (erasePlan_notices b s).symm ▸ h
  sealedBank b s h := (sealPlan_notices b s).symm ▸ h
  unsealed b s h := (unsealPlan_notices b s).symm ▸ h
  copied s h := (copyPlan_notices s).symm ▸ h
  switched p s h := (switchPlan_notices p s).symm ▸ h
  acked seq _ h := h.ackNotices seq
  configured k enable ms _ _ _ h := h.configure k enable ms
  read clear _ h := h.readCounters clear
  reset s _ := s.notices.nodeReset_wf

/-! ### Steps -/

/-- A notice message begins, over UNSENT entries of an enabled block (R134, R157). -/
theorem NoticeBlock.Wf.beginNotice (h : s.notices.Wf) (held : Bool) : (s.beginNotice held).notices.Wf := by
  unfold State.beginNotice
  split
  · exact h
  · rename_i ready
    simp only [Bool.or_eq_true, Bool.not_eq_true', not_or, Bool.not_eq_false] at ready
    obtain ⟨⟨-, on⟩, unsent⟩ := ready
    exact h.form on unsent held

/-- The control stage works on the notice block by the arbiter alone (R157). -/
theorem NoticeBlock.Wf.controlStage (h : s.notices.Wf) : s.controlStage.notices.Wf := by
  have replied : s.beginReply.notices.Wf := s.beginReply_notices.symm ▸ h
  unfold State.controlStage
  split
  · exact h
  · exact replied.beginNotice false

/-- The retry expiry (R138). -/
theorem NoticeBlock.Wf.takeRetryEnd (h : s.notices.Wf) : s.takeRetryEnd.notices.Wf := by
  unfold State.takeRetryEnd
  split
  · exact h
  · split
    · exact h.expire
    · exact h

/-- Every operation keeps the notice block's conditions. -/
theorem kept_notices : Kept fun s => s.notices.Wf where
  due _ _ h := h
  resets _ _ _ := by
    obtain ⟨-, -, -, notices, -⟩ := invariantsHoldAtReset
    exact notices
  asserts _ _ := NoticeBlock.wf_of_empty rfl rfl rfl
  finds _ _ _ h := h
  judges _ _ _ h := h
  opens _ _ _ _ h := h.tick
  locks _ h := (State.submits_notify rfl _).wf h
  searches s h := s.submits_enterSearch.wf h
  observes _ h := h
  ramps _ h := h
  controls _ h := h.controlStage
  sends _ h := h
  presences _ _ _ h := h
  keyUps s k h := (s.submits_takeKeyUp k).wf h
  keyDowns s k h := (s.submits_takeKeyDown k).wf h
  losses s _ h := (s.submits_event _).wf h
  waits s r h := (s.submits_takeDeadline r _ _).wf h
  holds s r h := (s.submits_takeDeadline r _ _).wf h
  durations s r h := (s.submits_takeDeadline r _ _).wf h
  leadIns s z h := (s.submits_takeLeadInEnd z).wf h
  retries _ h := h.takeRetryEnd
  copySteps _ h := h
  copies s h := s.submits_takeCopyEnd.wf h
  fades _ _ _ h := h
  chimes _ _ h := h
  tones _ _ h := h
  banks _ _ _ h := h
  switchZones s _ h := (s.submits_complete _ _ _).wf h
  begins s h := s.beginReply_notices.symm ▸ h
  notices _ held h := h.beginNotice held
  requests := requests_of_owners keptByOwners_notices (fun _ _ _ _ h => h) (fun _ _ _ _ _ _ _ h => h) fun _ _ _ h => h

/-- Settles O57: the block changes by its own operations, each of which keeps its conditions; everything else that a step
does reaches it by submissions. -/
theorem stepKeepsNoticeQueue : Obligations.StepKeepsNoticeQueue := by
  intro s t hs h
  exact kept_notices.step (fun _ _ h => h) hs h

end Submissions

end Sys2Proof.Machine
end

section
/-! What happens to the notice queue: a submission (R129), the retry expiry (R138), an acknowledgement (R136, R137) and
NOTICE_CONFIG (R140). -/

namespace Sys2Proof.Machine

/-! ### Submission (R129 to R133) -/

/-- A notice replaces the youngest open CALL_STATUS of its call, where it stands (R130, R131). -/
theorem replaceYoungest_of_youngest {c : CallRef} {e : NoticeEntry} {back : List NoticeEntry}
    (is_open : e.isOpenStatus c = true) (youngest : ∀ x ∈ back, x.isOpenStatus c = false) (n : Notice)
    (front : List NoticeEntry) :
    replaceYoungest c n (front ++ e :: back) = front ++ { e with notice := n } :: back := by
  induction front with
  | nil =>
    have none_later : ¬ back.any (NoticeEntry.isOpenStatus c) = true := by simpa using youngest
    rw [List.nil_append, replaceYoungest, if_neg none_later, if_pos is_open, List.nil_append]
  | cons x front ih =>
    have later : (front ++ e :: back).any (NoticeEntry.isOpenStatus c) = true :=
      List.any_eq_true.2 ⟨e, by simp, is_open⟩
    rw [List.cons_append, replaceYoungest, if_pos later, ih, List.cons_append]

namespace NoticeBlock

variable {b : NoticeBlock} {n : Notice}

/-- R129, second case: a notice of a call finds an open CALL_STATUS of that call. -/
theorem canCoalesce_iff : b.canCoalesce n = true ↔
    ∃ c, n.coalesces? = some c ∧ ∃ e ∈ b.queue, e.isOpenStatus c = true := by
  unfold canCoalesce
  cases n.coalesces? with
  | none => simp
  | some c => simp

/-- R129, first case: a disabled block discards the notice. -/
theorem submit_of_disabled (off : b.enabled = false) : b.submit n = b := by
  simp [submit, off]

/-- R129, second case. -/
theorem submit_of_coalesce (on : b.enabled = true) (found : b.canCoalesce n = true) : b.submit n = b.coalesce n := by
  simp [submit, on, found]

/-- R129, third case: room in the queue. -/
theorem submit_of_room (on : b.enabled = true) (none_open : b.canCoalesce n = false)
    (room : b.queue.length < Config.noticeQueueLimit) : b.submit n = b.append n := by
  simp [submit, on, none_open, room]

/-- R129, last case: the notice is lost. -/
theorem submit_of_full (on : b.enabled = true) (none_open : b.canCoalesce n = false)
    (full : ¬ b.queue.length < Config.noticeQueueLimit) : b.submit n = b.lose := by
  simp [submit, on, none_open, full]

end NoticeBlock

/-- Settles O53: the four cases of R129. -/
theorem submissionFollowsCases : Obligations.SubmissionFollowsCases := by
  intro b n
  refine ⟨NoticeBlock.submit_of_disabled, fun on => ⟨fun c front e back names queue is_open youngest => ?_,
    fun closed => ?_⟩⟩
  · have found : b.canCoalesce n = true :=
      NoticeBlock.canCoalesce_iff.2 ⟨c, names, e, by simp [queue], is_open⟩
    rw [NoticeBlock.submit_of_coalesce on found, NoticeBlock.coalesce, names]
    dsimp only
    rw [queue, replaceYoungest_of_youngest is_open youngest]
  · have none_open : b.canCoalesce n = false := by
      refine Bool.eq_false_iff.2 fun found => ?_
      obtain ⟨c, names, e, he, is_open⟩ := NoticeBlock.canCoalesce_iff.1 found
      exact absurd is_open (Bool.eq_false_iff.1 (closed c names e he))
    exact ⟨NoticeBlock.submit_of_room on none_open,
      fun full => NoticeBlock.submit_of_full on none_open (Nat.not_lt.2 full)⟩

/-! ### RETRY_EXPIRY (R138) -/

/-- A retry timer at its last frame expires. -/
theorem State.takeRetryEnd_of_last {s : State} {left : Nat} (last : left ≤ 1) (timer : s.notices.timer = some ⟨left, false⟩) :
    s.takeRetryEnd = { s with notices := s.notices.expire } := by
  simp [State.takeRetryEnd, timer, RetryTimer.ends, last]

/-- Settles O23. -/
theorem retryExpiryReturnsEntries : Obligations.RetryExpiryReturnsEntries := by
  intro s hs due timer
  exact (running_perform hs due).trans
    (congrArg _ (State.takeRetryEnd_of_last (s := s.undue .retryEnd) (Nat.le_refl 1) timer))

/-! ### NOTICE_ACK (R136, R137) -/

namespace NoticeBlock

variable {b : NoticeBlock} {seq : BitVec 8} {front back : List NoticeEntry} {e : NoticeEntry}

/-- A number that names no SENT entry acknowledges nothing (R136). -/
theorem ackCount_of_unnamed (unnamed : ∀ e ∈ b.queue, e.sent = true → e.seq ≠ seq) : b.ackCount? seq = none := by
  have past_end : b.queue.findIdx (fun e => e.sent && decide (e.seq = seq)) = b.queue.length :=
    List.findIdx_eq_length.2 fun e he => by simpa using unnamed e he
  simp [ackCount?, past_end]

/-- A number that names a SENT entry acknowledges it and those before it (R136). -/
theorem ackCount_of_named (queue : b.queue = front ++ e :: back) (sent : e.sent = true) (named : e.seq = seq)
    (first : ∀ x ∈ front, x.sent = true → x.seq ≠ seq) : b.ackCount? seq = some (front.length + 1) := by
  have past_front : front.findIdx (fun e => e.sent && decide (e.seq = seq)) = front.length :=
    List.findIdx_eq_length.2 fun x hx => by simpa using first x hx
  have found : b.queue.findIdx (fun e => e.sent && decide (e.seq = seq)) = front.length := by
    rw [queue, List.findIdx_append, past_front, if_neg (Nat.lt_irrefl _), List.findIdx_cons]
    simp [sent, named]
  have inside : front.length < b.queue.length := by simp [queue]
  simp only [ackCount?, found, if_pos inside]

end NoticeBlock

section Requests

variable {s : State} {r : Request} {rest : List Request}

/-- A word that holds a sequence number names it and passes the check of its field. -/
theorem setWidth_of_seq {w : Word} {seq : BitVec 8} (h : w.toNat = seq.toNat) : w.setWidth 8 = seq ∧ inRange 0 255 w = true := by
  refine ⟨BitVec.eq_of_toNat_eq ?_, inRange_eq.2 ⟨Nat.zero_le _, ?_⟩⟩
  · rw [BitVec.toNat_setWidth, h, Nat.mod_eq_of_lt seq.isLt]
  · rw [h]
    exact Nat.le_of_lt_succ seq.isLt

/-- NOTICE_ACK reaches the notice block (R136). -/
theorem exec_noticeAck {seq : BitVec 8} (h : s.Offers 48#8 r rest) (hl : r.len = 1)
    (h0 : (wordAt r.payload 0).toNat = seq.toNat) :
    exec .noticeAck s = .next ((ackNotices seq (s.taken rest)).1.answered r (ackNotices seq (s.taken rest)).2) := by
  obtain ⟨named, isSeq⟩ := setWidth_of_seq h0
  refine (running_checked h _ hl (by simp [isSeq])).trans ?_
  rw [named]

/-- Settles O43. -/
theorem noticeAckRemovesEntries : Obligations.NoticeAckRemovesEntries := by
  intro s r rest seq h hl h0
  rw [exec_noticeAck h hl h0]
  refine ⟨fun unnamed => ?_, fun front e back queue sent named first => ?_⟩
  · have none_named : (s.taken rest).notices.ackCount? seq = none := NoticeBlock.ackCount_of_unnamed unnamed
    simp only [ackNotices, none_named]
    rfl
  · have count : (s.taken rest).notices.ackCount? seq = some (front.length + 1) :=
      NoticeBlock.ackCount_of_named queue sent named first
    have left : (s.taken rest).notices.queue.drop (front.length + 1) = back := by
      show s.notices.queue.drop _ = back
      simp [queue]
    simp only [ackNotices, count, NoticeBlock.ack, left]
    refine ⟨fun unlost => ?_, fun lost => ?_⟩
    · rw [if_neg (show ¬ 0 < (s.taken rest).notices.lost from Nat.not_lt.2 (Nat.le_of_eq unlost))]
      rfl
    · rw [if_pos (show 0 < (s.taken rest).notices.lost from lost)]
      simp only [NoticeBlock.append, List.length_append, List.length_singleton]
      rfl

/-! ### NOTICE_CONFIG (R140) -/

/-- Every case stores the recipient, the interval and the enable flag (R140). -/
theorem NoticeBlock.configure_stores (b : NoticeBlock) (k : Controller) (enable : Bool) (ms : Nat) :
    (b.configure k enable ms).recipient = k ∧ (b.configure k enable ms).intervalMs = ms ∧
      (b.configure k enable ms).enabled = enable := by
  unfold NoticeBlock.configure
  split
  · split
    · split <;> exact ⟨rfl, rfl, rfl⟩
    · exact ⟨rfl, rfl, rfl⟩
  · exact ⟨rfl, rfl, rfl⟩

/-- A word that holds a controller's address names it and passes the check of its field. -/
theorem wordController_of_address {w : Word} {k : Controller} (h : w.toNat = k.address.toNat) :
    wordController w = k ∧ inRange 60 62 w = true := by
  rw [← numWord_toNat w, h]
  cases k <;> decide

/-- NOTICE_CONFIG reaches the notice block (R140). -/
theorem exec_noticeConfig {k : Controller} {enable : Bool} {ms : Nat} (h : s.Offers 49#8 r rest) (hl : r.len = 3)
    (h0 : (wordAt r.payload 0).toNat = k.address.toNat) (h1 : wordAt r.payload 1 = flagWord enable)
    (h2 : (wordAt r.payload 2).toNat = ms) (atLeast : 10 ≤ ms) (atMost : ms ≤ 2000) :
    exec .noticeConfig s =
      .next ((configNotices k enable ms (s.taken rest)).1.answered r (configNotices k enable ms (s.taken rest)).2) := by
  obtain ⟨recipient, isController⟩ := wordController_of_address h0
  obtain ⟨flag, isFlag⟩ := wordFlag_flagWord enable
  refine (running_checked h _ hl (by simp [isController, h1, isFlag, inRange_eq, h2, atLeast, atMost])).trans ?_
  rw [recipient, h1, flag, h2]

/-- Settles O44: the reply reads the block after the change, whose configuration is what the request asked for. -/
theorem noticeConfigApplies : Obligations.NoticeConfigApplies := by
  intro s r rest k enable ms h hl h0 h1 h2 atLeast atMost stored
  refine ⟨s.notices.configure k enable ms, ?_, fun off => ?_, fun on off => ?_, fun on stays same => ?_,
    fun on stays other => ?_⟩
  · obtain ⟨recipient, interval, enabled⟩ := s.notices.configure_stores k enable ms
    have reported : (configNotices k enable ms (s.taken rest)).2 =
        ⟨.ok, configResults (s.notices.configure k enable ms)⟩ := rfl
    rw [exec_noticeConfig h hl h0 h1 h2 atLeast atMost, reported, configResults, recipient, interval, enabled]
    rfl
  · simp [NoticeBlock.configure, off, stored]
  · simp [NoticeBlock.configure, on, off, stored]
  · simp [NoticeBlock.configure, on, stays, same, stored]
  · simp [NoticeBlock.configure, on, stays, other, stored, unsendAll]

end Requests

end Sys2Proof.Machine
end

section
/-! The outgoing arbiter and the words of a message (R134, R144, R147, R157). -/

namespace Sys2Proof.Machine

/-- The words after the first: MORE, and LAST at the end (R144). -/
theorem markRest_append_last (middle : List Word) (last : Word) :
    markRest (middle ++ [last]) = middle.map (fun w => ⟨.more, w⟩) ++ [⟨.last, last⟩] := by
  induction middle with
  | nil => rfl
  | cons w middle ih =>
    have more : markRest (w :: (middle ++ [last])) = ⟨.more, w⟩ :: markRest (middle ++ [last]) := by
      cases middle <;> rfl
    rw [List.cons_append, more, ih]
    rfl

/-- The arbiter begins a message only at a message boundary with nothing in transit (R157). -/
theorem MessageBlock.mayBegin_iff (m : MessageBlock) :
    m.mayBegin = true ↔ m.own = [] ∧ m.transit = [] ∧ m.input ≠ .forward ∧ m.input ≠ .broadcast := by
  simp [MessageBlock.mayBegin, and_assoc]

section Arbiter

variable {s : State}

/-- A transit-only part or a busy channel begins no reply (R147, R157). -/
theorem State.beginReply_of_busy (busy : s.transitOnly = true ∨ s.msg.mayBegin = false) : s.beginReply = s :=
  if_pos (by simpa using busy)

/-- A transit-only part or a busy channel begins no notice message (R147, R157). -/
theorem State.beginNotice_of_busy (busy : s.transitOnly = true ∨ s.msg.mayBegin = false) (held : Bool) :
    s.beginNotice held = s :=
  if_pos (by rcases busy with busy | busy <;> simp [busy])

/-- A reply that waits goes before a notice message (R157). -/
theorem State.beginNotice_of_reply (waits : s.msg.replies ≠ []) (held : Bool) : s.beginNotice held = s :=
  if_pos (by simp [waits])

/-- The oldest reply begins (R157). -/
theorem State.beginReply_of_free {r : Reply} {rest : List Reply} (own : s.transitOnly = false)
    (free : s.msg.mayBegin = true) (waits : s.msg.replies = r :: rest) :
    s.beginReply = { s with msg := { s.msg with replies := rest, own := r.words s.address } } := by
  simp [State.beginReply, own, free, waits]

/-- With no reply waiting, a notice message over UNSENT entries begins (R134, R157). -/
theorem State.beginNotice_of_free (own : s.transitOnly = false) (free : s.msg.mayBegin = true)
    (no_reply : s.msg.replies = []) (on : s.notices.enabled = true) (unsent : s.notices.anyUnsent = true) (held : Bool) :
    s.beginNotice held =
      { s with
        msg := { s.msg with own := noticeWords s.notices.recipient s.address s.notices.batch }
        notices := s.notices.form held } := by
  simp [State.beginNotice, own, free, no_reply, on, unsent]

/-- REPLY_BEGIN outside a reset (R157). -/
theorem exec_replyBegin (hs : s.inReset = false) : exec .replyBegin s = .next s.beginReply := by
  show s.running State.beginReply = _
  rw [running_eq_next, hs]
  rfl

/-- NOTICE_MESSAGE outside a reset (R134); the timer it starts is marked (log 7). -/
theorem exec_noticeMessage (hs : s.inReset = false) : exec .noticeMessage s = .next (s.beginNotice true) := by
  show s.running (fun s => s.beginNotice true) = _
  rw [running_eq_next, hs]
  rfl

end Arbiter

/-- Settles O27: the words of a message, and the arbiter's cases: busy, a reply waiting, and none. -/
theorem arbiterBeginsMessage : Obligations.ArbiterBeginsMessage := by
  refine ⟨fun dest src cls kind tag status payload => rfl, fun first last middle => ?_, fun s hs => ?_⟩
  · rw [List.cons_append, markWords, markRest_append_last, List.cons_append]
  · rw [exec_replyBegin hs, exec_noticeMessage hs]
    refine ⟨fun busy => ?_, fun own idle transit forward broadcast => ?_⟩
    · have blocked : s.transitOnly = true ∨ s.msg.mayBegin = false := by
        refine busy.imp_right fun busy => Bool.eq_false_iff.2 fun free => ?_
        obtain ⟨idle, transit, forward, broadcast⟩ := s.msg.mayBegin_iff.1 free
        simp [idle, transit, forward, broadcast] at busy
      rw [State.beginReply_of_busy blocked, State.beginNotice_of_busy blocked]
      exact ⟨rfl, rfl⟩
    · have free : s.msg.mayBegin = true := s.msg.mayBegin_iff.2 ⟨idle, transit, forward, broadcast⟩
      refine ⟨fun r rest waits => ?_, fun no_reply on unsent => ?_⟩
      · rw [State.beginReply_of_free own free waits, State.beginNotice_of_reply (by simp [waits])]
        exact ⟨rfl, rfl⟩
      · rw [State.beginNotice_of_free own free no_reply on unsent]
        rfl

end Sys2Proof.Machine
end

section
/-! The control stream word by word: what the check procedure, the receive assembler, the transit buffer and the output
positions do, one equation per case (R144 to R150, R156, R158, R186). -/

namespace Sys2Proof.Machine

/-! ### The check procedure (R186) -/

/-- While the register's top bit is the bit that enters, the register is only shifted. -/
theorem crcBit_of_top {reg : Word} {bit : Bool} (h : reg.getLsbD 15 = bit) : crcBit reg bit = reg <<< 1 := by
  subst h
  simp [crcBit]

/-- The first bits of a word, entering a register that holds the same word, are shifted out of it. -/
theorem crcWord_shifts (w : Word) (n : Nat) (hn : n ≤ 16) :
    (List.range n).foldl (fun r i => crcBit r (w.getLsbD (15 - i))) w = w <<< n := by
  induction n with
  | zero => simp
  | succ n ih =>
    have top : (w <<< n).getLsbD 15 = w.getLsbD (15 - n) := by
      rw [BitVec.getLsbD_shiftLeft]
      simp
      omega
    rw [List.range_succ, List.foldl_append, ih (by omega), List.foldl_cons, List.foldl_nil, crcBit_of_top top,
      ← BitVec.shiftLeft_add]

/-- A word entering a register that holds it leaves 0 (R186). -/
theorem crcWord_self (w : Word) : crcWord w w = 0#16 := by
  rw [crcWord, crcWord_shifts w 16 le_rfl]
  simp

/-- Some words run through the check procedure with their check word (R186). -/
theorem checkWord_append_self (ws : List Word) : checkWord (ws ++ [checkWord ws]) = 0#16 := by
  rw [checkWord, List.foldl_append]
  exact crcWord_self _

/-! ### The checks of a complete message (R149, R150) -/

/-- The check word of a complete message is its last word. -/
theorem wordAt_append_last (body : List Word) (check : Word) :
    wordAt (body ++ [check]) ((body ++ [check]).length - 1) = check := by
  simp [wordAt]

namespace MessageBlock

section Checks

variable {m : MessageBlock} {body : List Word} {check : Word}

/-- A wrong check word is counted (R149). -/
theorem checkMessage_of_bad (bad : check ≠ checkWord body) :
    m.checkMessage (body ++ [check]) =
      { m with counters := { m.counters with badCheck := satInc m.counters.badCheck } } := by
  rw [checkMessage, List.dropLast_concat, wordAt_append_last]
  exact if_pos bad.symm

/-- A message with a right check word that is no controller's request is counted (R149). -/
theorem checkMessage_of_unauthorized (header : 3 ≤ body.length) (good : check = checkWord body)
    (denied : classOf (wordAt body 0) ≠ 1#4 ∨ controllerAt (srcOf (wordAt body 0)) = none) :
    m.checkMessage (body ++ [check]) =
      { m with counters := { m.counters with unauthorized := satInc m.counters.unauthorized } } := by
  rw [checkMessage, List.dropLast_concat, wordAt_append_last, wordAt_append_of_lt (by omega)]
  dsimp only
  rw [if_neg (not_not.2 good.symm)]
  split
  · rfl
  · rename_i k known
    exact if_pos (denied.resolve_right fun unknown => nomatch known.symm.trans unknown)

/-- A controller's request with a right check word goes to the request queue (R149, R150). -/
theorem checkMessage_of_good {k : Controller} (header : 3 ≤ body.length) (good : check = checkWord body)
    (request : classOf (wordAt body 0) = 1#4) (known : controllerAt (srcOf (wordAt body 0)) = some k) :
    m.checkMessage (body ++ [check]) =
      m.appendRequest
        { source := k, isBroadcast := decide (destOf (wordAt body 0) = 63#6), kind := kindOf (wordAt body 1)
          tag := tagOf (wordAt body 1), len := lengthOf (wordAt body 2), payload := body.drop 3 } := by
  rw [checkMessage, List.dropLast_concat, wordAt_append_last, wordAt_append_of_lt (show 0 < body.length by omega),
    wordAt_append_of_lt (show 1 < body.length by omega), wordAt_append_of_lt (show 2 < body.length by omega)]
  dsimp only
  rw [if_neg (not_not.2 good.symm), known]
  exact if_neg (not_not.2 request)

/-- A request finds room in the queue (R150). -/
theorem appendRequest_of_room (r : Request) (room : m.requests.length < 4) :
    m.appendRequest r = { m with requests := m.requests ++ [r] } := if_pos room

/-- A request finds the queue full (R150). -/
theorem appendRequest_of_full (r : Request) (full : 4 ≤ m.requests.length) :
    m.appendRequest r = { m with counters := { m.counters with overflow := satInc m.counters.overflow } } :=
  if_neg (Nat.not_lt.2 full)

end Checks

/-! ### The receive assembler (R148) -/

section Assembler

variable {m : MessageBlock} {w : ControlWord} {rest : InputState}

/-- A LAST word before the message has its stated length (R148). -/
theorem assemble_of_last_early (last : w.marker = .last)
    (early : (m.assembler ++ [w.data]).length ≤ 3 ∨
      (m.assembler ++ [w.data]).length < 4 + lengthOf (wordAt (m.assembler ++ [w.data]) 2)) :
    m.assemble w rest = { m.discardAssembly with input := .between } := by
  unfold assemble
  dsimp only
  by_cases short : (m.assembler ++ [w.data]).length ≤ 3
  · rw [if_pos (by simpa [last] using short)]
  · rw [if_neg (by simpa [last] using short), if_neg (by omega), if_neg short, if_pos (by simp [last]),
      if_pos (early.resolve_left short)]

/-- A LAST word at the stated length completes the message (R148). -/
theorem assemble_of_last_complete (last : w.marker = .last)
    (complete : 4 + lengthOf (wordAt (m.assembler ++ [w.data]) 2) ≤ (m.assembler ++ [w.data]).length) :
    m.assemble w rest = checkMessage { m with input := .between, assembler := [] } (m.assembler ++ [w.data]) := by
  have long : ¬ (m.assembler ++ [w.data]).length ≤ 3 := by omega
  unfold assemble
  dsimp only
  rw [if_neg (by simpa [last] using long), if_neg (by omega), if_neg long, if_pos (by simp [last]),
    if_neg (Nat.not_lt.2 complete)]

/-- A MORE word below the stated length is assembled (R148). -/
theorem assemble_of_more (more : w.marker ≠ .last)
    (stated : (m.assembler ++ [w.data]).length = 3 → lengthOf (wordAt (m.assembler ++ [w.data]) 2) ≤ 28)
    (below : (m.assembler ++ [w.data]).length < 4 + lengthOf (wordAt (m.assembler ++ [w.data]) 2)) :
    m.assemble w rest = { m with assembler := m.assembler ++ [w.data] } := by
  have unstated : ¬ ((m.assembler ++ [w.data]).length = 3 ∧
      Config.payloadLimit < lengthOf (wordAt (m.assembler ++ [w.data]) 2)) :=
    fun ⟨third, long⟩ => Nat.not_lt.2 (stated third) long
  unfold assemble
  simp only [decide_eq_false more, Bool.false_and, Bool.false_eq_true, if_false, unstated, below, if_true, ite_self]

/-- A MORE word gives a message up: its third word states too great a length, or it reaches its stated length without a
LAST word (R148). -/
theorem assemble_of_more_rejected (more : w.marker ≠ .last)
    (rejected : (m.assembler ++ [w.data]).length = 3 ∧ 28 < lengthOf (wordAt (m.assembler ++ [w.data]) 2) ∨
      4 + lengthOf (wordAt (m.assembler ++ [w.data]) 2) ≤ (m.assembler ++ [w.data]).length) :
    m.assemble w rest = { m.discardAssembly with input := rest } := by
  unfold assemble
  simp only [decide_eq_false more, Bool.false_and, Bool.false_eq_true, if_false]
  rcases rejected with long | reached
  · exact if_pos long
  · rw [if_neg (by omega), if_neg (by omega), if_neg (Nat.not_lt.2 reached)]

end Assembler

/-! ### The output positions (R156) -/

section Output

variable {m : MessageBlock}

/-- An own message goes first (R156). -/
theorem emit_of_own {w : ControlWord} {rest : List ControlWord} (own : m.own = w :: rest) :
    m.emit = ({ m with own := rest }, w) := by
  simp only [emit, own]

/-- Without an own message the oldest transit word goes (R156). -/
theorem emit_of_transit {w : ControlWord} {rest : List ControlWord} (no_own : m.own = []) (transit : m.transit = w :: rest) :
    m.emit = ({ m with transit := rest }, w) := by
  simp only [emit, no_own, transit]

/-- With nothing to send the position is IDLE (R156). -/
theorem emit_of_idle (no_own : m.own = []) (no_transit : m.transit = []) : m.emit = (m, idleWord) := by
  simp only [emit, no_own, no_transit]

end Output

end MessageBlock

/-! ### The words an abandoned message takes from the transit buffer (R158) -/

/-- Words after the last LAST word are the abandoned message's own (R158). -/
theorem abandonForwarded_append {front back : List ControlWord} (unfinished : ∀ w ∈ back, w.marker ≠ .last) :
    abandonForwarded (front ++ back) = abandonForwarded front := by
  have skipped : ∀ w ∈ back.reverse, decide (w.marker ≠ .last) = true := fun w hw =>
    decide_eq_true (unfinished w (List.mem_reverse.1 hw))
  rw [abandonForwarded, List.reverse_append, List.dropWhile_append_of_pos skipped, abandonForwarded]

/-- A LAST word ends a message that is not abandoned (R158). -/
theorem abandonForwarded_of_last (front : List ControlWord) {w : ControlWord} (last : w.marker = .last) :
    abandonForwarded (front ++ [w]) = front ++ [w] := by
  simp [abandonForwarded, last]

/-- An abandoned message leaves no more words in the transit buffer than there were. -/
theorem abandonForwarded_length (ws : List ControlWord) : (abandonForwarded ws).length ≤ ws.length := by
  rw [abandonForwarded, List.length_reverse, ← List.length_reverse (as := ws)]
  exact (List.dropWhile_suffix _).length_le

end Sys2Proof.Machine
end

section
/-! The control stream as a whole: the transitions of Table 7-1, the dispositions of a FIRST word, and the four positions of
a boundary (R145, R146, R147, R156). -/

namespace Sys2Proof

/-- A table of four, entry by entry. -/
theorem Table.cells_four {α : Type} (t : Table 4 α) : t.cells = [t.get 0, t.get 1, t.get 2, t.get 3] := by
  apply List.ext_getElem
  · exact t.size_eq
  · intro i h _
    have := t.size_eq
    have : i < 4 := by omega
    interval_cases i <;> rfl

end Sys2Proof

namespace Sys2Proof.Machine

namespace MessageBlock

variable {m : MessageBlock} {a : BitVec 6} {w : ControlWord}

/-- A message to the part's own address is consumed (R146). -/
theorem beginMessage_of_own (own : destOf w.data = a) :
    m.beginMessage a w = { m with input := .consume, assembler := [w.data] } := if_pos own

/-- A broadcast is consumed and passed on (R146). -/
theorem beginMessage_of_broadcast (node : a ≠ 63#6) (broadcast : destOf w.data = 63#6) :
    m.beginMessage a w =
      { m with input := .broadcast, assembler := [w.data], transit := m.transit ++ [w] } := by
  rw [beginMessage, if_neg fun own => node (own.symm.trans broadcast)]
  exact if_pos broadcast

/-- A message to another node goes by its source: the part's own is scrubbed, any other is passed on (R146). -/
theorem beginMessage_of_other (foreign : destOf w.data ≠ a) (single : destOf w.data ≠ 63#6) :
    m.beginMessage a w =
      if srcOf w.data = a then
        { m with input := .scrub, assembler := []
                 counters := { m.counters with returned := satInc m.counters.returned } }
      else { m with input := .forward, assembler := [], transit := m.transit ++ [w] } := by
  rw [beginMessage, if_neg foreign]
  exact if_neg single

end MessageBlock

/-! ### The four positions of a boundary (R147, R156) -/

variable {s : State}

/-- A transit-only part copies the control words (R147). -/
theorem State.controlStage_of_transitOnly (h : s.transitOnly = true) :
    s.controlStage = { s with out := { s.out with words := s.now.frame.words } } := if_pos h

/-- Any other part fills the positions one after another, after the arbiter (R156, R157). -/
theorem State.controlStage_of_node (h : s.transitOnly = false) :
    s.controlStage.msg = (MessageBlock.positions s.address s.now.frame.words.cells s.arbitrate.msg).1 ∧
      ∀ i, s.controlStage.out.words.get i =
        (MessageBlock.positions s.address s.now.frame.words.cells s.arbitrate.msg).2.getD i.val idleWord := by
  rw [State.controlStage, if_neg (Bool.eq_false_iff.1 h)]
  dsimp only
  rw [State.arbitrate_address, State.arbitrate_now]
  exact ⟨rfl, fun i => Table.get_tabulate _ i⟩

/-! ### The statement -/

/-- Settles O54: the check procedure, the checks of a complete message, Table 7-1, the dispositions of a FIRST word, the
receive assembler, an abandoned message, the output positions, and the control stage. -/
theorem messageChecksInOrder : Obligations.MessageChecksInOrder := by
  refine ⟨checkWord_append_self, fun m body check header => ?checks, fun m a d => ?table, fun m a w node => ?dispositions,
    fun m d rest => ?assembler, fun front back unfinished => ?abandoned, fun m => ?output, fun s => ?positions⟩
  case checks =>
    refine ⟨MessageBlock.checkMessage_of_bad, MessageBlock.checkMessage_of_unauthorized header,
      fun k good request known => ⟨fun room => ?_, fun full => ?_⟩⟩
    all_goals rw [MessageBlock.checkMessage_of_good header good request known]
    · exact MessageBlock.appendRequest_of_room _ room
    · exact MessageBlock.appendRequest_of_full _ full
  case table =>
    cases m with
    | mk input =>
      refine ⟨?between, ?forward, ?consume, ?broadcast, ?discarding⟩
      case discarding => rintro (rfl | rfl) <;> exact ⟨rfl, rfl, rfl, rfl⟩
      all_goals
        rintro rfl
        exact ⟨rfl, rfl, rfl, rfl⟩
  case dispositions =>
    refine ⟨MessageBlock.beginMessage_of_own, MessageBlock.beginMessage_of_broadcast node, fun foreign single => ?_⟩
    rw [MessageBlock.beginMessage_of_other foreign single]
    exact ⟨fun returned => if_pos returned, fun passing => if_neg passing⟩
  case assembler =>
    refine ⟨fun short => ?_, fun short => ?_, fun third long => ?_, fun _ stated below => ?_, fun _ early => ?_,
      fun _ reached => ?_, fun _ complete => ?_⟩
    · exact MessageBlock.assemble_of_more nofun (fun third => absurd third short.ne) (Nat.lt_add_right _ (Nat.lt_succ_of_lt short))
    · exact MessageBlock.assemble_of_last_early rfl (.inl short)
    · exact MessageBlock.assemble_of_more_rejected nofun (.inl ⟨third, long⟩)
    · exact MessageBlock.assemble_of_more nofun (fun _ => stated) below
    · exact MessageBlock.assemble_of_last_early rfl (.inr early)
    · exact MessageBlock.assemble_of_more_rejected nofun (.inr reached)
    · exact MessageBlock.assemble_of_last_complete rfl complete
  case abandoned =>
    refine ⟨abandonForwarded_append (front := []) unfinished, fun w last => ?_⟩
    rw [List.append_cons, abandonForwarded_append unfinished, abandonForwarded_of_last front last]
  case output =>
    exact ⟨fun _ _ => MessageBlock.emit_of_own, fun _ _ => MessageBlock.emit_of_transit, MessageBlock.emit_of_idle⟩
  case positions =>
    refine ⟨State.controlStage_of_transitOnly, fun node => ?_⟩
    obtain ⟨msg, words⟩ := State.controlStage_of_node node
    rw [Table.cells_four] at msg words
    exact ⟨msg, words 0, words 1, words 2, words 3⟩

end Sys2Proof.Machine
end

section
/-! Every step keeps the message block's conditions (O58): the lengths of messages, the incoming stream, the output positions,
the answers of the owners, and what a step can do. -/

namespace Sys2Proof.Machine

/-! ### Lengths of messages (R134, R144, R154) -/

/-- Marking the words after the first neither adds nor drops one. -/
theorem markRest_length : ∀ ws : List Word, (markRest ws).length = ws.length
  | [] => rfl
  | [_] => rfl
  | _ :: w :: rest => congrArg (· + 1) (markRest_length (w :: rest))

/-- Marking the words of a message neither adds nor drops one. -/
theorem markWords_length (ws : List Word) : (markWords ws).length = ws.length := by
  cases ws with
  | nil => rfl
  | cons w rest => exact congrArg (· + 1) (markRest_length rest)

/-- A message has three header words and a check word beside its payload (R144). -/
theorem messageData_length (dest src : BitVec 6) (cls : BitVec 4) (kind tag status : BitVec 8) (payload : List Word) :
    (messageData dest src cls kind tag status payload).length = payload.length + 4 := by
  simp [messageData]

/-- The words of a reply (R154). -/
theorem Reply.words_length (r : Reply) (address : BitVec 6) :
    (r.words address).length = r.answer.results.length + 4 := by
  rw [Reply.words, markWords_length, messageData_length]

/-- A notice entry has four words (R189). -/
theorem NoticeEntry.words_length (e : NoticeEntry) : e.words.length = 4 := by
  cases h : e.notice <;> simp [NoticeEntry.words, Notice.data, h]

/-- The words of a notice message (R134). -/
theorem noticeWords_length (k : Controller) (address : BitVec 6) (entries : List NoticeEntry) :
    (noticeWords k address entries).length = entries.length * 4 + 4 := by
  rw [noticeWords, markWords_length, messageData_length, List.length_flatMap]
  simp [NoticeEntry.words_length]

/-- A notice message takes at most seven entries (R134). -/
theorem NoticeBlock.batch_length (b : NoticeBlock) : b.batch.length ≤ 7 := List.length_take_le _ _

/-! ### The conditions, with the room for outgoing words apart (R156) -/

/-- The words that wait for an output position: of an own message and in the transit buffer (R156). -/
def MessageBlock.unsent (m : MessageBlock) : Nat := m.transit.length + m.own.length

/-- The message block's conditions but the bound on the words that wait for an output position: between the input word of a
position and its output word there may be one more. -/
def MessageBlock.WfButRoom (m : MessageBlock) : Prop := MessageBlock.Wf { m with transit := [], own := [] }

/-- The conditions of the block with nothing to send. -/
theorem MessageBlock.WfButRoom.toWf {m : MessageBlock} (h : m.WfButRoom) :
    MessageBlock.Wf { m with transit := [], own := [] } := h

/-- What the cache holds for a controller after an answer is stored for one (R152). -/
theorem Cache.entry_put (c : Cache) (k : Controller) (e : CacheEntry) (j : Controller) :
    (c.put k e).entry j = if j = k then some e else c.entry j := by
  cases k <;> cases j <;> rfl

namespace MessageBlock

variable {m n : MessageBlock} {w : ControlWord} {a : BitVec 6} {rest : InputState} {i : InputState}

/-- The conditions are those two together. -/
theorem wf_iff : m.Wf ↔ m.WfButRoom ∧ m.unsent ≤ 32 :=
  ⟨fun h => ⟨{ h with transitRoom := Nat.zero_le _ }, h.transitRoom⟩,
    fun ⟨h, room⟩ => { h.toWf with transitRoom := room }⟩

/-- The counters and the outgoing words bear on none of the other conditions. -/
theorem WfButRoom.of_eq (h : m.WfButRoom) (input : n.input = m.input) (assembler : n.assembler = m.assembler)
    (requests : n.requests = m.requests) (replies : n.replies = m.replies) (cache : n.cache = m.cache) : n.WfButRoom := by
  cases n
  cases m
  cases input
  cases assembler
  cases requests
  cases replies
  cases cache
  exact { h.toWf with }

/-- Outside CONSUME and BROADCAST the assembler is empty (R148). -/
theorem WfButRoom.idle (h : m.WfButRoom) (idle : i.assembles = false) :
    WfButRoom { m with input := i, assembler := [] } :=
  { h.toWf with
    assemblerIdle := fun _ => rfl
    assemblerBusy := fun busy => nomatch idle.symm.trans busy
    expected := fun long => nomatch long }

/-- From one input state without a message in assembly to another. -/
theorem WfButRoom.spend (h : m.WfButRoom) (was : m.input.assembles = false) (idle : i.assembles = false) :
    WfButRoom { m with input := i } :=
  { h.toWf with
    assemblerIdle := fun _ => h.assemblerIdle was
    assemblerBusy := fun busy => nomatch idle.symm.trans busy }

/-- A message in assembly, below its stated length (R148). -/
theorem WfButRoom.busy (h : m.WfButRoom) (busy : i.assembles = true) {ws : List Word} (begun : ws ≠ [])
    (below : 3 ≤ ws.length → lengthOf (wordAt ws 2) ≤ 28 ∧ ws.length < 4 + lengthOf (wordAt ws 2)) :
    WfButRoom { m with input := i, assembler := ws } :=
  { h.toWf with
    assemblerIdle := fun idle => nomatch busy.symm.trans idle
    assemblerBusy := fun _ => begun
    expected := below }

/-! ### The incoming stream (R145, R146, R148, R149) -/

/-- What the checks of a complete message can do: count it, or queue it as a request (R149, R150). -/
theorem checkMessage_cases (m : MessageBlock) (ws : List Word) :
    (∃ counters, m.checkMessage ws = { m with counters := counters }) ∨
      ∃ r : Request, m.requests.length < 4 ∧ r.len = lengthOf (wordAt ws 2) ∧ r.payload = ws.dropLast.drop 3 ∧
        m.checkMessage ws = { m with requests := m.requests ++ [r] } := by
  unfold checkMessage
  dsimp only
  split
  · exact .inl ⟨_, rfl⟩
  · split
    · exact .inl ⟨_, rfl⟩
    · split
      · exact .inl ⟨_, rfl⟩
      · unfold appendRequest
        split
        · exact .inr ⟨_, ‹_›, rfl, rfl, rfl⟩
        · exact .inl ⟨_, rfl⟩

/-- The checks leave the outgoing words. -/
theorem checkMessage_unsent (ws : List Word) : (m.checkMessage ws).unsent = m.unsent := by
  obtain ⟨_, e⟩ | ⟨_, -, -, -, e⟩ := m.checkMessage_cases ws <;> rw [e] <;> rfl

/-- The checks leave the input state. -/
theorem checkMessage_input (ws : List Word) : (m.checkMessage ws).input = m.input := by
  obtain ⟨_, e⟩ | ⟨_, -, -, -, e⟩ := m.checkMessage_cases ws <;> rw [e]

/-- A complete message of its stated length gives a request of that length (R149, R150). -/
theorem WfButRoom.checkMessage (h : m.WfButRoom) {ws : List Word} (complete : ws.length = 4 + lengthOf (wordAt ws 2))
    (bound : lengthOf (wordAt ws 2) ≤ 28) : (m.checkMessage ws).WfButRoom := by
  obtain ⟨_, e⟩ | ⟨r, room, len, payload, e⟩ := m.checkMessage_cases ws
  · exact e ▸ h.of_eq rfl rfl rfl rfl rfl
  · rw [e]
    refine { h.toWf with requestRoom := ?_, payloads := fun q hq => ?_ }
    · rw [List.length_append]
      exact room
    · rcases List.mem_append.1 hq with old | new
      · exact h.payloads q old
      · rw [List.mem_singleton.1 new, len, payload, List.length_drop, List.length_dropLast]
        exact ⟨by omega, bound⟩

/-- What the assembler can do with a MORE or LAST word: give the message up, grow below its stated length, or hand a complete
message to the checks (R148). -/
theorem assemble_cases (m : MessageBlock) (w : ControlWord) (rest : InputState) :
    (∃ i, (i = .between ∨ i = rest) ∧ m.assemble w rest = { m.discardAssembly with input := i }) ∨
      ((m.assembler ++ [w.data]).length < 4 + lengthOf (wordAt (m.assembler ++ [w.data]) 2) ∧
        ((m.assembler ++ [w.data]).length = 3 → lengthOf (wordAt (m.assembler ++ [w.data]) 2) ≤ 28) ∧
        m.assemble w rest = { m with assembler := m.assembler ++ [w.data] }) ∨
      (4 + lengthOf (wordAt (m.assembler ++ [w.data]) 2) ≤ (m.assembler ++ [w.data]).length ∧
        m.assemble w rest = checkMessage { m with input := .between, assembler := [] } (m.assembler ++ [w.data])) := by
  by_cases last : w.marker = .last
  · by_cases complete : 4 + lengthOf (wordAt (m.assembler ++ [w.data]) 2) ≤ (m.assembler ++ [w.data]).length
    · exact .inr (.inr ⟨complete, assemble_of_last_complete last complete⟩)
    · exact .inl ⟨.between, .inl rfl, assemble_of_last_early last (.inr (Nat.lt_of_not_le complete))⟩
  · by_cases rejected : (m.assembler ++ [w.data]).length = 3 ∧ 28 < lengthOf (wordAt (m.assembler ++ [w.data]) 2) ∨
        4 + lengthOf (wordAt (m.assembler ++ [w.data]) 2) ≤ (m.assembler ++ [w.data]).length
    · exact .inl ⟨rest, .inr rfl, assemble_of_more_rejected last rejected⟩
    · have stated : (m.assembler ++ [w.data]).length = 3 → lengthOf (wordAt (m.assembler ++ [w.data]) 2) ≤ 28 := by omega
      have below : (m.assembler ++ [w.data]).length < 4 + lengthOf (wordAt (m.assembler ++ [w.data]) 2) := by omega
      exact .inr (.inl ⟨below, stated, assemble_of_more last stated below⟩)

/-- The assembler leaves the outgoing words. -/
theorem assemble_unsent : (m.assemble w rest).unsent = m.unsent := by
  obtain ⟨_, -, e⟩ | ⟨-, -, e⟩ | ⟨-, e⟩ := m.assemble_cases w rest
  · rw [e]; rfl
  · rw [e]; rfl
  · rw [e, checkMessage_unsent]; rfl

/-- A LAST word ends the message in assembly (R148). -/
theorem assemble_input_of_last (last : w.marker = .last) : (m.assemble w rest).input = .between := by
  by_cases complete : 4 + lengthOf (wordAt (m.assembler ++ [w.data]) 2) ≤ (m.assembler ++ [w.data]).length
  · rw [assemble_of_last_complete last complete, checkMessage_input]
  · rw [assemble_of_last_early last (.inr (Nat.lt_of_not_le complete))]

/-- A MORE or LAST word is assembled: the third word of a message bounds its stated length, and every later word stays below
it (R148). -/
theorem WfButRoom.assemble (h : m.WfButRoom) (busy : m.input.assembles = true) (spent : rest.assembles = false) :
    (m.assemble w rest).WfButRoom := by
  have grown : (m.assembler ++ [w.data]).length = m.assembler.length + 1 := by simp
  have stated : 3 ≤ m.assembler.length → lengthOf (wordAt (m.assembler ++ [w.data]) 2) ≤ 28 ∧
      m.assembler.length < 4 + lengthOf (wordAt (m.assembler ++ [w.data]) 2) := fun long => by
    rw [wordAt_append_of_lt (by omega)]
    exact h.expected long
  obtain ⟨i, after, e⟩ | ⟨below, third, e⟩ | ⟨complete, e⟩ := m.assemble_cases w rest
  · have idle : i.assembles = false := by
      rcases after with rfl | rfl
      · rfl
      · exact spent
    exact e ▸ (h.of_eq (n := m.countFraming) rfl rfl rfl rfl rfl).idle idle
  · rw [e]
    refine h.busy busy (by simp) fun long => ⟨?_, below⟩
    by_cases header : m.assembler.length = 2
    · exact third (by omega)
    · exact (stated (by omega)).1
  · rw [e]
    have ⟨bound, short⟩ := stated (by omega)
    exact (h.idle rfl).checkMessage (by omega) bound

/-- A FIRST word adds at most itself to the transit buffer (R146). -/
theorem beginMessage_unsent : (m.beginMessage a w).unsent ≤ m.unsent + 1 := by
  unfold beginMessage
  split
  · exact Nat.le_succ _
  · split
    · simp [unsent]; omega
    · split
      · exact Nat.le_succ _
      · simp [unsent]; omega

/-- A FIRST word begins a message afresh, whatever stood in the assembler (R146). -/
theorem WfButRoom.beginMessage (h : WfButRoom { m with input := .between, assembler := [] }) :
    (m.beginMessage a w).WfButRoom := by
  have afresh : ∀ i : InputState, i.assembles = true → WfButRoom { m with input := i, assembler := [w.data] } :=
    fun _ busy => h.busy busy (List.cons_ne_nil _ _) fun long => nomatch long
  unfold MessageBlock.beginMessage
  split
  · exact afresh .consume rfl
  · split
    · exact afresh .broadcast rfl
    · split
      · exact (h.idle (i := .scrub) rfl).of_eq rfl rfl rfl rfl rfl
      · exact h.idle (i := .forward) rfl

/-- An abandoned message leaves no more words in the transit buffer (R158). -/
theorem abandon_unsent : m.abandon.unsent ≤ m.unsent := Nat.add_le_add_right (abandonForwarded_length _) _

/-- A word passed on to the transit buffer. -/
theorem passed_unsent : ({ m with transit := m.transit ++ [w] } : MessageBlock).unsent = m.unsent + 1 := by
  simp [unsent]
  omega

/-- An input word adds at most itself to the transit buffer (R145). -/
theorem intake_unsent : (m.intake a w).unsent ≤ m.unsent + 1 := by
  have begun {n : MessageBlock} (h : n.unsent ≤ m.unsent) : (n.beginMessage a w).unsent ≤ m.unsent + 1 :=
    beginMessage_unsent.trans (Nat.succ_le_succ h)
  unfold intake
  split
  -- A FIRST word.
  case h_2 | h_20 | h_24 => exact begun le_rfl
  case h_8 => exact begun abandon_unsent
  case h_12 => exact begun (n := m.discardAssembly) le_rfl
  case h_16 => exact begun (abandon_unsent (m := m.discardAssembly))
  -- A MORE or LAST word that is passed on, assembled or both.
  case h_5 | h_6 => exact passed_unsent.le
  case h_9 | h_10 => exact assemble_unsent.le.trans (Nat.le_succ _)
  case h_13 | h_14 => exact (assemble_unsent.trans passed_unsent).le
  -- An IDLE word within a message that is passed on.
  case h_7 => exact abandon_unsent.trans (Nat.le_succ _)
  case h_15 => exact (abandon_unsent (m := m.discardAssembly)).trans (Nat.le_succ _)
  all_goals exact Nat.le_succ _

/-- An input word keeps the conditions but the room: a message begins afresh, is assembled, is given up, or passes by
(R145). -/
theorem WfButRoom.intake (h : m.WfButRoom) : (m.intake a w).WfButRoom := by
  have counted : m.countFraming.WfButRoom := h.of_eq rfl rfl rfl rfl rfl
  have dropped : WfButRoom { m.discardAssembly with input := .between } := counted.idle rfl
  have ended {j : InputState} (was : m.input = j) (idle : j.assembles = false) : WfButRoom { m with input := .between } :=
    h.spend (was ▸ idle) rfl
  unfold MessageBlock.intake
  split <;> rename_i was mark
  -- A FIRST word.
  case h_2 | h_8 | h_20 | h_24 => exact WfButRoom.beginMessage (h.idle rfl)
  case h_12 | h_16 => exact WfButRoom.beginMessage dropped
  -- A MORE or LAST word outside a message.
  case h_3 => exact counted.spend (was ▸ rfl) rfl
  case h_4 => exact counted
  -- A MORE or LAST word of a message that is assembled.
  case h_9 | h_10 => exact h.assemble (was ▸ rfl) rfl
  case h_13 => exact WfButRoom.assemble (m := { m with transit := m.transit ++ [w] }) h (was ▸ rfl) rfl
  case h_14 =>
    -- The LAST word has ended the message, so the input state is set to what it is.
    rw [← assemble_input_of_last mark]
    exact WfButRoom.assemble (m := { m with transit := m.transit ++ [w] }) h (was ▸ rfl) rfl
  -- An IDLE word within a message that is assembled.
  case h_11 | h_15 => exact dropped
  -- The end of any other message, and its words on the way.
  case h_6 | h_7 | h_18 | h_19 | h_22 | h_23 => exact ended was rfl
  case h_1 | h_5 | h_17 | h_21 => exact h

/-! ### The output positions (R156) -/

/-- An output position sends one of the words that wait (R156). -/
theorem emit_unsent : m.emit.1.unsent = m.unsent - 1 := by
  cases own : m.own with
  | cons w rest => simp [emit_of_own own, unsent, own]
  | nil =>
    cases transit : m.transit with
    | cons w rest => simp [emit_of_transit own transit, unsent, own, transit]
    | nil => simp [emit_of_idle own transit, unsent, own, transit]

/-- An output position bears on nothing but the room. -/
theorem WfButRoom.emit (h : m.WfButRoom) : m.emit.1.WfButRoom := by
  unfold MessageBlock.emit
  split
  · exact h
  · split <;> exact h

/-- A position takes a word in before it sends one, so the room holds again after it (R156). -/
theorem Wf.position (h : m.Wf) (a : BitVec 6) (w : ControlWord) : (m.position a w).1.Wf := by
  obtain ⟨conditions, room⟩ := wf_iff.1 h
  have taken : (m.intake a w).unsent ≤ m.unsent + 1 := intake_unsent
  have sent : (m.position a w).1.unsent = (m.intake a w).unsent - 1 := emit_unsent
  exact wf_iff.2 ⟨conditions.intake.emit, by omega⟩

/-- The positions of a boundary, one after another (R156). -/
theorem Wf.positions (a : BitVec 6) (ws : List ControlWord) {m : MessageBlock} (h : m.Wf) : (positions a ws m).1.Wf := by
  induction ws generalizing m with
  | nil => exact h
  | cons w rest ih => exact ih (h.position a w)

/-! ### Replies (R151, R152, R154, R159) -/

/-- An addressed request can be taken exactly when the reply queue has room (R151). -/
theorem canTake_of_addressed {r : Request} (addressed : r.isBroadcast = false) :
    m.canTake r = decide (m.replies.length < 4) := by
  rw [canTake, addressed, Bool.false_or]
  rfl

/-- An addressed request that can be taken finds room for its reply (R151). -/
theorem replies_of_canTake {r : Request} (addressed : r.isBroadcast = false) (room : m.canTake r = true) :
    m.replies.length < 4 := of_decide_eq_true (canTake_of_addressed addressed ▸ room)

/-- An answer of at most 28 words is queued (R144, R159). -/
theorem Wf.pushReply (h : m.Wf) {r : Request} (room : m.replies.length < 4) {x : Answer} (fits : x.results.length ≤ 28) :
    (m.pushReply r x).Wf :=
  { h with
    replyRoom := by
      rw [MessageBlock.pushReply, List.length_append]
      exact room
    results := fun q hq => by
      rcases List.mem_append.1 hq with old | new
      · exact h.results q old
      · rw [List.mem_singleton.1 new]
        exact fits }

/-- The reply of an executed request is queued and cached; a broadcast's is neither (R152, R154, R155). -/
theorem Wf.finish (h : m.Wf) {r : Request} (room : m.canTake r = true) {x : Answer} (fits : x.results.length ≤ 28) :
    (m.finish r x).Wf := by
  unfold MessageBlock.finish
  split
  · exact h
  · rename_i addressed
    refine { h.pushReply (replies_of_canTake (Bool.eq_false_iff.2 addressed) room) fits with cached := fun k e he => ?_ }
    rw [Cache.entry_put] at he
    split at he
    · cases he
      exact fits
    · exact h.cached k e he

/-- A request leaves the queue (R151). -/
theorem Wf.take (h : m.Wf) {r : Request} {later : List Request} (front : m.requests = r :: later) : (m.take later).Wf :=
  { h with
    requestRoom := Nat.le_of_succ_le (front ▸ h.requestRoom :)
    payloads := fun q hq => h.payloads q (front ▸ List.mem_cons_of_mem r hq) }

/-- A stored answer is a duplicate's own controller's (R152). -/
theorem duplicate_eq_some {r : Request} {x : Answer} (h : m.duplicate? r = some x) :
    r.isBroadcast = false ∧ ∃ e, m.cache.entry r.source = some e ∧ x = e.answer := by
  unfold duplicate? at h
  split at h
  · cases h
  · rename_i addressed
    refine ⟨Bool.eq_false_iff.2 addressed, ?_⟩
    split at h
    · cases h
    · rename_i e stored
      split at h
      · exact ⟨e, stored, (Option.some.inj h).symm⟩
      · cases h

/-- A duplicate is answered with a stored answer (R152). -/
theorem Wf.replay (h : m.Wf) {r : Request} (room : m.canTake r = true) {x : Answer} (stored : m.duplicate? r = some x) :
    (m.replay r x).Wf := by
  obtain ⟨addressed, e, entry, rfl⟩ := duplicate_eq_some stored
  exact { h.pushReply (replies_of_canTake addressed room) (h.cached _ e entry) with }

end MessageBlock

/-! ### What the owners answer (Tables 10-8 and 10-9) -/

/-- An answer that a reply can carry (R144). -/
def Answer.Fits (a : Answer) : Prop := a.results.length ≤ 28

/-- A refusal has no result words. -/
theorem Answer.fits_refuse (st : Status) : (Answer.refuse st).Fits := Nat.zero_le _

/-- BAD_FIELD has one. -/
theorem Answer.fits_badFieldAt (n : Nat) : (Answer.badFieldAt n).Fits := show 1 ≤ 28 by decide

/-- The common checks answer with a refusal, or leave the answer to the act. -/
theorem checked_fits {len : Nat} {fields : List Word → List Bool} {act : List Word → Owner} {r : Request} {s : State}
    (h : (act r.payload r s).2.Fits) : (checked len fields act r s).2.Fits := by
  unfold checked
  split
  · exact Answer.fits_refuse _
  · split
    · exact Answer.fits_badFieldAt _
    · exact h

/-- An answer OK with at most 28 result words. -/
theorem Answer.fits_okWith {ws : List Word} {n : Nat} (length : ws.length ≤ n) (bound : n ≤ 28 := by decide) :
    (Answer.okWith ws).Fits := length.trans bound

section Answers

variable {s : State}

/-- CALL_OPEN answers with three words (R9). -/
theorem openCall_fits (cls : Fin 8) (src : Source) (target : ZoneSet) (r : Request) :
    (openCall cls src target r s).2.Fits := by
  have three (t : CallTable) (c : CallRef) : (openResults t c).length ≤ 3 := by
    unfold openResults
    split <;> exact le_rfl
  unfold openCall
  split
  · exact Answer.fits_refuse _
  · split
    · exact Answer.fits_refuse _
    · split
      · exact Answer.fits_refuse _
      · split
        · exact Answer.fits_refuse _
        · split
          · exact Answer.fits_refuse _
          · exact Answer.fits_okWith (three _ _)

/-- CALL_RELEASE answers with one word (R24). -/
theorem releaseCall_fits (c : CallRef) : (releaseCall c s).2.Fits := by
  unfold releaseCall
  split
  · exact Answer.fits_refuse _
  · exact Answer.fits_okWith (n := 1) le_rfl

/-- CALL_RETARGET answers with four words (R26). -/
theorem retargetCall_fits (c : CallRef) (add remove : ZoneSet) : (retargetCall c add remove s).2.Fits := by
  have four (t : CallTable) : (retargetResults t c).length ≤ 4 := by
    unfold retargetResults
    split <;> exact le_rfl
  unfold retargetCall
  split
  · exact Answer.fits_badFieldAt _
  · split
    · exact Answer.fits_refuse _
    · split
      · exact Answer.fits_refuse _
      · exact Answer.fits_okWith (four _)

/-- CALL_READ answers with 24 words (R28). -/
theorem readCall_fits (c : CallRef) : (readCall c s).2.Fits := by
  unfold readCall
  split
  · exact Answer.fits_refuse _
  · exact Answer.fits_okWith (n := 24) le_rfl

/-- ZONE_RESTRICT answers with one word (R63). -/
theorem restrictZones_fits (m : ZoneSet) (floor : Nat) : (restrictZones m floor s).2.Fits := by
  unfold restrictZones
  split
  · exact Answer.fits_refuse _
  · exact Answer.fits_okWith (n := 1) le_rfl

/-- ZONE_PROBE answers with seven words (R64). -/
theorem probeZone_fits (z : Zone) (priority : Nat) : (probeZone z priority s).2.Fits := by
  have seven : (probeResults s.plan s.calls s.zones z priority).length ≤ 7 := by
    unfold probeResults
    dsimp only
    split
    · exact le_rfl
    · split
      · exact le_rfl
      · split <;> exact le_rfl
  unfold probeZone
  split
  · exact Answer.fits_okWith seven
  · exact Answer.fits_refuse _

/-- SOURCE_READ answers with eleven words (R95). -/
theorem readSource_fits (src : Source) : (readSource src s).2.Fits := by
  have eleven : (sourceReadResults s.plan s.calls s.sources src).length ≤ 11 := by
    unfold sourceReadResults
    split <;> exact le_rfl
  exact Answer.fits_okWith eleven

/-- PLAN_WRITE answers with one word (R110). -/
theorem writePlan_fits (b : BankNo) (e : EntryName) (ws : List Word) : (writePlan b e ws s).2.Fits := by
  unfold writePlan
  split
  · exact Answer.fits_refuse _
  · split
    · exact Answer.fits_refuse _
    · exact Answer.fits_refuse _
    · exact Answer.fits_okWith (n := 1) le_rfl
    · exact Answer.fits_okWith (n := 1) le_rfl

/-- An entry reads as eleven words at most (Table 10-10). -/
theorem Plan.entryWords_length (p : Plan) (e : EntryName) : (p.entryWords e).length ≤ 11 := by
  cases e <;> exact List.length_take_le _ _

/-- PLAN_READ answers with a bank state and the words of an entry (R111). -/
theorem readPlan_fits (b : BankNo) (e : EntryName) : (readPlan b e s).2.Fits := by
  unfold readPlan
  split
  · exact Answer.fits_refuse _
  · exact Answer.fits_okWith (Nat.succ_le_succ (Plan.entryWords_length _ e))

/-- PLAN_ERASE answers with no word (R112). -/
theorem erasePlan_fits (b : BankNo) : (erasePlan b s).2.Fits := by
  unfold erasePlan
  split
  · exact Answer.fits_refuse _
  · split
    · exact Answer.fits_refuse _
    · split
      · exact Answer.fits_refuse _
      · exact Answer.fits_okWith (n := 0) le_rfl

/-- PLAN_SEAL answers with the failed item and its index, or with no word (R113). -/
theorem sealPlan_fits (b : BankNo) : (sealPlan b s).2.Fits := by
  unfold sealPlan
  split
  · exact Answer.fits_refuse _
  · exact Answer.fits_refuse _
  · exact Answer.fits_okWith (n := 0) le_rfl
  · split
    · exact show 2 ≤ 28 by decide
    · exact Answer.fits_okWith (n := 0) le_rfl

/-- PLAN_UNSEAL answers with no word (R115). -/
theorem unsealPlan_fits (b : BankNo) : (unsealPlan b s).2.Fits := by
  unfold unsealPlan
  split
  · exact Answer.fits_refuse _
  · split
    · exact Answer.fits_refuse _
    · split <;> exact Answer.fits_okWith (n := 0) le_rfl

/-- PLAN_COPY answers with no word (R116). -/
theorem copyPlan_fits : (copyPlan s).2.Fits := by
  unfold copyPlan
  split
  · exact Answer.fits_refuse _
  · exact Answer.fits_refuse _
  · exact Answer.fits_okWith (n := 0) le_rfl
  · exact Answer.fits_okWith (n := 0) le_rfl

/-- PLAN_SWITCH answers with no word (R118). -/
theorem switchPlan_fits (point : Option (BitVec 16)) : (switchPlan point s).2.Fits := by
  unfold switchPlan
  split
  · exact Answer.fits_refuse _
  · split
    · exact Answer.fits_refuse _
    · split
      · exact Answer.fits_refuse _
      · split
        · exact Answer.fits_refuse _
        · exact Answer.fits_okWith (n := 0) le_rfl

/-- NOTICE_ACK answers with two words (R136). -/
theorem ackNotices_fits (seq : BitVec 8) : (ackNotices seq s).2.Fits := by
  unfold ackNotices
  split
  · exact Answer.fits_badFieldAt _
  · exact Answer.fits_okWith (n := 2) le_rfl

/-- Every owner's answer fits a reply; ECHO's because the request's payload fits a message (Table 7-3, R144, R160). -/
theorem ownerOf_fits (kind : BitVec 8) (r : Request) (payload : r.payload.length ≤ 28) : (ownerOf kind r s).2.Fits := by
  suffices key : ∀ own : Owner, own = ownerOf kind → (own r s).2.Fits from key _ rfl
  intro own ho
  unfold ownerOf at ho
  split at ho <;> subst ho
  case h_1 => exact checked_fits (openCall_fits _ _ _ _)
  case h_2 => exact checked_fits (releaseCall_fits _)
  case h_3 => exact checked_fits (retargetCall_fits _ _ _)
  case h_4 => exact checked_fits (Answer.fits_okWith (n := 1) le_rfl)
  case h_5 => exact checked_fits (readCall_fits _)
  case h_6 => exact checked_fits (restrictZones_fits _ _)
  case h_7 => exact checked_fits (probeZone_fits _ _)
  case h_8 => exact checked_fits (Answer.fits_okWith (n := 18) le_rfl)
  case h_9 => exact checked_fits (readSource_fits _)
  case h_10 => exact checked_fits (writePlan_fits _ _ _)
  case h_11 => exact checked_fits (readPlan_fits _ _)
  case h_12 => exact checked_fits (erasePlan_fits _)
  case h_13 => exact checked_fits (sealPlan_fits _)
  case h_14 => exact checked_fits (unsealPlan_fits _)
  case h_15 => exact checked_fits copyPlan_fits
  case h_16 => exact checked_fits (switchPlan_fits _)
  case h_17 => exact checked_fits (Answer.fits_okWith (n := 8) le_rfl)
  case h_18 => exact checked_fits (ackNotices_fits _)
  case h_19 => exact checked_fits (Answer.fits_okWith (n := 7) le_rfl)
  case h_20 => exact Answer.fits_okWith payload
  case h_21 => exact checked_fits (Answer.fits_okWith (n := 13) le_rfl)
  case h_22 => exact checked_fits (Answer.fits_okWith (n := 0) le_rfl)
  case h_23 => exact Answer.fits_refuse _

end Answers

/-! ### What the owners make of the message block (R32, R161, R162) -/

section Owners

variable {s t : State}

/-- An owner leaves the message block, clears its counters (COUNTERS_READ) or empties its cache (NODE_RESET). -/
theorem OwnerAct.msg_cases {r : Request} (act : OwnerAct r s t) :
    t.msg = s.msg ∨ t.msg = { s.msg with counters := zeroCounters } ∨ t.msg = { s.msg with cache := emptyCache } := by
  cases act with
  | counts clear => cases clear with
    | false => exact .inl rfl
    | true => exact .inr (.inl rfl)
  | resets => exact .inr (.inr rfl)
  | nothing | clears | configures => exact .inl rfl
  | opens => exact .inl (by unfold openCall; (repeat' split) <;> rfl)
  | releases => exact .inl (by unfold releaseCall; split <;> rfl)
  | retargets => exact .inl (by unfold retargetCall; (repeat' split) <;> rfl)
  | restricts => exact .inl (by unfold restrictZones; split <;> rfl)
  | writes => exact .inl (by unfold writePlan; (repeat' split) <;> rfl)
  | erases => exact .inl (by unfold erasePlan; (repeat' split) <;> rfl)
  | seals => exact .inl (by unfold sealPlan; (repeat' split) <;> rfl)
  | unseals => exact .inl (by unfold unsealPlan; (repeat' split) <;> rfl)
  | copies => exact .inl (by unfold copyPlan; split <;> rfl)
  | switches => exact .inl (by unfold switchPlan; (repeat' split) <;> rfl)
  | acks => exact .inl (by unfold ackNotices; split <;> rfl)

/-- An owner keeps the message block's conditions and the replies that wait. -/
theorem OwnerAct.keeps_msg {r : Request} (act : OwnerAct r s t) (h : s.msg.Wf) :
    t.msg.Wf ∧ t.msg.replies = s.msg.replies := by
  obtain e | e | e := act.msg_cases <;> rw [e]
  · exact ⟨h, rfl⟩
  · exact ⟨{ h with }, rfl⟩
  · refine ⟨{ h with cached := fun k e stored => ?_ }, rfl⟩
    cases k <;> cases stored

/-- The processor takes a request (R151): a duplicate, or one that is executed and answered. -/
theorem MessageBlock.Wf.takeRequest (h : s.msg.Wf) (isKind : BitVec 8 → Bool) (kind : BitVec 8) :
    (s.takeRequest isKind (ownerOf kind)).msg.Wf := by
  obtain e | ⟨r, rest, front, -, room, ⟨a, stored, e⟩ | ⟨-, e⟩⟩ := takeRequest_cases s isKind (ownerOf kind) <;> rw [e]
  · exact h
  · exact (h.take front).replay room stored
  · obtain ⟨len, bound⟩ := h.payloads r (front ▸ List.mem_cons_self)
    obtain ⟨done, replies⟩ := (ownerOf_act kind r (s.taken rest)).keeps_msg (h.take front)
    refine done.finish ?_ (ownerOf_fits kind r (len.trans_le bound))
    rw [MessageBlock.canTake, replies]
    exact room

end Owners

/-! ### Steps -/

section Steps

variable {s : State}

/-- The oldest reply begins on an idle channel (R157). -/
theorem MessageBlock.Wf.beginReply (h : s.msg.Wf) : s.beginReply.msg.Wf := by
  unfold State.beginReply
  split
  · exact h
  · rename_i ready
    simp only [Bool.or_eq_true, Bool.not_eq_true', not_or, Bool.not_eq_false] at ready
    obtain ⟨-, transit, -⟩ := s.msg.mayBegin_iff.1 ready.2
    split
    · exact h
    · rename_i r rest waits
      have fits : r.answer.results.length ≤ 28 := h.results r (waits ▸ List.mem_cons_self)
      exact { h with
        replyRoom := Nat.le_of_succ_le (waits ▸ h.replyRoom :)
        transitRoom := by
          rw [transit, Reply.words_length, List.length_nil]
          omega
        results := fun q hq => h.results q (waits ▸ List.mem_cons_of_mem r hq) }

/-- A notice message of at most seven entries begins on an idle channel (R134, R157). -/
theorem MessageBlock.Wf.beginNotice (h : s.msg.Wf) (held : Bool) : (s.beginNotice held).msg.Wf := by
  unfold State.beginNotice
  split
  · exact h
  · rename_i ready
    simp only [Bool.or_eq_true, Bool.not_eq_true', not_or, Bool.not_eq_false] at ready
    obtain ⟨⟨⟨⟨-, free⟩, -⟩, -⟩, -⟩ := ready
    obtain ⟨-, transit, -⟩ := s.msg.mayBegin_iff.1 free
    have entries := s.notices.batch_length
    exact { h with
      transitRoom := by
        rw [transit, noticeWords_length, List.length_nil]
        omega }

/-- The control stage: the arbiter, then the four positions (R156, R157). -/
theorem MessageBlock.Wf.controlStage (h : s.msg.Wf) : s.controlStage.msg.Wf := by
  cases own : s.transitOnly with
  | true => exact State.controlStage_of_transitOnly own ▸ h
  | false =>
    obtain ⟨msg, -⟩ := State.controlStage_of_node own
    exact msg ▸ (h.beginReply.beginNotice false).positions _ _

/-- An entry to SEARCH empties the transit buffer (R176). -/
theorem MessageBlock.Wf.enterSearch (h : s.msg.Wf) : s.enterSearch.msg.Wf := by
  rw [State.enterSearch, State.abandonPointed_msg, State.notify_msg]
  exact { h with transitRoom := (Nat.add_le_add_right (Nat.zero_le _) _).trans h.transitRoom }

/-- A reset in force leaves the cache and the counters alone (R190; log 14). -/
theorem MessageBlock.Wf.assertReset (h : s.msg.Wf) : s.assertReset.msg.Wf :=
  { h with
    requestRoom := Nat.zero_le _
    replyRoom := Nat.zero_le _
    transitRoom := Nat.zero_le _
    assemblerIdle := fun _ => rfl
    assemblerBusy := fun busy => nomatch busy
    expected := fun long => nomatch long
    payloads := fun _ hr => nomatch hr
    results := fun _ hr => nomatch hr }

/-- Every operation keeps the message block's conditions. -/
theorem kept_msg : Kept fun s => s.msg.Wf where
  due _ _ h := h
  resets _ _ _ := by
    obtain ⟨-, -, -, -, msg, -⟩ := invariantsHoldAtReset
    exact msg
  asserts _ h := h.assertReset
  finds _ _ _ h := h
  judges _ _ _ h := h
  opens _ _ _ _ h := h
  locks _ h := h
  searches _ h := h.enterSearch
  observes _ h := h
  ramps _ h := h
  controls _ h := h.controlStage
  sends _ h := h
  presences _ _ _ h := h
  keyUps s k h := (s.takeKeyUp_msg k).symm ▸ h
  keyDowns s k h := (s.takeKeyDown_msg k).symm ▸ h
  losses _ _ h := h
  waits s r h := (s.takeDeadline_msg r _ _).symm ▸ h
  holds s r h := (s.takeDeadline_msg r _ _).symm ▸ h
  durations s r h := (s.takeDeadline_msg r _ _).symm ▸ h
  leadIns s z h := (s.takeLeadInEnd_msg z).symm ▸ h
  retries s h := s.takeRetryEnd_msg.symm ▸ h
  copySteps _ h := h
  copies s h := s.takeCopyEnd_msg.symm ▸ h
  fades _ _ _ h := h
  chimes _ _ h := h
  tones _ _ h := h
  banks _ _ _ h := h
  switchZones _ _ h := h
  begins _ h := h.beginReply
  notices _ held h := h.beginNotice held
  requests _ isKind kind h := h.takeRequest isKind kind

/-- Settles O58: the incoming stream, the output positions, the arbiter and the request processor each keep the message
block's conditions; everything else that a step does leaves the block, or empties parts of it. -/
theorem stepKeepsMessageBlock : Obligations.StepKeepsMessageBlock := by
  intro s t hs h
  exact kept_msg.step (fun _ _ h => h) hs h

end Steps

end Sys2Proof.Machine
end

section
/-! One step, and what every request command does with the oldest request: the requests it takes, those it leaves, and the
answers it sends (R151, R152, R154, R155). -/

namespace Sys2Proof.Machine

/-! ### One step (log 15) -/

/-- Settles O1, by the two cases of the queue. -/
theorem stepRunsFrontCommand : Obligations.StepRunsFrontCommand := by
  refine ⟨fun c q s front => ?_, fun s idle => ?_⟩
  · rw [step, front]
  · rw [step, idle]

/-! ### The request commands as one (R151, R153) -/

/-- Each command of a fixed payload length takes requests of its kind alone, through the common checks with its length. -/
theorem exec_of_requestCommands : ∀ x ∈ requestCommands, ∃ fields act, ∀ s : State,
    exec x.1 s = s.running fun s => s.takeRequest (fun k => decide (k = x.2.1)) (checked x.2.2 fields act) := by
  rw [requestCommands]
  simp only [List.cons_append, List.nil_append, List.forall_mem_cons]
  refine ⟨?_, ?_, ?_, ?_, ?_, ?_, ?_, ?_, ?_, ?_, ?_, ?_, ?_, ?_, ?_, ?_, ?_, ?_, ?_, ?_, ?_,
    fun _ h => absurd h List.not_mem_nil⟩
  all_goals exact ⟨_, _, fun _ => rfl⟩

/-- The kinds of Table 7-3 are ECHO's and those of the commands of a fixed payload length. -/
theorem isKnownKind_iff (kind : BitVec 8) : isKnownKind kind = true ↔ kind = 64#8 ∨ ∃ x ∈ requestCommands, kind = x.2.1 := by
  have kinds : (∃ x ∈ requestCommands, kind = x.2.1) ↔ kind ∈ requestCommands.map fun x => x.2.1 := by
    simp only [List.mem_map, eq_comm]
  have sorted : knownKinds.Perm (64#8 :: requestCommands.map fun x => x.2.1) := by decide
  rw [isKnownKind, List.contains_iff_mem, sorted.mem_iff, List.mem_cons, kinds]

/-- Every request command tries the oldest request with a test of its kind (R151; log 2). -/
theorem exec_of_ofKind {c : Instr} {ofKind : BitVec 8 → Prop}
    (command : (∃ x ∈ requestCommands, c = x.1 ∧ ∀ kind, ofKind kind ↔ kind = x.2.1) ∨
      (c = .echo ∧ ∀ kind, ofKind kind ↔ kind = 64#8) ∨
      (c = .unknownKindRequest ∧ ∀ kind, ofKind kind ↔ kind ≠ 64#8 ∧ ∀ x ∈ requestCommands, kind ≠ x.2.1)) :
    ∃ isKind own, (∀ kind, isKind kind = true ↔ ofKind kind) ∧
      ∀ s : State, exec c s = s.running fun s => s.takeRequest isKind own := by
  obtain ⟨x, mem, rfl, kinds⟩ | ⟨rfl, kinds⟩ | ⟨rfl, kinds⟩ := command
  · obtain ⟨fields, act, runs⟩ := exec_of_requestCommands x mem
    exact ⟨_, _, fun kind => decide_eq_true_iff.trans (kinds kind).symm, runs⟩
  · exact ⟨_, _, fun kind => decide_eq_true_iff.trans (kinds kind).symm, fun _ => rfl⟩
  · refine ⟨_, _, fun kind => ?_, fun _ => rfl⟩
    rw [kinds, Bool.not_eq_true', ← Bool.not_eq_true, isKnownKind_iff]
    simp only [not_or, not_exists, not_and]

section Processor

variable {s : State} {isKind : BitVec 8 → Bool} {own : Owner}

/-- A request of another kind, or one that cannot be taken, leaves the processor nothing to do (R151; log 3). -/
theorem takeRequest_of_blocked
    (blocked : ∀ r rest, s.msg.requests = r :: rest → isKind r.kind = false ∨ s.msg.canTake r = false) :
    s.takeRequest isKind own = s := by
  unfold State.takeRequest
  split
  · rfl
  · rename_i r rest front
    have stays : (isKind r.kind && s.msg.canTake r) = false := by
      rcases blocked r rest front with other | waits
      · rw [other, Bool.false_and]
      · rw [waits, Bool.and_false]
    rw [stays]
    rfl

/-- A duplicate is answered from the cache (R152). -/
theorem takeRequest_of_duplicate {r : Request} {rest : List Request} {a : Answer} (front : s.msg.requests = r :: rest)
    (kind : isKind r.kind = true) (room : s.msg.canTake r = true) (stored : s.msg.duplicate? r = some a) :
    s.takeRequest isKind own = { s with msg := (s.msg.take rest).replay r a } := by
  simp only [State.takeRequest, front, kind, room, Bool.and_self, if_true, State.handle, duplicate_take, stored]

/-- The stored answer of an addressed request with the tag and the kind of its controller's last one (R152). -/
theorem duplicate_of_entry {m : MessageBlock} {r : Request} {e : CacheEntry} (addressed : r.isBroadcast = false)
    (stored : m.cache.entry r.source = some e) (tag : e.tag = r.tag) (kind : e.kind = r.kind) :
    m.duplicate? r = some e.answer := by
  simp [MessageBlock.duplicate?, addressed, stored, tag, kind]

/-- A broadcast is neither answered nor cached (R155). -/
theorem State.answered_of_broadcast {r : Request} (broadcast : r.isBroadcast = true) (a : Answer) : s.answered r a = s := by
  rw [State.answered, MessageBlock.finish, if_pos broadcast]

/-- An addressed request is answered and its answer cached (R152, R154). -/
theorem State.answered_of_addressed {r : Request} (addressed : r.isBroadcast = false) (a : Answer) :
    s.answered r a =
      { s with msg := { s.msg with
        replies := s.msg.replies ++ [{ dest := r.source, kind := r.kind, tag := r.tag, answer := a }]
        cache := s.msg.cache.put r.source { tag := r.tag, kind := r.kind, answer := a } } } := by
  rw [State.answered, MessageBlock.finish, if_neg (Bool.eq_false_iff.1 addressed)]
  rfl

end Processor

/-- Settles O30: the three ways in which a request command does not execute a request, and what taking and answering
change. -/
theorem duplicatesAreReplayed : Obligations.DuplicatesAreReplayed := by
  refine ⟨fun c ofKind command => ?_, fun s rest => rfl, fun s r a => ⟨fun broadcast => ?_, fun addressed => ?_⟩⟩
  · obtain ⟨isKind, own, kinds, runs⟩ := exec_of_ofKind command
    have untaken {s : State} (blocked : ∀ r rest, s.msg.requests = r :: rest →
        isKind r.kind = false ∨ s.msg.canTake r = false) : exec c s = .next s := by
      rw [runs, running_eq_next, takeRequest_of_blocked blocked, ite_self]
    refine ⟨fun s r rest e hs front kind addressed => ⟨fun room stored tag same => ?_, fun full => ?_⟩, fun s other => ?_⟩
    · have takes := (MessageBlock.canTake_of_addressed addressed).trans (decide_eq_true room)
      rw [runs, running_eq_next, if_neg (Bool.eq_false_iff.1 hs),
        takeRequest_of_duplicate front ((kinds _).2 kind) takes (duplicate_of_entry addressed stored tag same)]
      rfl
    · refine untaken fun q later front' => .inr ?_
      obtain ⟨rfl, -⟩ := List.cons.inj (front.symm.trans front')
      exact (MessageBlock.canTake_of_addressed addressed).trans (decide_eq_false (Nat.not_lt.2 full))
    · refine untaken fun q later front => .inl ?_
      obtain empty | ⟨r, rest, front', kind⟩ := other
      · exact nomatch empty.symm.trans front
      · obtain ⟨rfl, -⟩ := List.cons.inj (front.symm.trans front')
        exact Bool.eq_false_iff.2 fun taken => kind ((kinds _).1 taken)
  · exact State.answered_of_broadcast broadcast a
  · exact ⟨_, State.answered_of_addressed addressed a, Cache.entry_put _ _ _⟩

end Sys2Proof.Machine
end

section
/-! The common checks (O29), and the requests the message block owns: ECHO and COUNTERS_READ (R153, R160, R161). -/

namespace Sys2Proof.Machine

/-! ### The first field that fails (R153, R188) -/

section Fields

variable {b : Bool} {l : List Bool} {n lo hi : Nat} {w : Word} {ws : List Word}

/-- A field that fails is the first one, whatever follows it. -/
theorem firstBad_of_fails (fails : b = false) : firstBad (b :: l) = some 1 := by rw [fails]; rfl

/-- A field that passes leaves it to the later ones. -/
theorem firstBad_of_passes (passes : b = true) (later : firstBad l = some n) : firstBad (b :: l) = some (n + 1) := by
  rw [passes, firstBad, if_pos rfl, later]
  rfl

/-- A number up to the end of a range that starts at 0. -/
theorem inRange_of_le (h : w.toNat ≤ hi) : inRange 0 hi w = true := inRange_eq.2 ⟨Nat.zero_le _, h⟩

/-- A number outside a range. -/
theorem inRange_of_outside (h : w.toNat < lo ∨ hi < w.toNat) : inRange lo hi w = false :=
  Bool.eq_false_iff.2 fun inside => by
    have := inRange_eq.1 inside
    omega

/-- The bank field of a plan entry's name fails. -/
theorem firstBad_of_bank (bank : 1 < (wordAt ws 0).toNat) : firstBad (tableChecks ws ++ l) = some 1 :=
  firstBad_of_fails (inRange_of_outside (.inr bank))

/-- The table field of a plan entry's name fails. -/
theorem firstBad_of_table (bank : (wordAt ws 0).toNat ≤ 1) (table : 3 < (wordAt ws 1).toNat) :
    firstBad (tableChecks ws ++ l) = some 2 :=
  firstBad_of_passes (inRange_of_le bank) (firstBad_of_fails (inRange_of_outside (.inr table)))

/-- The index field of a plan entry's name fails (R188). -/
theorem firstBad_of_index (bank : (wordAt ws 0).toNat ≤ 1) (table : (wordAt ws 1).toNat ≤ 3)
    (index : tableSize (wordAt ws 1) ≤ (wordAt ws 2).toNat) : firstBad (tableChecks ws ++ l) = some 3 :=
  firstBad_of_passes (inRange_of_le bank)
    (firstBad_of_passes (inRange_of_le table) (firstBad_of_fails (decide_eq_false (Nat.not_lt.2 index))))

/-- With the name of a plan entry in range its words decide. -/
theorem firstBad_of_named (bank : (wordAt ws 0).toNat ≤ 1) (table : (wordAt ws 1).toNat ≤ 3)
    (index : (wordAt ws 2).toNat < tableSize (wordAt ws 1)) (later : firstBad l = some n) :
    firstBad (tableChecks ws ++ l) = some (n + 3) :=
  firstBad_of_passes (inRange_of_le bank)
    (firstBad_of_passes (inRange_of_le table) (firstBad_of_passes (decide_eq_true index) later))

/-- One of the eleven words of an entry is checked for its range (R102 to R105). -/
theorem applyChecks_entry (e : EntryName) (words : ws.length = 11) {i : Nat} (hi : i < 11) :
    ∃ b, (applyChecks (entryChecks e) ws)[i]? = some b ∧ (b = true ↔ entryWordInRange e i (wordAt ws i).toNat) := by
  obtain ⟨f, check, range⟩ := entryCheck_word e i hi
  have word : ws[i]? = some (wordAt ws i) := by
    rw [wordAt, List.getD_eq_getElem?_getD, List.getElem?_eq_getElem (by omega), Option.getD_some]
  refine ⟨f (wordAt ws i), ?_, range _⟩
  rw [applyChecks, List.getElem?_map, List.getElem?_zip_eq_some (z := (f, wordAt ws i)) |>.2 ⟨check, word⟩]
  rfl

/-- The first word of an entry that is out of its range fails (R153, R188). -/
theorem firstBad_of_entry (e : EntryName) (words : ws.length = 11) {i : Nat} (hi : i < 11)
    (passes : ∀ j < i, entryWordInRange e j (wordAt ws j).toNat) (fails : ¬ entryWordInRange e i (wordAt ws i).toNat) :
    firstBad (applyChecks (entryChecks e) ws) = some (i + 1) := by
  refine firstBad_of_first _ i ?_ fun j hj => ?_
  · obtain ⟨b, check, range⟩ := applyChecks_entry e words hi
    rw [check, Bool.eq_false_iff.2 fun good => fails (range.1 good)]
  · obtain ⟨b, check, range⟩ := applyChecks_entry e words (hj.trans hi)
    rw [check, range.2 (passes j hj)]

/-- The words after the first three. -/
theorem wordAt_drop (ws : List Word) (k i : Nat) : wordAt (ws.drop k) i = wordAt ws (k + i) := by
  simp only [wordAt, List.getD_eq_getElem?_getD, List.getElem?_drop]

end Fields

/-! ### Refusals (R153, R154) -/

/-- A request of a wrong length is refused (R153). -/
theorem checked_of_length {len : Nat} {fields : List Word → List Bool} {act : List Word → Owner} {r : Request}
    (wrong : r.len ≠ len) (s : State) : checked len fields act r s = (s, ⟨.badLength, []⟩) := if_pos wrong

/-- A request with a field out of range is refused with the field's number (R153). -/
theorem checked_of_field {len n : Nat} {fields : List Word → List Bool} {act : List Word → Owner} {r : Request}
    (right : r.len = len) (bad : firstBad (fields r.payload) = some n) (s : State) :
    checked len fields act r s = (s, ⟨.badField, [BitVec.ofNat 16 n]⟩) := by
  rw [checked, if_neg (not_not.2 right), bad]
  rfl

/-- A command whose checks find a field bad refuses it. -/
theorem refusesField {c : Instr} {kind : BitVec 8} {len n : Nat} {fields : List Word → List Bool} {act : List Word → Owner}
    {bad : List Word → Prop}
    (runs : ∀ s : State, exec c s = s.running fun s => s.takeRequest (fun k => decide (k = kind)) (checked len fields act))
    (fails : ∀ ws, bad ws → firstBad (fields ws) = some n) : RefusesField c kind len n bad := by
  intro s r rest offered right out
  rw [runs, running_takeRequest offered (decide_eq_true rfl), checked_of_field right (fails _ out)]

/-- An entry word of PLAN_WRITE out of its range is refused with its number (R104, R110, R188). -/
theorem refusesField_entry (i : Nat) (hi : i < 11) : RefusesField .planWrite 32#8 14 (4 + i) (fun ws =>
    let e := entryName (wordAt ws 1) (wordAt ws 2)
    ws.length = 14 ∧ (wordAt ws 0).toNat ≤ 1 ∧ (wordAt ws 1).toNat ≤ 3 ∧
      (wordAt ws 2).toNat < tableSize (wordAt ws 1) ∧
      (∀ j, j < i → entryWordInRange e j (wordAt ws (3 + j)).toNat) ∧
      ¬ entryWordInRange e i (wordAt ws (3 + i)).toNat) := by
  refine refusesField (fun _ => rfl) fun ws ⟨length, bank, table, index, passes, fails⟩ => ?_
  rw [show 4 + i = i + 1 + 3 by omega]
  refine firstBad_of_named bank table index (firstBad_of_entry _ (by rw [List.length_drop, length]) hi (fun j hj => ?_) ?_)
  · rw [wordAt_drop]
    exact passes j hj
  · rw [wordAt_drop]
    exact fails

/-- Settles O29: a wrong length, an unknown kind, and then each field of each kind, the fields before it in range. -/
theorem commonChecksRefuse : Obligations.CommonChecksRefuse := by
  refine ⟨fun x mem s r rest offered wrong => ?length, fun s kind r rest offered echo others => ?kind, ?callOpen1, ?callOpen2,
    ?callRelease, ?callRetarget, ?clearCalls1, ?clearCalls2, ?callRead, ?zoneRestrict, ?zoneProbe1, ?zoneProbe2, ?zoneRead,
    ?sourceRead, ?planWrite1, ?planWrite2, ?planWrite3, refusesField_entry, ?planRead1, ?planRead2, ?planRead3, ?planErase,
    ?planSeal, ?planUnseal, ?planSwitch, ?noticeAck, ?noticeConfig1, ?noticeConfig2, ?noticeConfig3, ?countersRead⟩
  case length =>
    obtain ⟨fields, act, runs⟩ := exec_of_requestCommands x mem
    rw [runs, running_takeRequest offered (decide_eq_true rfl), checked_of_length wrong]
  case kind =>
    have unknown : isKnownKind kind = false := Bool.eq_false_iff.2 fun known =>
      ((isKnownKind_iff kind).1 known).elim echo fun ⟨x, mem, same⟩ => others x mem same
    exact running_takeRequest offered (isKind := fun k => !isKnownKind k) (by rw [unknown]; rfl) ownUnknownKind
  all_goals refine refusesField (fun _ => rfl) fun ws out => ?_
  -- A single field, or the first one.
  case callOpen1 | callRelease | callRetarget | callRead | zoneProbe1 | zoneRead | sourceRead | planErase | planSeal |
      planUnseal | planSwitch | noticeAck | countersRead =>
    exact firstBad_of_fails (inRange_of_outside (.inr out))
  case clearCalls1 => exact firstBad_of_fails (inRange_of_outside (out.imp_left Nat.lt_one_iff.2))
  case noticeConfig1 => exact firstBad_of_fails (inRange_of_outside out)
  -- A later one.
  case callOpen2 => exact firstBad_of_passes (inRange_of_le out.1) (firstBad_of_fails (inRange_of_outside (.inr out.2)))
  case clearCalls2 => exact firstBad_of_passes (inRange_eq.2 out.1) (firstBad_of_fails (inRange_of_outside (.inr out.2)))
  case zoneRestrict => exact firstBad_of_passes rfl (firstBad_of_fails (inRange_of_outside (.inr out)))
  case zoneProbe2 =>
    exact firstBad_of_passes (inRange_of_le out.1)
      (firstBad_of_fails (inRange_of_outside (out.2.imp_left Nat.lt_one_iff.2)))
  case noticeConfig2 => exact firstBad_of_passes (inRange_eq.2 out.1) (firstBad_of_fails (inRange_of_outside (.inr out.2)))
  case noticeConfig3 =>
    obtain ⟨recipient, enable, interval⟩ := out
    exact firstBad_of_passes (inRange_eq.2 recipient)
      (firstBad_of_passes (inRange_of_le enable) (firstBad_of_fails (inRange_of_outside interval)))
  -- The name of a plan entry.
  case planWrite1 => exact firstBad_of_bank out
  case planWrite2 => exact firstBad_of_table out.1 out.2
  case planWrite3 =>
    obtain ⟨bank, table, index⟩ := out
    exact firstBad_of_index bank table index
  case planRead1 => exact firstBad_of_bank (l := []) out
  case planRead2 => exact firstBad_of_table (l := []) out.1 out.2
  case planRead3 =>
    obtain ⟨bank, table, index⟩ := out
    exact firstBad_of_index (l := []) bank table index

/-! ### ECHO and COUNTERS_READ (R160, R161) -/

/-- Settles O45: the owner answers with the payload, and a reply adds four words to its results. -/
theorem echoReturnsWords : Obligations.EchoReturnsWords :=
  ⟨fun _ _ _ offered => running_takeRequest offered (decide_eq_true rfl) ownEcho,
    fun r address full => by rw [r.words_length, full]⟩

/-- Settles O46: the owner reads the counters of the state in which the request has been counted, before any clearing. -/
theorem countersReadReports : Obligations.CountersReadReports := by
  intro s r rest clear offered one word
  obtain ⟨reads, passes⟩ := wordFlag_flagWord clear
  have run : exec .countersRead s =
      .next ((readCounters clear (s.taken rest)).1.answered r (readCounters clear (s.taken rest)).2) := by
    rw [← reads, ← word]
    refine running_checked offered (fun ws _ s => readCounters (wordFlag (wordAt ws 0)) s) one
      (fields := fun ws => [isFlag (wordAt ws 0)]) ?_
    simpa [word] using passes
  rw [run]
  cases clear <;> rfl

end Sys2Proof.Machine
end

section
/-! NODE_RESET: the effect on each block (R32, R67, R85, R125, R143, R162, R163). -/

namespace Sys2Proof.Machine

/-- A record at a node reset (R32). -/
theorem CallRecord.nodeReset_eq (c : CallRecord) : c.nodeReset = if c.call = none then c else ⟨c.gen + 1, none⟩ := by
  cases h : c.call <;> simp [CallRecord.nodeReset, h]

/-- What a node reset makes of the plan store: the live bank stands, a copy and a pending switch are abandoned, and the bank
that a copy was filling is EMPTY (R125). -/
theorem PlanStore.nodeReset_banks (p : PlanStore) :
    p.nodeReset.live = p.live ∧ p.nodeReset.bank p.live = p.bank p.live ∧ p.nodeReset.pending = none ∧
      p.nodeReset.copied = none ∧ (p.copied = none → p.nodeReset.otherBank = p.otherBank) ∧
      (p.copied ≠ none → p.nodeReset.otherBank = ⟨.empty, blankPlan⟩) := by
  unfold PlanStore.nodeReset
  split
  · rename_i idle
    exact ⟨rfl, rfl, rfl, rfl, fun _ => rfl, fun copying => absurd idle copying⟩
  · rename_i k copying
    have live : (p.blankOther .empty).live = p.live := p.setBank_live _ _
    have kept : (p.blankOther .empty).bank p.live = p.bank p.live := p.liveBank_setBank _
    have blank : (p.blankOther .empty).otherBank = ⟨.empty, blankPlan⟩ := p.otherBank_setBank _
    exact ⟨live, kept, rfl, rfl, fun idle => (nomatch copying.symm.trans idle), fun _ => blank⟩

/-- What a node reset makes of the notice block: an enabled one holds NODE_RESET alone, numbered 0 (R143). -/
theorem NoticeBlock.nodeReset_eq (b : NoticeBlock) :
    b.nodeReset =
      { b with
        queue := if b.enabled then [{ seq := 0#8, notice := .nodeReset, sent := false }] else []
        next := if b.enabled then 1#8 else 0#8
        lost := 0, timer := none } := by
  cases on : b.enabled <;> simp [NoticeBlock.nodeReset, NoticeBlock.append, on]

/-- Key-up edges, a switch and a copy step are abandoned; everything else stays due (log 13). -/
theorem Task.survivesReset_iff (x : Task) :
    Task.survivesReset x = true ↔ (∀ k, x ≠ .keyUp k) ∧ x ≠ .switchTake ∧ x ≠ .copyStep := by
  cases x <;> simp [Task.survivesReset]

/-- NODE_RESET outside a hardware reset (R162). -/
theorem exec_nodeReset {s : State} {r : Request} {rest : List Request} (offered : s.Offers 66#8 r rest) (empty : r.len = 0) :
    exec .nodeReset s = .next ((s.taken rest).nodeReset.answered r ⟨.ok, []⟩) :=
  running_checked offered (fun _ _ s => (s.nodeReset, Answer.okWith [])) empty (fields := noFields) nofun

/-- Settles O47, block by block of the state that the node reset leaves. -/
theorem nodeResetEffects : Obligations.NodeResetEffects := by
  intro s r rest offered empty
  obtain ⟨live, bank, pending, copied, idle, copying⟩ := s.plans.nodeReset_banks
  refine ⟨_, exec_nodeReset offered empty, fun i => ?records, rfl, rfl, rfl, fun z => Table.get_fill _ z, fun z => ?mixers,
    live, bank, pending, copied, idle, copying, s.notices.nodeReset_eq, rfl, rfl, fun x => ?due, offered.running,
    rfl, rfl, rfl, rfl, rfl, rfl⟩
  case records => exact (Table.get_update _ _ i).trans (CallRecord.nodeReset_eq _)
  case mixers =>
    rw [State.nodeReset, Table.get_update]
    exact ⟨rfl, rfl, rfl⟩
  case due => exact List.mem_filter.trans (and_congr_right fun _ => Task.survivesReset_iff x)

end Sys2Proof.Machine
end

section
/-! The trunk receiver: the judgements of Table 8-1, SYNC_FOUND, and the receiver's conditions (R169 to R171, R176, R178). -/

namespace Sys2Proof.Machine

namespace Receiver

variable {r : Receiver} {n : BitVec 16} {k m : Nat}

/-! ### The judgement by the state of the link (R171, Table 8-1) -/

/-- Losing the alignment resumes the hunt where the missing sync was due (R171, R176). -/
theorem lose_eq (r : Receiver) :
    r.lose = { r with link := .search, alignment := none, hunt := (r.alignment.map (· - 2152)).getD r.hunt,
                      losses := min (r.losses + 1) 65535 } := by
  unfold lose
  cases r.alignment <;> rfl

/-- In SEARCH no frame is judged. -/
theorem judge_of_search (h : r.link = .search) (present : Bool) : r.judge present n = ⟨r, false, false, []⟩ := by
  simp only [judge, h]

/-- A good frame in CONFIRM counts, and the fourth locks. -/
theorem judge_present_of_confirm (h : r.link = .confirm k) :
    r.judge true n =
      if k + 1 < 4 then ⟨r.advance (.confirm (k + 1)), false, false, []⟩
      else ⟨r.accept n, true, true, [.linkLocked]⟩ := by
  simp only [judge, h, if_true]

/-- A missing sync in CONFIRM loses the alignment. -/
theorem judge_missing_of_confirm (h : r.link = .confirm k) :
    r.judge false n = ⟨r.lose, false, false, [.linkSearch]⟩ := by
  simp only [judge, h, Bool.false_eq_true, if_false]

/-- A good frame in LOCKED is accepted. -/
theorem judge_present_of_locked (h : r.link = .locked) : r.judge true n = ⟨r.accept n, true, true, []⟩ := by
  simp only [judge, h, if_true]

/-- A missing sync in LOCKED slips. -/
theorem judge_missing_of_locked (h : r.link = .locked) :
    r.judge false n = ⟨{ r.advance (.slip 0) with slips := satInc r.slips }, true, false, []⟩ := by
  simp only [judge, h, Bool.false_eq_true, if_false]

/-- A good frame in SLIP locks again. -/
theorem judge_present_of_slip (h : r.link = .slip m) : r.judge true n = ⟨r.accept n, true, true, [.linkLocked]⟩ := by
  simp only [judge, h, if_true]

/-- A missing sync in SLIP counts on, and at a count of 2 loses the alignment. -/
theorem judge_missing_of_slip (h : r.link = .slip m) :
    r.judge false n =
      if m < 2 then ⟨r.advance (.slip (m + 1)), true, false, []⟩ else ⟨r.lose, true, false, [.linkSearch]⟩ := by
  simp only [judge, h, Bool.false_eq_true, if_false]

/-! ### The receiver's conditions (R169) -/

/-- Keeping the alignment keeps the conditions, when the new state of the link has its own. -/
theorem Wf.advance (h : r.Wf) (held : r.link ≠ .search) {link : LinkState} (found : link ≠ .search)
    (confirms : ∀ k, link = .confirm k → k ≤ 3) (slips : ∀ m, link = .slip m → m ≤ 2)
    (numbered : link.freeRuns = false → r.link.freeRuns = false) : (r.advance link).Wf where
  aligned := iff_of_true (by rw [Receiver.advance, Option.isSome_map]; exact h.aligned.2 held) found
  confirmCount := confirms
  missCount := slips
  numbered off := h.numbered (numbered off)
  slipsBound := h.slipsBound
  lossesBound := h.lossesBound

/-- A usable frame gives the receiver a number (R178). -/
theorem Wf.accept (h : r.Wf) (held : r.link ≠ .search) (n : BitVec 16) : (r.accept n).Wf where
  aligned := iff_of_true (by rw [Receiver.accept, Receiver.advance, Option.isSome_map]; exact h.aligned.2 held) nofun
  confirmCount := nofun
  missCount := nofun
  numbered _ := rfl
  slipsBound := h.slipsBound
  lossesBound := h.lossesBound

/-- In SEARCH without an alignment only the counters' bounds are left to hold. -/
theorem wf_of_search (link : r.link = .search) (lost : r.alignment = none) (slips : r.slips ≤ 65535)
    (losses : r.losses ≤ 65535) : r.Wf where
  aligned := by simp [link, lost]
  confirmCount := by simp [link]
  missCount := by simp [link]
  numbered off := by simp [link, LinkState.freeRuns] at off
  slipsBound := slips
  lossesBound := losses

/-- Losing the alignment counts a loss (R176). -/
theorem Wf.lose (h : r.Wf) : r.lose.Wf := wf_of_search rfl rfl h.slipsBound (Nat.min_le_right _ _)

/-- A judgement keeps the receiver's conditions. -/
theorem Wf.judge (h : r.Wf) (present : Bool) (n : BitVec 16) : (r.judge present n).receiver.Wf := by
  cases hl : r.link with
  | search => rw [judge_of_search hl]; exact h
  | confirm k =>
    have held : r.link ≠ .search := by simp [hl]
    cases present with
    | false => rw [judge_missing_of_confirm hl]; exact h.lose
    | true =>
      rw [judge_present_of_confirm hl]
      split
      · rename_i few
        exact h.advance held nofun (fun j e => by cases e; omega) nofun nofun
      · exact h.accept held n
  | locked =>
    have held : r.link ≠ .search := by simp [hl]
    cases present with
    | true => rw [judge_present_of_locked hl]; exact h.accept held n
    | false =>
      rw [judge_missing_of_locked hl]
      have slipping : (r.advance (.slip 0)).Wf :=
        h.advance held nofun nofun (fun m e => by cases e; omega) fun _ => by rw [hl]; rfl
      exact { slipping with slipsBound := Nat.min_le_right _ _ }
  | slip m =>
    have held : r.link ≠ .search := by simp [hl]
    cases present with
    | true => rw [judge_present_of_slip hl]; exact h.accept held n
    | false =>
      rw [judge_missing_of_slip hl]
      split
      · exact h.advance held nofun nofun (fun j e => by cases e; omega) fun _ => by rw [hl]; rfl
      · exact h.lose

/-- A sync found in SEARCH, at a place not before the hunt's, enters CONFIRM (R170). -/
theorem findSync_of_found {place : Nat} {window : BitVec 16} (h : r.link = .search) (pattern : window = 0xF350#16)
    (reached : r.hunt ≤ place) :
    r.findSync place window = { r with link := .confirm 0, alignment := some (place + 2152) } := by
  simp only [findSync, h]
  exact if_pos ⟨pattern, reached⟩

/-- Anything else leaves the receiver as it is (R170). -/
theorem findSync_of_missed {place : Nat} {window : BitVec 16}
    (h : r.link ≠ .search ∨ window ≠ 0xF350#16 ∨ place < r.hunt) : r.findSync place window = r := by
  cases hl : r.link with
  | search =>
    simp only [findSync, hl]
    refine if_neg fun ⟨pattern, reached⟩ => ?_
    exact h.elim (· hl) (·.elim (· pattern) (Nat.not_lt.2 reached))
  | confirm k => simp only [findSync, hl]
  | locked => simp only [findSync, hl]
  | slip m => simp only [findSync, hl]

/-- SYNC_FOUND keeps the receiver's conditions. -/
theorem Wf.findSync (h : r.Wf) (place : Nat) (window : BitVec 16) : (r.findSync place window).Wf := by
  by_cases found : r.link = .search ∧ window = 0xF350#16 ∧ r.hunt ≤ place
  · obtain ⟨search, pattern, reached⟩ := found
    rw [findSync_of_found search pattern reached]
    exact ⟨by simp, by simp, by simp, by simp [LinkState.freeRuns], h.slipsBound, h.lossesBound⟩
  · rw [findSync_of_missed]
    · exact h
    · simpa only [not_and_or, Nat.not_le] using found

end Receiver

/-! ### The statements -/

/-- Settles O9, by the state of the link and whether the sync is present. -/
theorem judgementFollowsTable : Obligations.JudgementFollowsTable := by
  intro r n onward searching
  have lost : r.lose = searching := r.lose_eq
  refine ⟨fun k confirm few => ?_, fun k confirm enough => ?_, fun k confirm => ?_, fun locked => ?_, fun locked => ?_,
    fun m slip => ?_, fun m slip few => ?_, fun m slip enough => ?_⟩
  · rw [Receiver.judge_present_of_confirm confirm, if_pos few]; rfl
  · rw [Receiver.judge_present_of_confirm confirm, if_neg (Nat.not_lt.2 enough)]; rfl
  · rw [Receiver.judge_missing_of_confirm confirm, lost]
  · rw [Receiver.judge_present_of_locked locked]; rfl
  · rw [Receiver.judge_missing_of_locked locked]; rfl
  · rw [Receiver.judge_present_of_slip slip]; rfl
  · rw [Receiver.judge_missing_of_slip slip, if_pos few]; rfl
  · rw [Receiver.judge_missing_of_slip slip, if_neg (Nat.not_lt.2 enough), lost]

/-- Outside a hardware reset a command does what its function does. -/
theorem running_of_awake {s : State} (awake : s.inReset = false) (f : State → State) : s.running f = .next (f s) := by
  simp [running_eq_next, awake]

/-- Settles O8, by whether the receiver finds the pattern. -/
theorem syncFoundEntersConfirm : Obligations.SyncFoundEntersConfirm := by
  intro place window s awake
  have run : exec (.syncFound place window) s = .next { s with receiver := s.receiver.findSync place window } :=
    running_of_awake awake fun s => { s with receiver := s.receiver.findSync place window }
  refine ⟨fun search pattern reached => ?_, fun missed => ?_⟩
  · rw [run, Receiver.findSync_of_found search pattern reached]
  · rw [run, Receiver.findSync_of_missed missed]

/-- Settles O6, block by block of the state that `State.afterReset` loads. -/
theorem hardwareResetStartsLink : Obligations.HardwareResetStartsLink := by
  intro straps s
  refine ⟨_, rfl, ⟨rfl, rfl, rfl, rfl, rfl, rfl, rfl, rfl⟩, ⟨rfl, rfl, rfl, rfl, rfl, rfl, rfl, rfl⟩,
    ⟨rfl, rfl, rfl, rfl, rfl, rfl, rfl, rfl, rfl⟩, rfl, rfl, ?_⟩
  show (!(decide (1 ≤ straps.toNat) && decide (straps.toNat ≤ 59))) = true ↔ _
  rw [Bool.not_eq_true', Bool.and_eq_false_iff, decide_eq_false_iff_not, decide_eq_false_iff_not]
  omega

end Sys2Proof.Machine
end

section
/-! Every step keeps the receiver's conditions and every trunk source's (O59): the observations, and what a request leaves of
the blocks beside the call table, the zones, the plans and the notices (R87 to R89, R96, R169). -/

namespace Sys2Proof.Machine

/-! ### Trunk sources (R87) -/

namespace TrunkRecord

variable {t : TrunkRecord}

/-- An ABSENT source runs its presence only. -/
theorem wf_of_absent (state : t.state = .absent) (presence : t.presence < 48) (key : t.key = 0) (release : t.release = 0)
    (absence : t.absence = 0) : t.Wf := by
  constructor <;> simp_all [Config.keyLimit, Config.releaseLimit, Config.absenceLimit, Config.presenceLimit]

/-- A QUIET source runs its key and its absence. -/
theorem wf_of_quiet (state : t.state = .quiet) (presence : t.presence = 0) (key : t.key < 96) (release : t.release = 0)
    (absence : t.absence < 2400) : t.Wf := by
  constructor <;> simp_all [Config.keyLimit, Config.releaseLimit, Config.absenceLimit, Config.presenceLimit]

/-- A KEYED source runs its release, and its absence no longer than that. -/
theorem wf_of_keyed (state : t.state = .keyed) (presence : t.presence = 0) (key : t.key = 0) (release : t.release < 96)
    (absence : t.absence ≤ t.release) : t.Wf := by
  constructor <;> simp_all [Config.keyLimit, Config.releaseLimit, Config.absenceLimit, Config.presenceLimit]
  omega

/-- With every run 0 a source is well formed in every state. -/
theorem clearRuns_wf (t : TrunkRecord) : t.clearRuns.Wf := by
  cases hs : t.state with
  | absent => exact wf_of_absent hs (Nat.succ_pos _) rfl rfl rfl
  | quiet => exact wf_of_quiet hs rfl (Nat.succ_pos _) rfl (Nat.succ_pos _)
  | keyed => exact wf_of_keyed hs rfl rfl (Nat.succ_pos _) (Nat.le_refl _)

/-- An observation keeps a source well formed: each run either counts on below its limit or starts again at 0 (R89). -/
theorem Wf.observe (h : t.Wf) (s : Trunk) (present keyed : Bool) : (t.observe s present keyed).1.Wf := by
  cases hs : t.state with
  | absent =>
    obtain ⟨key, release, absence⟩ := h.inAbsent hs
    cases present with
    | true =>
      rw [observe_present_of_absent s keyed hs]
      split
      · rename_i below
        exact wf_of_absent hs below key release absence
      · exact h
    | false =>
      rw [observe_lost_of_absent s keyed hs]
      exact wf_of_absent hs (Nat.succ_pos _) key release absence
  | quiet =>
    obtain ⟨presence, release⟩ := h.inQuiet hs
    cases present with
    | true =>
      rw [observe_present_of_quiet s keyed hs]
      split
      · split
        · rename_i below
          exact wf_of_quiet hs presence below release (Nat.succ_pos _)
        · exact wf_of_keyed rfl rfl rfl (Nat.succ_pos _) (Nat.le_refl _)
      · exact wf_of_quiet hs presence (Nat.succ_pos _) release (Nat.succ_pos _)
    | false =>
      rw [observe_lost_of_quiet s keyed hs]
      split
      · rename_i below
        exact wf_of_quiet hs presence (Nat.succ_pos _) release below
      · exact wf_of_absent rfl (Nat.succ_pos _) rfl rfl rfl
  | keyed =>
    obtain ⟨presence, key, shorter⟩ := h.inKeyed hs
    have short : t.release < 96 := h.releaseBound
    cases present with
    | true =>
      rw [observe_present_of_keyed s keyed hs]
      split
      · exact wf_of_keyed hs presence key (Nat.succ_pos _) (Nat.le_refl _)
      · split
        · rename_i below
          exact wf_of_keyed hs presence key below (Nat.zero_le _)
        · exact wf_of_quiet rfl rfl (Nat.succ_pos _) rfl (Nat.succ_pos _)
    | false =>
      rw [observe_lost_of_keyed s keyed hs]
      split
      · rename_i below
        exact wf_of_keyed hs presence key below (Nat.succ_le_succ shorter)
      · have bound : t.absence + 1 < 2400 := by omega
        exact wf_of_quiet rfl presence (Nat.succ_pos _) rfl bound

/-- The observation that confirms a source's presence keeps it well formed (R89, R96). -/
theorem Wf.takePresence (h : t.Wf) (s : Trunk) (keyed seen seenKeyed : Bool) :
    (t.takePresence s keyed seen seenKeyed).Wf := by
  unfold TrunkRecord.takePresence
  split
  · split
    · exact h.observe s seen seenKeyed
    · unfold TrunkRecord.confirmPresence
      split
      · exact wf_of_quiet rfl rfl (Nat.succ_pos _) rfl (Nat.succ_pos _)
      · exact h
      · exact h
  · exact h
  · exact h

end TrunkRecord

/-! ### What a request leaves (R151) -/

/-- The blocks that a request leaves alone: the present boundary, the sources, the transmitter, the node address and the
reset. Of the receiver it can clear the two counters (COUNTERS_READ), and it adds nothing to the tasks that are due. -/
structure State.Requested (s t : State) : Prop where
  now : t.now = s.now
  sources : t.sources = s.sources
  out : t.out = s.out
  address : t.address = s.address
  inReset : t.inReset = s.inReset
  receiver : t.receiver = s.receiver ∨ t.receiver = { s.receiver with slips := 0, losses := 0 }
  due : t.due = s.due ∨ t.due = s.due.filter Task.survivesReset

section Requests

variable {s t : State}

/-- A state that differs in other blocks only. -/
theorem State.Requested.of_eq (now : t.now = s.now) (sources : t.sources = s.sources) (out : t.out = s.out)
    (address : t.address = s.address) (inReset : t.inReset = s.inReset) (receiver : t.receiver = s.receiver)
    (due : t.due = s.due) : s.Requested t :=
  ⟨now, sources, out, address, inReset, .inl receiver, .inl due⟩

/-- Every act of an owner leaves those blocks. -/
theorem OwnerAct.requested {r : Request} (act : OwnerAct r s t) : s.Requested t := by
  have same : s.Requested s := .of_eq rfl rfl rfl rfl rfl rfl rfl
  cases act with
  | nothing => exact same
  | clears | configures => exact .of_eq rfl rfl rfl rfl rfl rfl rfl
  | counts clear => cases clear with
    | false => exact same
    | true => exact ⟨rfl, rfl, rfl, rfl, rfl, .inr rfl, .inl rfl⟩
  | resets => exact ⟨rfl, rfl, rfl, rfl, rfl, .inl rfl, .inr rfl⟩
  | opens => unfold openCall; (repeat' split) <;> exact .of_eq rfl rfl rfl rfl rfl rfl rfl
  | releases => unfold releaseCall; split <;> exact .of_eq rfl rfl rfl rfl rfl rfl rfl
  | retargets => unfold retargetCall; (repeat' split) <;> exact .of_eq rfl rfl rfl rfl rfl rfl rfl
  | restricts => unfold restrictZones; split <;> exact .of_eq rfl rfl rfl rfl rfl rfl rfl
  | writes => unfold writePlan; (repeat' split) <;> exact .of_eq rfl rfl rfl rfl rfl rfl rfl
  | erases => unfold erasePlan; (repeat' split) <;> exact .of_eq rfl rfl rfl rfl rfl rfl rfl
  | seals => unfold sealPlan; (repeat' split) <;> exact .of_eq rfl rfl rfl rfl rfl rfl rfl
  | unseals => unfold unsealPlan; (repeat' split) <;> exact .of_eq rfl rfl rfl rfl rfl rfl rfl
  | copies => unfold copyPlan; split <;> exact .of_eq rfl rfl rfl rfl rfl rfl rfl
  | switches => unfold switchPlan; (repeat' split) <;> exact .of_eq rfl rfl rfl rfl rfl rfl rfl
  | acks => unfold ackNotices; split <;> exact .of_eq rfl rfl rfl rfl rfl rfl rfl

/-- The request processor, whatever it does with the oldest request (R151). -/
theorem State.requested_takeRequest (s : State) (isKind : BitVec 8 → Bool) (kind : BitVec 8) :
    s.Requested (s.takeRequest isKind (ownerOf kind)) := by
  obtain e | ⟨r, rest, -, -, -, ⟨a, -, e⟩ | ⟨-, e⟩⟩ := takeRequest_cases s isKind (ownerOf kind) <;> rw [e]
  · exact .of_eq rfl rfl rfl rfl rfl rfl rfl
  · exact .of_eq rfl rfl rfl rfl rfl rfl rfl
  · exact { (ownerOf_act kind r (s.taken rest)).requested with }

/-- The processor's own try. -/
theorem State.requested_takeOldest (s : State) : s.Requested s.takeOldest := by
  obtain ⟨kind, e⟩ := takeOldest_eq s
  rw [e]
  exact s.requested_takeRequest _ kind

/-- A request keeps the receiver's conditions. -/
theorem State.Requested.receiver_wf (k : s.Requested t) (h : s.receiver.Wf) : t.receiver.Wf := by
  obtain e | e := k.receiver <;> rw [e]
  · exact h
  · exact { h with slipsBound := Nat.zero_le _, lossesBound := Nat.zero_le _ }

end Requests

/-! ### Steps -/

/-- The receiver and every trunk source are well formed (R87, R169). -/
structure State.LinkWf (s : State) : Prop where
  receiver : s.receiver.Wf
  trunks : ∀ k, (s.sources.trunks.get k).Wf

section Steps

variable {s t : State}

/-- What changes neither block keeps both. -/
theorem State.LinkWf.of_eq (h : s.LinkWf) (receiver : t.receiver = s.receiver) (sources : t.sources = s.sources) :
    t.LinkWf :=
  ⟨receiver ▸ h.receiver, sources ▸ h.trunks⟩

/-- Every operation keeps both blocks' conditions. -/
theorem kept_linkWf : Kept State.LinkWf where
  due _ _ h := h.of_eq rfl rfl
  resets _ _ _ := by
    obtain ⟨-, -, -, -, -, receiver, trunks⟩ := invariantsHoldAtReset
    exact ⟨receiver, trunks⟩
  asserts _ h := ⟨Receiver.wf_of_search rfl rfl h.receiver.slipsBound h.receiver.lossesBound, h.trunks⟩
  finds _ place window h := ⟨h.receiver.findSync place window, h.trunks⟩
  judges _ present n h := ⟨h.receiver.judge present n, h.trunks⟩
  opens _ _ _ _ h := h.of_eq rfl rfl
  locks _ h := h.of_eq rfl rfl
  searches s h := h.of_eq s.enterSearch_receiver s.enterSearch_sources
  observes s h := ⟨h.receiver, fun k => by
    rw [State.observeStage, Table.get_tabulate]
    exact (h.trunks k).observe k _ _⟩
  ramps _ h := h.of_eq rfl rfl
  controls s h := h.of_eq s.controlStage_receiver s.controlStage_sources
  sends _ h := ⟨h.receiver, h.trunks⟩
  presences s k keyed h := ⟨h.receiver, fun j => by
    rw [State.takePresence, Table.get_modify]
    split
    · exact (h.trunks j).takePresence k keyed _ _
    · exact h.trunks j⟩
  keyUps s k h := h.of_eq (s.takeKeyUp_receiver k) (s.takeKeyUp_sources k)
  keyDowns s k h := h.of_eq (s.takeKeyDown_receiver k) (s.takeKeyDown_sources k)
  losses _ _ h := h.of_eq rfl rfl
  waits s r h := h.of_eq (s.takeDeadline_receiver r _ _) (s.takeDeadline_sources r _ _)
  holds s r h := h.of_eq (s.takeDeadline_receiver r _ _) (s.takeDeadline_sources r _ _)
  durations s r h := h.of_eq (s.takeDeadline_receiver r _ _) (s.takeDeadline_sources r _ _)
  leadIns s z h := h.of_eq (s.takeLeadInEnd_receiver z) (s.takeLeadInEnd_sources z)
  retries s h := h.of_eq s.takeRetryEnd_receiver s.takeRetryEnd_sources
  copySteps _ h := h.of_eq rfl rfl
  copies s h := h.of_eq s.takeCopyEnd_receiver s.takeCopyEnd_sources
  fades _ _ _ h := h.of_eq rfl rfl
  chimes _ _ h := h.of_eq rfl rfl
  tones _ _ h := ⟨h.receiver, h.trunks⟩
  banks s _ _ h := ⟨h.receiver, fun k => by
    rw [State.switchBanks, SourceBlock.switchPlan, Table.get_update]
    exact TrunkRecord.clearRuns_wf _⟩
  switchZones _ _ h := h.of_eq rfl rfl
  begins s h := h.of_eq s.beginReply_receiver s.beginReply_sources
  notices s held h := h.of_eq (s.beginNotice_receiver held) (s.beginNotice_sources held)
  requests s isKind kind h :=
    have k := s.requested_takeRequest isKind kind
    ⟨k.receiver_wf h.receiver, k.sources ▸ h.trunks⟩

/-- Settles O59: the judgements and SYNC_FOUND keep the receiver's conditions, the observations and a plan switch every
source's; everything else that a step does leaves both blocks, or clears the receiver's counters. -/
theorem stepKeepsReceiverAndSources : Obligations.StepKeepsReceiverAndSources := by
  intro s t receiver trunks h
  obtain ⟨receiver', trunks'⟩ := kept_linkWf.step (fun _ _ h => h.of_eq rfl rfl) ⟨receiver, trunks⟩ h
  exact ⟨receiver', trunks'⟩

end Steps

end Sys2Proof.Machine
end

section
/-! What the work of a boundary does to the link and to the line: every task, move and request but the build and a plan switch
leaves both alone, so a property that these two keep holds through a boundary and through what is settled before it
(R172, R173, R179). -/

namespace Sys2Proof.Machine

/-! ### Work that leaves the line alone -/

/-- Work that leaves the frames on the line and the link alone: it can change the control words under construction, clear
the receiver's counters, and make due or cross off any task but a build. -/
structure State.KeepsLine (s t : State) : Prop where
  now : t.now = s.now
  address : t.address = s.address
  inReset : t.inReset = s.inReset
  receiver : t.receiver = s.receiver ∨ t.receiver = { s.receiver with slips := 0, losses := 0 }
  out : t.out = { s.out with words := t.out.words }
  builds : t.due.count .build = s.due.count .build

namespace State.KeepsLine

variable {s t u : State}

/-- Doing nothing leaves the line alone. -/
theorem refl (s : State) : s.KeepsLine s := ⟨rfl, rfl, rfl, .inl rfl, rfl, rfl⟩

/-- Work after work leaves the line alone. -/
theorem trans (h : s.KeepsLine t) (k : t.KeepsLine u) : s.KeepsLine u where
  now := k.now.trans h.now
  address := k.address.trans h.address
  inReset := k.inReset.trans h.inReset
  receiver := by
    obtain e | e := k.receiver <;> obtain e' | e' := h.receiver <;> rw [e, e'] <;> simp
  out := by rw [k.out, h.out]
  builds := k.builds.trans h.builds

/-- Work that leaves the transmitter, and adds tasks that are no builds. -/
theorem of_more {new : List Task} (fresh : .build ∉ new) (now : t.now = s.now) (address : t.address = s.address)
    (inReset : t.inReset = s.inReset) (receiver : t.receiver = s.receiver) (out : t.out = s.out)
    (due : t.due = s.due ++ new) : s.KeepsLine t :=
  ⟨now, address, inReset, .inl receiver, by rw [out],
    by rw [due, List.count_append, List.count_eq_zero.2 fresh, Nat.add_zero]⟩

/-- Work that leaves the transmitter and what is due. -/
theorem of_eq (now : t.now = s.now) (address : t.address = s.address) (inReset : t.inReset = s.inReset)
    (receiver : t.receiver = s.receiver) (out : t.out = s.out) (due : t.due = s.due) : s.KeepsLine t :=
  of_more List.not_mem_nil now address inReset receiver out (due.trans (List.append_nil _).symm)

/-- Crossing off a task that is no build. -/
theorem undue (s : State) (x : Task) (other : x ≠ .build) : s.KeepsLine (s.undue x) :=
  ⟨rfl, rfl, rfl, .inl rfl, rfl, List.count_erase_of_ne other.symm⟩

/-- A task that is no build, taken if it is due. -/
theorem ifDue (s : State) (x : Task) (other : x ≠ .build) {f : State → State} (work : ∀ s : State, s.KeepsLine (f s)) :
    s.KeepsLine (s.ifDue x f) := by
  unfold State.ifDue
  split
  · exact (undue s x other).trans (work _)
  · exact refl s

/-- A request (R151). -/
theorem of_requested (h : s.Requested t) : s.KeepsLine t := by
  refine ⟨h.now, h.address, h.inReset, h.receiver, by rw [h.out], ?_⟩
  obtain e | e := h.due <;> rw [e]
  exact List.count_filter rfl

/-- The observations make no build due (R88). -/
theorem observeStage (s : State) : s.KeepsLine s.observeStage := by
  refine of_more (fun mem => ?_) rfl rfl rfl rfl rfl rfl
  obtain ⟨k, -, reported⟩ := List.mem_flatMap.1 mem
  obtain ⟨q, e⟩ | e | e | e := TrunkRecord.observe_reports _ _ _ _ _ reported <;> cases e

/-- The ramp steps make no build due (R72). -/
theorem rampStage (s : State) : s.KeepsLine s.rampStage := by
  refine of_more (fun mem => ?_) rfl rfl rfl rfl rfl rfl
  obtain ⟨z, -, ends⟩ := List.mem_flatMap.1 mem
  obtain ⟨l, e, -⟩ := (Mixer.mem_fadeEnds _ _ _).1 ends
  cases e

/-- The control stage changes the words under construction alone (R181). -/
theorem controlStage (s : State) : s.KeepsLine s.controlStage where
  now := s.controlStage_now
  address := s.controlStage_address
  inReset := s.controlStage_inReset
  receiver := .inl s.controlStage_receiver
  out := by
    cases own : s.transitOnly with
    | true => rw [State.controlStage_of_transitOnly own]
    | false => simp [State.controlStage, own]
  builds := congrArg _ s.controlStage_due

/-- Every task but the build and the switch. -/
theorem effect (x : Task) (s : State) (build : x ≠ .build) (switch : x ≠ .switchTake) : s.KeepsLine (State.effect x s) := by
  cases x with
  | build => exact absurd rfl build
  | switchTake => exact absurd rfl switch
  | observe => exact observeStage s
  | ramps => exact rampStage s
  | control => exact controlStage s
  | linkLocked | copyStep | presence | loss | fadeEnd | chimeEnd | toneEnd => exact of_eq rfl rfl rfl rfl rfl rfl
  | linkSearch =>
    exact of_eq s.enterSearch_now s.enterSearch_address s.enterSearch_inReset s.enterSearch_receiver s.enterSearch_out
      s.enterSearch_due
  | keyUp k =>
    exact of_eq (s.takeKeyUp_now k) (s.takeKeyUp_address k) (s.takeKeyUp_inReset k) (s.takeKeyUp_receiver k)
      (s.takeKeyUp_out k) (s.takeKeyUp_due k)
  | keyDown k =>
    exact of_eq (s.takeKeyDown_now k) (s.takeKeyDown_address k) (s.takeKeyDown_inReset k) (s.takeKeyDown_receiver k)
      (s.takeKeyDown_out k) (s.takeKeyDown_due k)
  | waitEnd r | holdEnd r | durationEnd r =>
    exact of_eq (s.takeDeadline_now r _ _) (s.takeDeadline_address r _ _) (s.takeDeadline_inReset r _ _)
      (s.takeDeadline_receiver r _ _) (s.takeDeadline_out r _ _) (s.takeDeadline_due r _ _)
  | leadInEnd z =>
    exact of_eq (s.takeLeadInEnd_now z) (s.takeLeadInEnd_address z) (s.takeLeadInEnd_inReset z)
      (s.takeLeadInEnd_receiver z) (s.takeLeadInEnd_out z) (s.takeLeadInEnd_due z)
  | retryEnd =>
    exact of_eq s.takeRetryEnd_now s.takeRetryEnd_address s.takeRetryEnd_inReset s.takeRetryEnd_receiver
      s.takeRetryEnd_out s.takeRetryEnd_due
  | copyEnd =>
    exact of_eq s.takeCopyEnd_now s.takeCopyEnd_address s.takeCopyEnd_inReset s.takeCopyEnd_receiver s.takeCopyEnd_out
      s.takeCopyEnd_due

/-- The losses taken before a switch's zone work (R97). -/
theorem takeLosses (s : State) (lost : List Tone) : s.KeepsLine (s.takeLosses lost) := by
  have one (g : Tone) (t : State) : t.KeepsLine (t.takeLoss (toneSource g)) := of_eq rfl rfl rfl rfl rfl rfl
  exact foldl_keeps (P := s.KeepsLine) (fun t g h => h.trans (ifDue t (.loss (toneSource g)) nofun (one g))) lost (refl s)

/-- What the build does before the frame is sent (R80, R181). -/
theorem beforeSending (s : State) :
    s.KeepsLine ((s.ifDue .ramps State.rampStage).ifDue .control State.controlStage) :=
  (ifDue s .ramps nofun rampStage).trans (ifDue _ .control nofun controlStage)

end State.KeepsLine

/-! ### What a boundary keeps -/

/-- A property of states that work off the line keeps, and that the build and the switch of the banks keep. -/
structure KeptByWork (P : State → Prop) : Prop where
  quiet : ∀ s t : State, s.KeepsLine t → P s → P t
  builds : ∀ s t : State, .build ∈ s.due → (s.undue .build).KeepsLine t → P s → P t.sendFrame
  banks : ∀ s : State, P s → P s.switchBanks

namespace KeptByWork

variable {P : State → Prop} (k : KeptByWork P) {s : State}
include k

/-- A plan switch. -/
theorem takeSwitch (lost : List Tone) (h : P s) : P (s.takeSwitch lost) := by
  unfold State.takeSwitch
  split
  · exact h
  · have losses : P (s.switchBanks.takeLosses lost) := k.quiet _ _ (.takeLosses _ lost) (k.banks s h)
    exact k.quiet (s.switchBanks.takeLosses lost) _ (.of_eq rfl rfl rfl rfl rfl rfl) losses

/-- A plan switch, taken if it is due. -/
theorem switchIfDue (lost : List Tone) (h : P s) : P (s.ifDue .switchTake fun s => s.takeSwitch lost) := by
  unfold State.ifDue
  split
  · exact k.takeSwitch lost (k.quiet _ _ (.undue s _ nofun) h)
  · exact h

/-- A task. -/
theorem perform (x : Task) (h : P s) : P (s.perform x) := by
  by_cases build : x = .build
  · subst build
    by_cases due : .build ∈ s.due
    · rw [State.perform_due due]
      exact k.builds s _ due (.beforeSending _) h
    · rw [State.perform_undue due]
      exact h
  · by_cases switch : x = .switchTake
    · subst switch
      exact k.switchIfDue [] h
    · exact k.quiet _ _ (.ifDue s x build fun t => .effect x t build switch) h

/-- Some tasks. -/
theorem performAll (xs : List Task) (h : P s) : P (s.performAll xs) := foldl_keeps (fun _ x h => k.perform x h) xs h

/-- The request processor's try. -/
theorem takeOldest (h : P s) : P s.takeOldest := k.quiet _ _ (.of_requested s.requested_takeOldest) h

/-- A move of a boundary's order. -/
theorem makeMove (m : Move) (h : P s) : P (s.makeMove m) := by
  cases m with
  | perform x => exact k.perform x h
  | switchAfterLosses lost => exact k.switchIfDue lost h
  | request => exact k.takeOldest h

/-- The request processor's run. -/
theorem processRequests (n : Nat) (h : P s) : P (State.processRequests n s) := by
  induction n generalizing s with
  | zero => exact h
  | succ n ih => exact ih (k.takeOldest h)

/-- What happens at the latest before a boundary. -/
theorem settleBoundary (h : P s) : P s.settleBoundary := k.processRequests _ (k.performAll _ (k.performAll _ h))

/-- The moves of an order. -/
theorem makeMoves (order : List Move) (h : P s) : P (order.foldl State.makeMove s) :=
  foldl_keeps (fun _ m h => k.makeMove m h) order h

/-- A boundary, once it is open. -/
theorem boundary {frame : Frame} {usable : Bool} {entered : List Task} (order : List Move)
    (h : P (s.openBoundary frame usable entered)) : P (s.boundary frame usable entered order) :=
  k.performAll _ (k.makeMoves order h)

end KeptByWork

/-! ### The link, through a boundary -/

/-- The link, the node address and the reset as they were: the receiver can have had its counters cleared. -/
structure State.SameLink (s t : State) : Prop where
  address : t.address = s.address
  inReset : t.inReset = s.inReset
  link : t.receiver.link = s.receiver.link
  alignment : t.receiver.alignment = s.receiver.alignment
  frameNumber : t.receiver.frameNumber = s.receiver.frameNumber

/-- What the link depends on is kept by all work. -/
theorem keptByWork_sameLink (s : State) : KeptByWork s.SameLink := by
  have quiet : ∀ t u : State, t.KeepsLine u → s.SameLink t → s.SameLink u := fun t u k h => by
    have same : u.receiver.link = t.receiver.link ∧ u.receiver.alignment = t.receiver.alignment ∧
        u.receiver.frameNumber = t.receiver.frameNumber := by
      obtain e | e := k.receiver <;> rw [e] <;> exact ⟨rfl, rfl, rfl⟩
    obtain ⟨link, alignment, frameNumber⟩ := same
    exact ⟨k.address.trans h.address, k.inReset.trans h.inReset, link.trans h.link, alignment.trans h.alignment,
      frameNumber.trans h.frameNumber⟩
  refine ⟨quiet, fun t u _ k h => ?_, fun _ h => { h with }⟩
  exact { quiet (t.undue .build) u k { h with } with }

/-- What is settled before a boundary leaves the link. -/
theorem State.sameLink_settleBoundary (s : State) : s.SameLink s.settleBoundary :=
  (keptByWork_sameLink s).settleBoundary ⟨rfl, rfl, rfl, rfl, rfl⟩

/-- A boundary leaves the link. -/
theorem State.sameLink_boundary (s : State) (frame : Frame) (usable : Bool) (entered : List Task) (order : List Move) :
    s.SameLink (s.boundary frame usable entered order) :=
  (keptByWork_sameLink s).boundary order ⟨rfl, rfl, rfl, rfl, rfl⟩

/-! ### The next output number, before a boundary -/

/-- No build is due, and the next output number is `n`. -/
def State.NextFrame (n : BitVec 16) (s : State) : Prop := .build ∉ s.due ∧ s.out.next = n

/-- A generator's loss, the one kind of task that a switch of the banks makes due, is no build (R97). -/
theorem State.switchBanks_builds (s : State) : s.switchBanks.due.count .build = s.due.count .build := by
  have fresh : ∀ gs : List Tone, Task.build ∉ gs.map fun g => Task.loss (toneSource g) := by simp
  exact (List.count_append ..).trans (by rw [List.count_eq_zero.2 (fresh _), Nat.add_zero])

/-- Without a build the next output number stays (R179). -/
theorem keptByWork_nextFrame (n : BitVec 16) : KeptByWork (State.NextFrame n) where
  quiet s t k h := by
    obtain ⟨idle, next⟩ := h
    refine ⟨?_, by rw [k.out]; exact next⟩
    rw [← List.count_eq_zero] at idle ⊢
    exact k.builds.trans idle
  builds s t due _ h := absurd due h.1
  banks s h := by
    obtain ⟨idle, next⟩ := h
    refine ⟨?_, next⟩
    rw [← List.count_eq_zero] at idle ⊢
    exact s.switchBanks_builds.trans idle

/-! ### The output frame of a boundary (R179) -/

/-- The frame that is being sent is numbered `n`, and the next one `n + 1`. -/
def Transmitter.Begun (o : Transmitter) (n : BitVec 16) : Prop :=
  (∃ f, o.sending = some f ∧ f.number = n) ∧ o.next = n + 1#16

/-- The state at a boundary that hands on `frame` and begins the output frame numbered `n`: a build that is still due will
number its frame `n`, one has been begun when none is due, and a frame kept for a switch (R97; log 12) has the same number.
Without a usable frame, whose number would be taken again, there is one build at most. -/
structure State.AtBoundary (frame : Frame) (usable : Bool) (n : BitVec 16) (s : State) : Prop where
  handedOn : s.now.frame = frame
  isUsable : s.now.usable = usable
  numbered : .build ∈ s.due → s.outputNumber = n
  once : usable = false → s.due.count .build ≤ 1
  begun : .build ∈ s.due ∨ s.out.Begun n
  switched : ∀ g, s.out.switched = some g → g.number = n

section Boundary

variable {frame : Frame} {usable : Bool} {n : BitVec 16} {s t : State}

/-- A frame kept for a switch has the number of the frame begun (R97; log 12). -/
theorem State.switchedFrame_number {g : Frame} (h : s.switchedFrame = some g) : g.number = s.outputNumber := by
  unfold State.switchedFrame at h
  split at h
  · cases h; rfl
  · cases h

/-- Work off the line. -/
theorem State.AtBoundary.quiet (h : s.AtBoundary frame usable n) (k : s.KeepsLine t) : t.AtBoundary frame usable n := by
  have due : Task.build ∈ t.due ↔ .build ∈ s.due := by rw [← List.count_pos_iff, k.builds, List.count_pos_iff]
  have number : t.outputNumber = s.outputNumber := by rw [State.outputNumber, k.now, k.out]; rfl
  refine ⟨k.now ▸ h.handedOn, k.now ▸ h.isUsable, fun d => number.trans (h.numbered (due.1 d)), fun off => ?_, ?_, ?_⟩
  · exact k.builds ▸ h.once off
  · refine h.begun.imp due.2 fun b => ?_
    rw [k.out]
    exact b
  · rw [k.out]
    exact h.switched

/-- The build begins the frame with the boundary's number. -/
theorem State.AtBoundary.builds (h : s.AtBoundary frame usable n) (due : .build ∈ s.due)
    (k : (s.undue .build).KeepsLine t) : t.sendFrame.AtBoundary frame usable n ∧ t.sendFrame.out.Begun n := by
  have now : t.now = s.now := k.now
  have number : t.outputNumber = n := by
    rw [State.outputNumber, now, k.out]
    exact h.numbered due
  have begun : t.sendFrame.out.Begun n := ⟨⟨_, rfl, number⟩, congrArg (· + 1#16) number⟩
  have count : t.sendFrame.due.count .build = s.due.count .build - 1 := by
    have fresh : Task.build ∉ chimeEnds t.mixers ++ toneEnds t.sources.tones := by
      simp [chimeEnds, toneEnds]
    rw [State.sendFrame, List.append_assoc, List.count_append, List.count_eq_zero.2 fresh, Nat.add_zero, k.builds]
    exact List.count_erase_self
  refine ⟨⟨now ▸ h.handedOn, now ▸ h.isUsable, fun left => ?_, fun off => ?_, .inr begun, fun g kept => ?_⟩, begun⟩
  · have again : usable = true := by
      by_contra off
      have one := h.once (by simpa using off)
      rw [← List.count_pos_iff] at left
      omega
    have taken : t.sendFrame.outputNumber = t.outputNumber := by
      rw [State.outputNumber, State.outputNumber, State.sendFrame_now, now, h.isUsable, again]
      rfl
    exact taken.trans number
  · have one := h.once off
    omega
  · exact (State.switchedFrame_number kept).trans number

/-- A switch sends a frame of the same number in the place of one begun (R97; log 12). -/
theorem State.AtBoundary.banks (h : s.AtBoundary frame usable n) : s.switchBanks.AtBoundary frame usable n := by
  have due : Task.build ∈ s.switchBanks.due ↔ .build ∈ s.due := by
    rw [← List.count_pos_iff, s.switchBanks_builds, List.count_pos_iff]
  refine ⟨h.handedOn, h.isUsable, fun d => h.numbered (due.1 d), fun off => s.switchBanks_builds ▸ h.once off, ?_, nofun⟩
  refine h.begun.imp due.2 fun ⟨sent, next⟩ => ⟨?_, next⟩
  rw [State.switchBanks_out, Transmitter.atSwitch]
  cases kept : s.out.switched with
  | none => exact sent
  | some g => exact ⟨g, rfl, h.switched g kept⟩

/-- All work of a boundary keeps to its frame and number. -/
theorem keptByWork_atBoundary (frame : Frame) (usable : Bool) (n : BitVec 16) :
    KeptByWork (State.AtBoundary frame usable n) where
  quiet _ _ k h := h.quiet k
  builds _ _ due k h := (h.builds due k).1
  banks _ h := h.banks

/-- The builds that are due once a boundary is open: one more than before (R179). -/
theorem State.openBoundary_builds (s : State) {entered : List Task}
    (entry : ∀ x ∈ entered, x = .linkLocked ∨ x = .linkSearch) :
    (s.openBoundary frame usable entered).due.count .build = s.due.count .build + 1 := by
  have fresh : Task.build ∉ s.falling usable frame.number ++ entered ++ copySteps s.plans := by
    simp only [List.mem_append, not_or]
    refine ⟨⟨fun mem => ?_, fun mem => ?_⟩, fun mem => ?_⟩
    · exact Bool.noConfusion (s.falling_noStage _ _ _ mem)
    · obtain e | e := entry _ mem <;> cases e
    · exact Task.noConfusion ((mem_copySteps _ _).1 mem).1
  rw [s.openBoundary_due, List.count_append, List.count_append, List.count_eq_zero.2 fresh]
  rfl

/-- The opening of a boundary: a build is due, and its frame takes the input frame's number or the next output number. -/
theorem State.atBoundary_openBoundary (s : State) {entered : List Task}
    (entry : ∀ x ∈ entered, x = .linkLocked ∨ x = .linkSearch) (idle : usable = false → .build ∉ s.due) :
    (s.openBoundary frame usable entered).AtBoundary frame usable (if usable then frame.number else s.out.next) where
  handedOn := rfl
  isUsable := rfl
  numbered _ := rfl
  once off := by rw [s.openBoundary_builds entry, List.count_eq_zero.2 (idle off)]
  begun := .inl (List.count_pos_iff.1 (by rw [s.openBoundary_builds entry]; exact Nat.succ_pos _))
  switched := nofun

/-- The build is the last of the stages that complete a boundary (log 5). -/
theorem State.boundary_eq (s : State) (entered : List Task) (order : List Move) :
    s.boundary frame usable entered order =
      (State.performAll [.linkLocked, .linkSearch, .copyStep, .observe, .ramps, .control]
        (order.foldl State.makeMove (s.openBoundary frame usable entered))).perform .build := by
  rw [State.boundary, closingStages, State.performAll, State.performAll]
  simp only [List.foldl_cons, List.foldl_nil]

/-- A boundary hands on its frame, and begins the output frame with the input frame's number, or with the next output
number when no frame is usable (R172, R179). -/
theorem State.boundary_begun (s : State) {entered : List Task} (order : List Move)
    (entry : ∀ x ∈ entered, x = .linkLocked ∨ x = .linkSearch) (idle : usable = false → .build ∉ s.due) :
    let t := s.boundary frame usable entered order
    t.now.frame = frame ∧ t.now.usable = usable ∧ t.out.Begun (if usable then frame.number else s.out.next) := by
  rw [s.boundary_eq]
  have k := keptByWork_atBoundary frame usable (if usable then frame.number else s.out.next)
  have before := k.performAll [.linkLocked, .linkSearch, .copyStep, .observe, .ramps, .control]
    (k.makeMoves order (s.atBoundary_openBoundary entry idle))
  generalize State.performAll _ _ = u at before ⊢
  have after := k.perform .build before
  refine ⟨after.handedOn, after.isUsable, ?_⟩
  by_cases due : .build ∈ u.due
  · rw [State.perform_due due]
    exact (before.builds due (.beforeSending _)).2
  · rw [State.perform_undue due]
    exact before.begun.resolve_left due

end Boundary

end Sys2Proof.Machine
end

section
/-! The boundaries of the part: FRAME_JUDGED with and without a usable frame, FREE_RUN_BOUNDARY, and the judgements that are no
boundary (R171 to R176, R179). -/

namespace Sys2Proof.Machine

/-! ### Judgements at a boundary of the part (R171, R173) -/

namespace Receiver

variable {r : Receiver}

/-- A good frame in LOCKED, in SLIP, or as the fourth of CONFIRM is usable, and enters LOCKED from elsewhere. -/
theorem judge_of_usable (h : r.link = .locked ∨ (∃ m, r.link = .slip m) ∨ ∃ k, r.link = .confirm k ∧ 3 ≤ k)
    (n : BitVec 16) :
    r.judge true n = ⟨r.accept n, true, true, if r.link = .locked then [] else [.linkLocked]⟩ := by
  obtain locked | ⟨m, slip⟩ | ⟨k, confirm, enough⟩ := h
  · rw [judge_present_of_locked locked, if_pos locked]
  · rw [judge_present_of_slip slip, if_neg (by simp [slip])]
  · rw [judge_present_of_confirm confirm, if_neg (by omega), if_neg (by simp [confirm])]

/-- A missing sync in LOCKED or SLIP is a boundary without a usable frame, and leaves LOCKED. -/
theorem judge_of_unusable (h : r.link = .locked ∨ ∃ m, r.link = .slip m) (n : BitVec 16) :
    ∃ lost entered, r.judge false n = ⟨lost, true, false, entered⟩ ∧ lost.link ≠ .locked ∧
      lost.frameNumber = r.frameNumber ∧ ∀ x ∈ entered, x = Task.linkLocked ∨ x = .linkSearch := by
  obtain locked | ⟨m, slip⟩ := h
  · exact ⟨_, _, judge_missing_of_locked locked, nofun, rfl, nofun⟩
  · rw [judge_missing_of_slip slip]
    split
    · exact ⟨_, _, rfl, nofun, rfl, nofun⟩
    · exact ⟨_, _, rfl, nofun, rfl, fun x mem => .inr (List.mem_singleton.1 mem)⟩

/-- The first missing syncs keep the alignment: nothing is entered but SLIP. -/
theorem judge_of_slipping (h : r.link = .locked ∨ ∃ m, r.link = .slip m ∧ m < 2) (n : BitVec 16) :
    ∃ slipped, r.judge false n = ⟨slipped, true, false, []⟩ := by
  obtain locked | ⟨m, slip, few⟩ := h
  · exact ⟨_, judge_missing_of_locked locked⟩
  · exact ⟨_, by rw [judge_missing_of_slip slip, if_pos few]⟩

end Receiver

section Judgement

variable {s : State} {bits : BitVec 2152} {present : Bool}

/-- A judgement that is a boundary, on a settled state with the same link. -/
theorem State.takeFrame_of_boundary (order : List Move) {lost : Receiver} {usable : Bool} {entered : List Task}
    (sync : decide (frameSync bits = Config.syncPattern) = present)
    (boundary : (s.receiver.judge present (Frame.ofBits bits).number).boundary = true)
    (verdict : s.settleBoundary.receiver.judge present (Frame.ofBits bits).number = ⟨lost, true, usable, entered⟩) :
    s.takeFrame bits order =
      State.boundary { s.settleBoundary with receiver := lost } (if usable then Frame.ofBits bits else silentFrame)
        usable entered order := by
  unfold State.takeFrame
  simp only [sync, boundary, verdict, if_true]

/-- A judgement that is no boundary changes the receiver, and an entry to SEARCH does its work at once. -/
theorem State.takeFrame_of_no_boundary (order : List Move) {judged : Receiver} {entered : List Task}
    (sync : decide (frameSync bits = Config.syncPattern) = present)
    (verdict : s.receiver.judge present (Frame.ofBits bits).number = ⟨judged, false, false, entered⟩) :
    s.takeFrame bits order =
      State.perform .linkSearch { s with receiver := judged, due := s.due ++ entered } := by
  unfold State.takeFrame
  simp only [sync, verdict, Bool.false_eq_true, if_false]
  rfl

/-- FRAME_JUDGED outside a hardware reset. -/
theorem exec_frameJudged (awake : s.inReset = false) (order : List Move) :
    exec (.frameJudged bits order) s = .next (s.takeFrame bits order) :=
  running_of_awake awake fun s => s.takeFrame bits order

/-- FREE_RUN_BOUNDARY in SEARCH and CONFIRM (R173). -/
theorem exec_freeRunBoundary (awake : s.inReset = false)
    (free : (∃ k, s.receiver.link = .confirm k) ∨ s.receiver.link = .search) (order : List Move) :
    exec (.freeRunBoundary order) s = .next (s.settleBoundary.boundary silentFrame false [] order) := by
  have runs : s.receiver.link.freeRuns = true := by
    obtain ⟨k, confirm⟩ | search := free
    · rw [confirm]; rfl
    · rw [search]; rfl
  refine (running_of_awake awake fun s => s.takeFreeRun order).trans ?_
  rw [State.takeFreeRun, if_pos runs]

end Judgement

/-! ### Entries to SEARCH (R120, R176) -/

section Entries

variable {s : State}

/-- An entry to SEARCH empties the transit buffer, submits LINK SEARCH, and abandons a pending switch with a point. -/
theorem State.enterSearch_of_point {point : BitVec 16} (h : s.plans.pending = some ⟨some point⟩) :
    s.enterSearch =
      { s with
        msg := { s.msg with transit := [] }
        plans := { s.plans with pending := none }
        notices := (s.notices.submit (.link false)).submit .switchAbandoned } := by
  simp only [State.enterSearch, State.abandonPointed, State.notify, h]

/-- Without a point no switch is abandoned. -/
theorem State.enterSearch_of_no_point (h : ∀ point, s.plans.pending ≠ some ⟨some point⟩) :
    s.enterSearch =
      { s with msg := { s.msg with transit := [] }, notices := s.notices.submit (.link false) } := by
  rw [State.enterSearch, State.abandonPointed]
  split
  · rename_i point pending
    exact absurd pending (h point)
  · rfl
  · rfl

end Entries

/-! ### A calm boundary -/

section Calm

variable {s : State}

/-- With nothing due and no request waiting there is nothing to settle. -/
theorem State.settleBoundary_of_calm (due : s.due = []) (requests : s.msg.requests = []) : s.settleBoundary = s := by
  have drained : s.drain = s := by simp [State.drain, State.performAll, due]
  rw [State.settleBoundary, drained, requests]
  rfl

/-- A calm boundary without an entry. -/
theorem State.boundary_of_calm (due : s.due = []) (r : Receiver) (frame : Frame) (usable : Bool) :
    ∃ u, State.boundary { s with receiver := r } frame usable [] [] = u.sendFrame ∧
      BoundaryTaken s u frame usable s.msg s.notices.counted ∧ u.plans.pending = s.plans.pending ∧ u.receiver = r :=
  State.boundary_taken { s with receiver := r } s frame usable [] due rfl (.inl rfl)

/-- A calm boundary at an entry to LOCKED (R174). -/
theorem State.boundary_of_locking (due : s.due = []) (r : Receiver) (frame : Frame) (usable : Bool) :
    ∃ u, State.boundary { s with receiver := r } frame usable [.linkLocked] [] = u.sendFrame ∧
      BoundaryTaken s u frame usable s.msg (s.notices.counted.submit (.link true)) ∧
      u.plans.pending = s.plans.pending ∧ u.receiver = r :=
  State.boundary_taken { s with receiver := r } s frame usable [.linkLocked] due rfl (.inr (.inl rfl))

/-- What an entry to SEARCH leaves. -/
theorem entryOf_search (o : State) : entryOf [.linkSearch] o = o.enterSearch := rfl

/-- A calm boundary at an entry to SEARCH, with no point to abandon (R176). -/
theorem State.boundary_of_searching (due : s.due = []) (r : Receiver) (frame : Frame) (usable : Bool)
    (h : ∀ point, s.plans.pending ≠ some ⟨some point⟩) :
    ∃ u, State.boundary { s with receiver := r } frame usable [.linkSearch] [] = u.sendFrame ∧
      BoundaryTaken s u frame usable { s.msg with transit := [] } (s.notices.counted.submit (.link false)) ∧
      u.plans.pending = s.plans.pending := by
  obtain ⟨u, sent, taken, pending, -⟩ :=
    State.boundary_taken { s with receiver := r } s frame usable [.linkSearch] due rfl (.inr (.inr rfl))
  have told := State.enterSearch_of_no_point
    (s := State.openBoundary { s with receiver := r } frame usable [.linkSearch]) h
  rw [entryOf_search, told] at taken pending
  exact ⟨u, sent, taken, pending⟩

/-- A calm boundary at an entry to SEARCH, with a switch that has a point (R120, R176). -/
theorem State.boundary_of_abandoning (due : s.due = []) (r : Receiver) (frame : Frame) (usable : Bool)
    {point : BitVec 16} (h : s.plans.pending = some ⟨some point⟩) :
    ∃ u, State.boundary { s with receiver := r } frame usable [.linkSearch] [] = u.sendFrame ∧
      BoundaryTaken s u frame usable { s.msg with transit := [] }
        ((s.notices.counted.submit (.link false)).submit .switchAbandoned) ∧
      u.plans.pending = none := by
  obtain ⟨u, sent, taken, pending, -⟩ :=
    State.boundary_taken { s with receiver := r } s frame usable [.linkSearch] due rfl (.inr (.inr rfl))
  have told := State.enterSearch_of_point
    (s := State.openBoundary { s with receiver := r } frame usable [.linkSearch]) h
  rw [entryOf_search, told] at taken pending
  exact ⟨u, sent, taken, pending⟩

end Calm

/-! ### The statements -/

/-- What a usable frame enters: LOCKED, from elsewhere (R174). -/
def lockingEntry (link : LinkState) : List Task := if link = .locked then [] else [.linkLocked]

/-- An entry to LOCKED is no entry to SEARCH. -/
theorem mem_lockingEntry {link : LinkState} {x : Task} (h : x ∈ lockingEntry link) : x = .linkLocked ∨ x = .linkSearch := by
  unfold lockingEntry at h
  split at h
  · cases h
  · exact .inl (List.mem_singleton.1 h)

/-- The boundary of a usable frame leaves the receiver LOCKED on that frame, and begins the output frame with its number
(R171, R178, R179). -/
theorem State.boundary_of_usable {s t : State} {frame : Frame} {link : LinkState} {order : List Move}
    (run : t = State.boundary { s with receiver := s.receiver.accept frame.number } frame true (lockingEntry link) order) :
    (t.receiver.link = .locked ∧ t.receiver.frameNumber = some frame.number ∧
      t.receiver.alignment = s.receiver.alignment.map (· + 2152)) ∧
    (t.now.frame = frame ∧ t.now.usable = true ∧ t.out.Begun frame.number) ∧
    t.address = s.address ∧ t.inReset = s.inReset := by
  subst run
  have kept := State.sameLink_boundary { s with receiver := s.receiver.accept frame.number } frame true
    (lockingEntry link) order
  have begun := State.boundary_begun { s with receiver := s.receiver.accept frame.number } (frame := frame)
    (usable := true) order (fun _ => mem_lockingEntry (link := link)) nofun
  exact ⟨⟨kept.link, kept.frameNumber, kept.alignment⟩, begun, kept.address, kept.inReset⟩

/-- A calm boundary of a usable frame. -/
theorem State.boundary_of_calm_usable {s : State} (due : s.due = []) (r : Receiver) (frame : Frame) :
    ∃ u, State.boundary { s with receiver := r } frame true (lockingEntry s.receiver.link) [] = u.sendFrame ∧
      BoundaryTaken s u frame true s.msg
        (if s.receiver.link = .locked then s.notices.counted else s.notices.counted.submit (.link true)) ∧
      u.plans.pending = s.plans.pending := by
  unfold lockingEntry
  split
  · obtain ⟨u, sent, taken, pending, -⟩ := State.boundary_of_calm due r frame true
    exact ⟨u, sent, taken, pending⟩
  · obtain ⟨u, sent, taken, pending, -⟩ := State.boundary_of_locking due r frame true
    exact ⟨u, sent, taken, pending⟩

/-- Settles O10: the settled receiver accepts the frame, the boundary keeps it LOCKED and numbers the frame it begins, and a
calm boundary takes everything once. -/
theorem usableFrameLocks : Obligations.UsableFrameLocks := by
  intro bits order s awake sync good
  have same := s.sameLink_settleBoundary
  have run : s.takeFrame bits order = State.boundary
      { s.settleBoundary with receiver := s.settleBoundary.receiver.accept (Frame.ofBits bits).number }
      (Frame.ofBits bits) true (lockingEntry s.receiver.link) order := by
    have verdict := Receiver.judge_of_usable (same.link ▸ good) (Frame.ofBits bits).number
    rw [same.link] at verdict
    rw [State.takeFrame_of_boundary order (decide_eq_true sync) (by rw [Receiver.judge_of_usable good]) verdict]
    rfl
  obtain ⟨⟨locked, numbered, aligned⟩, ⟨handedOn, isUsable, ⟨f, sent, number⟩, next⟩, address, inReset⟩ :=
    State.boundary_of_usable run
  have linked : (s.takeFrame bits order).linkOk = true := by
    rw [State.linkOk, locked, inReset, same.inReset, awake]
    rfl
  refine ⟨s.takeFrame bits order, f, exec_frameJudged awake order, locked, linked, numbered,
    aligned.trans (by rw [same.alignment]), handedOn, isUsable, sent, number, next, address.trans same.address, run,
    fun due requests unordered => ?_⟩
  rw [run, unordered, State.settleBoundary_of_calm due requests]
  exact State.boundary_of_calm_usable due _ _

/-- Settles O11: the judgement's own change of the receiver, and at a missing sync in CONFIRM the entry to SEARCH. -/
theorem unlockedJudgementIsNoBoundary : Obligations.UnlockedJudgementIsNoBoundary := by
  intro bits order s awake idle
  have run := exec_frameJudged (s := s) (bits := bits) awake order
  -- an entry of nothing leaves what is due
  have quiet (r : Receiver) : State.perform .linkSearch { s with receiver := r, due := s.due ++ [] } =
      { s with receiver := r } := by
    rw [List.append_nil]
    exact State.perform_undue idle
  refine ⟨fun search => ?_, fun k confirm few sync => ?_, ?_⟩
  · rw [run, State.takeFrame_of_no_boundary order rfl (Receiver.judge_of_search search _), quiet]
  · have counts : s.receiver.judge true (Frame.ofBits bits).number =
        ⟨s.receiver.advance (.confirm (k + 1)), false, false, []⟩ := by
      rw [Receiver.judge_present_of_confirm confirm, if_pos (by omega)]
    rw [run, State.takeFrame_of_no_boundary order (decide_eq_true sync) counts, quiet]
    rfl
  · intro k confirm missing receiver
    have lost : s.receiver.judge false (Frame.ofBits bits).number = ⟨receiver, false, false, [.linkSearch]⟩ := by
      rw [Receiver.judge_missing_of_confirm confirm, Receiver.lose_eq]
    have enters : State.perform .linkSearch { s with receiver := receiver, due := s.due ++ [.linkSearch] } =
        State.enterSearch { s with receiver := receiver, due := s.due ++ [] } :=
      State.perform_at (l := s.due) (r := []) rfl idle
    rw [List.append_nil] at enters
    rw [run, State.takeFrame_of_no_boundary order (decide_eq_false missing) lost, enters]
    exact ⟨fun point pointed => congrArg _ (State.enterSearch_of_point (point := point) pointed),
      fun unpointed => congrArg _ (State.enterSearch_of_no_point unpointed)⟩

/-! ### Boundaries without a usable frame (R172, R173, R179) -/

/-- A settled state sends the next output number that the state before it had, when no build was due (R179). -/
theorem State.settleBoundary_next {s : State} (idle : .build ∉ s.due) :
    .build ∉ s.settleBoundary.due ∧ s.settleBoundary.out.next = s.out.next :=
  (keptByWork_nextFrame s.out.next).settleBoundary ⟨idle, rfl⟩

/-- A boundary without a usable frame leaves the link, hands on the silent frame, and takes the next output number. -/
theorem State.boundary_of_silent {s t : State} {entered : List Task} {order : List Move}
    (run : t = s.boundary silentFrame false entered order) (idle : .build ∉ s.due)
    (entry : ∀ x ∈ entered, x = .linkLocked ∨ x = .linkSearch) :
    s.SameLink t ∧ t.now.frame = silentFrame ∧ t.now.usable = false ∧ t.out.Begun s.out.next := by
  subst run
  exact ⟨s.sameLink_boundary .., s.boundary_begun order entry fun _ => idle⟩

/-- What the opening of a boundary makes due: the events that fall due, the entry, a copy step and the stages. -/
theorem State.openBoundary_falls (s : State) (frame : Frame) (usable : Bool) {entered : List Task}
    (entry : ∀ x ∈ entered, x = .linkLocked ∨ x = .linkSearch) :
    ∃ new, (s.openBoundary frame usable entered).due = s.due ++ new ∧ FallDue s usable frame.number new ∧
      entered ⊆ new ∧ (Task.copyStep ∈ new ↔ ∃ k, s.plans.copied = some k ∧ k < 83) ∧
      [Task.observe, .ramps, .control, .build] ⊆ new := by
  refine ⟨s.falling usable frame.number ++ entered ++ copySteps s.plans ++ boundaryStages, s.openBoundary_due .., ?_, ?_, ?_,
    List.subset_append_right _ _⟩
  · refine (s.falling_due usable frame.number).more fun x => ?_
    by_cases stage : isStage x = true
    · exact .inr (.inl stage)
    · have others : x ∉ entered ∧ x ∉ copySteps s.plans ∧ x ∉ boundaryStages := by
        refine ⟨fun mem => ?_, fun mem => ?_, fun mem => ?_⟩
        · obtain rfl | rfl := entry x mem <;> exact stage rfl
        · obtain ⟨rfl, -⟩ := (mem_copySteps _ _).1 mem
          exact stage rfl
        · simp only [boundaryStages, List.mem_cons, List.not_mem_nil, or_false] at mem
          obtain rfl | rfl | rfl | rfl := mem <;> exact stage rfl
      obtain ⟨entry', copy, stages⟩ := others
      left
      simp only [List.mem_append, entry', copy, stages, or_false]
  · intro x mem
    simp [mem]
  · have fresh : Task.copyStep ∉ s.falling usable frame.number ∧ Task.copyStep ∉ entered := by
      refine ⟨fun mem => Bool.noConfusion (s.falling_noStage _ _ _ mem), fun mem => ?_⟩
      obtain e | e := entry _ mem <;> cases e
    simp [fresh, mem_copySteps, boundaryStages]

/-- A missing sync at a boundary, on a calm state: the receiver's change, then the boundary. -/
theorem State.takeFrame_of_calm {s : State} {bits : BitVec 2152} (due : s.due = []) (requests : s.msg.requests = [])
    (missing : frameSync bits ≠ 0xF350#16) {lost : Receiver} {entered : List Task}
    (verdict : s.receiver.judge false (Frame.ofBits bits).number = ⟨lost, true, false, entered⟩) :
    s.takeFrame bits [] = State.boundary { s with receiver := lost } silentFrame false entered [] := by
  have calm := State.settleBoundary_of_calm due requests
  rw [State.takeFrame_of_boundary [] (decide_eq_false missing) (by rw [verdict]) (by rw [calm]; exact verdict), calm]
  rfl

/-- Settles O12: the boundary of a settled state without a usable frame, the same taken calmly, and the opening of any
boundary. -/
theorem unusableBoundaryNumbersOn : Obligations.UnusableBoundaryNumbersOn := by
  refine ⟨fun order s awake idle => ⟨fun free => ?freeRun, fun held => ⟨?noFreeRun, fun bits missing => ?missed⟩⟩,
    fun order s awake free => exec_freeRunBoundary awake free order,
    fun s awake due requests =>
      ⟨fun free => ?calmFreeRun, fun bits missing => ⟨fun slipping => ?calmSlip, fun m slip enough => ?calmSearch⟩⟩,
    fun s frame usable entered entry => ?opening⟩
  case freeRun =>
    have same := s.sameLink_settleBoundary
    obtain ⟨settled, first⟩ := State.settleBoundary_next idle
    obtain ⟨kept, handedOn, unusable, ⟨f, sent, number⟩, next⟩ :=
      State.boundary_of_silent (order := order) (entered := []) rfl settled nofun
    rw [first] at number next
    exact ⟨_, f, exec_freeRunBoundary awake free order, kept.link.trans same.link, kept.alignment.trans same.alignment,
      kept.frameNumber.trans same.frameNumber, handedOn, unusable, sent, number, next⟩
  case noFreeRun =>
    have runs : s.receiver.link.freeRuns = false := by
      obtain locked | ⟨m, slip⟩ := held
      · rw [locked]; rfl
      · rw [slip]; rfl
    refine (running_of_awake awake fun s => s.takeFreeRun order).trans ?_
    rw [State.takeFreeRun, if_neg (by simp [runs])]
  case missed =>
    have same := s.sameLink_settleBoundary
    obtain ⟨settled, first⟩ := State.settleBoundary_next idle
    obtain ⟨_, _, verdict, -⟩ := Receiver.judge_of_unusable held (Frame.ofBits bits).number
    obtain ⟨lost, entered, judged, unlocked, frameNumber, entry⟩ :=
      Receiver.judge_of_unusable (same.link ▸ held) (Frame.ofBits bits).number
    have run := State.takeFrame_of_boundary order (decide_eq_false missing) (by rw [verdict]) judged
    obtain ⟨kept, handedOn, unusable, ⟨f, sent, number⟩, next⟩ :=
      State.boundary_of_silent run settled entry
    refine ⟨s.takeFrame bits order, f, exec_frameJudged awake order, ?_, ?_, handedOn, unusable, sent,
      number.trans first, next.trans (congrArg (· + 1#16) first)⟩
    · exact fun locked => unlocked (kept.link.symm.trans locked)
    · exact kept.frameNumber.trans (frameNumber.trans same.frameNumber)
  case calmFreeRun =>
    rw [exec_freeRunBoundary awake free, State.settleBoundary_of_calm due requests]
    obtain ⟨u, sent, taken, pending, receiver⟩ := State.boundary_of_calm due s.receiver silentFrame false
    exact ⟨u, congrArg Host.Outcome.next sent, taken, pending, receiver⟩
  case calmSlip =>
    obtain ⟨slipped, verdict⟩ := Receiver.judge_of_slipping slipping (Frame.ofBits bits).number
    rw [exec_frameJudged awake, State.takeFrame_of_calm due requests missing verdict]
    obtain ⟨u, sent, taken, pending, -⟩ := State.boundary_of_calm due slipped silentFrame false
    exact ⟨u, congrArg Host.Outcome.next sent, taken, pending⟩
  case calmSearch =>
    have verdict : s.receiver.judge false (Frame.ofBits bits).number = ⟨s.receiver.lose, true, false, [.linkSearch]⟩ := by
      rw [Receiver.judge_missing_of_slip slip, if_neg (Nat.not_lt.2 enough)]
    rw [exec_frameJudged awake, State.takeFrame_of_calm due requests missing verdict]
    refine ⟨fun unpointed => ?_, fun point pointed => ?_⟩
    · obtain ⟨u, sent, taken, pending⟩ := State.boundary_of_searching due s.receiver.lose silentFrame false unpointed
      exact ⟨u, congrArg Host.Outcome.next sent, taken, pending⟩
    · obtain ⟨u, sent, taken, pending⟩ := State.boundary_of_abandoning due s.receiver.lose silentFrame false pointed
      exact ⟨u, congrArg Host.Outcome.next sent, taken, pending⟩
  case opening =>
    exact ⟨s.openBoundary_counted .., rfl, rfl, rfl, fun z => Table.get_tabulate _ z, rfl, rfl,
      s.openBoundary_falls frame usable entry⟩

end Sys2Proof.Machine
end

section
/-! The output frame: its slots and samples, and the chime players and tone generators past it (R76 to R81, R91, R93, R97,
R179 to R181). -/

namespace Sys2Proof.Machine

/-! ### A zone's slot (R80, R81, Table 10-2) -/

section Slot

variable {keyed : Bool} {x : Int}

/-- The bits of a zone's slot: the sample, six clear flags, KEYED, and PRESENT. -/
theorem zoneSlot_getLsbD (i : Nat) :
    (zoneSlot keyed x).getLsbD i =
      if i < 24 then (BitVec.ofInt 24 x).getLsbD i
      else if i < 30 then false
      else if i = 30 then keyed
      else decide (i = 31) := by
  refine (BitVec.getLsbD_append (x := 1#1 ++ BitVec.ofBool keyed ++ 0#6) (y := BitVec.ofInt 24 x)).trans ?_
  by_cases sample : i < 24
  · rw [if_pos sample, if_pos sample]
  rw [if_neg sample, if_neg sample, BitVec.getLsbD_append]
  by_cases flag : i < 30
  · rw [if_pos (by omega), if_pos flag, BitVec.getLsbD_zero]
  rw [if_neg (by omega), if_neg flag, BitVec.getLsbD_append, BitVec.getLsbD_ofBool, BitVec.getLsbD_one]
  by_cases key : i = 30
  · simp [key]
  · rw [if_neg (by omega), if_neg key]
    simp only [Nat.zero_lt_one, decide_true, Bool.true_and, decide_eq_decide]
    omega

/-- A zone's slot is PRESENT (R81). -/
theorem slotPresent_zoneSlot : slotPresent (zoneSlot keyed x) = true := zoneSlot_getLsbD 31

/-- A zone's slot is KEYED as it is written (R81). -/
theorem slotKeyed_zoneSlot : slotKeyed (zoneSlot keyed x) = keyed := zoneSlot_getLsbD 30

/-- The six further flags of a zone's slot are clear (R81). -/
theorem extract_flags_zoneSlot : (zoneSlot keyed x).extractLsb' 24 6 = 0#6 := by
  apply BitVec.eq_of_getLsbD_eq
  intro i hi
  rw [BitVec.getLsbD_extractLsb', zoneSlot_getLsbD, if_neg (by omega), if_pos (by omega)]
  simp

/-- A sample of 24 bits reads back as it was written. -/
theorem slotSample_zoneSlot (low : -8388608 ≤ x) (high : x ≤ 8388607) : slotSample (zoneSlot keyed x) = x := by
  have sample : (zoneSlot keyed x).extractLsb' 0 24 = BitVec.ofInt 24 x := by
    apply BitVec.eq_of_getLsbD_eq
    intro i hi
    rw [BitVec.getLsbD_extractLsb', zoneSlot_getLsbD, if_pos (by omega)]
    simp [hi]
  rw [slotSample, sample, BitVec.toInt_ofInt, Int.bmod_eq_of_le] <;> omega

/-- The limiter holds a sum within the 24 bits (R80). -/
theorem limit24_eq (x : Int) : limit24 x = max (-8388608) (min 8388607 x) := by
  unfold limit24
  split_ifs <;> omega

end Slot

/-! ### Sources (R78, R91) -/

/-- Every source is a trunk source or a tone generator. -/
theorem source_cases (src : Source) : (∃ k, src = trunkSource k) ∨ ∃ g, src = toneSource g := by
  by_cases low : src.val < 48
  · exact .inl ⟨⟨src.val, low⟩, rfl⟩
  · exact .inr ⟨⟨src.val - 48, by omega⟩, Fin.ext (by simp [toneSource]; omega)⟩

section Samples

variable {s : State} {l : Lane} (m : Mixer)

/-- A lane that carries nothing gives 0. -/
theorem State.laneSample_of_none (h : l.current = .none) : s.laneSample m l = 0 := by
  rw [State.laneSample, h]

/-- A lane that carries the chime gives its player's sample. -/
theorem State.laneSample_of_chime (h : l.current = .chime) : s.laneSample m l = m.player.sample := by
  rw [State.laneSample, h]

/-- A lane that carries a trunk source gives its slot's sample (R91). -/
theorem State.laneSample_of_trunk {k : Trunk} (h : l.current = .source (trunkSource k)) :
    s.laneSample m l = trunkSample s.plan s.now k := by
  rw [State.laneSample, h]
  simp only [State.sourceSample, splitSource_trunkSource]

/-- A lane that carries a generator gives the generator's sample (R93). -/
theorem State.laneSample_of_tone {g : Tone} (h : l.current = .source (toneSource g)) :
    s.laneSample m l = (s.sources.tones.get g).sample := by
  rw [State.laneSample, h]
  simp only [State.sourceSample, splitSource_toneSource]

/-- With the removed generators silent, a lane that carries one of them carries 0, and every other lane its sample (R97). -/
theorem State.laneSample_silenced :
    s.silenced.laneSample m l =
      if ∃ q : Tone, l.current = .source (toneSource q) ∧ s.plans.otherBank.plan.tones.get q = none then 0
      else s.laneSample m l := by
  have apart : (∀ g, l.current ≠ .source (toneSource g)) →
      ¬ ∃ q : Tone, l.current = .source (toneSource q) ∧ s.plans.otherBank.plan.tones.get q = none :=
    fun other ⟨q, carries, _⟩ => other q carries
  cases carried : l.current with
  | none =>
    rw [if_neg nofun, State.laneSample_of_none m carried, State.laneSample_of_none m carried]
  | chime =>
    rw [if_neg nofun, State.laneSample_of_chime m carried, State.laneSample_of_chime m carried]
  | source src =>
    obtain ⟨k, rfl⟩ | ⟨g, rfl⟩ := source_cases src
    · rw [if_neg, State.laneSample_of_trunk m carried, State.laneSample_of_trunk m carried]
      · rfl
      · rintro ⟨q, same, -⟩
        have split := congrArg splitSource (LaneSource.source.inj same)
        rw [splitSource_trunkSource, splitSource_toneSource] at split
        cases split
    · rw [State.laneSample_of_tone m carried, State.laneSample_of_tone m carried, State.silenced, Table.get_update]
      have removed : (∃ q : Tone, LaneSource.source (toneSource g) = .source (toneSource q) ∧
          s.plans.otherBank.plan.tones.get q = none) ↔ (s.plans.otherBank.plan.tones.get g).isNone = true := by
        rw [Option.isNone_iff_eq_none]
        refine ⟨fun ⟨q, same, gone⟩ => ?_, fun gone => ⟨g, rfl, gone⟩⟩
        rw [toneSource_injective (LaneSource.source.inj same)]
        exact gone
      simp only [removed]
      split
      · rfl
      · rfl

/-- What the boundary's frame gives a trunk source (R91). -/
theorem trunkSample_eq (p : Plan) (b : Boundary) (k : Trunk) :
    trunkSample p b k =
      match (if b.usable then (p.trunks.get k).slot.map b.frame.slots.get else none) with
      | none => 0
      | some w => if w.getLsbD 31 then (w.extractLsb' 0 24).toInt else 0 := rfl

end Samples

/-! ### Chime players and tone generators (R76, R77, R93) -/

section Players

variable {c : ChimePlayer} {g : ToneGen}

/-- A player without a pattern or a position is silent and stays as it is. -/
theorem ChimePlayer.silent (h : c.pattern = none ∨ c.pos = none) : c.sample = 0 ∧ c.advance = c := by
  obtain ⟨pattern, pos, phase⟩ := c
  obtain rfl | rfl := h
  · exact ⟨rfl, rfl⟩
  · cases pattern <;> exact ⟨rfl, rfl⟩

/-- A player in a step gives the step's sample, then moves its phase and counts the frame. -/
theorem ChimePlayer.playing {steps : List ToneStep} {n left : Nat} {st : ToneStep} (pattern : c.pattern = some steps)
    (pos : c.pos = some ⟨n + 1, left⟩) (step : steps[n]? = some st) :
    (c.sample = if st.hz = 0 then 0 else sineSample c.phase) ∧
      c.advance = { pattern := some steps
                    pos := some ⟨n + 1, if 1 < left then left - 1 else left⟩
                    phase := (c.phase + st.hz) % 48000 } ∧
      c.stepEnds = decide (left ≤ 1) := by
  obtain ⟨_, _, phase⟩ := c
  cases pattern
  cases pos
  have at_step : stepAt? steps ⟨n + 1, left⟩ = some st := step
  simp only [sample, advance, stepEnds, at_step]
  exact ⟨rfl, rfl, trivial⟩

/-- An ABSENT generator is silent and stays as it is. -/
theorem ToneGen.silent_of_absent (absent : g.playing = none) : g.sample = 0 ∧ g.advance = g := by
  simp only [sample, advance, absent, and_self]

/-- A finished generator is silent and stays as it is. -/
theorem ToneGen.silent_of_finished {p : TonePlaying} (playing : g.playing = some p) (finished : p.pos = none) :
    g.sample = 0 ∧ g.advance = g := by
  simp only [sample, advance, playing, finished, and_self]

/-- A generator in a step gives the step's sample, then moves its phase and counts the frame. -/
theorem ToneGen.sounding {p : TonePlaying} {n left : Nat} {st : ToneStep} (playing : g.playing = some p)
    (pos : p.pos = some ⟨n + 1, left⟩) (step : p.steps[n]? = some st) :
    (g.sample = if st.hz = 0 then 0 else sineSample g.phase) ∧
      g.advance = { playing := some { p with pos := some ⟨n + 1, if 1 < left then left - 1 else left⟩ }
                    phase := (g.phase + st.hz) % 48000 } ∧
      g.stepEnds = decide (left ≤ 1) := by
  have at_step : stepAt? p.steps ⟨n + 1, left⟩ = some st := step
  simp only [sample, advance, stepEnds, playing, pos, at_step]
  exact ⟨rfl, rfl, trivial⟩

/-- A player at the last frame of a step has the step's end due (R76). -/
theorem mem_chimeEnds {mixers : Table 16 Mixer} {z : Zone} :
    Task.chimeEnd z ∈ chimeEnds mixers ↔ (mixers.get z).player.stepEnds = true := by
  simp [chimeEnds]

/-- A generator at the last frame of a step has the step's end due (R93). -/
theorem mem_toneEnds {tones : Table 4 ToneGen} {q : Tone} :
    Task.toneEnd q ∈ toneEnds tones ↔ (tones.get q).stepEnds = true := by
  simp [toneEnds]

end Players

/-! ### The slots of an output frame (R147, R180) -/

section Slots

variable {s : State} {i : Fin 64}

/-- A transit-only part carries every slot on. -/
theorem State.outputSlot_of_transit (transit : s.transitOnly = true) : s.outputSlot i = s.now.frame.slots.get i := by
  rw [State.outputSlot, State.slotZone?, if_pos transit]

/-- A slot that no zone writes is carried on. -/
theorem State.outputSlot_of_unwritten (unwritten : ∀ z, (s.plan.zones.get z).slot ≠ some i) :
    s.outputSlot i = s.now.frame.slots.get i := by
  have no_zone : s.slotZone? i = none := by
    unfold State.slotZone?
    split
    · rfl
    · rw [List.find?_eq_none]
      exact fun z _ => by simp [unwritten z]
  rw [State.outputSlot, no_zone]

/-- The slot of the one zone that writes it. -/
theorem State.outputSlot_of_zone (own : s.transitOnly = false) {z : Zone} (writes : (s.plan.zones.get z).slot = some i)
    (only : ∀ y, (s.plan.zones.get y).slot = some i → y = z) :
    s.outputSlot i = zoneSlot (s.zoneKeyed z) (s.zoneSample z) := by
  have zone : s.slotZone? i = some z := by
    rw [State.slotZone?, if_neg (by simp [own])]
    cases found : (List.finRange 16).find? fun y => decide ((s.plan.zones.get y).slot = some i) with
    | none => exact absurd writes (by simpa using List.find?_eq_none.1 found z (List.mem_finRange z))
    | some y => rw [only y (by simpa using List.find?_some found)]
  rw [State.outputSlot, zone]

/-- What an output frame carries in its slots, where a lane of a mixer gives a sample (R80, R81, R147, R180): the slots of the
frame carried, and in the slot of the one zone that writes it the flags and the limited sum of the two lanes. -/
def State.ZoneSlots (s : State) (f : Frame) (sample : Mixer → Lane → Int) : Prop :=
  (s.transitOnly = true → ∀ i, f.slots.get i = s.now.frame.slots.get i) ∧
  (s.transitOnly = false → ∀ i,
    ((∀ z, (s.plan.zones.get z).slot ≠ some i) → f.slots.get i = s.now.frame.slots.get i) ∧
    ∀ z, (s.plan.zones.get z).slot = some i → (∀ y, (s.plan.zones.get y).slot = some i → y = z) →
      let m := s.mixers.get z
      slotPresent (f.slots.get i) = true ∧
        (slotKeyed (f.slots.get i) = true ↔ (s.zones.get z).state.phase ≠ .idle) ∧
        (f.slots.get i).extractLsb' 24 6 = 0#6 ∧
        slotSample (f.slots.get i) =
          max (-8388608) (min 8388607
            (contribution (sample m m.foreground) m.foreground.att
              + contribution (sample m m.background) m.background.att)))

/-- The output frame carries the samples of the lanes. -/
theorem State.zoneSlots_outputFrame (s : State) : s.ZoneSlots s.outputFrame s.laneSample := by
  have slot (i : Fin 64) : s.outputFrame.slots.get i = s.outputSlot i := Table.get_tabulate _ i
  refine ⟨fun transit i => (slot i).trans (State.outputSlot_of_transit transit), fun own i =>
    ⟨fun unwritten => (slot i).trans (State.outputSlot_of_unwritten unwritten), ?_⟩⟩
  intro z writes only m
  rw [slot, State.outputSlot_of_zone own writes only]
  have sum : s.zoneSample z = max (-8388608) (min 8388607
      (contribution (s.laneSample m m.foreground) m.foreground.att
        + contribution (s.laneSample m m.background) m.background.att)) := limit24_eq _
  refine ⟨slotPresent_zoneSlot, ?_, extract_flags_zoneSlot, ?_⟩
  · rw [slotKeyed_zoneSlot]
    exact decide_eq_true_iff
  · rw [slotSample_zoneSlot, sum] <;> rw [sum] <;> omega

/-- The frame that a switch sends in its place carries them with the removed generators at 0 (R97; log 12). -/
theorem State.zoneSlots_silenced (s : State) :
    s.ZoneSlots s.silenced.outputFrame fun m l =>
      if ∃ q : Tone, l.current = .source (toneSource q) ∧ s.plans.otherBank.plan.tones.get q = none then 0
      else s.laneSample m l := by
  have samples : s.silenced.laneSample = _ := funext fun m => funext fun l => State.laneSample_silenced m (l := l)
  exact samples ▸ s.silenced.zoneSlots_outputFrame

end Slots

/-! ### After the frame (R76, R93) -/

section Sent

variable (s : State)

/-- Sending a frame moves each zone's player past its sample, and leaves the lanes. -/
theorem State.sendFrame_mixer (z : Zone) :
    s.sendFrame.mixers.get z = { s.mixers.get z with player := (s.mixers.get z).player.advance } := Table.get_update _ _ z

/-- Sending a frame moves each generator past its sample. -/
theorem State.sendFrame_tone (q : Tone) : s.sendFrame.sources.tones.get q = (s.sources.tones.get q).advance :=
  Table.get_update _ _ q

/-- Sending a frame makes the ends of steps due. -/
theorem State.mem_due_sendFrame {x : Task} :
    x ∈ s.sendFrame.due ↔ x ∈ s.due ∨ x ∈ chimeEnds s.mixers ∨ x ∈ toneEnds s.sources.tones := by
  simp [State.sendFrame]

end Sent

/-! ### The statement -/

/-- Settles O13: the frame that is built and the one kept for a switch, the sample of every kind of source, and the players and
generators past the frame. -/
theorem outputFrameContents : Obligations.OutputFrameContents := by
  refine ⟨fun s => ?frame, fun s m l => ?samples, fun c => ?chimes, fun g => ?tones, fun s => ?after⟩
  case frame =>
    refine ⟨s.outputFrame, rfl, rfl, rfl, rfl, s.zoneSlots_outputFrame, fun calm => ?_, fun due =>
      ⟨s.silenced.outputFrame, ?_, rfl, rfl, s.zoneSlots_silenced⟩⟩
    · exact if_neg (by simpa using calm)
    · exact if_pos (by simpa using due)
  case samples =>
    exact ⟨State.laneSample_of_none m, State.laneSample_of_chime m,
      fun k carries => (State.laneSample_of_trunk m carries).trans (trunkSample_eq ..),
      fun g carries => State.laneSample_of_tone m carries⟩
  case chimes =>
    refine ⟨fun idle => (ChimePlayer.silent idle).1, fun steps n left st pattern pos step => ?_⟩
    obtain ⟨sample, -⟩ := ChimePlayer.playing pattern pos step
    exact sample
  case tones =>
    refine ⟨fun absent => (ToneGen.silent_of_absent absent).1, fun p playing =>
      ⟨fun finished => (ToneGen.silent_of_finished playing finished).1, fun n left st pos step => ?_⟩⟩
    obtain ⟨sample, -⟩ := ToneGen.sounding playing pos step
    exact sample
  case after =>
    have due {x : Task} := s.mem_due_sendFrame (x := x)
    refine ⟨rfl, rfl, fun x waits => due.2 (.inl waits), fun z => ?_, fun q => ?_⟩
    · rw [s.sendFrame_mixer]
      refine ⟨rfl, rfl, fun idle => (ChimePlayer.silent idle).2, fun steps n left st pattern pos step => ?_⟩
      obtain ⟨-, advance, ends⟩ := ChimePlayer.playing pattern pos step
      exact ⟨advance, fun last => due.2 (.inr (.inl (mem_chimeEnds.2 (ends.trans (decide_eq_true last)))))⟩
    · rw [s.sendFrame_tone]
      refine ⟨fun absent => (ToneGen.silent_of_absent absent).2, fun p playing =>
        ⟨fun finished => (ToneGen.silent_of_finished playing finished).2, fun n left st pos step => ?_⟩⟩
      obtain ⟨-, advance, ends⟩ := ToneGen.sounding playing pos step
      exact ⟨advance, fun last => due.2 (.inr (.inr (mem_toneEnds.2 (ends.trans (decide_eq_true last)))))⟩

end Sys2Proof.Machine
end

section
/-! The trunk frame as 2,152 bits, written and read back (R185, Tables 10-1 and 10-3). -/

namespace Sys2Proof.Machine

/-! ### A control word's 18 bits (Table 10-3) -/

/-- A marker's code names that marker. -/
@[simp] theorem markerOf_code (m : Marker) : markerOf m.code = m := by
  cases m <;> rfl

/-- A control word reads back from its 18 bits. -/
@[simp] theorem ControlWord.ofBits_toBits (w : ControlWord) : ControlWord.ofBits w.toBits = w := by
  have marker : w.toBits.extractLsb' 16 2 = w.marker.code := BitVec.extractLsb'_append_eq_left
  have data : w.toBits.extractLsb' 0 16 = w.data := BitVec.extractLsb'_append_eq_right
  rw [ControlWord.ofBits, marker, data, markerOf_code]

/-! ### Fields of one width, one after another

The frame is a number to which each field is appended at the low end. A field is read by dropping the fields after it. -/

section Fields

variable {w : Nat}

/-- A number with fields of `w` bits appended to it, the first field at the high end. -/
def appendFields (n : Nat) (fields : List (BitVec w)) : Nat := fields.foldl (fun n x => n * 2 ^ w + x.toNat) n

/-- Appending one field before the others. -/
theorem appendFields_cons (n : Nat) (x : BitVec w) (xs : List (BitVec w)) :
    appendFields n (x :: xs) = appendFields (n * 2 ^ w + x.toNat) xs := rfl

/-- Dropping the last field leaves the number it was appended to. -/
theorem append_field_div (n : Nat) (x : BitVec w) : (n * 2 ^ w + x.toNat) / 2 ^ w = n := by
  rw [Nat.mul_comm, Nat.mul_add_div (Nat.two_pow_pos w), Nat.div_eq_of_lt x.isLt, Nat.add_zero]

/-- Dropping all the fields leaves the number they were appended to. -/
theorem appendFields_div (n : Nat) {fields : List (BitVec w)} {count : Nat} (size : fields.length = count) :
    appendFields n fields / 2 ^ (w * count) = n := by
  subst size
  induction fields generalizing n with
  | nil => simp [appendFields]
  | cons x xs ih =>
    rw [appendFields_cons, List.length_cons, Nat.mul_succ, Nat.pow_add, ← Nat.div_div_eq_div_mul, ih, append_field_div]

/-- What stands above the fields is the number they were appended to. -/
theorem appendFields_div_above (n : Nat) {fields : List (BitVec w)} {count : Nat} (size : fields.length = count)
    (start : Nat) : appendFields n fields / 2 ^ (w * count + start) = n / 2 ^ start := by
  rw [Nat.pow_add, ← Nat.div_div_eq_div_mul, appendFields_div n size]

/-- Dropping the `after` fields that follow field `i` leaves field `i` as the low bits. -/
theorem appendFields_field (n : Nat) {fields : List (BitVec w)} {i after : Nat} (size : fields.length = i + 1 + after) :
    BitVec.ofNat w (appendFields n fields / 2 ^ (w * after)) = fields[i] := by
  induction fields generalizing n i with
  | nil =>
    rw [List.length_nil] at size
    omega
  | cons x xs ih =>
    rw [List.length_cons] at size
    rw [appendFields_cons]
    cases i with
    | zero =>
      rw [appendFields_div _ (by omega)]
      apply BitVec.eq_of_toNat_eq
      simp [Nat.mod_eq_of_lt x.isLt]
    | succ i => exact ih _ (by omega)

/-- Bits read within the width do not depend on what lies above it. -/
theorem extractLsb'_ofNat_within {width start : Nat} (N : Nat) (within : start + w ≤ width) :
    (BitVec.ofNat width N).extractLsb' start w = BitVec.ofNat w (N / 2 ^ start) := by
  apply BitVec.eq_of_getLsbD_eq
  intro i hi
  have inside : start + i < width := by omega
  rw [BitVec.getLsbD_extractLsb', BitVec.getLsbD_ofNat, BitVec.getLsbD_ofNat, Nat.testBit_div_two_pow, Nat.add_comm i]
  simp [hi, inside]

end Fields

/-! ### The frame's parts (Table 10-1) -/

namespace Frame

variable (f : Frame)

/-- The sync pattern, then the number. -/
def openingBits : Nat := appendFields 0 [Config.syncPattern, f.number]

/-- The opening, then the 64 slots. -/
def slotBits : Nat := appendFields f.openingBits f.slots.cells

/-- The opening and the slots, then the four control words. -/
def wordBits : Nat := appendFields f.slotBits (f.words.cells.map ControlWord.toBits)

/-- A frame is sent as its opening, its slots and its control words. -/
theorem toBits_eq : f.toBits = BitVec.ofNat 2152 f.wordBits := by
  rw [wordBits, appendFields, List.foldl_map]
  rfl

/-- What is read above the control words is read in the opening and the slots. -/
theorem extract_above_words {w : Nat} (start : Nat) (within : 18 * 4 + start + w ≤ 2152) :
    f.toBits.extractLsb' (18 * 4 + start) w = BitVec.ofNat w (f.slotBits / 2 ^ start) := by
  have size : (f.words.cells.map ControlWord.toBits).length = 4 := (List.length_map _).trans f.words.size_eq
  rw [toBits_eq, extractLsb'_ofNat_within _ within, wordBits, appendFields_div_above _ size]

/-- What is read above the slots is read in the opening. -/
theorem extract_above_slots {w : Nat} (start : Nat) (within : 18 * 4 + (32 * 64 + start) + w ≤ 2152) :
    f.toBits.extractLsb' (18 * 4 + (32 * 64 + start)) w = BitVec.ofNat w (f.openingBits / 2 ^ start) := by
  rw [extract_above_words f _ within, slotBits, appendFields_div_above _ f.slots.size_eq]

/-- A frame as sent begins with the sync pattern. -/
theorem frameSync_toBits : frameSync f.toBits = Config.syncPattern :=
  (f.extract_above_slots (16 * 1) (by decide)).trans (appendFields_field 0 (i := 0) rfl)

/-- The frame number follows the sync pattern. -/
theorem extract_number : f.toBits.extractLsb' 2120 16 = f.number :=
  (f.extract_above_slots (16 * 0) (by decide)).trans (appendFields_field 0 (i := 1) rfl)

/-- Slot `i` has the slots up to 63 and the control words after it. -/
theorem extract_slot (i : Fin 64) : f.toBits.extractLsb' (2088 - 32 * i.val) 32 = f.slots.get i := by
  have place : 2088 - 32 * i.val = 18 * 4 + 32 * (63 - i.val) := by omega
  rw [place, f.extract_above_words _ (by omega)]
  exact appendFields_field f.openingBits (by rw [f.slots.size_eq]; omega)

/-- The control word at index `k` has the words up to index 3 after it. -/
theorem extract_word (k : Fin 4) : f.toBits.extractLsb' (54 - 18 * k.val) 18 = (f.words.get k).toBits := by
  have place : 54 - 18 * k.val = 18 * (3 - k.val) := by omega
  have size : (f.words.cells.map ControlWord.toBits).length = k.val + 1 + (3 - k.val) := by
    rw [List.length_map, f.words.size_eq]
    omega
  rw [place, toBits_eq, extractLsb'_ofNat_within _ (by omega)]
  exact (appendFields_field f.slotBits size).trans (List.getElem_map _)

/-- A frame reads back from its bits. -/
theorem ofBits_toBits : Frame.ofBits f.toBits = f := by
  have slots : (Frame.ofBits f.toBits).slots = f.slots :=
    Table.ext_get fun i => (Table.get_tabulate _ i).trans (f.extract_slot i)
  have words : (Frame.ofBits f.toBits).words = f.words := Table.ext_get fun k => by
    rw [Frame.ofBits, Table.get_tabulate, f.extract_word, ControlWord.ofBits_toBits]
  calc Frame.ofBits f.toBits
      = ⟨f.toBits.extractLsb' 2120 16, (Frame.ofBits f.toBits).slots, (Frame.ofBits f.toBits).words⟩ := rfl
    _ = ⟨f.number, f.slots, f.words⟩ := by rw [f.extract_number, slots, words]

end Frame

/-! ### The statement -/

/-- Settles O14: each field of a frame is read where it is written, and the sync pattern stands first. -/
theorem frameBitsRoundTrip : Obligations.FrameBitsRoundTrip :=
  fun f => ⟨f.ofBits_toBits, f.frameSync_toBits⟩

end Sys2Proof.Machine
end

section
/-! A hardware reset in force: what RESET_ASSERTED abandons, and that every command but the two of the reset itself then
does nothing (R190). -/

namespace Sys2Proof.Machine

/-! ### What stands still -/

section InForce

variable {s : State} (asleep : s.inReset = true)
include asleep

/-- TRUNK_OUT sends no frame while a hardware reset is in force. -/
theorem State.trunkOut_of_inReset : s.trunkOut = none := by
  rw [State.trunkOut, if_pos asleep]

/-- LINK_OK is low while a hardware reset is in force, whatever the receiver holds. -/
theorem State.linkOk_of_inReset : s.linkOk = false := by
  rw [State.linkOk, asleep, Bool.not_true, Bool.false_and]

/-- Inside a hardware reset a running command does nothing. -/
theorem running_of_inReset (f : State → State) : s.running f = .next s := by
  rw [running_eq_next, if_pos asleep]

end InForce

/-- Every command but the two of a hardware reset runs a function of the state outside a hardware reset only. -/
theorem exec_eq_running (c : Instr) (notEnd : ∀ straps, c ≠ .hardwareReset straps) (notStart : c ≠ .resetAsserted) :
    ∃ f, ∀ s, exec c s = s.running f := by
  cases c with
  | hardwareReset straps => exact absurd rfl (notEnd straps)
  | resetAsserted => exact absurd rfl notStart
  | _ => exact ⟨_, fun _ => rfl⟩

/-- RESET_ASSERTED leaves every zone IDLE. -/
theorem State.assertReset_zone_idle (s : State) (z : Zone) : (s.assertReset.zones.get z).state = .idle :=
  congrArg ZoneRecord.state (Table.get_fill resetZone z)

/-! ### The statement -/

/-- Settles O7: the state that RESET_ASSERTED leaves, field by field, then the two pins, then the commands, each of which runs
outside a hardware reset only. -/
theorem resetInForceTakesNothing : Obligations.ResetInForceTakesNothing := by
  refine ⟨fun s => ?abandons, fun c s asleep => ?silent⟩
  case abandons =>
    exact ⟨s.assertReset, rfl, rfl, rfl, s.calls.call?_nodeReset, s.assertReset_zone_idle, rfl, rfl, rfl, rfl, rfl, rfl⟩
  case silent =>
    refine ⟨State.trunkOut_of_inReset asleep, State.linkOk_of_inReset asleep, fun notEnd notStart => ?_⟩
    obtain ⟨f, runs⟩ := exec_eq_running c notEnd notStart
    rw [runs, running_of_inReset asleep]

end Sys2Proof.Machine
end

section
/-! The queue of commands, which the part never touches, and the next state that every command answers (logs 20, 25). -/

namespace Sys2Proof.Machine

/-! ### What a request leaves of the queue (R151) -/

/-- Every act of an owner leaves the queue of commands. -/
theorem OwnerAct.pending {r : Request} {s t : State} (act : OwnerAct r s t) : t.pending = s.pending := by
  cases act with
  | nothing | clears | configures => rfl
  | counts clear => cases clear <;> rfl
  | resets => exact s.nodeReset_pending
  | opens => unfold openCall; (repeat' split) <;> rfl
  | releases => unfold releaseCall; split <;> rfl
  | retargets => unfold retargetCall; (repeat' split) <;> rfl
  | restricts => unfold restrictZones; split <;> rfl
  | writes => unfold writePlan; (repeat' split) <;> rfl
  | erases => unfold erasePlan; (repeat' split) <;> rfl
  | seals => unfold sealPlan; (repeat' split) <;> rfl
  | unseals => unfold unsealPlan; (repeat' split) <;> rfl
  | copies => unfold copyPlan; split <;> rfl
  | switches => unfold switchPlan; (repeat' split) <;> rfl
  | acks => unfold ackNotices; split <;> rfl

/-- The request processor leaves the queue of commands, whatever it does with the oldest request. -/
theorem State.takeRequest_pending (s : State) (isKind : BitVec 8 → Bool) (kind : BitVec 8) :
    (s.takeRequest isKind (ownerOf kind)).pending = s.pending := by
  obtain idle | ⟨r, rest, -, -, -, ⟨a, -, replayed⟩ | ⟨-, executed⟩⟩ := takeRequest_cases s isKind (ownerOf kind)
  · rw [idle]
  · rw [replayed]
  · rw [executed]
    exact (ownerOf_act kind r (s.taken rest)).pending

/-! ### What a command leaves of the queue (log 25) -/

/-- Every operation leaves the queue of commands. -/
theorem kept_pending (queue : List Instr) : Kept fun s => s.pending = queue where
  due _ _ h := h
  resets _ _ h := h
  asserts s h := s.assertReset_pending.trans h
  finds _ _ _ h := h
  judges _ _ _ h := h
  opens s frame usable entered h := (s.openBoundary_pending frame usable entered).trans h
  locks s h := (s.notify_pending _).trans h
  searches s h := s.enterSearch_pending.trans h
  observes s h := s.observeStage_pending.trans h
  ramps s h := s.rampStage_pending.trans h
  controls s h := s.controlStage_pending.trans h
  sends s h := s.sendFrame_pending.trans h
  presences s k keyed h := (s.takePresence_pending k keyed).trans h
  keyUps s k h := (s.takeKeyUp_pending k).trans h
  keyDowns s k h := (s.takeKeyDown_pending k).trans h
  losses s src h := (s.takeLoss_pending src).trans h
  waits s r h := (s.takeDeadline_pending r _ _).trans h
  holds s r h := (s.takeDeadline_pending r _ _).trans h
  durations s r h := (s.takeDeadline_pending r _ _).trans h
  leadIns s z h := (s.takeLeadInEnd_pending z).trans h
  retries s h := s.takeRetryEnd_pending.trans h
  copySteps _ h := h
  copies s h := s.takeCopyEnd_pending.trans h
  fades s z l h := (s.takeFadeEnd_pending z l).trans h
  chimes s z h := (s.takeChimeEnd_pending z).trans h
  tones s g h := (s.takeToneEnd_pending g).trans h
  banks s _ _ h := s.switchBanks_pending.trans h
  switchZones s old h := (s.switchCalls_pending old).trans h
  begins s h := s.beginReply_pending.trans h
  notices s held h := (s.beginNotice_pending held).trans h
  requests s isKind kind h := (s.takeRequest_pending isKind kind).trans h

/-! ### The statement -/

/-- No command answers a fault or a refusal: the two of a hardware reset answer a state of their own, and every other one
runs a function of the state, or leaves the state while a hardware reset is in force (log 20, R190). -/
theorem exec_answers_next (c : Instr) (s : State) : ∃ t, exec c s = .next t := by
  cases c with
  | hardwareReset straps => exact ⟨{ State.afterReset straps with pending := s.pending }, rfl⟩
  | resetAsserted => exact ⟨s.assertReset, rfl⟩
  | _ => exact ⟨_, rfl⟩

/-- Settles O2: a next state is always answered, and every operation that a command is made of leaves the queue. -/
theorem everyCommandAnswersNext : Obligations.EveryCommandAnswersNext := by
  intro c s
  obtain ⟨t, answer⟩ := exec_answers_next c s
  exact ⟨t, answer, (kept_pending s.pending).exec c rfl answer⟩

end Sys2Proof.Machine
end
